-- ==== Sys2Proof/Word.lean ====
section
/-! DEFINITION. The word types of the block: bytes, byte strings, and the words a route tag and a flit header
are held in. Their plainest arithmetic is Lean's own on `BitVec`; field extraction and byte order are in
`Machine/Ops.lean`. -/

namespace Sys2Proof

/-- One byte. -/
abbrev Byte := BitVec 8

/-- A byte string, first byte first (the order in which a format of the manual lists it). -/
abbrev Bytes := List Byte

/-- A telemetry counter: 64 bits, wrapping (R29). -/
abbrev Count := BitVec 64

/-- A CKT sequence number: 32 bits, compared by serial-number arithmetic (R45). -/
abbrev Seq := BitVec 32

/-- A route tag (R16): one 256-bit word. -/
abbrev RouteTag := BitVec 256

/-- The 16-byte header of a flit as one 128-bit word (R155). -/
abbrev FlitHeader := BitVec 128

end Sys2Proof
end

