-- ==== Sys2Proof/Syntax.lean ====
section
/-! DEFINITION. The commands of the block: one constructor per row of spec/opcode_table.json, with the operands the
row's rule gives it. An operand is what comes from OUTSIDE the device at that instant (a frame, a flit, a register
value, a decoder's output, a level on a pin) or the name of the resource the row is about; everything the device
knows itself stays in `Machine.State`. -/

namespace Sys2Proof

/-- A serial link: one of the sixteen spoke links (R152) or the tandem link (R275). -/
inductive Link where
  | spoke (n : Fin 16)
  | tandem
deriving DecidableEq, Repr

/-- Where an Iawatal command came from (R304): a mailbox, or a command slot of an in-band admin session. -/
inductive Source where
  | mailbox (n : Fin 16)
  | inBand (slot : Nat)
deriving DecidableEq, Repr

/-- How a host read of the crank ended (R327). -/
inductive HostRead where
  | data (b : Bytes)
  | unsupportedRequest
  | completerAbort
  | timeout
  | poisoned
deriving DecidableEq, Repr

/-- The structure that holds a memory word with an error (R382). -/
inductive MemStruct where
  /-- a clean cached page -/
  | cleanPage
  /-- a dirty bucket page -/
  | dirtyBucket (b : Nat)
  /-- a dirty map page -/
  | dirtyMap (page : Nat)
  /-- the staging record of the write in that command slot -/
  | staging (slot : Nat)
  /-- a session context or a retained frame of that session -/
  | session (sn : Nat)
  /-- an on-die cache of a structure held in HBM -/
  | onDieCache
  | hubMemory
  | pannier
deriving DecidableEq, Repr

/-- What the far side, or the line, shows of a retrain (R158, R159). -/
inductive RetrainCause where
  /-- a LINK flit with LCODE RETRAIN -/
  | flit (hdr : FlitHeader)
  /-- the symbols of a received pair, lane by lane -/
  | pair (lanes : List (List Nat))
deriving DecidableEq, Repr

/-- The commands, in the order of spec/opcode_table.json. -/
inductive Instr where
  -- rim
  | receiveFrame (p : Fin 16) (sub : Fin 8) (frame : Bytes) (pcsErr : Bool)
  | pfcPauseRepeat (p : Fin 16) (sub : Fin 8) (c : Fin 8)
  | pfcPauseReceived (p : Fin 16) (sub : Fin 8) (enable : BitVec 8) (quanta : List (BitVec 16))
  | pauseQuantaExpire (p : Fin 16) (sub : Fin 8) (c : Fin 8)
  | pfcStorm (p : Fin 16) (sub : Fin 8) (c : Fin 8)
  | pfcStormEnd (p : Fin 16) (sub : Fin 8) (c : Fin 8)
  -- transport
  | cktFrameReceive (p : Fin 16)
  | openReq
  | openProof
  | halfOpenExpire (sn : Nat)
  | data (sn : Nat)
  | ack (sn : Nat)
  | nak (sn : Nat)
  | abort (sn : Nat)
  | reset (sn : Nat)
  | close (sn : Nat)
  | closeAck (sn : Nat)
  | responseFrameSend (sn : Nat)
  -- command engine
  | commandDispatch (slot : Nat)
  | get (slot : Nat)
  | getVersion (slot : Nat)
  | put (slot : Nat)
  | delete (slot : Nat)
  | flush (slot : Nat)
  | mpBegin (slot : Nat)
  | mpPart (slot : Nat)
  | mpCommit (slot : Nat)
  | mpAbandon (slot : Nat)
  | writeReservation (slot : Nat) (comparePass : Bool)
  | uploadExpire (uid : Nat)
  -- cells
  | cellArrival (cell : Nat) (flip : RouteTag) (disagree : Nat)
  | domainClockReady (d : Fin 84)
  -- key index and in-flight table
  | inflightSearchResult (slot : Nat)
  /-- a command slot, and whether the compare test that the check may start passes -/
  | shadowCheck (at_ : Nat × Bool)
  | indexLookup (slot : Nat)
  | keyRecordVerify (slot : Nat)
  | inflightRetire (ea : Nat)
  | camWriteResume
  | renormaliseStep
  | camSweep (bank : Fin 8) (comparePass : Bool)
  | bankEntryMove (bank : Fin 8)
  | camBankReconfigured (bank : Fin 8)
  | bucketPageWriteback (b : Nat)
  -- cipher
  | keyPageFetch (page : Nat)
  | counterReservationDone (page : Nat) (side : Fin 2)
  | tagFailReread (slot : Nat) (bodies : List Bytes)
  -- links
  | linkTrainingAttemptEnd (l : Link)
  | pairMarkerTimeout (l : Link)
  | ident (l : Link) (hdr : FlitHeader) (payload : Bytes)
  | creditInit (l : Link) (hdr : FlitHeader) (payload : Bytes)
  | retryReq (l : Link) (hdr : FlitHeader)
  | retryReqRepeat (l : Link)
  /-- a link, and what is seen on it -/
  | retrain (at_ : Link × RetrainCause)
  /-- the flit's header, and the codewords corrected with it -/
  | idleFlit (l : Link) (flit : FlitHeader × Nat)
  | dataIn (n : Fin 16) (hdr : FlitHeader) (payload : Bytes)
  | status (n : Fin 16) (hdr : FlitHeader) (payload : Bytes)
  | spkPrsntNFall (n : Fin 16)
  | sledInsertDebounce (n : Fin 16)
  | spkPrsntNRise (n : Fin 16)
  | surpriseRemoval (n : Fin 16)
  | slotReseat (n : Fin 16)
  | spkAlertNFall (n : Fin 16)
  | bridgeOpTimeout (n : Fin 16) (opid : BitVec 12)
  -- error correction
  | hardDecodeDone (rd : Nat) (cw : Bytes)
  | softDecodeDone (rd : Nat) (cw : Bytes)
  /-- a truing of the spoke -/
  | truingRead (n : Fin 16) (t : Nat)
  /-- a read of a codeword of the spoke, as in the next one -/
  | dieXorRebuild (n : Fin 16) (rd : Nat)
  | rsRebuild (n : Fin 16) (rd : Nat)
  -- redundancy and media
  | stripeClose (st : Nat)
  | parityBufferWait
  | stripeJournalFlashWrite
  | journalFlush
  | checkpoint
  | fold (n : Fin 16)
  | gcPass (n : Fin 16)
  | sourceErase (blk : Nat)
  /-- the block and the codeword in it that patrol reads next -/
  | patrol (n : Fin 16) (blk cw : Nat)
  | rekeySweep (tenant : Nat) (bodies : List Bytes)
  | derailleurHalving
  | derailleurOverride
  /-- the band the rebuild of the slot is at -/
  | rebuildBand (n : Fin 16) (band : Nat)
  | lostValueSweep
  | metadataTagScan
  -- tandem
  | tandemStateFlit (hdr : FlitHeader) (payload : Bytes)
  | tandemValueFlit (hdr : FlitHeader) (payload : Bytes)
  | held (hdr : FlitHeader) (payload : Bytes)
  | joinProof (hdr : FlitHeader) (payload : Bytes)
  | joinProofTimeout
  | joinRetry
  | heartbeat (hdr : FlitHeader) (payload : Bytes)
  | heartbeatSend
  | peerAliveOutToggle
  | peerAliveInEdge
  | linkPathSilence
  | pinPathSilence
  | takeoverTimer
  | fenceDone (value : Byte) (pecGood : Bool)
  | fenceWaitExpire
  | resign (hdr : FlitHeader) (payload : Bytes)
  | resynchronisation (ns : Nat) (bodies : List Bytes)
  | handoverDrainTimeout
  -- time, rates
  | rtcTick
  | trimWindow
  | opTimeSave
  | thermalStepRise (tj : BitVec 16)
  | thermalStepFall (tj : BitVec 16)
  | vcoreStep (demand : Nat)
  -- mailboxes and Iawatal
  | mbGoWrite (n : Fin 16)
  | mbDoneClear (n : Fin 16)
  /-- a mailbox, and whether GO is written in the cycle of the take (R8) -/
  | mailboxTake (at_ : Fin 16 × Bool)
  | jobEnd (job : Nat) (failed : Nat)
  | identify (src : Source)
  | jobStatus (src : Source)
  | jobCancel (src : Source)
  | deviceReset (src : Source)
  | selfTest (src : Source)
  | health (src : Source)
  | nsCreate (src : Source)
  | nsDelete (src : Source)
  | nsSetState (src : Source)
  | nsSetQuota (src : Source)
  | nsQuery (src : Source)
  | nsList (src : Source)
  | tenantCreate (src : Source)
  | tenantSet (src : Source)
  | tenantRotate (src : Source)
  | tenantRetireGen (src : Source)
  | tenantDelete (src : Source)
  | tenantQuery (src : Source)
  | spokeQuery (src : Source)
  | poolFormat (src : Source)
  | spokeRemove (src : Source)
  | portMode (src : Source)
  | submacSet (src : Source)
  | pfcSet (src : Source)
  | cktPort (src : Source)
  | takeoverMap (src : Source)
  | policySet (src : Source)
  | policyGet (src : Source)
  | bucketSet (src : Source)
  | camMode (src : Source)
  | tandemQuery (src : Source)
  | handover (src : Source)
  | failback (src : Source)
  | pairSecret (src : Source)
  | counters (src : Source)
  | loopStatus (src : Source)
  | llrTable (src : Source)
  | eventRead (src : Source)
  | eventPolicy (src : Source)
  | powerEnter (src : Source)
  | alarmSet (src : Source)
  | fwDownload (src : Source)
  | fwCommit (src : Source)
  | fwActivate (src : Source)
  | fwQuery (src : Source)
  -- PCIe, rings, crank
  | perstN
  | functionLevelReset
  | sqKick (q : Fin 256)
  | sqEnable (q : Fin 256)
  | sqDisable (q : Fin 256)
  | cqEnableWrite (q : Fin 256) (value : BitVec 32)
  | cqHeadWrite (q : Fin 256) (value : BitVec 32)
  | ringPollTick (g : Fin 16)
  | sqEntryRead (q : Fin 256) (entries : List Bytes)
  | ringAdmission
  | ringAbort (q : Fin 256)
  | dmaReadDone (slot : Nat) (r : HostRead)
  | flushingReadDone (slot : Nat) (ok : Bool)
  | completionPost (q : Fin 256)
  | cqIrqDelay (q : Fin 256)
  | crankEndOfCount (c : Fin 32)
  | actCountRead (c : Fin 32)
  -- power
  | idleEntry
  | sleepDomainQuiesced
  | sleepDomainTimeout (mediaFault : Bool)
  | powerBackoffExpire
  | wakeComplete (badBanks : List Nat) (absent : BitVec 16)
  | pfailNFall
  | dumpComplete
  | pfailNRise
  -- start-up
  | porNFall
  | porNRise (paired side : Bool) (smbAddr : BitVec 2) (dbgEn : Bool)
  | bootStepComplete (mask : BitVec 128)
  | bootStepTimeout
  | activationStepComplete (ok : Bool)
  | activationDrainTimeout
  -- safety
  | lockstepDivergence
  | clockFault (d : Fin 84)
  | supplyFault (rail : Fin 9)
  | junctionOverLimit (tj : BitVec 16)
  | memoryCorrectableError (w : MemStruct)
  | memoryUncorrectableError (w : MemStruct)
  | faultInjection (flagged : Bool)
  | hbmScrubPass
  -- event recorder
  | eventAccept
  | eventFlushUnit (programOk : Bool)
  | eventLossReport
  -- registers
  | alertStatusClear (value : BitVec 32) (hwSet : BitVec 8)
  | alertMaskWrite (value : BitVec 32)
  | rtcSetWrite (offset : Nat) (value : BitVec 64) (size : Nat)
  | rtcSubRead
  | alarmCtrlWrite (offset : Nat) (value : BitVec 64) (size : Nat)
  | registerWrite (offset : Nat) (value : Bytes)
  | smbStatus
  | smbDeviceState
  | smbBootStep
  | smbPowerState
  | smbTemperature
  | smbKsCause
  | smbFailStep
  | jtagInstruction (pinControl : Bool) (drive : List (Nat × Bool))
  /-- a link, and the codewords found uncorrectable with the flit -/
  | flitFcrcFailure (at_ : Link × Nat)
  | vddAonApplied
  | gratuitousArpRepeat
  | rimLinksDown
  | trstNLow
deriving DecidableEq, Repr

end Sys2Proof
end

