-- ==== Sys2Proof/Decode.lean ====
section
/-! DEFINITION. The command a word spells. The block's commands are events at its interfaces, not encoded
instructions: no row of the opcode table gives a bit, so no word spells a command. The wire formats the commands
carry are read in `Machine/Operands.lean`. -/

namespace Sys2Proof

/-- The command that a word spells by the table's bits: none, as the table gives no row any bits. -/
def decodeTableWord (_nbits _w : Nat) : Option Instr := none

end Sys2Proof
end

