-- ==== Sys2Proof/Config.lean ====
section
/-! DEFINITION. What one implementation fixes, and the free values: constants without a body, so that nothing in Lean
knows a value of them and a statement about them holds for every value (log entry 3). -/

namespace Sys2Proof.Config

/-- FREE VALUE. The n-th byte the device's random generator gives (R57, R97, R136, R275, R45). -/
opaque freeByte : Nat → Byte

/-- FREE VALUE. Which of the pairs a retry may use the scheduler chooses (R130: otherwise not defined). -/
opaque retryPair : Nat → Nat

/-- FREE VALUE. Units of work that one cluster's queue has space for (R23): the manual gives no number. -/
opaque clusterQueue : Nat

/-- FREE VALUE. The die group of a new spoke band (R241, R242: the dies of a band are not fixed beyond R241). -/
opaque dieOf : Nat → Nat → Nat

/-- FREE VALUE. The image that a slot of the firmware flash holds as manufactured (R362): the manual gives none. -/
opaque factoryImage : Nat → Bytes

/-- FREE VALUE. The version of each copy of the resident loader (R362, R377). -/
opaque loaderVersion : Nat → Nat

/-- FREE VALUE. How much of a mailbox's command, or of a job, is done at a cycle (R307, R314): the manual gives no measure. -/
opaque progress : Nat → Nat → Nat

/-- FREE VALUE. DEPTH of the device-wide bucket of thermal rate stepping (R300): the manual gives its rate alone. -/
opaque thermalDepth : Nat

/-- FREE VALUE. Bytes that one record of the map journal takes in its ring and on flash (R202): the manual gives no layout. -/
opaque recordSize : Nat

/-- FREE VALUE. Byte i of journal page n (R202, R205): the manual gives no layout. -/
opaque journalByte : Nat → Nat → Byte

/-- FREE VALUE. By how much the natural logarithm of a / b that R226 evaluates is off, in units of 2^-16; the rule bounds it
by 1/64, and `Machine.lnOff` holds it to that. -/
opaque lnError : Nat → Nat → Int

end Sys2Proof.Config
end

