-- ==== Sys2Proof/Machine/Crypto.lean ====
section
/-! DEFINITION. The checksums and the cryptographic functions of the external standards that R2 names. The manual
gives the CRCs' parameters itself (R3, R17, R43, R249); the algorithms of FIPS 180-4, FIPS 197, SP 800-38B/D/F,
FIPS 198-1, FIPS 186-5 and SipHash-2-4 are PRESUMED from those standards (log entry 4). -/

namespace Sys2Proof.Machine

/-! ### Byte order -/

/-- A number as `n` bytes, least significant first (R5: little-endian formats). -/
def leBytes : Nat → Nat → Bytes
  | 0, _ => []
  | n + 1, v => BitVec.ofNat 8 v :: leBytes n (v / 256)

/-- A number as `n` bytes, most significant first (R5: big-endian formats). -/
def beBytes (n v : Nat) : Bytes := (leBytes n v).reverse

/-- The number a little-endian byte string spells. -/
def leNat : Bytes → Nat
  | [] => 0
  | b :: bs => b.toNat + 256 * leNat bs

/-- The number a big-endian byte string spells. -/
def beNat (b : Bytes) : Nat := leNat b.reverse

/-- `len` bytes of `b` from `off`, with zeros past its end. -/
def slice (b : Bytes) (off len : Nat) : Bytes :=
  let t := (b.drop off).take len
  t ++ List.replicate (len - t.length) 0

/-- The little-endian and the big-endian field of `len` bytes at `off`. -/
def leAt (b : Bytes) (off len : Nat) : Nat := leNat (slice b off len)
def beAt (b : Bytes) (off len : Nat) : Nat := beNat (slice b off len)

def xorBytes (a b : Bytes) : Bytes := List.zipWith (fun x y => x ^^^ y) a b

/-- Zero bytes up to the next multiple of `m`. -/
def padTo (m : Nat) (b : Bytes) : Bytes := b ++ List.replicate ((m - b.length % m) % m) 0

/-! ### CRCs -/

/-- One bit of a reflected CRC. -/
def crcStep {w : Nat} (poly : BitVec w) (c : BitVec w) : BitVec w :=
  if c.getLsbD 0 then (c >>> 1) ^^^ poly else c >>> 1

def crcByte {w : Nat} (poly : BitVec w) (c : BitVec w) (b : Byte) : BitVec w :=
  Nat.repeat (crcStep poly) 8 (c ^^^ b.zeroExtend w)

/-- CRC-32C of R43. -/
def crc32c (b : Bytes) : BitVec 32 := ~~~ (b.foldl (crcByte 0x82F63B78#32) (BitVec.allOnes 32))

/-- The Ethernet frame check sequence of IEEE 802.3 (R2). -/
def crc32Fcs (b : Bytes) : BitVec 32 := ~~~ (b.foldl (crcByte 0xEDB88320#32) (BitVec.allOnes 32))

/-- CRC-64 of the check field (R249): ECMA-182, reflected, all ones in and out. -/
def crc64 (b : Bytes) : BitVec 64 := ~~~ (b.foldl (crcByte 0xC96C5795D7870F42#64) (BitVec.allOnes 64))

def crc16Step (c : BitVec 16) : BitVec 16 :=
  if c.getMsbD 0 then (c <<< 1) ^^^ 0x1021#16 else c <<< 1

def crc16Byte (c : BitVec 16) (b : Byte) : BitVec 16 :=
  Nat.repeat crc16Step 8 (c ^^^ ((b.zeroExtend 16) <<< 8))

/-- CRC-16 of R2, R17 and R322: polynomial 0x1021, initial value 0xFFFF, most significant bit first. -/
def crc16 (b : Bytes) : BitVec 16 := b.foldl crc16Byte 0xFFFF#16

/-! ### SHA-2 and HMAC -/

/-- The first `n` primes' roots are constants of FIPS 180-4. -/
def sha256K : List (BitVec 32) := [
  0x428a2f98#32, 0x71374491#32, 0xb5c0fbcf#32, 0xe9b5dba5#32, 0x3956c25b#32, 0x59f111f1#32, 0x923f82a4#32, 0xab1c5ed5#32,
  0xd807aa98#32, 0x12835b01#32, 0x243185be#32, 0x550c7dc3#32, 0x72be5d74#32, 0x80deb1fe#32, 0x9bdc06a7#32, 0xc19bf174#32,
  0xe49b69c1#32, 0xefbe4786#32, 0x0fc19dc6#32, 0x240ca1cc#32, 0x2de92c6f#32, 0x4a7484aa#32, 0x5cb0a9dc#32, 0x76f988da#32,
  0x983e5152#32, 0xa831c66d#32, 0xb00327c8#32, 0xbf597fc7#32, 0xc6e00bf3#32, 0xd5a79147#32, 0x06ca6351#32, 0x14292967#32] ++ [
  0x27b70a85#32, 0x2e1b2138#32, 0x4d2c6dfc#32, 0x53380d13#32, 0x650a7354#32, 0x766a0abb#32, 0x81c2c92e#32, 0x92722c85#32,
  0xa2bfe8a1#32, 0xa81a664b#32, 0xc24b8b70#32, 0xc76c51a3#32, 0xd192e819#32, 0xd6990624#32, 0xf40e3585#32, 0x106aa070#32,
  0x19a4c116#32, 0x1e376c08#32, 0x2748774c#32, 0x34b0bcb5#32, 0x391c0cb3#32, 0x4ed8aa4a#32, 0x5b9cca4f#32, 0x682e6ff3#32,
  0x748f82ee#32, 0x78a5636f#32, 0x84c87814#32, 0x8cc70208#32, 0x90befffa#32, 0xa4506ceb#32, 0xbef9a3f7#32, 0xc67178f2#32]

def sha512K : List (BitVec 64) := [
  0x428a2f98d728ae22#64, 0x7137449123ef65cd#64, 0xb5c0fbcfec4d3b2f#64, 0xe9b5dba58189dbbc#64, 0x3956c25bf348b538#64,
  0x59f111f1b605d019#64, 0x923f82a4af194f9b#64, 0xab1c5ed5da6d8118#64, 0xd807aa98a3030242#64, 0x12835b0145706fbe#64,
  0x243185be4ee4b28c#64, 0x550c7dc3d5ffb4e2#64, 0x72be5d74f27b896f#64, 0x80deb1fe3b1696b1#64, 0x9bdc06a725c71235#64,
  0xc19bf174cf692694#64, 0xe49b69c19ef14ad2#64, 0xefbe4786384f25e3#64, 0x0fc19dc68b8cd5b5#64, 0x240ca1cc77ac9c65#64,
  0x2de92c6f592b0275#64, 0x4a7484aa6ea6e483#64, 0x5cb0a9dcbd41fbd4#64, 0x76f988da831153b5#64, 0x983e5152ee66dfab#64,
  0xa831c66d2db43210#64, 0xb00327c898fb213f#64, 0xbf597fc7beef0ee4#64, 0xc6e00bf33da88fc2#64, 0xd5a79147930aa725#64,
  0x06ca6351e003826f#64, 0x142929670a0e6e70#64, 0x27b70a8546d22ffc#64, 0x2e1b21385c26c926#64, 0x4d2c6dfc5ac42aed#64,
  0x53380d139d95b3df#64, 0x650a73548baf63de#64, 0x766a0abb3c77b2a8#64, 0x81c2c92e47edaee6#64, 0x92722c851482353b#64] ++ [
  0xa2bfe8a14cf10364#64, 0xa81a664bbc423001#64, 0xc24b8b70d0f89791#64, 0xc76c51a30654be30#64, 0xd192e819d6ef5218#64,
  0xd69906245565a910#64, 0xf40e35855771202a#64, 0x106aa07032bbd1b8#64, 0x19a4c116b8d2d0c8#64, 0x1e376c085141ab53#64,
  0x2748774cdf8eeb99#64, 0x34b0bcb5e19b48a8#64, 0x391c0cb3c5c95a63#64, 0x4ed8aa4ae3418acb#64, 0x5b9cca4f7763e373#64,
  0x682e6ff3d6b2b8a3#64, 0x748f82ee5defb2fc#64, 0x78a5636f43172f60#64, 0x84c87814a1f0ab72#64, 0x8cc702081a6439ec#64,
  0x90befffa23631e28#64, 0xa4506cebde82bde9#64, 0xbef9a3f7b2c67915#64, 0xc67178f2e372532b#64, 0xca273eceea26619c#64,
  0xd186b8c721c0c207#64, 0xeada7dd6cde0eb1e#64, 0xf57d4f7fee6ed178#64, 0x06f067aa72176fba#64, 0x0a637dc5a2c898a6#64,
  0x113f9804bef90dae#64, 0x1b710b35131c471b#64, 0x28db77f523047d84#64, 0x32caab7b40c72493#64, 0x3c9ebe0a15c9bebc#64,
  0x431d67c49c100d4c#64, 0x4cc5d4becb3e42b6#64, 0x597f299cfc657e2a#64, 0x5fcb6fab3ad6faec#64, 0x6c44198c4a475817#64]

/-- The rotation amounts that tell SHA-256 from SHA-512. -/
structure ShaRot where
  (a1 a2 a3 e1 e2 e3 s1 s2 s3 t1 t2 t3 : Nat)

def rot256 : ShaRot := ⟨2, 13, 22, 6, 11, 25, 7, 18, 3, 17, 19, 10⟩
def rot512 : ShaRot := ⟨28, 34, 39, 14, 18, 41, 1, 8, 7, 19, 61, 6⟩

/-- Message schedule: the last 16 words (newest first) give the next. -/
def shaSched {w : Nat} (r : ShaRot) : Nat → List (BitVec w) → List (BitVec w)
  | 0, ws => ws
  | n + 1, ws =>
    let x2 := ws.getD 1 0
    let x15 := ws.getD 14 0
    let s0 := x15.rotateRight r.s1 ^^^ x15.rotateRight r.s2 ^^^ (x15 >>> r.s3)
    let s1 := x2.rotateRight r.t1 ^^^ x2.rotateRight r.t2 ^^^ (x2 >>> r.t3)
    shaSched r n ((s1 + ws.getD 6 0 + s0 + ws.getD 15 0) :: ws)

def shaRound {w : Nat} (r : ShaRot) (h : List (BitVec w)) (kw : BitVec w × BitVec w) : List (BitVec w) :=
  match h with
  | [a, b, c, d, e, f, g, hh] =>
    let t1 := hh + (e.rotateRight r.e1 ^^^ e.rotateRight r.e2 ^^^ e.rotateRight r.e3)
      + ((e &&& f) ^^^ (~~~ e &&& g)) + kw.1 + kw.2
    let t2 := (a.rotateRight r.a1 ^^^ a.rotateRight r.a2 ^^^ a.rotateRight r.a3)
      + ((a &&& b) ^^^ (a &&& c) ^^^ (b &&& c))
    [t1 + t2, a, b, c, d + t1, e, f, g]
  | _ => h

def shaBlock {w : Nat} (r : ShaRot) (ks : List (BitVec w)) (h : List (BitVec w)) (blk : Bytes) : List (BitVec w) :=
  let ws0 := (List.range 16).map fun i => BitVec.ofNat w (beAt blk (i * (w / 8)) (w / 8))
  let ws := (shaSched r (ks.length - 16) ws0.reverse).reverse
  List.zipWith (· + ·) h ((ks.zip ws).foldl (shaRound r) h)

/-- Cut into blocks of `n` bytes. -/
def chunks (n : Nat) : Nat → Bytes → List Bytes
  | 0, _ => []
  | fuel + 1, b => if b.isEmpty then [] else b.take n :: chunks n fuel (b.drop n)

/-- A list in groups of `n`, with fuel. -/
def groupsOf {α : Type} (n : Nat) : Nat → List α → List (List α)
  | 0, _ => []
  | k + 1, l => if l.isEmpty then [] else l.take n :: groupsOf n k (l.drop n)

def blocksOf (n : Nat) (b : Bytes) : List Bytes := chunks n (b.length / n + 1) b

def shaPad (block lenBytes : Nat) (m : Bytes) : Bytes :=
  let z := (block - (m.length + 1 + lenBytes) % block) % block
  m ++ [0x80#8] ++ List.replicate z 0 ++ beBytes lenBytes (8 * m.length)

def sha256 (m : Bytes) : Bytes :=
  let h0 : List (BitVec 32) := [0x6a09e667#32, 0xbb67ae85#32, 0x3c6ef372#32, 0xa54ff53a#32, 0x510e527f#32, 0x9b05688c#32,
    0x1f83d9ab#32, 0x5be0cd19#32]
  ((blocksOf 64 (shaPad 64 8 m)).foldl (shaBlock rot256 sha256K) h0).flatMap fun x => beBytes 4 x.toNat

/-- SHA-384 (R2, R365). -/
def sha384 (m : Bytes) : Bytes :=
  let h0 : List (BitVec 64) := [0xcbbb9d5dc1059ed8#64, 0x629a292a367cd507#64, 0x9159015a3070dd17#64, 0x152fecd8f70e5939#64,
    0x67332667ffc00b31#64, 0x8eb44a8768581511#64, 0xdb0c2e0d64f98fa7#64, 0x47b5481dbefa4fa4#64]
  (((blocksOf 128 (shaPad 128 16 m)).foldl (shaBlock rot512 sha512K) h0).flatMap fun x => beBytes 8 x.toNat).take 48

/-- HMAC-SHA-256 (R2, R57). -/
def hmac256 (key m : Bytes) : Bytes :=
  let k := if key.length > 64 then sha256 key else key
  let k := k ++ List.replicate (64 - k.length) 0
  sha256 (k.map (· ^^^ 0x5c#8) ++ sha256 (k.map (· ^^^ 0x36#8) ++ m))

/-! ### SipHash-2-4 with 128-bit output (R97) -/

def sipRound (v : BitVec 64 × BitVec 64 × BitVec 64 × BitVec 64) : BitVec 64 × BitVec 64 × BitVec 64 × BitVec 64 :=
  let (v0, v1, v2, v3) := v
  let v0 := v0 + v1
  let v1 := v1.rotateLeft 13 ^^^ v0
  let v0 := v0.rotateLeft 32
  let v2 := v2 + v3
  let v3 := v3.rotateLeft 16 ^^^ v2
  let v0 := v0 + v3
  let v3 := v3.rotateLeft 21 ^^^ v0
  let v2 := v2 + v1
  let v1 := v1.rotateLeft 17 ^^^ v2
  let v2 := v2.rotateLeft 32
  (v0, v1, v2, v3)

def sipAbsorb (v : BitVec 64 × BitVec 64 × BitVec 64 × BitVec 64) (m : BitVec 64) :
    BitVec 64 × BitVec 64 × BitVec 64 × BitVec 64 :=
  let (v0, v1, v2, v3) := v
  let (v0, v1, v2, v3) := Nat.repeat sipRound 2 (v0, v1, v2, v3 ^^^ m)
  (v0 ^^^ m, v1, v2, v3)

/-- The keyed digest, its 16 output bytes read as one little-endian number (R97). -/
def sipHash128 (key m : Bytes) : BitVec 128 :=
  let k0 := BitVec.ofNat 64 (leAt key 0 8)
  let k1 := BitVec.ofNat 64 (leAt key 8 8)
  let full := (List.range (m.length / 8)).map fun i => BitVec.ofNat 64 (leAt m (8 * i) 8)
  let tail := m.drop (8 * (m.length / 8))
  let last := BitVec.ofNat 64 (leNat tail + 2 ^ 56 * (m.length % 256))
  let v := (k0 ^^^ 0x736f6d6570736575#64, (k1 ^^^ 0x646f72616e646f6d#64) ^^^ 0xee#64, k0 ^^^ 0x6c7967656e657261#64,
    k1 ^^^ 0x7465646279746573#64)
  let (v0, v1, v2, v3) := (full ++ [last]).foldl sipAbsorb v
  let (v0, v1, v2, v3) := Nat.repeat sipRound 4 (v0, v1, v2 ^^^ 0xee#64, v3)
  let a := v0 ^^^ v1 ^^^ v2 ^^^ v3
  let (v0, v1, v2, v3) := Nat.repeat sipRound 4 (v0, v1 ^^^ 0xdd#64, v2, v3)
  (v0 ^^^ v1 ^^^ v2 ^^^ v3) ++ a

/-! ### AES-256 -/

def gfx (a : Byte) : Byte := if a.getMsbD 0 then (a <<< 1) ^^^ 0x1b#8 else a <<< 1

/-- Multiplication in the AES field. -/
def gfmul (a b : Byte) : Byte :=
  ((List.range 8).foldl (fun (acc : Byte × Byte) i =>
    (if b.getLsbD i then acc.1 ^^^ acc.2 else acc.1, gfx acc.2)) (0, a)).1

/-- Inverse in the AES field, as the 254th power. -/
def gfinv (a : Byte) : Byte :=
  let a2 := gfmul a a
  let a4 := gfmul a2 a2
  let a8 := gfmul a4 a4
  let a16 := gfmul a8 a8
  let a32 := gfmul a16 a16
  let a64 := gfmul a32 a32
  let a128 := gfmul a64 a64
  gfmul a128 (gfmul a64 (gfmul a32 (gfmul a16 (gfmul a8 (gfmul a4 a2)))))

def sbox (a : Byte) : Byte :=
  let b := gfinv a
  b ^^^ b.rotateLeft 1 ^^^ b.rotateLeft 2 ^^^ b.rotateLeft 3 ^^^ b.rotateLeft 4 ^^^ 0x63#8

def invSbox (a : Byte) : Byte :=
  gfinv (a.rotateLeft 1 ^^^ a.rotateLeft 3 ^^^ a.rotateLeft 6 ^^^ 0x05#8)

/-- The key schedule: words newest first. -/
def aesExpand : Nat → List Bytes → List Bytes
  | 0, ws => ws
  | n + 1, ws =>
    let i := ws.length
    let prev := ws.headD []
    let t :=
      if i % 8 = 0 then
        let r := (prev.drop 1 ++ prev.take 1).map sbox
        xorBytes r [Nat.repeat gfx (i / 8 - 1) 1#8, 0, 0, 0]
      else if i % 8 = 4 then prev.map sbox else prev
    aesExpand n (xorBytes (ws.getD 7 []) t :: ws)

/-- The 15 round keys of a 32-byte key. -/
def aesKeys (key : Bytes) : List Bytes :=
  let ws := (aesExpand 52 (blocksOf 4 (slice key 0 32)).reverse).reverse
  (List.range 15).map fun r => ((ws.drop (4 * r)).take 4).flatten

def shiftRows (s : Bytes) : Bytes := (List.range 16).map fun i => s.getD ((i + 4 * (i % 4)) % 16) 0
def invShiftRows (s : Bytes) : Bytes := (List.range 16).map fun i => s.getD ((i + 16 - 4 * (i % 4)) % 16) 0

/-- MixColumns with the row `(a, b, c, d)` of its matrix. -/
def mixWith (a b c d : Byte) (s : Bytes) : Bytes :=
  (List.range 16).map fun i =>
    let col := 4 * (i / 4)
    let at_ := fun j => s.getD (col + (i + j) % 4) 0
    gfmul a (at_ 0) ^^^ gfmul b (at_ 1) ^^^ gfmul c (at_ 2) ^^^ gfmul d (at_ 3)

def aesEncWith (ks : List Bytes) (blk : Bytes) : Bytes :=
  let s := xorBytes blk (ks.getD 0 [])
  let s := (List.range 13).foldl (fun s r =>
    xorBytes (mixWith 2#8 3#8 1#8 1#8 (shiftRows (s.map sbox))) (ks.getD (r + 1) [])) s
  xorBytes (shiftRows (s.map sbox)) (ks.getD 14 [])

def aesDecWith (ks : List Bytes) (blk : Bytes) : Bytes :=
  let s := (invShiftRows (xorBytes blk (ks.getD 14 []))).map invSbox
  let s := (List.range 13).foldl (fun s r =>
    (invShiftRows (mixWith 0x0e#8 0x0b#8 0x0d#8 0x09#8 (xorBytes s (ks.getD (13 - r) [])))).map invSbox) s
  xorBytes s (ks.getD 0 [])

def aesEnc (key blk : Bytes) : Bytes := aesEncWith (aesKeys key) blk
def aesDec (key blk : Bytes) : Bytes := aesDecWith (aesKeys key) blk

/-! ### GCM (SP 800-38D) with a 96-bit IV -/

/-- Multiplication in the GHASH field; a block is the big-endian number of its 16 bytes. -/
def ghashMul (x y : BitVec 128) : BitVec 128 :=
  ((List.range 128).foldl (fun (acc : BitVec 128 × BitVec 128) i =>
    (if x.getMsbD i then acc.1 ^^^ acc.2 else acc.1,
     if acc.2.getLsbD 0 then (acc.2 >>> 1) ^^^ (0xE1#128 <<< 120) else acc.2 >>> 1)) (0, y)).1

def ghash (h : BitVec 128) (b : Bytes) : BitVec 128 :=
  (blocksOf 16 b).foldl (fun y blk => ghashMul (y ^^^ BitVec.ofNat 128 (beNat (slice blk 0 16))) h) 0

/-- Keystream block `n` after J0 (R137: plaintext block i uses inc32^(i+1)(J0)). -/
def ctrBlock (ks : List Bytes) (iv : Bytes) (n : Nat) : Bytes :=
  aesEncWith ks (slice iv 0 12 ++ beBytes 4 ((n + 1) % 2 ^ 32))

/-- Counter-mode XOR of the bytes that begin at block `start` of the plaintext. -/
def ctrXor (key iv : Bytes) (start : Nat) (b : Bytes) : Bytes :=
  let ks := aesKeys key
  ((List.range (b.length / 16 + 1)).zip (blocksOf 16 b)).flatMap fun p =>
    xorBytes p.2 (ctrBlock ks iv (start + p.1 + 1))

/-- The 16-byte tag over AAD and ciphertext. -/
def gcmTag (key iv aad ct : Bytes) : Bytes :=
  let ks := aesKeys key
  let h := BitVec.ofNat 128 (beNat (aesEncWith ks (List.replicate 16 0)))
  let s := ghash h (padTo 16 aad ++ padTo 16 ct ++ beBytes 8 (8 * aad.length) ++ beBytes 8 (8 * ct.length))
  xorBytes (beBytes 16 s.toNat) (ctrBlock ks iv 0)

/-! ### CMAC (SP 800-38B), key wrap (SP 800-38F KW) and XTS (IEEE 1619) -/

def cmacDouble (x : BitVec 128) : BitVec 128 :=
  if x.getMsbD 0 then (x <<< 1) ^^^ 0x87#128 else x <<< 1

def aesCmac (key m : Bytes) : Bytes :=
  let ks := aesKeys key
  let k1 := cmacDouble (BitVec.ofNat 128 (beNat (aesEncWith ks (List.replicate 16 0))))
  let k2 := cmacDouble k1
  let n := (m.length + 15) / 16
  let full := m.length ≠ 0 ∧ m.length % 16 = 0
  let body := m.take (16 * (n - 1))
  let lastB := m.drop (16 * (n - 1))
  let last := if full then xorBytes lastB (beBytes 16 k1.toNat)
    else xorBytes (slice (lastB ++ [0x80#8]) 0 16) (beBytes 16 k2.toNat)
  (blocksOf 16 body ++ [last]).foldl (fun c blk => aesEncWith ks (xorBytes c blk)) (List.replicate 16 0)

/-- One wrapping step: A and the registers, with step number t. -/
def kwStep (ks : List Bytes) (st : Bytes × List Bytes) (t : Nat) : Bytes × List Bytes :=
  match st.2 with
  | [] => st
  | r :: rs =>
    let b := aesEncWith ks (st.1 ++ r)
    (xorBytes (b.take 8) (beBytes 8 t), rs ++ [b.drop 8])

def aesWrap (kek p : Bytes) : Bytes :=
  let ks := aesKeys kek
  let rs := blocksOf 8 p
  let st := (List.range (6 * rs.length)).foldl (fun st i => kwStep ks st (i + 1)) (List.replicate 8 0xA6#8, rs)
  st.1 ++ st.2.flatten

def kwUnstep (ks : List Bytes) (st : Bytes × List Bytes) (t : Nat) : Bytes × List Bytes :=
  match st.2.reverse with
  | [] => st
  | r :: rs =>
    let b := aesDecWith ks (xorBytes st.1 (beBytes 8 t) ++ r)
    (b.take 8, b.drop 8 :: rs.reverse)

/-- Unwrap; none when the integrity value is wrong. -/
def aesUnwrap (kek c : Bytes) : Option Bytes :=
  let ks := aesKeys kek
  let rs := blocksOf 8 (c.drop 8)
  let n := 6 * rs.length
  let st := (List.range n).foldl (fun st i => kwUnstep ks st (n - i)) (c.take 8, rs)
  if st.1 = List.replicate 8 0xA6#8 then some st.2.flatten else none

/-- Multiplication of an XTS tweak by x. -/
def xtsDouble (t : BitVec 128) : BitVec 128 :=
  if t.getMsbD 0 then (t <<< 1) ^^^ 0x87#128 else t <<< 1

/-- XTS-AES-256 over whole blocks with the tweak of R133: page class in bits 127:64, logical number in bits 63:0. -/
def xtsEnc (k1 k2 : Bytes) (cls num : Nat) (b : Bytes) : Bytes :=
  let ks := aesKeys k1
  let t0 := BitVec.ofNat 128 (leNat (aesEnc k2 (leBytes 8 num ++ leBytes 8 cls)))
  ((blocksOf 16 b).foldl (fun (acc : BitVec 128 × Bytes) blk =>
    let t := leBytes 16 acc.1.toNat
    (xtsDouble acc.1, acc.2 ++ xorBytes (aesEncWith ks (xorBytes blk t)) t)) (t0, [])).2

/-- XTS-AES-256 decryption, with the same tweak. -/
def xtsDec (k1 k2 : Bytes) (cls num : Nat) (b : Bytes) : Bytes :=
  let ks := aesKeys k1
  let t0 := BitVec.ofNat 128 (leNat (aesEnc k2 (leBytes 8 num ++ leBytes 8 cls)))
  ((blocksOf 16 b).foldl (fun (acc : BitVec 128 × Bytes) blk =>
    let t := leBytes 16 acc.1.toNat
    (xtsDouble acc.1, acc.2 ++ xorBytes (aesDecWith ks (xorBytes blk t)) t)) (t0, [])).2

/-! ### ECDSA over P-384 (FIPS 186-5, R365) -/

def p384p : Nat := 2 ^ 384 - 2 ^ 128 - 2 ^ 96 + 2 ^ 32 - 1
def p384n : Nat := 0xffffffffffffffffffffffffffffffffffffffffffffffffc7634d81f4372ddf581a0db248b0a77aecec196accc52973
def p384b : Nat := 0xb3312fa7e23ee7e4988e056be3f82d19181d9c6efe8141120314088f5013875ac656398d8a2ed19d2a85c8edd3ec2aef
def p384g : Nat × Nat :=
  (0xaa87ca22be8b05378eb1c71ef320ad746e1d3b628ba79b9859f741e082542a385502f25dbf55296c3a545e3872760ab7,
   0x3617de4a96262c6f5d9e98bf9292dc29f8f41dbd289a147ce9da3113b5f0b8c00a60b1ce1d7e819d7a431d7c90ea0e5f)

/-- a ^ e mod m, by the bits of e. -/
def powMod (m a e : Nat) : Nat :=
  (((List.range 384).reverse).foldl (fun acc i => let sq := acc * acc % m; if e.testBit i then sq * a % m else sq) 1)

def invMod (m a : Nat) : Nat := powMod m (a % m) (m - 2)

/-- Addition on the curve; none is the point at infinity. -/
def ecAdd (a b : Option (Nat × Nat)) : Option (Nat × Nat) :=
  match a, b with
  | none, x => x
  | x, none => x
  | some (x1, y1), some (x2, y2) =>
    let p := p384p
    if x1 = x2 ∧ (y1 + y2) % p = 0 then none
    else
      let l := if x1 = x2 then (3 * x1 * x1 + (p - 3)) * invMod p (2 * y1) % p
        else (y2 + p - y1) * invMod p (x2 + p - x1) % p
      let x3 := (l * l + 2 * p - x1 - x2) % p
      some (x3, (l * (x1 + p - x3) + p - y1) % p)

def ecMul (k : Nat) (q : Option (Nat × Nat)) : Option (Nat × Nat) :=
  ((List.range 384).reverse).foldl (fun acc i => let d := ecAdd acc acc; if k.testBit i then ecAdd d q else d) none

/-- An uncompressed point (0x04, X, Y) and a signature (r, s), each big-endian (R365). -/
def ecdsaVerify (pub sig hash : Bytes) : Bool :=
  let x := beAt pub 1 48
  let y := beAt pub 49 48
  let r := beAt sig 0 48
  let s := beAt sig 48 48
  let onCurve := (y * y + 3 * x) % p384p = (x * x * x + p384b) % p384p
  if pub.headD 0 = 0x04#8 ∧ x < p384p ∧ y < p384p ∧ onCurve ∧ 0 < r ∧ r < p384n ∧ 0 < s ∧ s < p384n then
    let w := invMod p384n s
    match ecAdd (ecMul (beNat hash * w % p384n) (some p384g)) (ecMul (r * w % p384n) (some (x, y))) with
    | none => false
    | some (px, _) => px % p384n = r
  else false

end Sys2Proof.Machine
end

