-- ==== Sys2Proof/Machine/State.lean ====
section
/-! DEFINITION. The state of the block, as plain data: every register, table, queue, counter, mode and pin the manual
gives the device, grouped by the subsystem of R14 that owns it, and the queue of waiting commands. The docstring above
a field, or above the group it opens, names its rule; INVENTORY.md lists every field with its width, its rule and its
reset value. The value after `:=` is its value at reset (log entry 1 says which of them the manual states and which
the model names). Widths that the manual gives as a field of a register image are kept as numbers below that width;
register images are built by `Machine/Regs.lean`.
-/

namespace Sys2Proof.Machine

/-- A sparse table by number, keys strictly rising; a number that is not listed holds the default its reader names
(the reset value of such an entry). -/
abbrev Tbl (α : Type) := List (Nat × α)

/-! ### Codes -/

/-- The device states of R92. -/
inductive DevState where
  | booting | run | activating | draining | freewheelEntry | kickstand | recovery
deriving DecidableEq, Repr

/-- The power states of R343. -/
inductive PwrState where
  | run | idle | rest | freewheel | off
deriving DecidableEq, Repr

/-- The tag states of R80. -/
inductive TagState where
  | idle | queued | active | committing | completing
deriving DecidableEq, Repr

/-! ### What leaves the device -/

/-- The way back to a client: the sub-MAC its frame came in on, its addresses, and the VLAN and class of that frame
(R32). -/
structure Egress where
  port : Nat := 0
  sub : Nat := 0
  dstMac : Bytes := []
  dstIp : Bytes := []
  dstPort : Nat := 0
  vlan : Option Nat := none
  cls : Nat := 0
  /-- the frame came to an address that the sub-MAC has adopted from the partner (R284) -/
  adopted : Bool := false
deriving DecidableEq, Repr

/-- What the device gave to the outside, in order: the only place where an observer sees it. -/
inductive Output where
  /-- A whole Ethernet frame with its FCS leaves a sub-MAC (R32). -/
  | frame (port sub : Nat) (bytes : Bytes)
  /-- A PFC frame: pause with these quanta for one class (R35). -/
  | pfc (port sub cls quanta : Nat)
  /-- A flit leaves a spoke link or the tandem link (R155). -/
  | flit (l : Link) (hdr : FlitHeader) (payload : Bytes)
  /-- A pair of codewords leaves a spoke link or the tandem link: the symbols of each lane, in order (R152, R153, R275). -/
  | pair (l : Link) (lanes : List (List Nat))
  /-- An MSI-X vector is sent (R406). -/
  | msix (v : Nat)
  /-- A write packet to host memory, and whether it has Relaxed Ordering; never No Snoop (R331, R341). -/
  | hostWrite (addr : Nat) (bytes : Bytes) (relaxed : Bool)
  /-- A read request to host memory (R326, R331, R333, R341). -/
  | hostRead (addr len : Nat)
  /-- The value a register read returned (R296, R339). -/
  | mmio (v : BitVec 64)
  /-- The value an SMBus read returned (R424). -/
  | smbus (code : Nat) (v : Nat)
deriving DecidableEq, Repr

/-! ### Event recorder (R392-R403) -/

/-- An event waiting in the recorder's input queue (R395). -/
structure Ev where
  code : Nat := 0
  sev : Nat := 0
  src : Nat := 0xFFFF
  payload : Bytes := []
  /-- the fabric cycle in which it was raised (R395: events of one cycle queue by subsystem nibble) -/
  at_ : Nat := 0
deriving DecidableEq, Repr

/-- An accepted record (R392). -/
structure EvRec where
  seq : Nat := 0
  time : BitVec 64 := 0
  powerCycles : Nat := 0
  code : Nat := 0
  sev : Nat := 0
  devState : Nat := 0
  src : Nat := 0
  payload : Bytes := []
deriving DecidableEq, Repr

structure EvtSt where
  /-- Input queue, at most 256 entries. R395. -/
  inq : List Ev := []
  /-- Next sequence to be accepted, 64 bits; 0 until step 13 of the ladder (EVT_NEXT_SEQ). R394, R408. -/
  nextSeq : Nat := 0
  /-- Persisted ceiling of the sequence, 64 bits: the first record after manufacture is 1. R394. -/
  ceiling : Nat := 1
  /-- On-chip buffer, 65,536 records by slot number. R396. -/
  buf : Tbl EvRec := []
  /-- First sequence not yet flushed to the flash log. R398. -/
  flushed : Nat := 1
  /-- The sequence up to which a severity 6 or 7 record asked for a flush. R398. -/
  flushTo : Nat := 0
  /-- A 75 % flush is running (until fewer than 16,384 remain). R398. -/
  flushing : Bool := false
  /-- The flash log, at most 16,777,216 records, oldest first. R398. -/
  log : List EvRec := []
  /-- Records below this sequence have left the log and EVENT_READ by an erase. R401. -/
  eraseBase : Nat := 0
  /-- POLICY: false STOP_WHEN_FULL, true SEVERITY_OVERWRITE. R401. -/
  overwrite : Bool := true
  /-- KEEP_SEV, 1-7. R401. -/
  keepSev : Nat := 5
  /-- MIN_SEV, 0-6. R401. -/
  minSev : Nat := 0
  /-- 0xD002 has been raised: the last segment takes severities 6 and 7 only. R399. -/
  reserveInUse : Bool := false
  /-- QUEUE_LOST, 64 bits. R395, R403. -/
  queueLost : Count := 0
  /-- OVERRUN, 64 bits. R396, R403. -/
  overrun : Count := 0
  /-- DROPPED_FULL, 64 bits. R399, R400, R403. -/
  droppedFull : Count := 0
  /-- The sum of the loss counters at the last 0xD001, and the cycle it was raised in. R403. -/
  lossSeen : Nat := 0
  lossAt : Option Nat := none
deriving DecidableEq, Repr

/-! ### Rim (R26-R39, R431) -/

/-- Settings of one sub-MAC (R27, R431). -/
structure SubCfg where
  mac : Bytes := []
  ipv4 : Bytes := [0, 0, 0, 0]
  ipv6 : Bytes := List.replicate 16 0
  /-- eight VLAN entries, 0 unused -/
  vlans : List Nat := []
  untagged : Bool := true
  mtu : Nat := 9216
  dfltClass : Nat := 0
deriving DecidableEq, Repr

/-- PFC parameters of one class of one sub-MAC, in KiB (R33). -/
structure PfcCfg where
  enabled : Bool := false
  xoff : Nat := 128
  xon : Nat := 64
  headroom : Nat := 128
deriving DecidableEq, Repr

/-- A frame waiting for its class to be allowed to send (R36): a CKT datagram, or a frame the firmware built whole. -/
structure TxFrame where
  eg : Egress := {}
  payload : Bytes := []
  /-- a firmware frame without its padding and FCS; empty for a CKT datagram. R31. -/
  raw : Bytes := []
deriving DecidableEq, Repr

/-- The running pause state of one class of one sub-MAC (R33-R36). -/
structure PfcRun where
  /-- bytes of the class in the port's ingress buffer -/
  occ : Nat := 0
  /-- the device is sending pause for the class (above XOFF, not yet below XON) -/
  pausing : Bool := false
  /-- the partner's pause is in force -/
  held : Bool := false
  /-- quanta of the last pause received -/
  quanta : Nat := 0
  /-- pause is not honoured after a storm -/
  storm : Bool := false
  /-- frames held back by the pause, oldest first -/
  heldFrames : List TxFrame := []
deriving DecidableEq, Repr

/-- A CKT datagram in the ingress buffer of a port (R30). -/
structure RxDgram where
  eg : Egress := {}
  ecn : Nat := 0
  size : Nat := 0
  payload : Bytes := []
deriving DecidableEq, Repr

structure RimSt where
  /-- Port mode: sub-MACs of the port, 1, 2, 4 or 8; unlisted 1 (1 x 800G). R26, R431. -/
  mode : Tbl Nat := []
  /-- Settings last set for sub-MAC p x 8 + s; unlisted: the factory values. R431. -/
  cfg : Tbl SubCfg := []
  /-- PFC parameters by (p x 8 + s) x 8 + class; unlisted: the defaults. R33. -/
  pfcCfg : Tbl PfcCfg := []
  /-- PFC running state by (p x 8 + s) x 8 + class. R35, R36. -/
  pfc : Tbl PfcRun := []
  /-- The 21 counters of COUNTERS group 1, by (p x 8 + s) x 32 + place in R315; 64 bits each. R29. -/
  cnt : Tbl Count := []
  /-- CKT datagrams in the ports' ingress buffers, oldest first (2 MiB a port). R30, R33. -/
  ingress : List RxDgram := []
  /-- The slow-path queue toward the hub, at most 1,024 frames. R31. -/
  slowq : List (Nat × Bytes) := []
  /-- The cycle and port of each slow-path admission of the last second. R31, R433. -/
  slowTimes : List (Nat × Nat) := []
  /-- CKT UDP port, 16 bits. R30, CKT_PORT of R314. -/
  cktPort : Nat := 46220
  /-- The rim links serve frames (from step 13 of R367; down in FREEWHEEL and after RIM_LINKS_DOWN). R367, R386. -/
  up : Bool := false
deriving DecidableEq, Repr

/-! ### Transport (R40-R63) -/

/-- The CKT header as parsed (R41). -/
structure CktHdr where
  version : Nat := 1
  type : Nat := 0
  session : Nat := 0
  cookie : Nat := 0
  seq : Seq := 0
  ack : Seq := 0
  sackOff : Nat := 0xFFFF
  credit : Nat := 0
  tag : Nat := 0
  opcode : Nat := 0
  ordered : Bool := false
  final : Bool := false
  sealed : Bool := false
  trailer : Bool := false
  ece : Bool := false
  payloadLen : Nat := 0
deriving DecidableEq, Repr

/-- A frame the transport engine has accepted and that waits for its step (R46). -/
structure RxFrame where
  hdr : CktHdr := {}
  payload : Bytes := []
  eg : Egress := {}
  /-- an open that came marked CE. R55. -/
  ce : Bool := false
deriving DecidableEq, Repr

/-- A response frame that waits for credit, room and a sequence number (R52, R54). -/
structure RespFrame where
  tag : Nat := 0
  opcode : Nat := 0
  ordered : Bool := false
  final : Bool := false
  trailer : Bool := false
  payload : Bytes := []
  eg : Egress := {}
  /-- a NOTICE of the device's own: it belongs to no tag. R83. -/
  notice : Bool := false
deriving DecidableEq, Repr

/-- A retained response frame (R52). -/
structure Retained where
  seq : Seq := 0
  frame : RespFrame := {}
deriving DecidableEq, Repr

/-- One session tag (R80-R82). -/
structure TagCtx where
  st : TagState := .idle
  opcode : Nat := 0
  /-- the command slot, once one is taken -/
  slot : Option Nat := none
  /-- the command's frame with FINAL has been received -/
  gotFinal : Bool := false
  /-- the response's last frame has been sent -/
  sentFinal : Bool := false
  /-- frames of a refused command are being discarded up to its FINAL (R81) -/
  refusing : Bool := false
  /-- command bytes received before the head is complete -/
  buf : Bytes := []
  ordered : Bool := false
  /-- place of the command's first frame in the order of arrival of the device -/
  order : Nat := 0
  /-- the command runs on past a reset or CLOSE and sends no completion. R62, R88. -/
  silent : Bool := false
  /-- the way back of the command's first frame -/
  eg : Egress := {}
  /-- a write that passed its commit point, with its namespace and version, kept while COMPLETING. R95, R280. -/
  committed : Bool := false
  ns : Nat := 0
  version : Nat := 0
  /-- its completion cell is on its way to the transport engine, and the bytes that its last frames carry. R20. -/
  due : Bool := false
  out : Bytes := []
deriving DecidableEq, Repr

/-- An open session (R56-R62). -/
structure Session where
  tenant : Nat := 0
  admin : Bool := false
  sealed : Bool := false
  eg : Egress := {}
  /-- 32 bits, never 0. R57. -/
  cookie : Nat := 0
  clientInit : Seq := 0
  deviceInit : Seq := 0
  clientNonce : Bytes := []
  deviceNonce : Bytes := []
  /-- the PROOF and the source of the open, so that a repeated OPEN_REQ or OPEN_PROOF receives the same answer. R56. -/
  proof : Bytes := []
  openEg : Egress := {}
  /-- client sequence processed next. R46. -/
  rxNext : Seq := 0
  /-- accepted frames not yet processed: those in order and the early ones. R46. -/
  store : List RxFrame := []
  /-- edge advertised last. R53. -/
  edge : Seq := 0
  /-- sequence-consuming frames since the last acknowledgement. R49. -/
  sinceAck : Nat := 0
  /-- a CE mark is to be reflected in the next frame. R55. -/
  ece : Bool := false
  /-- next device sequence. R45. -/
  txNext : Seq := 0
  /-- sequence-consuming frames accepted from the client and sent to it, 64 bits: E of R148. -/
  recvCount : Nat := 0
  sentCount : Nat := 0
  /-- the client's ACK and CREDIT of the latest frame. R54. -/
  peerAck : Seq := 0
  peerCredit : Nat := 0
  retained : List Retained := []
  respq : List RespFrame := []
  tags : Tbl TagCtx := []
  /-- cycle of the last accepted frame. R60. -/
  lastAt : Nat := 0
  /-- a CLOSE has been processed. R62. -/
  closing : Bool := false
  /-- SEQ of a RESET still to be answered, and its TAG_MAP. R88. -/
  resetting : Option Nat := none
  tagMap : BitVec 32 := 0
  /-- the client tags whose held command a restart ended (R90): RESET_DONE is owed at the next frame. -/
  owesReset : Bool := false
  /-- that RESET_DONE is on its way: no frame is processed before it has been sent. R90. -/
  afterReset : Bool := false
  /-- wire keys of a sealed session. R147. -/
  sealC : Bytes := []
  sealD : Bytes := []
  /-- the session that owns those keys. R147. -/
  keyOwner : Nat := 0
  /-- the submission ring the session belongs to. R321. -/
  ring : Option Nat := none
  /-- SEQ_TOP, the ceiling of the device sequence space in a pair. R280. -/
  seqTop : Seq := 0
  /-- the last client sequence whose deltas the partner has acknowledged. R280. -/
  mirrored : Seq := 0
deriving DecidableEq, Repr

/-- A half-open entry (R58). -/
structure HalfOpen where
  tenant : Nat := 0
  options : Nat := 0
  eg : Egress := {}
  clientInit : Seq := 0
  credit : Nat := 0
  clientNonce : Bytes := []
  deviceNonce : Bytes := []
  at_ : Nat := 0
deriving DecidableEq, Repr

structure XptSt where
  /-- Open sessions by number, at most 2,097,152 (1,048,576 a side in a pair). R59, R273. -/
  sessions : Tbl Session := []
  /-- Half-open entries by session number, at most 65,536. R58. -/
  half : Tbl HalfOpen := []
  /-- Session numbers freed and waiting at the tail of the free list. R60. -/
  freed : List Nat := []
  /-- Lowest session number never used since start (the head part of the free list). R60. -/
  fresh : Nat := 0
  /-- Accepted OPEN_REQ and OPEN_PROOF frames waiting for the hub, oldest first. R56. -/
  opens : List RxFrame := []
  /-- Accepted ACK and NAK frames waiting for their step, oldest first. R48, R51. -/
  ctl : List RxFrame := []
  /-- The 13 counters of COUNTERS group 2, in the order of R315; 64 bits each. R44. -/
  cnt : Tbl Count := []
  /-- Cycles of the GONE frames of the last second. R61, R433. -/
  goneTimes : List Nat := []
deriving DecidableEq, Repr

/-! ### Command engine (R64-R96) -/

/-- The command head (R66), or the same fields of a submission entry (R325). -/
structure Head where
  ns : Nat := 0
  keyLen : Nat := 0
  cond : Nat := 0
  valueLen : Nat := 0
  expect : Nat := 0
  uploadId : Nat := 0
  partGrain : Nat := 0
  reservedZero : Bool := true
deriving DecidableEq, Repr

/-- The seal and layout of one extent that a GET reads (R137, R138, R176). -/
structure Extent where
  /-- 1 single value, 2 part, 3 commit record -/
  kind : Nat := 1
  iv : Bytes := []
  gen : Nat := 0
  tagv : Bytes := []
  /-- first value grain and count of grains -/
  first : Nat := 0
  grains : Nat := 0
  /-- 16-byte blocks of the padded key record before grain 0 of the extent -/
  kr : Nat := 0
  /-- ciphertext of the key record, and of the part table in clear (AAD) -/
  keyCt : Bytes := []
  partTable : Bytes := []
  valueLen : Nat := 0
  /-- BIND of R137 -/
  bind : Nat := 0
  /-- LGA of the extent's first grain -/
  lga : Nat := 0
  /-- its key record has been decrypted; the GCM verdict has been given. R144. -/
  keyDone : Bool := false
  verdict : Bool := false
  /-- its tag has failed -/
  failed : Bool := false
  /-- what a later part has left of a part: its tag covers grains that are no longer there. R76, R177. -/
  torn : Bool := false
deriving DecidableEq, Repr

/-- What a dispatched command is waiting for. -/
inductive Phase where
  /-- the command is being received, or waits for dispatch -/
  | queued
  /-- dispatched; its own row starts it -/
  | started
  /-- handed on: the cell that carries it is on its way to the next engine (R15) -/
  | handed
  /-- an M0 search is in the table; the entries excluded so far (R122) and whether it is SETTLED (R123) -/
  | searching (excl : List Nat) (settled : Bool)
  /-- waiting for the shadow check (R123), with the write sequence at its SETTLED search -/
  | shadow (excl : List Nat) (since : Nat)
  /-- the index lookup of R108 is to run -/
  | lookup
  /-- the candidates whose key records are still to be verified -/
  | verifying (cands : List (Nat × Nat))
  /-- the value is being read and streamed -/
  | streaming
  /-- a write waits for its reservation (R120) or for a free entry (R125) -/
  | reserving
  /-- a write past its commit point -/
  | committed
  /-- an Iawatal command in the hub's executor -/
  | hub
  /-- a ring command whose key, table or data the crank still reads (R326) -/
  | fetching
  /-- its status is known, but no frame of its session can be sent: it stays ACTIVE (R52) -/
  | held
  /-- final status fixed -/
  | done
deriving DecidableEq, Repr

/-- A grain of a value that is being streamed by a GET: where it has got to. -/
structure GrainSt where
  grain : Nat := 0
  /-- ciphertext body as read, 4,112 bytes -/
  body : Bytes := []
  /-- none: not yet verified; some true: check field good; some false: failed (R143) -/
  cf : Option Bool := none
  /-- the grain could not be read or rebuilt -/
  lost : Bool := false
deriving DecidableEq, Repr

/-- A command slot (R91). -/
structure Cmd where
  session : Nat := 0
  tag : Nat := 0
  opcode : Nat := 0
  ordered : Bool := false
  tenant : Nat := 0
  head : Head := {}
  key : Bytes := []
  value : Bytes := []
  eg : Egress := {}
  /-- place in the order of arrival. R84. -/
  order : Nat := 0
  phase : Phase := .queued
  /-- in-flight entry reserved for the write, or hit by the GET -/
  entry : Option Nat := none
  /-- staging record written or read -/
  stage : Option Nat := none
  /-- value descriptor found: bucket, slot -/
  desc : Option (Nat × Nat) := none
  /-- version of the value read, written or found. R72. -/
  version : Nat := 0
  /-- stored value bytes found -/
  foundLen : Nat := 0
  extents : List Extent := []
  grains : List GrainSt := []
  /-- value bytes already put into response frames -/
  sent : Nat := 0
  /-- grains released to the rim, in order. R144. -/
  outGrain : Nat := 0
  /-- bytes of the response that do not fill a frame yet -/
  out : Bytes := []
  /-- first failing grain by check field, by tag, and by loss, once found. R70. -/
  cfFail : Option Nat := none
  tagFail : Option Nat := none
  lostGrain : Option Nat := none
  /-- extents whose GCM tag has verified -/
  tagsOk : Nat := 0
  /-- the single re-read of R146 has been made -/
  reread : Bool := false
  /-- gear chosen at the commit point. R187. -/
  gear : Nat := 1
  /-- ring command: CID, slot of its entry, value buffer address and INDIRECT, fragment list, bytes written -/
  cid : Nat := 0
  entryIx : Nat := 0
  keyAddr : Nat := 0
  dataAddr : Nat := 0
  fragCount : Nat := 0
  frags : Option (List (Nat × Nat)) := none
  ring : Option Nat := none
  written : Nat := 0
  lastAddr : Nat := 0
  /-- bodies of the candidate's head and part-table grains, by place, once read; none: could not be read or rebuilt -/
  headIn : Tbl (Option Bytes) := []
  /-- The route tag as the command engine wrote it: its ten fields never change. R19. -/
  rt : RouteTag := 0
  /-- STATUS fixed: status, GCM_RESULT, CF_RESULT, DETAIL, VERSION. R69. -/
  result : Option (Nat × Nat × Nat × Nat × Nat) := none
deriving DecidableEq, Repr

/-- A part received by an upload (R76). -/
structure Part where
  grain : Nat := 0
  grains : Nat := 0
  bytes : Nat := 0
  sealv : Bytes := []
  /-- write sequence of its commit point. R180. -/
  order : Nat := 0
  /-- its MP_PART has completed -/
  complete : Bool := false
  /-- staging record of the part -/
  stage : Nat := 0
deriving DecidableEq, Repr

/-- An open upload (R75-R78). -/
structure Upload where
  tenant : Nat := 0
  ns : Nat := 0
  key : Bytes := []
  total : Nat := 0
  /-- first LGA of the data run. R177. -/
  dataLga : Nat := 0
  parts : List Part := []
  /-- seconds-clock cycle of the last part or commit -/
  lastAt : Nat := 0
deriving DecidableEq, Repr

structure CmdSt where
  /-- Command slots in use, by number, at most 524,288. R91. -/
  slots : Tbl Cmd := []
  /-- Count of first frames received, the order of R84. -/
  order : Nat := 0
  /-- Open uploads by UPLOAD_ID, at most 65,536. R78. -/
  uploads : Tbl Upload := []
  /-- Last UPLOAD_ID given. R75. -/
  uploadSeq : Nat := 0
deriving DecidableEq, Repr

/-! ### Token buckets (R291-R293) -/

structure Bucket where
  /-- TOKENS, signed 40 bits -/
  tokens : Int := 549755813887
  /-- FRAC, 8 bits -/
  frac : Nat := 0
  /-- RATE, 32 bits -/
  rate : Nat := 0xFFFFFFFF
  /-- DEPTH, 40 bits -/
  depth : Nat := 549755813887
  enabled : Bool := false
  /-- refill interval at which TOKENS was written last. R292. -/
  at_ : Nat := 0
deriving DecidableEq, Repr

/-! ### Namespaces and tenants -/

structure Namespace where
  tenant : Nat := 0
  k : Nat := 1
  m : Nat := 1
  mirrored : Bool := false
  homeSide : Nat := 0
  /-- the side that serves it. R272. -/
  ownerSide : Nat := 0
  vbr : Bool := false
  byteQuota : Nat := 0
  keyQuota : Nat := 0
  /-- value bytes held, with the parts of open uploads. R94. -/
  bytes : Nat := 0
  keys : Nat := 0
  /-- 128-bit SipHash key, 16 bytes; empty until the ladder has unwrapped it. R97. -/
  sipKey : Bytes := []
  /-- that key wrapped under the KEK, as the namespace record on flash holds it. R97. -/
  wrappedSip : Bytes := []
  /-- set OFFLINE by NS_SET_STATE or NS_DELETE. R314. -/
  offline : Bool := false
  /-- OFFLINE because a key page is unreadable (R135) or metadata is being rebuilt (R262). -/
  keyOffline : Bool := false
  metaOffline : Bool := false
  deleting : Bool := false
  /-- READ_ONLY because the tenant's key page is exhausted. R141. -/
  exhausted : Bool := false
  /-- READ_ONLY by a capacity emergency on a member spoke. R193. -/
  capEmerg : Bool := false
  /-- the mirror of the namespace is STALE. R287. -/
  stale : Bool := false
  /-- redundancy state last shown: 0x41 ONLINE, 0x42 DEGRADED, 0x43 CRITICAL, 0x44 REBUILDING. R261. -/
  shown : Nat := 0x41
  /-- state code of R92 last seen, for bit 2 of ALERT_STATUS. R410. -/
  seen : Nat := 0x41
  prefixLen : Nat := 8
  directMin : Nat := 1048576
  pinnedGear : Nat := 0xFF
  stripeClose : Nat := 200
  soloPolicy : Nat := 0
  bucket : Bucket := {}
deriving DecidableEq, Repr

structure Tenant where
  adminPermit : Bool := false
  disabled : Bool := false
  bucket : Bucket := {}
deriving DecidableEq, Repr

/-! ### Key index and in-flight table (R97-R126) -/

/-- A slot of a bucket page (R103). -/
structure BSlot where
  ns : Nat := 0
  keyLen : Nat := 0
  lost : Bool := false
  multipart : Bool := false
  digest : BitVec 128 := 0
  version : Nat := 0
  valueLen : Nat := 0
  /-- VALUE_LOC, 64 bits. R175. -/
  loc : Nat := 0
deriving DecidableEq, Repr

/-- A directory entry with its bucket page (R99, R102). -/
structure DirEnt where
  /-- PAGE_LOC, 48 bits -/
  pageLoc : Nat := 0
  /-- PENDING, 12 bits -/
  pending : Nat := 0
  /-- SPILL, 2 bits -/
  spill : Nat := 0
  dirty : Bool := false
  cached : Bool := false
  /-- fingerprints by slot 0-39; unlisted 0x00 -/
  fp : Tbl Byte := []
  /-- the page: occupied slots 0-39 -/
  slots : Tbl BSlot := []
  /-- PAGE_SEQ of the page's last write -/
  pageSeq : Nat := 0
  /-- the page on flash (MAGIC, BUCKET or PAGE_CRC) is unreadable. R104. -/
  unreadable : Bool := false
deriving DecidableEq, Repr

/-- A CAM entry with its side fields (R111, R112). -/
structure CamEntry where
  /-- the compared word, 160 bits -/
  word : BitVec 160 := 0
  /-- the second copy of a wide entry -/
  copy : BitVec 160 := 0
  shadow : BitVec 160 := 0
  rank : Nat := 0
  version : Nat := 0
  slot : Nat := 0
  stage : Nat := 0
deriving DecidableEq, Repr

/-- A CAM bank (R110, R119, R124). -/
structure Bank where
  wide : Bool := false
  /-- out of service after a failed compare test -/
  out : Bool := false
  /-- draining toward this mode (true wide) -/
  drain : Option Bool := none
  /-- being reconfigured to this mode -/
  reconf : Option Bool := none
  /-- a mode ordered while the bank is being reconfigured -/
  after : Option Bool := none
deriving DecidableEq, Repr

/-- A staging record (R112, R121): key bytes, reserved bucket slot, ciphertext. -/
structure Stage where
  ns : Nat := 0
  tenant : Nat := 0
  key : Bytes := []
  /-- 1 PUT, 2 DELETE, 3 MP_COMMIT (R111), 4 a part -/
  kind : Nat := 1
  version : Nat := 0
  valueLen : Nat := 0
  /-- reserved bucket and slot. R105. -/
  home : Nat := 0
  bslot : Nat × Nat := (0, 0)
  gear : Nat := 1
  /-- head LGA, or the part's first LGA -/
  lga : Nat := 0
  /-- ciphertext of the key record and of each grain, as they come from the cluster -/
  keyCt : Bytes := []
  grains : Tbl Bytes := []
  /-- number of grains the extent will have -/
  count : Nat := 0
  sealIv : Bytes := []
  sealGen : Nat := 0
  sealTag : Bytes := []
  encrypted : Bool := false
  /-- every grain and record of the write is on the medium. R382. -/
  medium : Bool := false
  /-- write completion of R252 reached -/
  complete : Bool := false
  retired : Bool := false
  readers : Nat := 0
  /-- owning command slot -/
  slot : Nat := 0
  upload : Nat := 0
  partTable : Bytes := []
  digest : BitVec 128 := 0
  /-- a part: its first grain, and the write sequence of its commit point. R180. -/
  partGrain : Nat := 0
  order : Nat := 0
  /-- where each position of the run is: stripe, and whether its data unit returned STATUS OK. R252. -/
  placed : Tbl (Nat × Bool) := []
  /-- DATA_LGA of a commit record. R177. -/
  dataLga : Nat := 0
  /-- the parts that a commit record's table names. R177, R252. -/
  parts : List Part := []
  /-- a mirrored write of the partner's. R279. -/
  mirror : Bool := false
  /-- its re-read has failed too: the value is lost. R146. -/
  lost : Bool := false
deriving DecidableEq, Repr

structure IdxSt where
  /-- Directory entries by bucket, 2^30. R99. -/
  dir : Tbl DirEnt := []
  /-- Keys that have a value, in the device. R106. -/
  keys : Nat := 0
  /-- CAM entries by entry address (bank in bits 15:13). R110. -/
  cam : Tbl CamEntry := []
  /-- The eight banks; unlisted: narrow, in service. R110. -/
  banks : Tbl Bank := []
  /-- Mask registers M5-M7, loaded by the hub, 160 bits each. R113. -/
  masks : Tbl (BitVec 160) := []
  /-- NEXT, 24 bits. R116. -/
  next : Nat := 0
  /-- The renormaliser's walk: the new RANK it gives next. R116. -/
  renorm : Option Nat := none
  /-- 0x5006 has been raised for the present renormalisation. R116. -/
  renormHeld : Bool := false
  /-- Writes waiting for a free entry, in arrival order. R125. -/
  waiters : List Nat := []
  /-- The table is full (0x5004). R125. -/
  full : Bool := false
  /-- CAM_FULL, 64 bits. R125. -/
  camFull : Count := 0
  /-- The lookup whose shadow check is running, and those waiting, in arrival order. R123. -/
  shadowq : List Nat := []
  /-- HBM staging records by STAGE_REF. R112. -/
  stages : Tbl Stage := []
  /-- Next STAGE_REF. -/
  stageSeq : Nat := 0
  /-- Bucket cache: pages in the order of their last use, at most 1,048,576. R100. -/
  lru : List Nat := []
deriving DecidableEq, Repr

/-! ### Cipher cluster (R127-R151) -/

/-- A generation slot of a key page (R132). -/
structure GenSlot where
  gen : Nat := 0
  wrapped : Bytes := []
deriving DecidableEq, Repr

/-- A key page (R132). -/
structure KeyPage where
  owner : Nat := 0
  /-- 0 free, 1 active, 2 rotation due, 3 exhausted -/
  state : Nat := 0
  genCur : Nat := 0
  ctr0 : Nat := 0
  ctr1 : Nat := 0
  top0 : Nat := 0
  top1 : Nat := 0
  gens : List GenSlot := []
  wrappedAccess : Bytes := []
  mac : Bytes := []
deriving DecidableEq, Repr

/-- A line of the on-die key cache (R135): the page, its OWNER and STATE, and the data keys of its live generations, from which
the round keys of both directions follow. -/
structure KeyLine where
  page : Nat := 0
  owner : Nat := 0
  state : Nat := 0
  keys : List (Nat × Bytes) := []
deriving DecidableEq, Repr

/-- A cell: its route tag and payload (R15). -/
structure Cell where
  rt : RouteTag := 0
  payload : Bytes := []
deriving DecidableEq, Repr

/-- A unit of work in a cluster: the cells of one extent received so far (R128). -/
structure CUnit where
  cluster : Nat := 0
  decrypt : Bool := false
  kr : Bytes := []
  /-- bytes of the grain being received -/
  cur : Bytes := []
  /-- ciphertext bodies of the finished grains, in order -/
  bodies : List Bytes := []
deriving DecidableEq, Repr

structure CipSt where
  /-- Pairs in service, bit 8 c + i for pair i of cluster c, 128 bits. R127, R130. -/
  pairs : BitVec 128 := BitVec.allOnes 128
  /-- Cycle of the last isolation mismatch. R134. -/
  isolAt : Option Nat := none
  /-- Key pages in HBM, 65,536 by number; unlisted: free. R132. -/
  pages : Tbl KeyPage := []
  /-- The flash images of the key pages, 4,096 bytes each under XTS. R131, R132. -/
  flashPages : Tbl Bytes := []
  /-- The on-die key cache: lines, least recently used first, at most 8,192. R135. -/
  cache : List KeyLine := []
  /-- Reservation records being written: page, side, the TOP they name, already in the page. R140. -/
  reserving : List (Nat × Nat × Nat) := []
  /-- Counter reservation records in the pannier, with their CMAC, by page x 2 + side. R131, R140. -/
  ctrRecs : Tbl Bytes := []
  /-- System key store: KEK, XTS pair, CMAC key; empty until step 3 of the ladder. R133. -/
  kek : Bytes := []
  xts1 : Bytes := []
  xts2 : Bytes := []
  cmac : Bytes := []
  /-- PAIR_KEK and PAIR_MAC. R278. -/
  pairKek : Bytes := []
  pairMac : Bytes := []
  /-- Cells in flight between the engines, oldest first. R15. -/
  fabric : List Cell := []
  /-- Cells waiting in a sender's queue for a gated domain: domain index, cell. R23. -/
  gated : List (Nat × Cell) := []
  /-- Cells waiting for a key page (R135) or for a counter block (R140): page, cell. -/
  waiting : List (Nat × Cell) := []
  /-- Units of work in progress, by command slot x 2^20 + extent. R128. -/
  units : Tbl CUnit := []
deriving DecidableEq, Repr

/-! ### Spoke links, bridges and the tandem link (R152-R172, R275) -/

inductive LinkPhase where
  | down | training | up
deriving DecidableEq, Repr

/-- A flit waiting to be sent, or kept for replay: FTYPE, bits 95:32, payload (R155). -/
structure Flit where
  ftype : Nat := 0
  body : BitVec 64 := 0
  payload : Bytes := []
deriving DecidableEq, Repr

structure LinkSt where
  phase : LinkPhase := .down
  /-- training attempt running, 1-3. R154. -/
  attempt : Nat := 0
  /-- the link was up since the sled was seated. R169, R434. -/
  wasUp : Bool := false
  identIn : Bool := false
  creditIn : Bool := false
  /-- FSEQ used next, 8 bits. R155. -/
  txSeq : BitVec 8 := 0
  /-- FSEQ expected next, 8 bits. R159. -/
  rxSeq : BitVec 8 := 0
  /-- sent flits not yet acknowledged, oldest first, at most 128: FSEQ, flit. R159. -/
  replay : List (BitVec 8 × Flit) := []
  /-- flits waiting for a credit or for the window. R159, R161. -/
  txq : List Flit := []
  /-- credits held for the two channels the device sends on. R160. -/
  crA : Nat := 0
  crB : Nat := 0
  /-- last cumulative counts taken from the other side, 6 bits each. R161. -/
  takenA : BitVec 6 := 0
  takenB : BitVec 6 := 0
  /-- cumulative counts of the buffers this side has freed, as shown in the last flit sent, 6 bits each. R161. -/
  freedA : BitVec 6 := 0
  freedB : BitVec 6 := 0
  /-- buffers freed and not yet shown: a count rises by at most 7 a flit. R161. -/
  owedA : Nat := 0
  owedB : Nat := 0
  /-- awaiting the expected FSEQ after a discard. R159. -/
  awaiting : Bool := false
  /-- consecutive bad flits. R159. -/
  badRun : Nat := 0
  /-- RETRY_REQ received for the same FSEQ: which and how often. R159. -/
  rrSeq : BitVec 8 := 0
  rrCount : Nat := 0
  /-- RETRY_REQ sent for the FSEQ that is awaited. R159. -/
  reqCount : Nat := 0
  /-- flits of the pair being filled, at most four. R153. -/
  pair : List (FlitHeader × Bytes) := []
  /-- the six counters of R172, in order; 64 bits each. -/
  cnt : Tbl Count := []
deriving DecidableEq, Repr

/-- A media profile (R171). -/
structure Profile where
  id : Nat := 0
  matchBridge : Nat := 0
  matchNand : Bytes := []
  pageData : Nat := 16384
  pageSpare : Nat := 2176
  pagesPerBlock : Nat := 0
  blocksPerPlane : Nat := 0
  planes : Nat := 1
  bitsPerCell : Nat := 1
  rowCycles : Nat := 3
  rowShifts : Nat := 0
  offsetFaddr : Nat := 0
  offsetCount : Nat := 1
  offsetUnit : Nat := 0
  offsetRange : Nat := 0
  suspendCmds : Nat := 0
  tR : Nat := 0
  tProg : Nat := 0
  tProgMax : Nat := 0
  tBers : Nat := 0
  tBersMax : Nat := 0
  suspMax : Nat := 0
  peRated : Nat := 0
  peSlc : Nat := 0
  chRate : Nat := 0
  truing : Bytes := []
deriving DecidableEq, Repr

/-- Why an operation is outstanding on a spoke. -/
inductive OpFor where
  /-- read context `rd` (stage 1, or the i-th of the four soft reads) -/
  | read (rd : Nat) (soft : Nat)
  /-- truing run `t` -/
  | truing (t : Nat)
  /-- member unit of a stripe -/
  | unit (st member : Nat)
  /-- the XOR plane-pages of a spoke band's unit slot -/
  | xorUnit (sb slot : Nat)
  /-- copy of a journal page on one spoke: its number (R202, R256) -/
  | journal (page : Nat)
  /-- erase and program of an anchor block (R174) -/
  | anchor
  | erase (blk : Nat)
  /-- BRIDGE_QUERY identity / health, READ_PARAM and DIE_STATUS of identification, die check of R211 -/
  | identity
  | health
  | param (die : Nat)
  | dieStatus (die : Nat)
  | resetDie (die : Nat)
  | dieCheck (die : Nat)
  | suspend
  /-- a dump program (R356) -/
  | dump
  /-- a rebuilt unit programmed to a replacement (R264) -/
  | rebuilt (band unit : Nat)
  | other
deriving DecidableEq, Repr

/-- An operation outstanding on a spoke (R156, R162). -/
structure Op where
  op : Nat := 0
  channel : Nat := 0
  die : Nat := 0
  row : Nat := 0
  slc : Bool := false
  why : OpFor := .other
  /-- bytes of DATA_IN received -/
  got : Bytes := []
  gotFlits : Nat := 0
  /-- ordered while the orderly removal of its sled runs: not sent, and failed when the sled goes. R169. -/
  unsent : Bool := false
deriving DecidableEq, Repr

/-- An LLR table cell with its counters (R224, R226). -/
structure LlrCell where
  hard : Nat := 4
  /-- LLR0-LLR5 -/
  llr : List Int := [7, 4, 1, -1, -4, -7]
  n0 : List Nat := [0, 0, 0, 0, 0, 0]
  n1 : List Nat := [0, 0, 0, 0, 0, 0]
  b : Nat := 0
  e : Nat := 0
deriving DecidableEq, Repr

structure SpokeSt where
  /-- SSTATE of SPOKE_QUERY: 0 empty, 1 in service, 2 FAILED, 3 rebuilding, 4 no profile, 5 training failed. R314. -/
  sstate : Nat := 0
  /-- IDENT fields, 10 bytes. R160. -/
  ident : Bytes := []
  /-- parameter pages of the dies identified so far: die number (channel x 16 + die), first 12 ID bytes. R168. -/
  params : Tbl Bytes := []
  dieReady : List Nat := []
  profile : Option Profile := none
  /-- last health record, 16 bytes. R166. -/
  health : Bytes := List.replicate 16 0
  /-- outstanding operations by OPID. R156. -/
  ops : Tbl Op := []
  /-- next OPID tried. -/
  opidNext : Nat := 0
  /-- operations that wait for an OPID, oldest first: each with its CMD payload and its data. R156. -/
  opWait : List (Op × Bytes × Bytes) := []
  /-- its link has gone down since its dies were last reset: RESET_DIE comes before the spoke is used again. R169. -/
  linkLost : Bool := false
  /-- the slot held a spoke that FAILED: shape of it (PLANES x PAGES_PER_BLOCK, usable blocks). R260, R263. -/
  failed : Option (Nat × Nat) := none
  /-- an orderly removal is waiting for its STATUS flits: who ordered it. R169. -/
  removing : Option Source := none
  /-- the insertion debounce runs / removal debounce runs. R167. -/
  insDebounce : Bool := false
  remDebounce : Bool := false
  /-- the slot is to be treated as newly seated. R169. -/
  reseat : Bool := false
  /-- erased native blocks and usable native blocks, outside the SLC buffer. R193. -/
  freeBlocks : Nat := 0
  usableBlocks : Nat := 0
  /-- SLC-buffer blocks and those filled. R189, R191. -/
  slcBlocks : Nat := 0
  slcUsed : Nat := 0
  /-- the brake, and its grain account. R195. -/
  brake : Bool := false
  account : Int := 0
  brakeOver : Bool := false
  /-- half grains of reclaim not yet credited while the brake overrides. R300. -/
  accountHalf : Bool := false
  /-- capacity emergency on this spoke. R193. -/
  capEmerg : Bool := false
  /-- dies retired (R211) and dies failed as a whole, by die number; grown-bad blocks by die number. -/
  diesOut : List Nat := []
  diesDead : List Nat := []
  grownBad : Tbl Nat := []
  /-- LLR cells by age bin x 3 + page type, 48 cells as 16 x 3; unlisted: the defaults. R224. -/
  llr : Tbl LlrCell := []
  /-- codewords waiting for a soft decoder, in arrival order, and decoders busy. R221. -/
  softq : List Nat := []
  softBusy : Nat := 0
  /-- the same for the twelve hard decoders. R218. -/
  hardq : List Nat := []
  hardBusy : Nat := 0
  /-- the eight counters of R236, in order. -/
  cnt : Tbl Count := []
  /-- blocks queued for patrol ahead of their turn, the codeword of the block that patrol reads next, and the number of the
  block from which the pass goes on. R198, R200. -/
  patrolq : List Nat := []
  patrolPos : Nat := 0
  patrolDone : Nat := 0
  /-- spoke-engine microcontroller store loaded and checked. R372. -/
  mcuLoaded : Bool := false
  /-- a truing entry of the spoke is OVERRIDING. R301. -/
  truingOver : Bool := false
deriving DecidableEq, Repr

/-! ### Media manager and redundancy engine (R173-R271) -/

/-- A NAND block the manager knows as other than erased (R193). Key: spoke, die and block in one number. -/
structure NBlk where
  /-- 0 erased, 1 open, 2 closed, 3 retired, 4 erasing -/
  st : Nat := 0
  gear : Nat := 0
  slc : Bool := false
  /-- erase count, 32 bits, saturating. R299. -/
  erases : Nat := 0
  /-- reads since the erase of a privileged block, 32 bits. R199. -/
  reads : Nat := 0
  /-- its count has reached RD_LIMIT since it was last erased or checked. R199. -/
  counted : Bool := false
  /-- it has been refreshed since it was opened. R198. -/
  refreshed : Bool := false
  /-- RTC seconds at which it was closed, and the order of closing. R194, R223. -/
  closedAt : Nat := 0
  closeOrder : Nat := 0
  /-- next page to be programmed -/
  wp : Nat := 0
  /-- the spoke band it belongs to -/
  sband : Nat := 0
  /-- grains moved out of it by GC and folding, whose room an erase reclaims for nothing. R195. -/
  moved : Nat := 0
  /-- of a journal block: the write of the journal to flash that its last page belongs to. R202. -/
  jseq : Nat := 0
deriving DecidableEq, Repr

/-- A map entry (R181): a coarse unit with its gear and the PGA of grain 0, or a split one with its fine-table number. -/
inductive MapEnt where
  | coarse (gear : Nat) (pga : Nat)
  | split (table : Nat)
deriving DecidableEq, Repr

/-- Fields of a grain tag (R179). -/
structure GTag where
  digest : BitVec 128 := 0
  version : Nat := 0
  wseq : Nat := 0
  lga : Nat := 0
  kind : Nat := 0
  gear : Nat := 0
  ns : Nat := 0
  grain : Nat := 0
deriving DecidableEq, Repr

/-- A spoke band: 17 blocks of one gear on one spoke (R241). -/
structure SBand where
  spoke : Nat := 0
  gear : Nat := 0
  slc : Bool := false
  /-- the dies (channel x 16 + die) and the block numbers of blocks 0-15 and of the XOR block -/
  dies : List Nat := []
  blocks : List Nat := []
  /-- next unit -/
  next : Nat := 0
  /-- units the band can hold -/
  units : Nat := 0
  isOpen : Bool := true
  /-- not 0: it lay on a spoke that has FAILED, and map entries that name it carry this number above bit 47. MODEL. -/
  ghost : Nat := 0
  /-- data units of each unit slot that have returned STATUS OK. R245. -/
  okUnits : List Nat := []
  /-- die-XOR accumulators held, by unit slot: the XOR of the 16 spans of each position. R245. -/
  acc : Tbl (List Bytes) := []
deriving DecidableEq, Repr

/-- A stripe band (R242). -/
structure Band where
  /-- namespace, or 0xFFFF for the system layout -/
  ns : Nat := 0
  gear : Nat := 0
  k : Nat := 1
  m : Nat := 1
  /-- members: spoke, spoke band (none: absent) -/
  members : List (Nat × Option Nat) := []
  nextUnit : Nat := 0
  isOpen : Bool := true
  /-- SLC buffer; GC target. R185. -/
  slc : Bool := false
  gc : Bool := false
  /-- members counted lost for the whole band, by stripe-band member number. R260. -/
  lost : List Nat := []
  /-- members lost per stripe: (unit, member). R259. -/
  lostAt : List (Nat × Nat) := []
  /-- queued for relocation at GC priority. R257, R259. -/
  relocate : Bool := false
  /-- slots for which the band has been rebuilt. R264, R269. -/
  rebuiltFor : List Nat := []
  order : Nat := 0
  /-- the spokes that take the flash copies of its journal entries. R256. -/
  jspokes : List Nat := []
deriving DecidableEq, Repr

/-- A grain position of an open stripe. -/
structure SGrain where
  /-- LGA, tag KIND, body, and what the tag carries (R179) -/
  lga : Nat := 0
  kind : Nat := 0
  body : Bytes := []
  digest : BitVec 128 := 0
  version : Nat := 0
  grain : Nat := 0
  /-- staging record that waits for it, and the position in that record's run -/
  stage : Option Nat := none
  pos : Nat := 0
  /-- the location that its map entry or PAGE_LOC must still hold: a move, a page write. R184. -/
  source : Option Nat := none
deriving DecidableEq, Repr

/-- An open stripe with its journal entry (R253, R255). -/
structure Stripe where
  eseq : Nat := 0
  band : Nat := 0
  unit : Nat := 0
  ns : Nat := 0
  gear : Nat := 0
  k : Nat := 1
  m : Nat := 1
  grains : List SGrain := []
  /-- PROGRAMMED, ABSENT and LOST of the journal entry, 16 bits each -/
  programmed : BitVec 16 := 0
  absent : BitVec 16 := 0
  lost : BitVec 16 := 0
  /-- members whose PROGRAM has been issued -/
  issued : BitVec 16 := 0
  mwseq : Tbl Nat := []
  /-- parity buffers held: false once they were lost with the pannier. R254, R257. -/
  hasBuf : Bool := true
  /-- no more grains are assigned (R253) -/
  sealed : Bool := false
  /-- STATE CLOSED -/
  closed : Bool := false
  /-- resolved at a start: its closing is told by 0x7009. R257. -/
  resolved : Bool := false
deriving DecidableEq, Repr

/-- A record of the map journal (R202). -/
inductive JRec where
  | mapCoarse (cu gear pga : Nat)
  /-- the grain's fine entry, and the fine table of its unit -/
  | mapSplit (lga gear pga table : Nat)
  | unmap (lga n : Nat)
  | pageLoc (b pga : Nat)
  /-- the place of a map page in the map root -/
  | mapRoot (page pga : Nat)
  | slotSet (b i : Nat) (sl : BSlot) (home : Nat)
  | slotClear (b i : Nat)
  | band (n : Nat) (b : Band)
  | lostUnit (band unit : Nat)
  | rebuilt (band slot : Nat)
deriving DecidableEq, Repr

/-- What a codeword read expects of its grain tag (R219): KIND, LGA, NAMESPACE, GRAIN. -/
structure Expect where
  kind : Nat := 0
  lga : Nat := 0
  ns : Nat := 0
  grain : Nat := 0
  /-- the map tells neither KIND nor GRAIN: KIND is one of 1 to 3 -/
  anyKind : Bool := false
deriving DecidableEq, Repr

/-- Why a codeword is read. -/
inductive ReadFor where
  | valueGrain (slot grain : Nat)
  | keyRecord (slot pos : Nat)
  | bucketPage (b : Nat)
  | move (lga gear stream : Nat)
  /-- a map page that a lookup waits for (R183) -/
  | mapPage (page : Nat)
  /-- patrol, of a codeword of a block (R198) -/
  | patrol (blk cw : Nat)
  /-- the span of a block of a die-XOR group, for a read in stage 3 (R246) -/
  | xorOf (rd place : Nat)
  /-- the span of a member of a stripe, for a read in stage 4 (R248) -/
  | rsOf (rd member : Nat)
  /-- the span of a member at a position of the unit that the rebuild for a slot is at (R264) -/
  | rebuildOf (slot member pos : Nat)
  /-- codeword of an anchor block, of a die of a newly matched sled (R174) -/
  | anchor (die cw : Nat)
  /-- its command has ended: the outcome goes nowhere -/
  | dropped
deriving DecidableEq, Repr

/-- A codeword being read (R220). -/
structure ReadCtx where
  pga : Nat := 0
  expect : Option Expect := none
  why : ReadFor := .keyRecord 0 0
  /-- stage 1-4; 0: waits for the outcome of another read of the codeword -/
  stage : Nat := 1
  /-- the stage-1 read, and the four soft reads, 4,640 bytes each -/
  hard : Bytes := []
  soft : List Bytes := []
  /-- reads still outstanding -/
  outstanding : Nat := 0
  /-- LLR cell of the codeword. R223. -/
  cell : Nat := 0
  /-- reads that wait for this one's outcome. R221. -/
  followers : List Nat := []
  /-- the LLR cell as it stood when the decode started. R221. -/
  table : LlrCell := {}
  /-- stages 3 and 4: the spans that have come, none for one that could not be read, and how many are awaited. R246, R248. -/
  spans : Tbl (Option Bytes) := []
  awaited : Nat := 0
deriving DecidableEq, Repr

/-- A truing entry (R227). -/
structure TEntry where
  code : List Int := []
  truedAt : Nat := 0
  fLast : Nat := 0
  valid : Bool := false
  atLimit : Bool := false
  overriding : Bool := false
deriving DecidableEq, Repr

/-- A truing run in progress (R230). -/
structure TRun where
  spoke : Nat := 0
  entry : Nat := 0
  pga : Nat := 0
  code : List Int := []
  f0 : Nat := 0
  k : Nat := 0
  /-- 0: waiting for f(−step); 1: waiting for f(+step); 2: moving -/
  ph : Nat := 0
  fm : Nat := 0
  dir : Int := 0
  moves : Nat := 0
  limit : Nat := 0
  /-- continued past TRUE_LIMIT. R231. -/
  past : Bool := false
  /-- the accepted decode, 4,640 bytes, and the bytes of the read that has returned. R230. -/
  known : Bytes := []
  got : Option Bytes := none
  /-- references that stopped at TRUE_LIMIT: reference, direction (0: either side), moves made. R231. -/
  stopped : List (Nat × Int × Nat) := []
deriving DecidableEq, Repr

/-- A derailleur entry (R186). -/
structure Der where
  ptag : Nat := 0
  logage : Nat := 0
  samples : Nat := 0
  writes : Nat := 0
deriving DecidableEq, Repr

/-- A rebuild for a replacement (R264). -/
structure Rebuild where
  /-- bands still to be rebuilt, in order -/
  todo : List Nat := []
  /-- next unit of the first band -/
  unit : Nat := 0
  /-- spoke band opened on the replacement for it -/
  sband : Option Nat := none
  /-- the spans of the unit that have been read, by member x 16 + position, none for one that could not be, and how many are
  awaited; no reads of the unit have been issued yet. R264. -/
  spans : Tbl (Option Bytes) := []
  awaited : Nat := 0
  asked : Bool := false
deriving DecidableEq, Repr

/-- What is found on the medium and in the stripes at a start: the writes whose grains lie there, and the stripes that were
open (R205, R206, R257). MODEL: of the contents of the flash the tags are kept (`MedSt.tags`), not the bodies; `heads` is
what the head grains written since the last flash journal write say of their slots. -/
structure Left where
  heads : List JRec := []
  stages : Tbl Stage := []
  stripes : Tbl Stripe := []
deriving DecidableEq, Repr

structure MedSt where
  /-- Write-sequence counter, 64 bits: the value taken next. R180, R72. -/
  wseq : Nat := 1
  /-- WSEQ_TOP of this side, and the partner's last recorded one. R274. -/
  wseqTop : Nat := 16777216
  peerWseqTop : Nat := 0
  /-- Map of coarse units by LGA / 16. R181. -/
  cmap : Tbl MapEnt := []
  /-- Fine tables: gear and PGA by fine-table number x 16 + grain. R181. -/
  fmap : Tbl (Nat × Nat) := []
  /-- The map cache: its pages, the least recently used first (coarse page n as n, fine page n as 2^27 + n), and those newer
  than their flash copy. R183. -/
  mlru : List Nat := []
  mdirty : List Nat := []
  /-- Map root: the PGA of every map page that has been written. R183. -/
  mroot : Tbl Nat := []
  /-- Groups of 17 dump dies per spoke (B of R357), fixed by the format. -/
  dumpGroups : Nat := 0
  /-- Reads that wait for a map page: page, LGA, what the tag must be, what the read is for. R183. -/
  mapWait : List (Nat × Nat × Option Expect × ReadFor) := []
  /-- What the tags of the programmed codewords say, by PGA. MODEL: the medium as a tag scan finds it. R206. -/
  tags : Tbl GTag := []
  /-- Coarse unit owner: namespace by LGA / 16. R175. -/
  unitNs : Tbl Nat := []
  /-- The runs of an extent by its head LGA, as its head codeword names them, and runs dead but still being read. R178. MODEL. -/
  runs : Tbl (List (Nat × Nat)) := []
  dead : List (Nat × Nat) := []
  /-- Allocated LGAs of each coarse unit, bit i for grain i; unlisted: none. An LGA is free again when the record that unmaps
  it is durable. R175, R178. -/
  lgaTaken : Tbl (BitVec 16) := []
  /-- For an LGA of a part: the commit order of the copy the map names. R177. -/
  rank : Tbl Nat := []
  blks : Tbl NBlk := []
  closeOrder : Nat := 0
  sbands : Tbl SBand := []
  sbandNext : Nat := 1
  /-- PLANES and PAGES_PER_BLOCK of the FAILED spoke behind each ghost number (`SBand.ghost`). MODEL. -/
  ghostGeo : Tbl (Nat × Nat) := []
  bands : Tbl Band := []
  bandNext : Nat := 0
  /-- Bands opened so far, by namespace x 8 + gear. R242. -/
  bandSeq : Tbl Nat := []
  /-- k of the system layout, n - 4 at the format. R239. -/
  sysK : Nat := 1
  /-- Stripe-journal entry table, at most 65,536. R256. -/
  stripes : Tbl Stripe := []
  stripeNext : Nat := 0
  /-- Parity buffers in use (4,096), and grains waiting for a stripe, oldest first: namespace, gear, stream (0 host, 1 GC target, 2 fold). R254. -/
  pbufs : Nat := 0
  asmq : List (Nat × Nat × Nat × SGrain) := []
  pbufExhausted : Bool := false
  /-- Stripe-journal changes not yet on flash (entry number, entry), and the flash copy. R256. -/
  sjPending : List (Nat × Bytes) := []
  sjFlash : Tbl Stripe := []
  /-- Partner copy of the partner's stripe-journal entries. R256, R277. -/
  sjPartner : Tbl Bytes := []
  /-- Map-journal ring in the pannier, oldest first, and records ever written to it. R202. -/
  ring : List JRec := []
  ringCount : Nat := 0
  /-- Map journal on flash (gear 6), oldest first. R202. -/
  fjournal : List JRec := []
  /-- Gear 6 blocks being filled, by spoke: block and next plane-page; journal pages written so far; writes of the journal to
  flash so far, that before the rotation began, and the last one whose records are no longer needed; bodies of the pages
  whose copies have not all returned, with the copies awaited. R202, R203, R256. -/
  jopen : Tbl (Nat × Nat) := []
  jpage : Nat := 0
  jflush : Nat := 0
  ckFlush : Nat := 0
  jfree : Nat := 0
  jout : Tbl (List Bytes × Nat) := []
  /-- The next free blocks that each stream takes, in order, as the last flash journal write named them, without those taken
  since: spoke x 16 + stream (gear x 2, + 1 for the GC blocks; 14 the SLC buffer). R205. -/
  named : Tbl (List Nat) := []
  /-- Checkpointed directory and bands (gear 5), and the map as the map pages on flash hold it. R203. -/
  ckDir : Tbl DirEnt := []
  ckCmap : Tbl MapEnt := []
  ckFmap : Tbl (Nat × Nat) := []
  ckBands : Tbl Band := []
  /-- Checkpointed map root and truing entries, 16 bytes each. R203, R227. -/
  ckRoot : Tbl Nat := []
  ckTruing : Tbl Bytes := []
  /-- What the anchor block of each die holds, by spoke x 512 + die: four bytes for each block number. Dies whose anchor block
  is due to be written. R174. -/
  anchors : Tbl Bytes := []
  anchorDue : List Nat := []
  /-- The item of the checkpoint rotation written next: 0 directory, 1 map root, 2 dirty map pages. R203. -/
  ckItem : Nat := 0
  /-- Flash-journal records written before this rotation began. R203. -/
  ckKeep : Nat := 0
  /-- What the bucket page last written holds, by bucket: read back at recovery. R204. MODEL. -/
  pages : Tbl (Tbl BSlot) := []
  /-- Write pointers recorded with the last flash journal write: those of the open blocks, and 0 for each block it named. R205. -/
  wptrs : List (Nat × Nat) := []
  /-- The pool: spokes formatted as the pool, 16 bits, and SLC_SHARE. R239, R189. -/
  pool : BitVec 16 := 0
  slcShare : Nat := 3
  /-- The SLC buffer is bypassed. R192. -/
  slcBypass : Bool := false
  /-- Derailleur entries, 4,096. R186. -/
  der : Tbl Der := []
  /-- Commit points since start, and user bytes admitted and to gear 0 in the last 2^24 commits. R188, R300. -/
  commits : Nat := 0
  /-- Halvings of the derailleur made, and looks at the gear 0 share. R188, R300. -/
  halvings : Nat := 0
  shareChecks : Nat := 0
  gear0Bytes : Nat := 0
  allBytes : Nat := 0
  /-- Reads in progress. R220. -/
  reads : Tbl ReadCtx := []
  readNext : Nat := 0
  /-- Truing entries by (spoke, die, group, page type) in one number, and runs. R227. -/
  tentries : Tbl TEntry := []
  truns : Tbl TRun := []
  trunNext : Nat := 0
  /-- Rebuilds by slot. R264. -/
  rebuilds : Tbl Rebuild := []
  rebuildOver : Bool := false
  /-- Lost-unit list: stripe band, unit x 16 + member. R270. -/
  lostUnits : List (Nat × Nat) := []
  /-- A full tag scan of R262 is running. -/
  tagScan : Bool := false
  /-- A retention class of 3 is assumed for every block closed before this place in the order of closing. R235. -/
  ageUnknown : Nat := 0
  /-- The re-key sweep: tenant, generation, and the next slot of the index it looks at (bucket x 40 + slot). R201. -/
  rekey : Option (Nat × Nat × Nat) := none
  /-- What a start finds on the medium, from the fall of POR_N to step 11. R206, R257. MODEL. -/
  left : Left := {}
  /-- Grains of coarse units on the move, read and waiting for the rest of their unit, by LGA. R182. -/
  moving : Tbl SGrain := []
deriving DecidableEq, Repr

/-! ### Tandem controller (R272-R290) -/

/-- A mirrored write the partner has announced or is sending (R277, R279). -/
structure Mirror where
  ns : Nat := 0
  kind : Nat := 0
  gear : Nat := 0
  digest : BitVec 128 := 0
  valueLen : Nat := 0
  bodies : Nat := 0
  version : Nat := 0
  /-- commit notice received -/
  noticed : Bool := false
  /-- a later DELETE of the key has come: it is held, and takes no place -/
  dead : Bool := false
  /-- bytes of each body, as they arrive -/
  data : Tbl Bytes := []
deriving DecidableEq, Repr

/-- A partner session as mirrored (R279, R285). -/
structure MSession where
  tenant : Nat := 0
  admin : Bool := false
  sealed : Bool := false
  eg : Egress := {}
  /-- 0: the delta that opens it has not come -/
  cookie : Nat := 0
  clientInit : Seq := 0
  deviceInit : Seq := 0
  /-- client frames accepted; device frames that SEQ_TOP stands for: E of R148 -/
  recvCount : Nat := 0
  topCount : Nat := 0
  /-- pieces of the wrapped wire keys of a sealed session, with their CMAC (R278) -/
  pieces : Tbl Bytes := []
  /-- release point of the client's sequence space -/
  release : Seq := 0
  seqTop : Seq := 0
  /-- tag states: tag, state code of R80 (0 IDLE .. 4 COMPLETING), namespace, version, write -/
  tags : Tbl (Nat × Nat × Nat × Bool) := []
deriving DecidableEq, Repr

/-- Partner addresses a sub-MAC adopts (R284). -/
structure TakeMap where
  mac : Bytes := []
  ipv4 : Bytes := []
  ipv6 : Bytes := []
deriving DecidableEq, Repr

structure TdmSt where
  /-- Straps as sampled: TDM_PAIRED, TDM_SIDE. R422. -/
  paired : Bool := false
  side : Nat := 0
  /-- The pair secret, wrapped under the KEK; empty: none. R278. -/
  secret : Bytes := []
  /-- Nonce sent and IDENT received: partner serial, side, nonce. R275. -/
  nonce : Bytes := []
  peerSerial : Bytes := []
  peerSide : Nat := 0
  peerNonce : Bytes := []
  /-- The partner's proof has been verified: the link is joined. R278. -/
  joined : Bool := false
  /-- Held down: 0 no, 1 same side (0xC00D), 2 join failed (0xC00E). R275, R278. -/
  heldDown : Nat := 0
  linkSilent : Bool := true
  pinSilent : Bool := true
  double : Bool := false
  /-- Split link (0xC007) and pin-only silence (0xC008) shown. R286. -/
  split : Bool := false
  pinOnly : Bool := false
  lastHb : Nat := 0
  lastEdge : Nat := 0
  peerState : Nat := 1
  /-- FENCE_REQ of the SMBus status. R283, R425. -/
  fenceReq : Bool := false
  /-- This side has taken over what the partner served, and has not failed back. R284, R289. -/
  tookOver : Bool := false
  /-- Writes complete under R252 alone: the partner is gone and this side has taken over. R283. -/
  solo : Bool := false
  /-- LOCAL namespaces of this side wait for failback. R289. -/
  localFenced : Bool := false
  /-- The partner has resigned. R283. -/
  peerResigned : Bool := false
  takeMap : Tbl TakeMap := []
  /-- Addresses adopted, and announcements still to be sent for each. R284. -/
  adopted : Tbl TakeMap := []
  arpLeft : Nat := 0
  /-- Mirrors of the partner's sessions and writes; versions the partner holds of ours. R279. -/
  msessions : Tbl MSession := []
  mirrors : Tbl Mirror := []
  heldByPeer : List Nat := []
  /-- Flits of the key pages being received, by page x 4 + part. R276, R277. -/
  records : Tbl Bytes := []
  /-- The partner's open uploads, by UPLOAD_ID, placed on this side. R279. -/
  uploads : Tbl Upload := []
  /-- Resynchronisations being received: by namespace, the digests the owner has listed. R288. -/
  listed : Tbl (List (BitVec 128)) := []
  /-- A handover (false) or failback (true) drain is running: job, kind. R289. -/
  drain : Option (Nat × Bool) := none
  /-- Namespaces whose mirror this side still resynchronises: whether the slot list has been sent. R288. -/
  resync : List (Nat × Bool) := []
  /-- Versions of the partner's writes that this side holds. R279, R285. -/
  heldHere : List Nat := []
deriving DecidableEq, Repr

/-! ### Time, loops and policies (R294-R303, R316) -/

structure TimeSt where
  /-- SECONDS, 48 bits, and SUB, 15 bits. R294. AON. -/
  seconds : BitVec 48 := 0
  sub : BitVec 15 := 0
  /-- RTC_VALID. R296. AON. -/
  valid : Bool := false
  /-- SECONDS latched by the last read of SUB. R296. -/
  latched : BitVec 48 := 0
  /-- Low half of RTC_SET held by a 4-byte write. R412. -/
  setLow : BitVec 32 := 0
  /-- TRIM as written and as in force in this window, 11 bits signed. R295. AON. -/
  trim : BitVec 11 := 0
  trimNow : BitVec 11 := 0
  /-- Tick position in the window of 2^20. R295. -/
  window : Nat := 0
  /-- ALARM, 63 bits, ALARM_EN and ALARM_HIT. R297. AON. -/
  alarm : BitVec 63 := 0
  alarmEn : Bool := false
  alarmHit : Bool := false
  /-- OP_TIME, 44 bits, and trimmed ticks toward the next fraction step. R298. -/
  opTime : Nat := 0
  opTicks : Nat := 0
  /-- POWER_CYCLES, 32 bits. R298. -/
  powerCycles : Nat := 0
deriving DecidableEq, Repr

structure LoopSt where
  /-- Device-scope policy parameters by ID; unlisted: the default of the rule. R316. -/
  policy : Tbl Nat := []
  /-- T_J, signed 1/16 degree C, 16 bits. R411. -/
  tj : BitVec 16 := 0
  /-- Thermal step, 0-7. R300. -/
  step : Nat := 0
  thermOver : Bool := false
  /-- The device-wide admission bucket of the thermal step. R300. -/
  bucket : Bucket := {}
  /-- Core voltage request in mV. R300, R419. -/
  vcore : Nat := 750
  vcoreOver : Bool := false
  /-- B0 in force (8.8), when the derailleur overrides its target. R300. -/
  b0now : Option Nat := none
  derOver : Bool := false
  /-- Targets still in force while their loop overrides and a new setting waits for the end of the override: by policy ID,
  or 65,536 + namespace for DIRECT_MIN. R301. -/
  held : Tbl Nat := []
deriving DecidableEq, Repr

/-! ### Hub: mailboxes, executor, jobs (R304-R319) -/

/-- An Iawatal request as taken (R304). -/
structure Request where
  opcode : Nat := 0
  flags : Nat := 0
  paramLen : Nat := 0
  reqId : Nat := 0
  bufAddr : Nat := 0
  bufLen : Nat := 0
  reserved : Nat := 0
  params : Bytes := []
  bulk : Bytes := []
  /-- bulk bytes in host memory are still being read by the crank -/
  reading : Bool := false
  /-- the hub has begun to execute it -/
  begun : Bool := false
deriving DecidableEq, Repr

/-- A mailbox (R306, R307). -/
structure Mailbox where
  go : Bool := false
  busy : Bool := false
  done : Bool := false
  irqEn : Bool := false
  progress : Nat := 0
  /-- the RESPONSE area as written last -/
  resp : Bytes := []
  /-- the flushing read of a HOSTBUF transfer is outstanding: DONE waits for it. R331. -/
  flushing : Bool := false
  /-- a reset of R309 came while the hub held the request: its response is discarded -/
  discard : Bool := false
deriving DecidableEq, Repr

/-- What a job does (R313). -/
inductive JobKind where
  | selfTest (extended : Bool)
  | nsDelete (ns : Nat)
  | retireGen (tenant gen : Nat)
  | poolFormat (mask share : Nat)
  | camMode (mask : Nat) (wide : Bool) (left taken : Nat)
  | handover
  | failback
  | powerEnter (target retriesLeft backoff : Nat)
  | fwCommit
deriving DecidableEq, Repr

/-- A job (R313): 1 running, 2 ended, 3 cancelled. -/
structure Job where
  kind : JobKind := .handover
  jstate : Nat := 1
  progress : Nat := 0
  status : Nat := 0
  detail : Nat := 0
  /-- jobs ended since it ended -/
  age : Nat := 0
deriving DecidableEq, Repr

structure HubSt where
  /-- The sixteen mailboxes. R306. -/
  mbox : Tbl Mailbox := []
  /-- GO writes and in-band final frames waiting for the hub, in order. R311. -/
  waiting : List Source := []
  /-- Commands in the executor, at most 4, in order: source, request, held for ACTIVATING. R311. -/
  exec : List (Source × Request) := []
  /-- Jobs by JOB_ID; at most 16 run. R313. -/
  jobs : Tbl Job := []
  jobSeq : Nat := 0
  /-- Sources whose answer comes later: NS_SET_STATE, DEVICE_RESET, SPOKE_REMOVE, FW_ACTIVATE. R314. -/
  later : List (Source × Request) := []
deriving DecidableEq, Repr

/-! ### Rings and the crank (R320-R342) -/

structure Sq where
  base : BitVec 64 := 0
  enable : Bool := false
  size : Nat := 0
  cq : Nat := 0
  channel : Nat := 0
  tenant : Nat := 0
  burst : Nat := 8
  weight : Nat := 1
  running : Bool := false
  cfgErr : Bool := false
  session : Nat := 0
  /-- GROUP_CADENCE of SQ 16 g -/
  cadence : Nat := 20
  /-- entries read since enable: s of the next entry. R322. -/
  s : Nat := 0
  /-- reads that found the next entry torn. R324. -/
  torn : Nat := 0
  /-- the previous read ended at an unpublished entry; a read is outstanding, of how many entries. R333. -/
  ended : Bool := false
  reading : Option Nat := none
  /-- local queue, at most 64 entries: slot, entry. R333. -/
  localq : List (Nat × Bytes) := []
  tornCnt : Count := 0
  malformedCnt : Count := 0
  pollLateCnt : Count := 0
deriving DecidableEq, Repr

/-- A completion waiting to be posted (R330): everything but its CRC and PHASE. -/
structure Cpl where
  cid : Nat := 0
  sq : Nat := 0
  opcode : Nat := 0
  entryIx : Nat := 0
  trailer : Nat × Nat × Nat × Nat × Nat := (0, 0, 0, 0, 0)
  valueLen : Nat := 0
  uploadId : Nat := 0
  /-- the command slot to free when it is posted -/
  slot : Option Nat := none
  /-- the flushing read of R331 is still outstanding -/
  flushing : Bool := false
deriving DecidableEq, Repr

structure Cq where
  base : BitVec 64 := 0
  enable : Bool := false
  irqEn : Bool := false
  size : Nat := 0
  irqCount : Nat := 1
  irqDelay : Nat := 0
  head : Nat := 0
  tail : Nat := 0
  /-- entries posted since enable. R330. -/
  posted : Nat := 0
  /-- entries not yet signalled. R332. -/
  unsignalled : Nat := 0
  /-- completions waiting for room, oldest first. R332. -/
  wait : List Cpl := []
deriving DecidableEq, Repr

/-- A transfer set of a crank channel (R339). -/
structure Xfer where
  hostAddr : Nat := 0
  count : Nat := 0
  dirOut : Bool := false
  flush : Bool := false
  sq : Nat := 0xFF
  localRef : Nat := 0
  /-- the flushing read of a transfer with FLUSH has completed. R340. -/
  flushed : Bool := false
  /-- bytes handed to the transfer that fill no write packet yet. R341. -/
  held : Bytes := []
deriving DecidableEq, Repr

structure Chan where
  act : Xfer := {}
  shd : Xfer := {}
  busy : Bool := false
  shadowValid : Bool := false
  err : Bool := false
  errCode : Nat := 0
  eocIrq : Bool := false
  /-- the active set as latched by the last read of ACT_COUNT -/
  latch : Xfer := {}
  bytesMoved : Count := 0
  transfers : Count := 0
  /-- transfers that wait behind the shadow set -/
  queue : List Xfer := []
deriving DecidableEq, Repr

structure RingSt where
  /-- The 256 submission rings and the 256 completion rings. R335, R336. -/
  sqs : Tbl Sq := []
  cqs : Tbl Cq := []
  /-- The 32 crank channels. R338. -/
  chans : Tbl Chan := []
  /-- PCIe link up. R22, R347. -/
  pcieUp : Bool := false
deriving DecidableEq, Repr

/-! ### Power, start-up, safety (R343-R391) -/

structure PwrSt where
  pstate : PwrState := .off
  /-- Domain clocks running, bit d for domain index d. R22, R347. -/
  clocks : BitVec 84 := 3
  /-- The sleep handshake: job, target, place of the domain being asked in the order of R347. R347. -/
  prepare : Option (Nat × Nat × Nat) := none
  /-- Refused POWER_ENTER jobs that wait for their back-off, in the order in which they were refused. R346. -/
  backoff : List Nat := []
  /-- Retention seals by domain index, 32 bits each. R350. -/
  seals : Tbl Nat := []
  /-- Pad hold in force, with the held levels of FAULT_N and ALERT_N (true: asserted). R351. -/
  padHold : Bool := false
  heldFault : Bool := false
  heldAlert : Bool := false
  /-- The wake timeline runs. R352. -/
  waking : Bool := false
  /-- Spokes that were in service at entry, with the IDENT seen. R352. -/
  wakeSpokes : Tbl Bytes := []
  /-- A pannier dump runs: cause (false kickstand, true PFAIL_N). R356, R384. -/
  dump : Option Bool := none
  dumpDone : Bool := false
  /-- The dump image on flash: good, with what the pannier held. R358. -/
  image : Option Bool := none
  imageRing : List JRec := []
  imageStripes : Tbl Stripe := []
  imageEvents : List EvRec := []
  imageOpTime : Nat := 0
  /-- A good image exists for the next start (found at step 11). -/
  pfail : Bool := false
  /-- PFAIL_N has risen during the dump. R359. -/
  pfailRose : Bool := false
  /-- Dump blocks not yet erased again. R357. -/
  dumpUsed : Bool := false
  /-- VDD_CORE has been removed since the last start (the next start counts a power cycle). R298. -/
  coldStart : Bool := true
  /-- REST: background work of these kinds is stopped. R343. -/
  bgStopped : Bool := false
  /-- the checkpoints of this attempt at FREEWHEEL have been taken. R347. -/
  settled : Bool := false
deriving DecidableEq, Repr

/-- A boot record copy (R363). -/
structure BootRec where
  recordSeq : Nat := 0
  activeSlot : Nat := 0
  pendingSlot : Nat := 0xFF
  failStep : Nat := 0
  failCount : Nat := 0
  altMask : Nat := 0
  slotFailed : Nat := 0
  /-- CRC good -/
  good : Bool := false
deriving DecidableEq, Repr

structure BootSt where
  /-- Ladder step running, 1-13; 0 when the ladder does not run. R367. -/
  step : Nat := 1
  /-- A warm start: HBM kept at steps 6 and 11. R375. -/
  warm : Bool := false
  /-- Boot record copies 0 and 1. R363. -/
  rec0 : BootRec := {}
  rec1 : BootRec := {}
  /-- Image slots A and B, at most 31 MiB each. R362. -/
  slot0 : Bytes := []
  slot1 : Bytes := []
  /-- LOADER_VERSION of the loader that started the device. R377. -/
  loaderVersion : Nat := 0
  /-- Slot now running. R377. -/
  running : Nat := 0
  /-- This start runs a trial of the pending slot. R371. -/
  trial : Bool := false
  /-- The first FW_DOWNLOAD since a start or a commit has been made. R373. -/
  staged : Bool := false
  /-- FW_COMMIT has verified that slot: SSTATE 2 of R377. -/
  verified : List Nat := []
  /-- OPT_LOG records: OP_TIME, POWER_CYCLES. R298, R362. -/
  optLog : List (Nat × Nat) := []
  /-- BOOT_LOG records, at most 16,384: event code, step. R362. -/
  bootLog : List (Nat × Nat) := []
  /-- Failure records written before the recorder runs, to be copied at step 13. R367. -/
  early : List Ev := []
  /-- Fuses: device secret, serial-derived value, vendor and owner root key hashes, anti-rollback level. R133, R366. -/
  secret : Bytes := []
  serial : BitVec 32 := 0
  vendorHash : Bytes := []
  ownerHash : Bytes := []
  secFuse : Nat := 0
  /-- The activation timeline: step 1-5 running, and who asked. R375. -/
  activation : Option (Nat × Source) := none
  /-- Microcode stores of the chain sequencers loaded and checked, bit c. R372. -/
  microcode : BitVec 16 := 0
  /-- Media profiles of section 0x0004 of the running image, in order. R171. -/
  profiles : List Profile := []
deriving DecidableEq, Repr

structure SafeSt where
  /-- KS_CODE and KS_WHERE, 8 bits each. R413. -/
  ksCode : Nat := 0
  ksWhere : Nat := 0
  /-- KS_CAUSE_ALL, bit n for cause n. R413. -/
  ksAll : BitVec 10 := 0
  /-- KS_TIME. R413. -/
  ksTime : BitVec 64 := 0
  /-- SCRUB_AGE in seconds: the RTC ticks counter behind it, none before the first pass. R413. -/
  scrubAge : Option Nat := none
  /-- INJECT_PASS, 32 bits. R413. -/
  injectPass : BitVec 32 := 0
  /-- Release gate closed. R384. -/
  gate : Bool := false
  /-- Debug port enabled. R422, R381. -/
  dbg : Bool := false
  /-- Correctable errors corrected, counted. R382. -/
  corrected : Count := 0
deriving DecidableEq, Repr

structure RegSt where
  /-- SCRATCH. R408. -/
  scratch : BitVec 32 := 0
  /-- ALERT_STATUS, ALERT_MASK, ALERT_SEV. R408, R410. -/
  alertStatus : BitVec 8 := 0
  alertMask : BitVec 8 := 0
  alertSev : Nat := 6
  /-- SMBus EVENT bit. R425. -/
  smbEvent : Bool := false
deriving DecidableEq, Repr

/-- The MSI-X structures of the PCIe function (R404, R406; PCI Express Base 5.0): the message addresses and data of the table
are in the memory behind the BAR. Bit n belongs to vector n. -/
structure MsiSt where
  /-- Mask bit of each table entry, 1 at reset; 512 bits. R404, R406. -/
  mask : BitVec 512 := BitVec.allOnes 512
  /-- Pending-bit array; 512 bits. R404. -/
  pba : BitVec 512 := 0
  /-- MSI-X Enable and Function Mask of the function's MSI-X capability. R2. -/
  enable : Bool := true
  fmask : Bool := false
  /-- Max Payload Size and Max Read Request Size in bytes, and Enable Relaxed Ordering, of the function's configuration
  space. R331, R341. -/
  maxPayload : Nat := 128
  maxRead : Nat := 512
  relaxed : Bool := true
deriving DecidableEq, Repr

structure PinSt where
  /-- POR_N: true high. R421. -/
  porN : Bool := false
  pfailN : Bool := true
  /-- FAULT_N asserted (driven low). R384. -/
  fault : Bool := false
  peerAliveOut : Bool := false
  peerAliveIn : Bool := false
  /-- SPK_PWREN high, SPK_PRSNT_N high, SPK_ALERT_N high, bit n for spoke n. R167. -/
  pwren : BitVec 16 := 0
  prsntN : BitVec 16 := BitVec.allOnes 16
  alertN : BitVec 16 := BitVec.allOnes 16
  /-- CORE_VID code, 5 bits. R419. -/
  vid : Nat := 14
  /-- SMB_ADDR strap as sampled. R422. -/
  smbAddr : BitVec 2 := 0
  /-- TRST_N: true high; the TAP is held in reset while low. R426. -/
  trstN : Bool := true
  /-- No instruction that takes control of pins is in force. R426. -/
  bypass : Bool := true
  /-- Pin levels driven through the boundary scan while POR_N is low. R426. -/
  scan : List (Nat × Bool) := []
deriving DecidableEq, Repr

/-- Everything of the block but the memory a host writes through its BAR and the queue of waiting commands. -/
structure Blk where
  /-- Fabric cycles of 0.8 ns on the device's own clock (R6, R433): advanced by a step on an empty queue. MODEL. -/
  now : Nat := 0
  /-- Free values drawn so far: the model's own index into `Config.freeByte`. MODEL. -/
  drawn : Nat := 0
  /-- Device state. R92. -/
  dev : DevState := .booting
  evt : EvtSt := {}
  rim : RimSt := {}
  xpt : XptSt := {}
  cmd : CmdSt := {}
  /-- Namespaces and tenants by number. R11. -/
  nss : Tbl Namespace := []
  tenants : Tbl Tenant := []
  idx : IdxSt := {}
  cip : CipSt := {}
  /-- Links by number: 0-15 the spoke links, 16 the tandem link. R152, R275. -/
  links : Tbl LinkSt := []
  spokes : Tbl SpokeSt := []
  med : MedSt := {}
  tdm : TdmSt := {}
  time : TimeSt := {}
  loops : LoopSt := {}
  hub : HubSt := {}
  ring : RingSt := {}
  pwr : PwrSt := {}
  boot : BootSt := {}
  safe : SafeSt := {}
  reg : RegSt := {}
  msi : MsiSt := {}
  pin : PinSt := {}
  /-- What the device has given to the outside, newest last. MODEL. -/
  out : List Output := []
deriving DecidableEq, Repr

/-- The state of the block. -/
structure State extends Blk where
  /-- The byte memory a host writes through BAR 0: the REQUEST areas of the sixteen mailboxes and the MSI-X table, by
  BAR offset, in canonical form; an unlisted byte is 0. R306, R404. -/
  mem : List Host.Cell := []
  /-- Commands waiting, first in, first out. -/
  pending : List Instr := []
deriving DecidableEq, Repr

/-- The machine right after reset: POR_N is held low and VDD_AON has just been applied, so that every field is at the
value beside it above (R407, R421); no command is waiting. -/
def State.reset : State := {}

/-- Why the machine stops. A command that names a flit whose payload is not the 240 bytes of R155 is no event that can
happen: the meanings that take a flit raise it. Safe: nothing is claimed of such a command. -/
inductive Fault where
  /-- Raised by the commands that carry a flit, when its payload is not 240 bytes long (R155). Safe. -/
  | noSuchFlit
deriving DecidableEq, Repr

/-- Why a command has no meaning here. -/
inductive Refusal where
  /-- Raised by an arm of `exec` whose instruction is not written yet. Safe. -/
  | notModelled (mnemonic : String)
deriving DecidableEq, Repr

end Sys2Proof.Machine
end

