-- ==== Sys2Proof/Machine/Ops.lean ====
section
/-! DEFINITION. The named operations every command is written with: sparse tables, free bytes, what leaves the
device, events and alerts, device states, rate limits, canonical byte memory. -/

namespace Sys2Proof.Machine

/-! ### Sparse tables -/

/-- The entry at `k`, if listed. -/
def Tbl.get? {α : Type} : Tbl α → Nat → Option α
  | [], _ => none
  | (i, a) :: t, k => if i = k then some a else Tbl.get? t k

/-- The entry at `k`, or the default of the table's reader. -/
def Tbl.getD {α : Type} (t : Tbl α) (k : Nat) (d : α) : α := (t.get? k).getD d

/-- Write the entry at `k`, keeping rising keys. -/
def Tbl.set {α : Type} : Tbl α → Nat → α → Tbl α
  | [], k, a => [(k, a)]
  | (i, b) :: t, k, a =>
    if i = k then (k, a) :: t
    else if k < i then (k, a) :: (i, b) :: t
    else (i, b) :: Tbl.set t k a

/-- Remove the entry at `k`. -/
def Tbl.del {α : Type} (t : Tbl α) (k : Nat) : Tbl α := t.filter (fun p => p.1 ≠ k)

/-- Change the entry at `k`, starting from the default when it is not listed. -/
def Tbl.upd {α : Type} (t : Tbl α) (k : Nat) (d : α) (f : α → α) : Tbl α := t.set k (f (t.getD k d))

/-- Whether `k` is listed. -/
def Tbl.has {α : Type} (t : Tbl α) (k : Nat) : Bool := (t.get? k).isSome

def Tbl.keys {α : Type} (t : Tbl α) : List Nat := t.map Prod.fst

def Tbl.vals {α : Type} (t : Tbl α) : List α := t.map Prod.snd

/-- Apply `f` to every listed entry. -/
def Tbl.mapVal {α : Type} (t : Tbl α) (f : Nat → α → α) : Tbl α := t.map fun p => (p.1, f p.1 p.2)

/-- The lowest number from `lo` that is not listed, trying `fuel` numbers. -/
def Tbl.freeFrom {α : Type} (t : Tbl α) : Nat → Nat → Option Nat
  | 0, _ => none
  | fuel + 1, lo => if t.has lo then Tbl.freeFrom t fuel (lo + 1) else some lo

/-- One count on a telemetry counter (R29: it wraps). -/
def countUp (t : Tbl Count) (k : Nat) : Tbl Count := t.upd k 0 (· + 1)

def countAdd (t : Tbl Count) (k n : Nat) : Tbl Count := t.upd k 0 (· + BitVec.ofNat 64 n)

/-! ### Byte memory in canonical form: strictly rising addresses, no listed zero (an unlisted byte reads 0) -/

/-- Read one byte. -/
def memRead : List Host.Cell → Nat → Byte
  | [], _ => 0
  | (i, b) :: m, a => if i = a then b else memRead m a

/-- Remove address `a`. -/
def memErase (m : List Host.Cell) (a : Nat) : List Host.Cell := m.filter (fun c => c.1 ≠ a)

/-- Insert a byte at `a`, in order. -/
def memInsert : List Host.Cell → Nat → Byte → List Host.Cell
  | [], a, b => [(a, b)]
  | (i, c) :: m, a, b => if a < i then (a, b) :: (i, c) :: m else (i, c) :: memInsert m a b

/-- Write one byte, keeping the canonical form. -/
def memWrite (m : List Host.Cell) (a : Nat) (b : Byte) : List Host.Cell :=
  if b = 0 then memErase m a else memInsert (memErase m a) a b

/-- Write a byte string from address `a` upward. -/
def memWriteBytes : List Host.Cell → Nat → Bytes → List Host.Cell
  | m, _, [] => m
  | m, a, b :: bs => memWriteBytes (memWrite m a b) (a + 1) bs

def memReadBytes (m : List Host.Cell) (a n : Nat) : Bytes := (List.range n).map fun i => memRead m (a + i)

/-- The canonical form. -/
def Memory.wf (m : List Host.Cell) : Bool :=
  decide (m.Pairwise (fun x y => x.1 < y.1)) && m.all (fun c => c.2 != 0)

/-! ### Codes -/

/-- Device state codes of R92. -/
def DevState.code : DevState → Nat
  | .booting => 0x01 | .run => 0x02 | .activating => 0x03 | .draining => 0x04
  | .freewheelEntry => 0x05 | .kickstand => 0x06 | .recovery => 0x07

/-- Power state codes of R424 (SMBus 0x03). -/
def PwrState.code : PwrState → Nat
  | .run => 0 | .idle => 1 | .rest => 2 | .freewheel => 3 | .off => 0

/-- Domain indices of R347: the rows of R22 in order. -/
def domRim (p : Nat) : Nat := 2 + p
def domSpkl (n : Nat) : Nat := 18 + n
def domSpke (n : Nat) : Nat := 34 + n
def domCiph (c : Nat) : Nat := 50 + c
def domSrch (bank : Nat) : Nat := 66 + bank / 4
def domIdx : Nat := 68
def domXpt : Nat := 69
def domCmd : Nat := 71
def domHub : Nat := 78
def domSafe : Nat := 79
def domEvt : Nat := 80
def domPcie : Nat := 81
def domTdm : Nat := 82
def domDbg : Nat := 83
/-- No single domain applies (R392). -/
def domNone : Nat := 0xFFFF

/-! ### Leaving the device, events, alerts -/

/-- Append to what the device has given to the outside. -/
def emit (s : Blk) (o : Output) : Blk := { s with out := s.out ++ [o] }

/-- The place of a new event in the input queue: after the events of earlier cycles, and among those of its own cycle
after the nibbles not above its own (R395). -/
def evInsert (e : Ev) : List Ev → List Ev
  | [] => [e]
  | x :: xs =>
    if x.at_ = e.at_ ∧ e.code / 4096 < x.code / 4096 then e :: x :: xs else x :: evInsert e xs

/-- Raise an event into the recorder's input queue; a full queue counts it as QUEUE_LOST (R395). -/
def raise (s : Blk) (code sev src : Nat) (payload : Bytes) : Blk :=
  if s.evt.inq.length < 256 then
    { s with evt := { s.evt with
        inq := evInsert { code := code, sev := sev, src := src, payload := payload.take 28, at_ := s.now } s.evt.inq } }
  else { s with evt := { s.evt with queueLost := s.evt.queueLost + 1 } }

/-- MSI-X vector `n` (R406): sent, or kept in the pending-bit array while its table entry or the function is masked (R404); none
while MSI-X is disabled (R2; PRESUMED, log entry 40). -/
def vector (s : Blk) (n : Nat) : Blk :=
  if s.msi.enable = false then s
  else if s.msi.mask.getLsbD n || s.msi.fmask then { s with msi := { s.msi with pba := s.msi.pba ||| (1#512 <<< n) } } else emit s (.msix n)

/-- The hardware sets bit `n` of ALERT_STATUS: a rise under an open mask sends vector 304 + n (R410). -/
def alert (s : Blk) (n : Nat) : Blk :=
  let rising := !s.reg.alertStatus.getLsbD n && s.reg.alertMask.getLsbD n
  let s := { s with reg := { s.reg with alertStatus := s.reg.alertStatus ||| (1#8 <<< n) } }
  if rising then vector s (304 + n) else s

/-- Change the device state, with the alert of R410 bit 1. -/
def setDev (s : Blk) (d : DevState) : Blk :=
  if s.dev = d then s else alert { s with dev := d } 1

/-- Little-endian payload fields of an event record, in the order the raising rule names them (log entry 9). -/
def pl (fields : List (Nat × Nat)) : Bytes := fields.flatMap fun f => leBytes f.1 f.2

/-! ### Free values and rates -/

/-- Draw `n` bytes from the random generator: free values (log entry 3). -/
def drawBytes (s : Blk) (n : Nat) : Bytes × Blk :=
  ((List.range n).map (fun i => Config.freeByte (s.drawn + i)), { s with drawn := s.drawn + n })

/-- Fabric cycles in one second (R6, R433). -/
def second : Nat := 1250000000

/-- The admissions that still lie in the sliding window of 1 s that ends now (R433). -/
def windowOf (now : Nat) (ts : List Nat) : List Nat := ts.filter (fun t => now < t + second)

/-- RTC seconds as a number. -/
def secs (s : Blk) : Nat := s.time.seconds.toNat

/-- A domain's clock runs. -/
def clockOn (s : Blk) (d : Nat) : Bool := s.pwr.clocks.getLsbD d

def startClock (s : Blk) (d : Nat) : Blk :=
  { s with pwr := { s.pwr with clocks := s.pwr.clocks ||| (1#84 <<< d) } }

def stopClock (s : Blk) (d : Nat) : Blk :=
  { s with pwr := { s.pwr with clocks := s.pwr.clocks &&& ~~~(1#84 <<< d) } }

/-- The domains that run in RUN alone (R22): SRCH, IDX, XPT, CMD, VFAB, HBM and EVT. -/
def runDomains : BitVec 84 := (0xFFF#84 <<< 66) ||| (1#84 <<< 80)

/-- Any work takes the device out of IDLE by starting its domains (R344). -/
def idleExit (s : Blk) : Blk :=
  if s.pwr.pstate = .idle then { s with pwr := { s.pwr with pstate := .run, clocks := s.pwr.clocks ||| runDomains } } else s

/-! ### Readers of the tables, with the reset value of an entry that is not listed -/

def spokeOf (s : Blk) (n : Nat) : SpokeSt := s.spokes.getD n {}
def setSpoke (s : Blk) (n : Nat) (x : SpokeSt) : Blk := { s with spokes := s.spokes.set n x }
def modSpoke (s : Blk) (n : Nat) (f : SpokeSt → SpokeSt) : Blk := setSpoke s n (f (spokeOf s n))

/-- Number of a link in `Blk.links`. -/
def linkNo : Link → Nat
  | .spoke n => n.val
  | .tandem => 16

def linkOf (s : Blk) (l : Link) : LinkSt := s.links.getD (linkNo l) {}
def setLink (s : Blk) (l : Link) (x : LinkSt) : Blk := { s with links := s.links.set (linkNo l) x }

def nsOf (s : Blk) (n : Nat) : Option Namespace := s.nss.get? n
def setNs (s : Blk) (n : Nat) (x : Namespace) : Blk := { s with nss := s.nss.set n x }
def modNs (s : Blk) (n : Nat) (f : Namespace → Namespace) : Blk :=
  match s.nss.get? n with
  | some x => setNs s n (f x)
  | none => s

def sessOf (s : Blk) (n : Nat) : Option Session := s.xpt.sessions.get? n
def setSess (s : Blk) (n : Nat) (x : Session) : Blk :=
  { s with xpt := { s.xpt with sessions := s.xpt.sessions.set n x } }
def modSess (s : Blk) (n : Nat) (f : Session → Session) : Blk :=
  match sessOf s n with
  | some x => setSess s n (f x)
  | none => s

def cmdOf (s : Blk) (n : Nat) : Option Cmd := s.cmd.slots.get? n
def setCmd (s : Blk) (n : Nat) (x : Cmd) : Blk :=
  { s with cmd := { s.cmd with slots := s.cmd.slots.set n x } }
def modCmd (s : Blk) (n : Nat) (f : Cmd → Cmd) : Blk :=
  match cmdOf s n with
  | some x => setCmd s n (f x)
  | none => s

/-- Count one transport cause (place in COUNTERS group 2, R315). -/
def countXpt (s : Blk) (k : Nat) : Blk := { s with xpt := { s.xpt with cnt := countUp s.xpt.cnt k } }

def tagOf (ss : Session) (t : Nat) : TagCtx := ss.tags.getD t {}
def setTag (ss : Session) (t : Nat) (x : TagCtx) : Session := { ss with tags := ss.tags.set t x }

/-- SERIAL as four bytes, most significant first (R431, R139, R278). -/
def serialBytes (s : Blk) : Bytes := beBytes 4 s.boot.serial.toNat

/-- The factory settings of sub-MAC index `i` = p x 8 + s (R431). -/
def factoryCfg (s : Blk) (i : Nat) : SubCfg :=
  { mac := 0x02#8 :: serialBytes s ++ [BitVec.ofNat 8 i] }

def cfgOf (s : Blk) (i : Nat) : SubCfg := s.rim.cfg.getD i (factoryCfg s i)

/-- Number of a sub-MAC, and of a class of it. -/
def subIx (p sub : Nat) : Nat := p * 8 + sub
def clsIx (p sub c : Nat) : Nat := subIx p sub * 8 + c

def modeOf (s : Blk) (p : Nat) : Nat := s.rim.mode.getD p 1

/-- Count on rim counter `k` of COUNTERS group 1 (R315). -/
def countRim (s : Blk) (sm k : Nat) : Blk := { s with rim := { s.rim with cnt := countUp s.rim.cnt (sm * 32 + k) } }
def addRim (s : Blk) (sm k n : Nat) : Blk := { s with rim := { s.rim with cnt := countAdd s.rim.cnt (sm * 32 + k) n } }

def pfcOf (s : Blk) (i : Nat) : PfcRun := s.rim.pfc.getD i {}
def setPfc (s : Blk) (i : Nat) (x : PfcRun) : Blk := { s with rim := { s.rim with pfc := s.rim.pfc.set i x } }

/-- Device-scope policy parameter `id`, or the default its rule gives (R316). -/
def policyDefault : Nat → Nat
  | 0x01 => 300 | 0x02 => 3600 | 0x05 => 20 * 256 | 0x06 => 26 * 256 | 0x07 => 32 * 256
  | 0x09 => 800 | 0x0A => 400 | 0x0B => 25 | 0x0C => 500 | 0x0D => 7 | 0x0E => 50 | 0x0F => 10
  | 0x10 => 120 | 0x11 => 240 | 0x12 => 2 | 0x13 => 4 | 0x14 => 127 | 0x15 => 4 | 0x16 => 200000
  | 0x17 => 180 | 0x18 => 90 | 0x1A => 40000 | 0x1B => 80 | 0x1C => 7 | 0x1D => 680 | 0x1E => 820
  | 0x1F => 0 | 0x20 => 1000 | 0x21 => 0
  | 0x03 => 8 | 0x04 => 1048576 | 0x08 => 0xFF | 0x19 => 200 | 0x22 => 0
  | _ => 0

def policy (s : Blk) (id : Nat) : Nat := s.loops.policy.getD id (policyDefault id)

/-- The target of a loop that is in force: a setting written while the loop overrides may have to wait (R301). -/
def target (s : Blk) (id : Nat) : Nat := s.loops.held.getD id (policy s id)

/-- The override of a loop has ended: what was written for these targets during it takes effect (R301). -/
def endOverride (s : Blk) (ids : List Nat) : Blk :=
  { s with loops := { s.loops with held := s.loops.held.filter fun e => !(ids.contains e.1) } }

/-- Side bit of this device: 0 when unpaired (R139, R274). -/
def sideBit (s : Blk) : Nat := if s.tdm.paired then s.tdm.side else 0

/-- Take one write-sequence value (R180); in a pair the counter steps by 2 and keeps the side's parity (R274). -/
def takeWseq (s : Blk) : Nat × Blk :=
  (s.med.wseq, { s with med := { s.med with wseq := s.med.wseq + (if s.tdm.paired then 2 else 1) } })

/-- Append a record to the map-journal ring in the pannier; it is durable on that write (R202). -/
def journal (s : Blk) (r : JRec) : Blk :=
  { s with med := { s.med with ring := s.med.ring ++ [r], ringCount := s.med.ringCount + 1 } }

/-- One fabric cycle passes with no command: the model's clock (log entry 2), and the hub takes one slow-path frame
(R31). -/
def idleTick (s : Blk) : Blk := { s with now := s.now + 1, rim := { s.rim with slowq := s.rim.slowq.drop 1 } }

/-- A meaning of the block proper, as an outcome of the machine. -/
def lift (f : Blk → Blk) (s : State) : Host.Outcome State Fault Refusal := .next { s with toBlk := f s.toBlk }

/-- The same for a command that carries a flit, whose payload is 240 bytes (R155). -/
def liftFlit (payload : Bytes) (f : Blk → Blk) (s : State) : Host.Outcome State Fault Refusal :=
  if payload.length = 240 then lift f s else .fault .noSuchFlit

/-- Iterate `f` on the state over a list. -/
def forEach {α : Type} (l : List α) (f : Blk → α → Blk) (s : Blk) : Blk := l.foldl f s

end Sys2Proof.Machine
end

