-- ==== Sys2Proof/Machine/Operands.lean ====
section
/-! DEFINITION. The formats of the manual, read and written: Ethernet and IP (R28, R32), CKT headers (R41), the command
head (R66), trailers and notices (R69, R83), route tags (R16), flit headers (R155-R158), grain tags and codewords
(R179, R215-R217), key records and bucket pages (R102, R107), ring entries (R322, R325, R330), Iawatal heads (R304),
event records (R392), media profiles (R171) and firmware images (R364). -/

namespace Sys2Proof.Machine

/-- ASCII bytes of a text. -/
def ascii (t : String) : Bytes := t.toList.map fun c => BitVec.ofNat 8 c.toNat

/-- Bits hi down to lo of a number. -/
def bitsOf (v lo n : Nat) : Nat := v / 2 ^ lo % 2 ^ n

def bitOf (v i : Nat) : Bool := v.testBit i

def boolNat (b : Bool) : Nat := if b then 1 else 0

/-! ### Ethernet, IP and UDP (R28, R32) -/

/-- One's complement sum of 16-bit big-endian words (IPv4 and UDP checksums). -/
def onesSum (b : Bytes) : Nat :=
  let sum := (blocksOf 2 b).foldl (fun a w => a + beNat (slice w 0 2)) 0
  let fold := fun x : Nat => x % 65536 + x / 65536
  fold (fold (fold sum))

/-- An Ethernet frame as the rim sees it (R28). -/
structure EthFrame where
  len : Nat
  da : Bytes
  sa : Bytes
  tagged : Bool
  vid : Nat
  pcp : Nat
  etype : Nat
  /-- bytes from the network header to before the FCS -/
  l3 : Bytes
  fcsGood : Bool

def parseEth (f : Bytes) : EthFrame :=
  let n := f.length
  let tagged := beAt f 12 2 = 0x8100
  let off := if tagged then 18 else 14
  { len := n, da := slice f 0 6, sa := slice f 6 6, tagged := tagged,
    vid := if tagged then beAt f 14 2 % 4096 else 0, pcp := if tagged then beAt f 14 2 / 8192 else 0,
    etype := beAt f (off - 2) 2, l3 := (f.take (n - 4)).drop off,
    fcsGood := crc32Fcs (f.take (n - 4)) = BitVec.ofNat 32 (leNat (f.drop (n - 4))) }

/-- What an IP datagram's header says, for either version (R28 causes 8-12). -/
structure IpView where
  v6 : Bool
  /-- header fields are well formed and the datagram is consistent with the frame (cause 8) -/
  headerGood : Bool
  /-- options, fragment or extension header (cause 9) -/
  optFrag : Bool
  src : Bytes
  dst : Bytes
  proto : Nat
  ecn : Nat
  /-- the IP payload -/
  body : Bytes

/-- Next-header numbers of IPv6 extension headers. -/
def isExtHeader (p : Nat) : Bool := [0, 43, 44, 50, 51, 60, 135, 139, 140].contains p

/-- The datagram ends exactly where the FCS begins, or a frame of exactly 64 bytes pads a shorter one (R28 cause 8). -/
def consistent (frameLen avail dgram : Nat) : Bool :=
  decide (dgram = avail) || (decide (frameLen = 64) && decide (dgram < avail))

def parseIp (e : EthFrame) : IpView :=
  let b := e.l3
  if e.etype = 0x86DD then
    let plen := beAt b 4 2
    { v6 := true,
      headerGood := (decide (beAt b 0 1 / 16 = 6)) && consistent e.len b.length (40 + plen),
      optFrag := isExtHeader (beAt b 6 1), src := slice b 8 16, dst := slice b 24 16, proto := beAt b 6 1,
      ecn := beAt b 0 2 / 16 % 4, body := (b.drop 40).take plen }
  else
    let ihl := beAt b 0 1 % 16 * 4
    let total := beAt b 2 2
    { v6 := false,
      headerGood := decide (beAt b 0 1 / 16 = 4) && decide (20 ≤ ihl) && decide (ihl ≤ total)
        && decide (onesSum (b.take ihl) = 65535) && consistent e.len b.length total,
      optFrag := decide (20 < ihl) || decide (beAt b 6 2 % 0x4000 ≠ 0), src := slice b 12 4, dst := slice b 16 4,
      proto := beAt b 9 1, ecn := beAt b 1 1 % 4, body := (b.take total).drop ihl }

/-- UDP length and checksum are good (R28 cause 12). -/
def udpGood (ip : IpView) : Bool :=
  let len := beAt ip.body 4 2
  let pseudo := if ip.v6 then ip.src ++ ip.dst ++ beBytes 4 ip.body.length ++ beBytes 4 17
    else ip.src ++ ip.dst ++ [0, 17#8] ++ beBytes 2 ip.body.length
  let sum := beAt ip.body 6 2
  decide (8 ≤ ip.body.length) && decide (len = ip.body.length) &&
    (if sum = 0 then !ip.v6 else decide (onesSum (pseudo ++ padTo 2 ip.body) = 65535))

/-- The solicited-node multicast group of an IPv6 address, and its MAC address. -/
def solicited6 (ip6 : Bytes) : Bytes :=
  [0xff#8, 0x02#8] ++ List.replicate 9 0 ++ [0x01#8, 0xff#8] ++ (ip6.drop 13)

def solicitedMac (ip6 : Bytes) : Bytes := [0x33#8, 0x33#8, 0xff#8] ++ ip6.drop 13

/-- Largest CKT payload of a frame to that address (R40). -/
def maxPayload (mtu : Nat) (dstIp : Bytes) : Nat := mtu - (if dstIp.length = 16 then 40 else 20) - 8 - 36

/-- Pad an outgoing frame to 64 bytes with its FCS, and append that (R32). -/
def sealFrame (b : Bytes) : Bytes :=
  let body := b ++ List.replicate (60 - b.length) 0
  body ++ leBytes 4 (crc32Fcs body).toNat

/-- A whole outgoing frame around a CKT datagram (R32, R37): addresses, VLAN and class of the command's frame, ECT(0),
checksums, padding to 64 bytes, FCS. The answer to an untagged frame is untagged, so that a default class other than 0 is
carried in no field of it (DESIGN CHOICE, log entry 41). -/
def buildFrame (cfg : SubCfg) (udpPort : Nat) (eg : Egress) (payload : Bytes) : Bytes :=
  let v6 := eg.dstIp.length = 16
  let src := if v6 then cfg.ipv6 else cfg.ipv4
  let ulen := payload.length + 8
  let udp0 := beBytes 2 udpPort ++ beBytes 2 eg.dstPort ++ beBytes 2 ulen
  let pseudo := if v6 then src ++ eg.dstIp ++ beBytes 4 ulen ++ beBytes 4 17
    else src ++ eg.dstIp ++ [0, 17#8] ++ beBytes 2 ulen
  let sum := 65535 - onesSum (pseudo ++ padTo 2 (udp0 ++ [0, 0] ++ payload))
  let udp := udp0 ++ beBytes 2 (if sum = 0 then 65535 else sum) ++ payload
  let ip := if v6 then beBytes 4 (6 * 2 ^ 28 + 2 * 2 ^ 20) ++ beBytes 2 ulen ++ [17#8, 64#8] ++ src ++ eg.dstIp
    else
      let h := fun c => [0x45#8, 0x02#8] ++ beBytes 2 (20 + ulen) ++ beBytes 4 0 ++ [64#8, 17#8] ++ beBytes 2 c ++ src
        ++ eg.dstIp
      h (65535 - onesSum (h 0))
  let tag := match eg.vlan with
    | some vid => beBytes 2 0x8100 ++ beBytes 2 (eg.cls * 8192 + vid % 4096)
    | none => []
  sealFrame (eg.dstMac ++ cfg.mac ++ tag ++ beBytes 2 (if v6 then 0x86DD else 0x0800) ++ ip ++ udp)

/-- The gratuitous ARP reply for an adopted address (R284), as the firmware hands it to the rim: broadcast, operation 2, the
address as sender and as target. PRESUMED: the layout of RFC 826 (log entry 41). -/
def arpReply (mac ip : Bytes) : Bytes :=
  List.replicate 6 0xff ++ mac ++ beBytes 2 0x0806 ++ beBytes 2 1 ++ beBytes 2 0x0800 ++ [6#8, 4#8] ++ beBytes 2 2
    ++ mac ++ ip ++ List.replicate 6 0xff ++ ip

/-- The unsolicited neighbour advertisement for an adopted address (R284): to all nodes, with the override flag, the address
as target and the link address as option. PRESUMED: the layout of RFC 4861 (log entry 41). -/
def neighbourAdv (mac ip : Bytes) : Bytes :=
  let dst := [0xff#8, 0x02#8] ++ List.replicate 13 0 ++ [0x01#8]
  let msg := fun c => [136#8, 0] ++ beBytes 2 c ++ [0x20#8, 0, 0, 0] ++ ip ++ [2#8, 1#8] ++ mac
  let sum := 65535 - onesSum (ip ++ dst ++ beBytes 4 32 ++ beBytes 4 58 ++ msg 0)
  [0x33#8, 0x33#8, 0, 0, 0, 0x01#8] ++ mac ++ beBytes 2 0x86DD ++ beBytes 4 (6 * 2 ^ 28) ++ beBytes 2 32 ++ [58#8, 255#8]
    ++ ip ++ dst ++ msg sum

/-! ### CKT frames (R40-R43) -/

def parseCkt (b : Bytes) : CktHdr :=
  let fl := beAt b 22 1
  { version := beAt b 0 1 / 16, type := beAt b 0 1 % 16, session := beAt b 1 3 % 2097152, cookie := beAt b 4 4,
    seq := BitVec.ofNat 32 (beAt b 8 4), ack := BitVec.ofNat 32 (beAt b 12 4), sackOff := beAt b 16 2,
    credit := beAt b 18 2, tag := beAt b 20 1 / 8, opcode := beAt b 21 1, ordered := bitOf fl 7, final := bitOf fl 6,
    sealed := bitOf fl 5, trailer := bitOf fl 4, ece := bitOf fl 3, payloadLen := beAt b 24 2 }

/-- The 28 header bytes before HDR_CRC. -/
def cktHead28 (h : CktHdr) : Bytes :=
  [BitVec.ofNat 8 (h.version * 16 + h.type)] ++ beBytes 3 h.session ++ beBytes 4 h.cookie ++ beBytes 4 h.seq.toNat
  ++ beBytes 4 h.ack.toNat ++ beBytes 2 h.sackOff ++ beBytes 2 h.credit ++
  [BitVec.ofNat 8 (h.tag * 8), BitVec.ofNat 8 h.opcode,
   BitVec.ofNat 8 (boolNat h.ordered * 128 + boolNat h.final * 64 + boolNat h.sealed * 32 + boolNat h.trailer * 16
     + boolNat h.ece * 8), 0] ++ beBytes 2 h.payloadLen ++ [0, 0]

/-- A CKT frame: header with HDR_CRC, payload, payload CRC when there is payload (R40, R43). -/
def buildCkt (h : CktHdr) (payload : Bytes) : Bytes :=
  let h := { h with payloadLen := payload.length }
  let hd := cktHead28 h
  hd ++ beBytes 4 (crc32c hd).toNat ++ payload ++ (if payload.isEmpty then [] else beBytes 4 (crc32c payload).toNat)

/-- Serial-number order of R45: `a` precedes `b`. -/
def seqBefore (a b : Seq) : Bool := decide (0 < (b - a).toNat) && decide ((b - a).toNat < 2 ^ 31)

/-- The 256-bit SACK bitmap as a number: bit i states that frame ACK + 1 + i has arrived (R48). -/
def sackHas (bitmap : Nat) (ack sq : Seq) : Bool :=
  let d := (sq - ack).toNat
  decide (1 ≤ d) && decide (d ≤ 256) && bitmap.testBit (d - 1)

/-! ### Commands and responses (R66, R69, R83) -/

def parseHead (b : Bytes) : Head :=
  { ns := beAt b 0 2, keyLen := beAt b 2 2, cond := beAt b 4 1, reservedZero := beAt b 5 3 = 0, valueLen := beAt b 8 8,
    expect := beAt b 16 8, uploadId := beAt b 24 4, partGrain := beAt b 28 4 }

/-- Key bytes with the zeros up to the next multiple of 8 from the start of the command (R64). -/
def keyPadded (n : Nat) : Nat := (n + 7) / 8 * 8

def trailer (r : Nat × Nat × Nat × Nat × Nat) : Bytes :=
  beBytes 2 r.1 ++ [BitVec.ofNat 8 r.2.1, BitVec.ofNat 8 r.2.2.1] ++ beBytes 4 r.2.2.2.1 ++ beBytes 8 r.2.2.2.2

def notice (kind tag status refSeq state tagMap : Nat) : Bytes :=
  [BitVec.ofNat 8 kind, BitVec.ofNat 8 tag] ++ beBytes 2 status ++ beBytes 4 refSeq ++ [BitVec.ofNat 8 state, 0, 0, 0]
  ++ beBytes 4 tagMap

/-! ### Route tags (R16-R18) -/

/-- The fields of a route tag. -/
structure Rt where
  next : Nat := 0
  kind : Nat := 0
  session : Nat := 0
  tag : Nat := 0
  slot : Nat := 0
  ns : Nat := 0
  tenant : Nat := 0
  keyPage : Nat := 0
  grain : Nat := 0
  version : Nat := 0
  cell : Nat := 0
  length : Nat := 0
  gear : Nat := 0
  cf : Nat := 0
  first : Bool := false
  last : Bool := false
  ordered : Bool := false
  sealed : Bool := false
  vbr : Bool := false
  mirror : Bool := false
  cls : Nat := 0
deriving DecidableEq, Repr

def rtOf (t : RouteTag) : Rt :=
  let f := fun lo n => bitsOf t.toNat lo n
  { next := f 252 4, kind := f 248 4, session := f 227 21, tag := f 222 5, slot := f 203 19, ns := f 187 16,
    tenant := f 171 16, keyPage := f 155 16, grain := f 137 18, version := f 73 64, cell := f 68 5, length := f 59 9,
    gear := f 56 3, cf := f 54 2, first := t.getLsbD 53, last := t.getLsbD 52, ordered := t.getLsbD 51,
    sealed := t.getLsbD 50, vbr := t.getLsbD 49, mirror := t.getLsbD 48, cls := f 45 3 }

/-- Bits 255:16 of the tag, most significant byte first, as RT_CRC reads them (R17). -/
def rtCrcOf (t : RouteTag) : BitVec 16 := crc16 (beBytes 30 (t.toNat / 65536))

def rtPack (r : Rt) : RouteTag :=
  let p := fun lo n v => (v % 2 ^ n) * 2 ^ lo
  let v := p 252 4 r.next + p 248 4 r.kind + p 227 21 r.session + p 222 5 r.tag + p 203 19 r.slot + p 187 16 r.ns
    + p 171 16 r.tenant + p 155 16 r.keyPage + p 137 18 r.grain + p 73 64 r.version + p 68 5 r.cell + p 59 9 r.length
    + p 56 3 r.gear + p 54 2 r.cf + p 53 1 (boolNat r.first) + p 52 1 (boolNat r.last) + p 51 1 (boolNat r.ordered)
    + p 50 1 (boolNat r.sealed) + p 49 1 (boolNat r.vbr) + p 48 1 (boolNat r.mirror) + p 45 3 r.cls
  let t := BitVec.ofNat 256 v
  t ||| (rtCrcOf t).zeroExtend 256

/-- The tag may be acted on: RT_CRC is good and no reserved code stands in NEXT_STAGE, CELL_KIND, GEAR, CELL_IN_GRAIN
or LENGTH (R17, R18). -/
def rtGood (t : RouteTag) : Bool :=
  let r := rtOf t
  (t.truncate 16 == rtCrcOf t) && decide (r.next ≤ 0xB) && decide (r.kind ≤ 0x7) && decide (r.gear ≠ 7)
    && decide (r.cell ≤ 16) && decide (r.length ≤ 256)

/-- Nibble of R14 and SOURCE domain of the engine a NEXT_STAGE code names (R17, R18). -/
def stageNibble : Nat → Nat
  | 0x0 => 1 | 0x1 => 2 | 0x2 => 3 | 0x3 => 5 | 0x4 => 4 | 0x5 => 6 | 0x6 => 7 | 0x7 => 8 | 0x8 => 0xA | 0x9 => 0xC
  | _ => 0xB

/-! ### Flits (R155-R158, R276) -/

structure FlitView where
  ftype : Nat
  fseq : BitVec 8
  fack : BitVec 8
  cra : BitVec 6
  crb : BitVec 6
  body : BitVec 64
  fcrc : BitVec 32

def flitView (h : FlitHeader) : FlitView :=
  { ftype := bitsOf h.toNat 124 4, fseq := h.extractLsb' 116 8, fack := h.extractLsb' 108 8, cra := h.extractLsb' 102 6,
    crb := h.extractLsb' 96 6, body := h.extractLsb' 32 64, fcrc := h.extractLsb' 0 32 }

/-- FCRC over header bytes 0-11 and the 240 payload bytes (R155). -/
def flitCrc (h : FlitHeader) (payload : Bytes) : BitVec 32 := crc32c (beBytes 12 (h.toNat / 2 ^ 32) ++ payload)

def flitHeader (ftype : Nat) (fseq fack : BitVec 8) (cra crb : BitVec 6) (body : BitVec 64) (payload : Bytes) :
    FlitHeader :=
  let h : FlitHeader := BitVec.ofNat 128
    (ftype * 2 ^ 124 + fseq.toNat * 2 ^ 116 + fack.toNat * 2 ^ 108 + cra.toNat * 2 ^ 102 + crb.toNat * 2 ^ 96
      + body.toNat * 2 ^ 32)
  h ||| (flitCrc h payload).zeroExtend 128

/-- A payload filled with zeros to the 240 bytes of a flit (R155). -/
def flitPayload (b : Bytes) : Bytes := slice b 0 240

/-- Bits 95:32 of CMD and STATUS flits: OP, OPID, CHANNEL, DIE and the rest (R156, R158). -/
structure OpView where
  op : Nat
  opid : Nat
  channel : Nat
  die : Nat
  nstat : Nat
  result : Nat
  index : Nat
  len : Nat
  last : Bool

def opView (b : BitVec 64) : OpView :=
  let f := fun lo n => bitsOf b.toNat lo n
  { op := f 56 8, opid := f 44 12, channel := f 39 5, die := f 35 4, nstat := f 27 8, result := f 19 8, index := f 35 9,
    len := f 27 8, last := b.getLsbD 26 }

def cmdBody (op opid channel die row : Nat) (slc : Bool) : BitVec 64 :=
  BitVec.ofNat 64 (op * 2 ^ 56 + opid * 2 ^ 44 + channel * 2 ^ 39 + die * 2 ^ 35 + row % 2 ^ 28 * 2 ^ 7 + boolNat slc * 2 ^ 6)

def dataBody (op opid index len : Nat) (last : Bool) : BitVec 64 :=
  BitVec.ofNat 64 (op * 2 ^ 56 + opid * 2 ^ 44 + index * 2 ^ 35 + len * 2 ^ 27 + boolNat last * 2 ^ 26)

/-- LCODE of a LINK flit in bits 95:88 and the operand of RETRY_REQ in bits 87:80 (R158, R275). -/
def linkBody (lcode arg : Nat) : BitVec 64 := BitVec.ofNat 64 (lcode * 2 ^ 56 + arg * 2 ^ 48)

/-- OCLASS, OBJ, BODY and PART of a tandem flit (R276). -/
def tdmBody (oclass obj body part : Nat) : BitVec 64 :=
  BitVec.ofNat 64 (oclass * 2 ^ 56 + obj % 2 ^ 32 * 2 ^ 24 + body * 2 ^ 5 + part)

def tdmView (b : BitVec 64) : Nat × Nat × Nat × Nat :=
  (bitsOf b.toNat 56 8, bitsOf b.toNat 24 32, bitsOf b.toNat 5 19, bitsOf b.toNat 0 5)

/-! ### Physical addresses (R173, R175) -/

structure PgaView where
  spoke : Nat
  channel : Nat
  die : Nat
  plane : Nat
  pageIx : Nat
  cw : Nat
deriving DecidableEq, Repr

def pgaView (p : Nat) : PgaView :=
  { spoke := bitsOf p 44 4, channel := bitsOf p 39 5, die := bitsOf p 35 4, plane := bitsOf p 33 2,
    pageIx := bitsOf p 2 31, cw := bitsOf p 0 2 }

def pgaPack (v : PgaView) : Nat :=
  v.spoke % 16 * 2 ^ 44 + v.channel % 32 * 2 ^ 39 + v.die % 16 * 2 ^ 35 + v.plane % 4 * 2 ^ 33 + v.pageIx % 2 ^ 31 * 4 + v.cw % 4

def locPack (grains headLga : Nat) : Nat := grains % 2 ^ 19 * 2 ^ 40 + headLga % 2 ^ 40
def locGrains (loc : Nat) : Nat := bitsOf loc 40 19
def locHead (loc : Nat) : Nat := bitsOf loc 0 40

/-! ### Grain tags, whitening and the LDPC code (R179, R215-R217) -/

def gtagBytes (t : GTag) : Bytes :=
  let b := leBytes 16 t.digest.toNat ++ leBytes 8 t.version ++ leBytes 8 t.wseq ++ leBytes 5 t.lga
    ++ [BitVec.ofNat 8 (t.kind * 16 + t.gear)] ++ leBytes 2 t.ns ++ leBytes 4 t.grain
  b ++ leBytes 4 (crc32c b).toNat

def gtagOf (b : Bytes) : GTag :=
  { digest := BitVec.ofNat 128 (leAt b 0 16), version := leAt b 16 8, wseq := leAt b 24 8, lga := leAt b 32 5,
    kind := leAt b 37 1 / 16, gear := leAt b 37 1 % 8, ns := leAt b 38 2, grain := leAt b 40 4 }

def gtagCrcGood (b : Bytes) : Bool := decide (leAt b 44 4 = (crc32c (b.take 44)).toNat)

/-- One byte of the whitening sequence: eight steps of x^23 + x^18 + 1 (R216). -/
def whitenByte (r : BitVec 23) : Byte × BitVec 23 :=
  (List.range 8).foldl (fun (acc : Byte × BitVec 23) i =>
    let out := acc.2.getLsbD 22
    let fb := out ^^ acc.2.getLsbD 17
    (if out then acc.1 ||| (1#8 <<< i) else acc.1, (acc.2 <<< 1) ||| (if fb then 1#23 else 0#23))) (0, r)

def whitenSeed (pga : Nat) : BitVec 23 :=
  let v := pgaView pga
  let x := BitVec.ofNat 23 (v.pageIx % 2 ^ 21 * 4 + v.cw) ^^^ 0x2AAAAA#23
  if x = 0 then 1 else x

/-- XOR the information bytes with the whitening sequence of the codeword's PGA (R216). -/
def whiten (pga : Nat) (b : Bytes) : Bytes :=
  (b.foldl (fun (acc : Bytes × BitVec 23) x => let w := whitenByte acc.2; ((x ^^^ w.1) :: acc.1, w.2))
    ([], whitenSeed pga)).1.reverse

/-- Columns of a codeword: 145 words of 256 bits (R217). -/
def ldpcCols (b : Bytes) : List (BitVec 256) := (blocksOf 32 b).map fun c => BitVec.ofNat 256 (leNat c)

/-- Whether information column `j` has a circulant at row `r`, and its shift (R217). -/
def ldpcIn (r j : Nat) : Bool := j % 15 == r || (j + 5) % 15 == r || (j + 10) % 15 == r

/-- The information part of row `r`. -/
def ldpcRow (cols : List (BitVec 256)) (r : Nat) : BitVec 256 :=
  ((cols.take 130).zip (List.range 130)).foldl (fun acc p =>
    if ldpcIn r p.2 then acc ^^^ p.1.rotateRight ((37 * r + 11 * p.2 + r * p.2) % 256) else acc) 0

/-- Parity part of row `r`: columns 130 to 144 (R217). -/
def ldpcParityRow (p : List (BitVec 256)) (r : Nat) : BitVec 256 :=
  let p0 := p.getD 0 0
  (if r = 0 ∨ r = 14 then p0.rotateRight 1 else if r = 7 then p0 else 0)
    ^^^ (if r ≤ 13 then p.getD (1 + r) 0 else 0) ^^^ (if 1 ≤ r then p.getD r 0 else 0)

/-- All 3,840 parity checks are satisfied. -/
def ldpcValid (cw : Bytes) : Bool :=
  let cols := ldpcCols cw
  (List.range 15).all fun r => ldpcRow cols r ^^^ ldpcParityRow (cols.drop 130) r == 0

/-- The parity columns for whitened information: the dual diagonal solved from row 0 on. -/
def ldpcParity (info : Bytes) : Bytes :=
  let cols := ldpcCols info
  let ss := (List.range 15).map (ldpcRow cols)
  let p0 := ss.foldl (· ^^^ ·) 0
  let ps := (List.range 14).foldl (fun (acc : List (BitVec 256)) r =>
    let own := ss.getD r 0 ^^^ (if r = 0 then p0.rotateRight 1 else if r = 7 then p0 else 0)
    acc ++ [own ^^^ (if r = 0 then 0 else acc.getD r 0)]) [p0]
  ps.flatMap fun x => leBytes 32 x.toNat

/-- The 4,640 bytes of a codeword at a PGA, from its body and its 48 tag bytes (R215, R216). -/
def encodeCw (pga : Nat) (body tag : Bytes) : Bytes :=
  let info := whiten pga (slice body 0 4112 ++ slice tag 0 48)
  info ++ ldpcParity info

/-- Body and tag bytes of a decoded codeword, whitening removed (R216). -/
def decodeCw (pga : Nat) (cw : Bytes) : Bytes × Bytes :=
  let info := whiten pga (cw.take 4160)
  (info.take 4112, info.drop 4112)

/-! ### Redundancy span and GF(2^8) of R247 -/

/-- The 34-byte tag core (R243), and for parity tags the three TPAR fields (R244). -/
def coreOf (tag : Bytes) : Bytes :=
  if leAt tag 37 1 / 16 = 0xF then slice tag 0 24 ++ slice tag 32 5 ++ slice tag 38 5
  else slice tag 0 24 ++ slice tag 32 6 ++ slice tag 40 4

def spanOf (body tag : Bytes) : Bytes := slice body 0 4112 ++ coreOf tag

/-- Parity tag of R244. -/
def parityTag (core : Bytes) (wseq gear prole : Nat) : Bytes :=
  let b := slice core 0 24 ++ leBytes 8 wseq ++ slice core 24 5 ++ [BitVec.ofNat 8 (0xF0 + gear)] ++ slice core 29 5
    ++ [BitVec.ofNat 8 prole]
  b ++ leBytes 4 (crc32c b).toNat

def gf (a b : Nat) : Nat :=
  ((List.range 8).foldl (fun (acc : Nat × Nat) i =>
    (if b.testBit i then acc.1 ^^^ acc.2 else acc.1,
     let d := acc.2 * 2; if 256 ≤ d then (d % 256) ^^^ 0x1D else d)) (0, a % 256)).1

/-- Inverse as the 254th power. -/
def gfInv (a : Nat) : Nat := Nat.repeat (fun x => gf x a) 253 a

/-- Cauchy coefficient C[i][j] (R247). -/
def cauchy (i j : Nat) : Nat := gfInv ((15 + i) ^^^ j)

def gfScale (c : Nat) (b : Bytes) : Bytes := b.map fun x => BitVec.ofNat 8 (gf c x.toNat)

/-- Parity row `i` over the data spans (R247). -/
def rsRow (i : Nat) (data : List Bytes) : Bytes :=
  (data.zip (List.range data.length)).foldl (fun acc p => xorBytes acc (gfScale (cauchy i p.2) p.1))
    (List.replicate (data.headD []).length 0)

/-- One elimination step on rows of (coefficients, span): pick a row with a pivot in column `c`. -/
def rsElim (rows : List (List Nat × Bytes)) (c : Nat) : List (List Nat × Bytes) :=
  match rows.find? (fun r => r.1.getD c 0 ≠ 0 ∧ (r.1.take c).all (· = 0)) with
  | none => rows
  | some p =>
    let inv := gfInv (p.1.getD c 0)
    let p' := (p.1.map (gf inv), gfScale inv p.2)
    rows.map fun r =>
      if r = p then p'
      else
        let f := r.1.getD c 0
        (List.zipWith (fun a b => a ^^^ gf f b) r.1 p'.1, xorBytes r.2 (gfScale f p'.2))

/-- R248: the data spans of a stripe from the members present (k data, then m parity rows); none when more members
are missing than the parity rows present. -/
def rsDecode (k : Nat) (members : List (Option Bytes)) : Option (List Bytes) :=
  let missing := (List.range k).filter fun j => (members.getD j none).isNone
  let rows := ((members.drop k).zip (List.range (members.length - k))).filterMap fun p => p.1.map fun b => (p.2, b)
  if rows.length < missing.length then none
  else
    let sys := (rows.take missing.length).map fun (i, b) =>
      let known := (List.range k).foldl (fun acc j =>
        match members.getD j none with
        | some d => xorBytes acc (gfScale (cauchy i j) d)
        | none => acc) b
      (missing.map (cauchy i), known)
    let solved := (List.range missing.length).foldl rsElim sys
    let pick := fun c => (solved.find? (fun r => r.1.getD c 0 = 1 ∧ (r.1.take c).all (· = 0))).map Prod.snd
    some ((List.range k).map fun j =>
      match members.getD j none with
      | some d => d
      | none => (pick (missing.idxOf j)).getD [])

/-! ### Check fields, key records, extents (R107, R137, R249) -/

def checkField (grain version ns : Nat) (plain : Bytes) : Bytes :=
  leBytes 8 (crc64 plain).toNat ++ leBytes 2 grain ++ leBytes 4 version ++ leBytes 2 ns

def keyRecord (ns : Nat) (key : Bytes) (version valueLen : Nat) : Bytes :=
  leBytes 2 ns ++ leBytes 2 key.length ++ leBytes 4 0 ++ leBytes 8 version ++ leBytes 8 valueLen ++ leBytes 8 0
  ++ padTo 8 key

/-- AAD of an extent (R137). -/
def extentAad (ns tenant kind valueLen bind : Nat) (partTable : Bytes) : Bytes :=
  leBytes 2 ns ++ leBytes 2 tenant ++ [BitVec.ofNat 8 kind, 0, 0, 0] ++ leBytes 8 valueLen ++ leBytes 8 bind ++ partTable

def sealBytes (iv : Bytes) (gen : Nat) (tag : Bytes) : Bytes := slice iv 0 12 ++ leBytes 4 gen ++ slice tag 0 16

/-- Body of a head codeword (R176). -/
def headBody (sealB : Bytes) (dataLga parts uploadId : Nat) (keyCt partTable : Bytes) : Bytes :=
  slice (sealB ++ leBytes 8 dataLga ++ leBytes 4 parts ++ leBytes 4 uploadId ++ keyCt ++ partTable) 0 4112

/-- INSTANCE and the counter make the IV (R139). -/
def ivOf (serial side ctr : Nat) : Bytes := beBytes 4 (serial % 2 ^ 31 * 2 + side) ++ beBytes 8 ctr

/-! ### Bucket pages (R102, R103) -/

def bslotBytes (x : BSlot) : Bytes :=
  leBytes 2 x.ns ++ leBytes 2 x.keyLen ++ [BitVec.ofNat 8 (boolNat x.lost + 2 * boolNat x.multipart), 0, 0, 0]
  ++ leBytes 16 x.digest.toNat ++ leBytes 8 x.version ++ leBytes 8 x.valueLen ++ leBytes 8 x.loc ++ List.replicate 16 0

def zeros (n : Nat) : Bytes := List.replicate n 0

/-- The bytes of slot `i` of a bucket page: an occupied slot, or 64 zeros. -/
def bslotOrZero (sl : Tbl BSlot) (i : Nat) : Bytes :=
  match sl.get? i with
  | some x => bslotBytes x
  | none => zeros 64

def bucketPage (b : Nat) (d : DirEnt) : Bytes :=
  let p : Bytes := ascii "CBKT" ++ leBytes 4 b ++ leBytes 8 d.pageSeq ++ [BitVec.ofNat 8 d.slots.length, 1#8] ++ zeros 46
    ++ (List.range 40).flatMap (bslotOrZero d.slots) ++ zeros 1464
  p ++ leBytes 8 (crc64 p).toNat

/-- A stripe-journal entry (R255). -/
def stripeEntry (x : Stripe) : Bytes :=
  let b := leBytes 8 x.eseq ++ leBytes 4 x.band ++ leBytes 2 x.unit ++ leBytes 2 x.ns ++
    [BitVec.ofNat 8 x.k, BitVec.ofNat 8 x.m, BitVec.ofNat 8 x.gear, if x.closed then 2#8 else 1#8]
    ++ leBytes 2 x.programmed.toNat ++ leBytes 2 x.absent.toNat ++ leBytes 4 (if x.hasBuf then 0 else 0xFFFFFFFF)
    ++ leBytes 2 x.lost.toNat ++ [0, 0] ++ (List.range 16).flatMap (fun n => leBytes 4 (x.mwseq.getD n 0))
    ++ List.replicate 24 0
  b ++ leBytes 8 (crc64 b).toNat

/-! ### Ring entries (R322, R325, R330) -/

/-- PHASE(s) of R322. -/
def ringPhase (s : Nat) : Nat := s % 65535 + 1

/-- The CRC of a 64-byte entry is good. -/
def entryCrcGood (e : Bytes) : Bool := decide (leAt e 60 2 = (crc16 (slice e 0 60)).toNat)

/-- Close a 60-byte entry with its CRC and PHASE. -/
def closeEntry (b : Bytes) (s : Nat) : Bytes :=
  let b := slice b 0 60
  b ++ leBytes 2 (crc16 b).toNat ++ leBytes 2 (ringPhase s)

/-- A submission entry's head (R325), and whether every reserved field is 0. -/
def entryHead (e : Bytes) : Head :=
  { ns := leAt e 4 2, keyLen := leAt e 6 2, cond := leAt e 8 1, valueLen := leAt e 16 8, expect := leAt e 24 8,
    uploadId := leAt e 12 4, partGrain := leAt e 32 4,
    reservedZero := leAt e 1 1 / 4 = 0 ∧ leAt e 9 1 = 0 ∧ leAt e 36 4 = 0 ∧ leAt e 56 4 = 0 }

def completionEntry (c : Cpl) (sqHead : Nat) : Bytes :=
  leBytes 2 c.cid ++ [BitVec.ofNat 8 c.sq, BitVec.ofNat 8 c.opcode] ++ leBytes 2 c.entryIx ++ leBytes 2 sqHead
  ++ List.replicate 8 0 ++ leBytes 2 c.trailer.1 ++ [BitVec.ofNat 8 c.trailer.2.1, BitVec.ofNat 8 c.trailer.2.2.1]
  ++ leBytes 4 c.trailer.2.2.2.1 ++ leBytes 8 c.trailer.2.2.2.2 ++ leBytes 8 c.valueLen ++ leBytes 4 c.uploadId
  ++ List.replicate 16 0

/-! ### Iawatal requests and responses (R304) -/

def parseRequest (b : Bytes) : Request :=
  { opcode := leAt b 0 1, flags := leAt b 1 1, paramLen := leAt b 2 2, reqId := leAt b 4 4, bufAddr := leAt b 8 8,
    bufLen := leAt b 16 4, reserved := leAt b 20 4, params := slice (b.drop 24) 0 (leAt b 2 2),
    bulk := b.drop (24 + leAt b 2 2) }

def responseHead (status reqId detail bufUsed : Nat) (result : Bytes) : Bytes :=
  leBytes 2 status ++ leBytes 2 result.length ++ leBytes 4 reqId ++ leBytes 4 detail ++ leBytes 4 bufUsed ++ result

/-! ### Event records (R392) -/

def recBytes (r : EvRec) : Bytes :=
  leBytes 8 r.seq ++ leBytes 8 r.time.toNat ++ leBytes 4 r.powerCycles ++ leBytes 2 r.code
  ++ [BitVec.ofNat 8 r.sev, BitVec.ofNat 8 r.devState] ++ leBytes 2 r.src ++ [0, 0] ++ slice r.payload 0 28 ++ leBytes 8 r.seq

/-! ### Media profiles and health (R166, R171) -/

def profileOf (b : Bytes) : Profile :=
  { id := leAt b 0 4, matchBridge := leAt b 4 4, matchNand := slice b 8 12, pageData := leAt b 20 2, pageSpare := leAt b 22 2,
    pagesPerBlock := leAt b 24 2, blocksPerPlane := leAt b 26 2, planes := leAt b 28 1, bitsPerCell := leAt b 29 1,
    rowCycles := leAt b 30 1, rowShifts := leAt b 31 1, offsetFaddr := leAt b 32 1, offsetCount := leAt b 33 1,
    offsetUnit := leAt b 34 2, offsetRange := leAt b 36 2, suspendCmds := leAt b 38 2, tR := leAt b 40 4, tProg := leAt b 44 2,
    tProgMax := leAt b 46 2, tBers := leAt b 48 2, tBersMax := leAt b 50 2, suspMax := leAt b 52 4, peRated := leAt b 56 2,
    peSlc := leAt b 58 2, chRate := leAt b 60 4, truing := slice b 64 192 }

/-- ALARMS of a health record. -/
def healthAlarms (h : Bytes) : Nat := beAt h 5 1

/-- A signed byte. -/
def sbyte (b : Byte) : Int := b.toInt

/-! ### Firmware images (R364, R365) -/

/-- The check of R365 in the order of the causes of R374; 0 when the image verifies. `ownerSet` says that the owner
root key hash fuse is programmed. -/
def imageCheck (img vendorHash ownerHash : Bytes) (secFuse : Nat) : Nat :=
  let signed := leAt img 44 4
  let n := leAt img 6 2
  let secs := (List.range 16).map fun i => slice img (256 + 16 * i) 16
  let used := secs.take n
  let types := used.map fun e => leAt e 0 2
  let sig := slice img signed 512
  let hash := sha384 (slice img 0 signed)
  let formBad := leAt img 0 4 ≠ leNat (ascii "SLNN") ∨ leAt img 4 2 ≠ 1 ∨ n = 0 ∨ 16 < n ∨ signed % 4096 ≠ 0
    ∨ signed < 512 ∨ 31 * 1048576 < signed + 512 ∨ ¬ [1, 2, 3, 4].all (fun t => types.count t = 1)
  if formBad then 1
  else if slice img 8 16 ≠ slice (ascii "CLX-9416-A0") 0 16 then 2
  else if ¬ used.all (fun e => leAt e 12 4 = (crc32c (slice img (leAt e 4 4) (leAt e 8 4))).toNat) then 3
  else if sha384 (slice sig 0 97) ≠ vendorHash ∨ ecdsaVerify (slice sig 0 97) (slice sig 97 96) hash = false then 4
  else if ¬ ownerHash.all (· = 0) ∧
      (sha384 (slice sig 193 97) ≠ ownerHash ∨ ecdsaVerify (slice sig 193 97) (slice sig 290 96) hash = false) then 5
  else if leAt img 40 4 < secFuse ∨ 64 < leAt img 40 4 then 6
  else 0

/-- The media profiles of section 0x0004 of an image, in the vendor's order (R171). -/
def imageProfiles (img : Bytes) : List Profile :=
  let secs := (List.range (leAt img 6 2)).map fun i => slice img (256 + 16 * i) 16
  match secs.find? (fun e => leAt e 0 2 = 4) with
  | none => []
  | some e => (blocksOf 256 (slice img (leAt e 4 4) (leAt e 8 4))).map profileOf

/-- The boot record's 64 bytes (R363). -/
def bootRecBytes (r : BootRec) : Bytes :=
  let b := leBytes 8 r.recordSeq ++ [BitVec.ofNat 8 r.activeSlot, BitVec.ofNat 8 r.pendingSlot, BitVec.ofNat 8 r.failStep,
    BitVec.ofNat 8 r.failCount] ++ leBytes 2 r.altMask ++ [BitVec.ofNat 8 r.slotFailed] ++ List.replicate 45 0
  b ++ leBytes 4 (crc32c b).toNat

end Sys2Proof.Machine
end

