-- ==== Sys2Proof/Machine/Crank.lean ====
section
/-! DEFINITION. The crank's channels (R338-R341): loading the active and the shadow set, moving bytes, end of count. A
host access is shown when its transfer is handed to the channel; the registers follow the transfers in their order (log
entry 31). -/

namespace Sys2Proof.Machine

def chanOf (s : Blk) (c : Nat) : Chan := s.ring.chans.getD c {}
def setChan (s : Blk) (c : Nat) (x : Chan) : Blk := { s with ring := { s.ring with chans := s.ring.chans.set c x } }

/-- The transfers of a channel in their order: the active set, the shadow set, and those that wait behind it. -/
def Chan.transfersOf (x : Chan) : List Xfer :=
  (if x.busy then [x.act] else []) ++ (if x.shadowValid then [x.shd] else []) ++ x.queue

/-- The sets filled again from a list of transfers: the shadow set only while the active set runs (R340). -/
def Chan.refill (x : Chan) (l : List Xfer) : Chan :=
  { x with
    act := l.headD x.act
    busy := !l.isEmpty
    shd := (l.drop 1).headD x.shd
    shadowValid := decide (2 ≤ l.length)
    queue := l.drop 2 }

/-- Hand a transfer to a channel. -/
def crankLoad (s : Blk) (c : Nat) (t : Xfer) : Blk := setChan s c ((chanOf s c).refill ((chanOf s c).transfersOf ++ [t]))

/-- Change the transfers of a channel. -/
def crankMap (s : Blk) (c : Nat) (f : List Xfer → List Xfer) : Blk :=
  setChan s c ((chanOf s c).refill (f (chanOf s c).transfersOf))

/-- Change the first transfer that has a property. -/
def firstXfer (p : Xfer → Bool) (f : Xfer → Xfer) : List Xfer → List Xfer
  | [] => []
  | t :: l => if p t then f t :: l else t :: firstXfer p f l

/-- Read requests for `len` bytes from an address on: none crosses a 4 KiB boundary or exceeds the Max Read Request Size
(R341). -/
def readPackets (most : Nat) : Nat → Nat → Nat → List (Nat × Nat)
  | 0, _, _ => []
  | k + 1, addr, len =>
    if len = 0 then []
    else
      let n := min len (min (max 1 most) (4096 - addr % 4096))
      (addr, n) :: readPackets most k (addr + n) (len - n)

def hostReads (s : Blk) (addr len : Nat) : Blk :=
  forEach (readPackets s.msi.maxRead (len / max 1 s.msi.maxRead + len / 4096 + 2) addr len) (fun s p => emit s (.hostRead p.1 p.2)) s

/-- Write packets of bytes that go to an address: each ends at the next multiple of the Max Payload Size, which no packet crosses,
or with the bytes; what fills none of them is held back while more bytes follow (R341). -/
def writePackets (size : Nat) (more : Bool) : Nat → Nat → Bytes → List (Nat × Bytes) × Bytes
  | 0, _, b => ([], b)
  | k + 1, addr, b =>
    let n := max 1 size - addr % max 1 size
    if b.isEmpty ∨ (more ∧ b.length < n) then ([], b)
    else
      let r := writePackets size more k (addr + n) (b.drop n)
      ((addr, b.take n) :: r.1, r.2)

/-- Bytes go to an address, with Relaxed Ordering only for value data and only when the host has enabled it (R331). What is
answered is held back. -/
def hostWrites (s : Blk) (value more : Bool) (addr : Nat) (b : Bytes) : Blk × Bytes :=
  let r := writePackets s.msi.maxPayload more (b.length / max 1 s.msi.maxPayload + 2) addr b
  (forEach r.1 (fun s p => emit s (.hostWrite p.1 p.2 (value && s.msi.relaxed))) s, r.2)

/-- A read of host memory goes to the crank. -/
def crankRead (s : Blk) (c sq ref addr len : Nat) : Blk :=
  hostReads (crankLoad s c { hostAddr := addr, count := len, sq := sq, localRef := ref }) addr len

def countMoved (s : Blk) (c n : Nat) : Blk :=
  let x := chanOf s c
  setChan s c { x with bytesMoved := x.bytesMoved + BitVec.ofNat 64 n }

/-- Bytes leave for host memory on a transfer that has been loaded (R339): in whole packets, the last of them with the end of
the transfer. -/
def crankWrite (s : Blk) (c ref addr : Nat) (b : Bytes) : Blk :=
  let mine := fun (t : Xfer) => t.dirOut && t.localRef == ref && t.hostAddr == addr && decide (0 < t.count)
  match (chanOf s c).transfersOf.find? mine with
  | none => s
  | some t =>
    let r := hostWrites s (c != 31) (decide (b.length < t.count)) (addr - t.held.length) (t.held ++ b)
    let s := crankMap r.1 c (firstXfer mine fun t => { t with hostAddr := t.hostAddr + b.length, count := t.count - b.length, held := r.2 })
    countMoved s c b.length

/-- The oldest outstanding read of a reference: its address and length. -/
def readOf (s : Blk) (c ref : Nat) : Option Xfer :=
  (chanOf s c).transfersOf.find? fun t => !t.dirOut && t.localRef == ref && decide (0 < t.count)

/-- The oldest outstanding read of a reference has ended; a failed one sets ERR with its code and does not stop the
channel (R340). -/
def readEnded (s : Blk) (c ref code : Nat) : Blk :=
  match readOf s c ref with
  | none => s
  | some t =>
    let s := crankMap s c (firstXfer (· == t) fun t => { t with hostAddr := t.hostAddr + t.count, count := 0 })
    if code = 0 then countMoved s c t.count
    else
      let x := chanOf s c
      setChan s c { x with err := true, errCode := if x.err then x.errCode else code }

/-- What is left of a reference's transfers is not moved: its command has ended. Bytes handed to them before go out. -/
def crankStop (s : Blk) (c ref : Nat) : Blk :=
  let s := forEach ((chanOf s c).transfersOf.filter fun t => t.localRef == ref)
    (fun s t => (hostWrites s (c != 31) false (t.hostAddr - t.held.length) t.held).1) s
  crankMap s c (List.map fun t => if t.localRef = ref then { t with count := 0, held := [] } else t)

/-- The flushing read of a reference has completed (R331, R340). -/
def crankFlushed (s : Blk) (c ref : Nat) : Blk :=
  crankMap s c (List.map fun t => if t.localRef = ref ∧ t.flush then { t with flushed := true } else t)

/-- End of count (R340): the vector, the promotion, and the load of the freed shadow set, in one cycle. -/
def endOfCountFn (c : Nat) (s : Blk) : Blk :=
  let x := chanOf s c
  match x.transfersOf with
  | [] => s
  | t :: l =>
    if t.count = 0 ∧ (t.flush = false ∨ t.flushed) then
      let s := setChan s c { x.refill l with transfers := x.transfers + 1 }
      if x.eocIrq then vector s c else s
    else s

def execCrankEndOfCount (c : Fin 32) (s : State) : Host.Outcome State Fault Refusal := lift (endOfCountFn c.val) s

/-- R339: a read of ACT_COUNT returns the bytes left and latches the rest of the active set. -/
def actCountFn (c : Nat) (s : Blk) : Blk :=
  let x := chanOf s c
  emit (setChan s c { x with latch := x.act }) (.mmio (BitVec.ofNat 64 x.act.count))

def execActCountRead (c : Fin 32) (s : State) : Host.Outcome State Fault Refusal := lift (actCountFn c.val) s

/-- ACT_LOCAL of a mailbox (the model's numbering: log entry 31). -/
def mboxRef (n : Nat) : Nat := 524288 + n

end Sys2Proof.Machine
end

