-- ==== Sys2Proof/Machine/Flags.lean ====
section
/-! DEFINITION. The codes and the computed conditions of the manual: status codes (R95, R305), token buckets
(R291-R293), redundancy and namespace states (R92, R93, R261), the forms of a command head (R64-R73, R310). -/

namespace Sys2Proof.Machine

/-! ### Status codes of R95 -/

def stOk : Nat := 0x0000
def stBusyRetry : Nat := 0x0101
def stResetAborted : Nat := 0x0103
def stAborted : Nat := 0x0104
def stTooLate : Nat := 0x0110
def stBadRequest : Nat := 0x0201
def stTagInUse : Nat := 0x0202
def stKeyTooLong : Nat := 0x0203
def stTooLargeAtomic : Nat := 0x0204
def stNotPermitted : Nat := 0x0205
def stMalformed : Nat := 0x0206
def stTooLarge : Nat := 0x0207
def stStateConflict : Nat := 0x0301
def stVersionMismatch : Nat := 0x0302
def stNotFound : Nat := 0x0303
def stUploadUnknown : Nat := 0x0304
def stUploadIncomplete : Nat := 0x0305
def stTagFail : Nat := 0x0401
def stCheckFail : Nat := 0x0402
def stValueLost : Nat := 0x0403
def stNsFull : Nat := 0x0501
def stKeyCapacity : Nat := 0x0502
def stUploadLimit : Nat := 0x0503
def stDeviceFault : Nat := 0x0601

/-! ### Token buckets (R291-R293) -/

/-- Refill intervals of 1,024 fabric cycles (R292). -/
def interval (now : Nat) : Nat := now / 1024

/-- The bucket as a refill at every boundary since its last write leaves it (R292); a disabled bucket is held full
(R291). -/
def bucketNow (now : Nat) (b : Bucket) : Bucket :=
  if b.enabled = false then { b with tokens := b.depth, frac := 0, at_ := interval now }
  else
    let n := interval now - b.at_
    let sum := b.tokens * 256 + b.frac + n * b.rate
    if n = 0 then b
    else if (b.depth : Int) * 256 ≤ sum then { b with tokens := b.depth, frac := 0, at_ := interval now }
    else { b with tokens := sum / 256, frac := (sum % 256).toNat, at_ := interval now }

/-- The bucket restarted full (R291). -/
def bucketFullAt (now : Nat) (b : Bucket) : Bucket := { b with tokens := b.depth, frac := 0, at_ := interval now }

/-- The bucket refuses: TOKENS is below zero (R293). -/
def bucketRefuses (now : Nat) (b : Bucket) : Bool := b.enabled && decide ((bucketNow now b).tokens < 0)

def debtFloor : Int := -549755813888

/-- Charge after the refill of the same cycle; the flag says that the charge reached the floor (R293). -/
def bucketCharge (now n : Nat) (b : Bucket) : Bucket × Bool :=
  if b.enabled = false then (b, false)
  else
    let r := bucketNow now b
    let t := r.tokens - n
    if t ≤ debtFloor then ({ r with tokens := debtFloor }, decide (debtFloor < r.tokens)) else ({ r with tokens := t }, false)

/-- Charge a tenant's and a namespace's bucket; a charge that reaches the floor raises 0x3001 (R293). -/
def chargeTenant (s : Blk) (t n : Nat) : Blk :=
  match s.tenants.get? t with
  | some x =>
    let (b, floor) := bucketCharge s.now n x.bucket
    let s := { s with tenants := s.tenants.set t { x with bucket := b } }
    if floor then raise s 0x3001 3 domCmd (pl [(1, 1), (2, t)]) else s
  | none => s

def chargeNs (s : Blk) (ns n : Nat) : Blk :=
  match nsOf s ns with
  | some x =>
    let (b, floor) := bucketCharge s.now n x.bucket
    let s := setNs s ns { x with bucket := b }
    if floor then raise s 0x3001 3 domCmd (pl [(1, 2), (2, ns)]) else s
  | none => s

/-- The device-wide bucket of the thermal step is charged beside them (R300). -/
def charge (s : Blk) (t ns n : Nat) : Blk :=
  let s := chargeNs (chargeTenant s t n) ns n
  { s with loops := { s.loops with bucket := (bucketCharge s.now n s.loops.bucket).1 } }

/-! ### Redundancy and namespace states (R92, R93, R242, R261) -/

/-- A spoke in service for new stripe bands: matched, or a replacement from its acceptance (R263). -/
def inService (s : Blk) (n : Nat) : Bool :=
  let t := (spokeOf s n).sstate
  t == 1 || t == 3

def servingSpokes (s : Blk) : List Nat := (List.range 16).filter (inService s)

/-- The spokes a stripe band opened now takes: the k+m in service with the most free blocks, a tie to the lower number
(R242). -/
def bestSpokes (s : Blk) (n : Nat) : List Nat :=
  ((servingSpokes s).mergeSort fun a b =>
    decide ((spokeOf s b).freeBlocks < (spokeOf s a).freeBlocks) ||
      (decide ((spokeOf s b).freeBlocks = (spokeOf s a).freeBlocks) && decide (a ≤ b))).take n

/-- Members of a band that are lost or absent as a whole (R260, R261). -/
def bandDown (b : Band) : Nat :=
  ((List.range b.members.length).filter fun i => b.lost.contains i || ((b.members.getD i (0, none)).2).isNone).length

/-- The most members lost in any one stripe of a band that still has margin 0 or more; none when every stripe is lost. -/
def bandWorst (b : Band) : Option Nat :=
  let d := bandDown b
  if b.m < d then none
  else
    let us := b.lostAt.map Prod.fst
    let at_ := us.map fun u => d + (b.lostAt.filter (fun p => p.1 = u ∧ ¬ b.lost.contains p.2)).length
    some ((at_.filter (· ≤ b.m)).foldl max d)

/-- The lowest margin of the stripes a namespace holds (R261). -/
def heldMargin (s : Blk) (ns m : Nat) : Option Nat :=
  let mine := s.med.bands.vals.filter fun b => b.ns = ns ∧ 0 < b.nextUnit
  (mine.filterMap bandWorst).foldl (fun a w => some (match a with | some x => min x (m - w) | none => m - w)) none

/-- A rebuild runs for the namespace: one of its bands is still to be rebuilt. -/
def rebuilding (s : Blk) (ns : Nat) : Bool :=
  s.med.rebuilds.vals.any fun r => r.todo.any fun b => (s.med.bands.get? b).any fun x => x.ns = ns

/-- The redundancy state of R261. -/
def redState (s : Blk) (n : Nat) (x : Namespace) : Nat :=
  let none_ := x.k + x.m - (servingSpokes s).length
  let margin := (heldMargin s n x.m).getD (x.m - none_)
  if margin = 0 then 0x43
  else if x.m ≤ margin then 0x41
  else if rebuilding s n then 0x44 else 0x42

/-- Spokes that hold, or would hold, the namespace's new data: the members of its open bands, or of the band that would
open now. -/
def nsSpokes (s : Blk) (n : Nat) (x : Namespace) : List Nat :=
  let bs := s.med.bands.vals.filter fun b => b.ns = n ∧ b.isOpen
  if bs.isEmpty then bestSpokes s (x.k + x.m) else bs.flatMap fun b => b.members.map Prod.fst

/-- Spokes with a member of any band of the namespace (R193). -/
def memberSpokes (s : Blk) (n : Nat) : List Nat :=
  (s.med.bands.vals.filter fun b => b.ns = n).flatMap fun b => b.members.map Prod.fst

/-- READ_ONLY by its own rules: an exhausted key page (R141) or a capacity emergency on a member spoke (R193). -/
def readOnly (x : Namespace) : Bool := x.exhausted || x.capEmerg

/-- The namespace state code of R92 with the precedence of R261. -/
def nsState (s : Blk) (n : Nat) (x : Namespace) : Nat :=
  let r := redState s n x
  if x.offline ∨ x.keyOffline ∨ x.metaOffline ∨ x.deleting then 0x46
  else if s.tdm.paired ∧ (x.ownerSide ≠ s.tdm.side ∨ (s.tdm.localFenced ∧ x.mirrored = false)) then 0x47
  else if r = 0x43 then 0x43
  else if readOnly x then 0x45
  else r

/-- A change of a namespace's redundancy state raises 0x7007 (R261); a change of its state sets bit 2 of ALERT_STATUS
(R410). -/
def judgeOne (s : Blk) (n : Nat) : Blk :=
  match nsOf s n with
  | some x =>
    let r := redState s n x
    let c := nsState s n x
    let s := if r = x.shown ∧ c = x.seen then s else setNs s n { x with shown := r, seen := c }
    let s := if r = x.shown then s else raise s 0x7007 3 domNone (pl [(2, n), (1, x.shown), (1, r)])
    if c = x.seen then s else alert s 2
  | none => s

def judgeNs (s : Blk) : Blk := forEach s.nss.keys judgeOne s

/-! ### Opcodes (R67, R311) -/

def kvOpcodes : List Nat := [0x01, 0x02, 0x03, 0x04, 0x05, 0x10, 0x11, 0x12, 0x13]

def isAdminOp (op : Nat) : Bool := decide (0x80 ≤ op) && decide (op ≤ 0xBF)

def isKvOp (op : Nat) : Bool := kvOpcodes.contains op

/-- Q-class opcodes of R314. -/
def adminQ : List Nat := [0x80, 0x81, 0x85, 0x8C, 0x8D, 0x95, 0x98, 0xA9, 0xB0, 0xB4, 0xB5, 0xB8, 0xBF]

/-- Read-type commands: GET, GET_VERSION, FLUSH, and the Q class of the Iawatal commands (R67, R311). -/
def isReadOp (op : Nat) : Bool := op == 0x01 || op == 0x02 || op == 0x05 || adminQ.contains op

/-- COND, EXPECT_VERSION and the fields marked 0 in R66 suit the opcode. The writes that take a condition are PUT, DELETE and
MP_COMMIT, those whose commit point waits for the condition of R73 (R75, R79; DEDUCED, log entry 42). -/
def headFieldsOk (op : Nat) (h : Head) : Bool :=
  let hasCond := op == 0x03 || op == 0x04 || op == 0x12
  let hasUpload := op == 0x11 || op == 0x12 || op == 0x13
  h.reservedZero
  && (if hasCond then decide (h.cond ≤ 3) else decide (h.cond = 0))
  && (decide (h.cond = 1) || decide (h.expect = 0))
  && (decide (op = 0x03 ∨ op = 0x11 ∨ op = 0x10 ∨ op = 0x12) || isAdminOp op || decide (h.valueLen = 0))
  && (hasUpload || decide (h.uploadId = 0))
  && (decide (op = 0x11) || decide (h.partGrain = 0))
  && (decide (op ≠ 0x11) || (decide (1 ≤ h.valueLen) && decide (h.valueLen ≤ 16777216)))
  && (decide (op ≠ 0x10) || decide (1 ≤ h.valueLen))

/-- Cause 2 of R91: opcode, head fields, key length, in that order; 0 when there is none. `admin` says that the session
is an admin session. -/
def formCause (admin : Bool) (op : Nat) (h : Head) : Nat :=
  if ¬ (isKvOp op ∨ isAdminOp op) then stBadRequest
  else if isAdminOp op ∧ admin = false then stNotPermitted
  else if headFieldsOk op h = false then stBadRequest
  else if op = 0x05 ∨ isAdminOp op then (if h.keyLen = 0 then 0 else stBadRequest)
  else if h.keyLen = 0 then stBadRequest
  else if 512 < h.keyLen then stKeyTooLong else 0

/-- Cause 4 of R91: the namespace state refuses a read-type or a write-type command (R93). -/
def stateRefuses (code op : Nat) : Bool :=
  if isReadOp op then code == 0x46 || code == 0x47
  else code == 0x43 || code == 0x46 || code == 0x47 || (code == 0x45 && !(op == 0x04 || op == 0x13))

/-- Value bytes that the command itself carries (R67, R310). -/
def carriedBytes (op : Nat) (h : Head) : Nat := if op = 0x03 ∨ op = 0x11 ∨ isAdminOp op then h.valueLen else 0

/-- The command's exact length (R64). -/
def commandLen (op : Nat) (h : Head) : Nat := keyPadded (32 + h.keyLen) + carriedBytes op h

/-- Cause 5 of R91. -/
def sizeCause (op : Nat) (h : Head) : Nat :=
  if op = 0x03 ∧ 16777216 < h.valueLen then stTooLargeAtomic
  else if op = 0x10 ∧ 1073741824 < h.valueLen then stTooLarge else 0

/-- Grains of a value: a value of 0 bytes has none (R137). -/
def grainsOf (len : Nat) : Nat := (len + 4095) / 4096

/-! ### Device states (R58, R92) -/

/-- The status a device state gives to a command at admission; 0 when it admits it (R92). -/
def devCause : DevState → Nat
  | .run => 0 | .activating => 0 | .booting => stStateConflict | .draining => stStateConflict
  | .freewheelEntry => stStateConflict | .recovery => stStateConflict | .kickstand => stDeviceFault

/-- The status a device state gives to an open; 0 when it takes it (R58). -/
def openCause : DevState → Nat
  | .run => 0 | .activating => 0 | .kickstand => stDeviceFault | _ => stStateConflict

end Sys2Proof.Machine
end

