-- ==== Sys2Proof/Machine/Framing.lean ====
section
/-! DEFINITION. Line framing of the spoke links and of the tandem link: pairs of codewords, lanes and the pair marker
(R152, R153, R275). -/

namespace Sys2Proof.Machine

/-! ### RS(544,514) over GF(2^10) (R152)

The manual names the code alone. Its field polynomial x^10 + x^3 + 1, its generator with the roots 0 to 29 of the primitive
element and the order of the bits in a symbol, the first one highest, are PRESUMED (log entry 45). -/

/-- One step of the multiplication: twice an element. -/
def gfTwice (a : Nat) : Nat := if 512 ≤ a then (a * 2) ^^^ 0x409 else a * 2

/-- Product of two elements, over the ten bits of the second. -/
def gfTimes (a b : Nat) : Nat :=
  ((List.range 10).foldl (fun (acc : Nat × Nat) i => (if b.testBit i then acc.1 ^^^ acc.2 else acc.1, gfTwice acc.2)) (0, a)).1

/-- Powers 0 to n - 1 of the primitive element. -/
def gfPowers (n : Nat) : List Nat := ((List.range n).foldl (fun (acc : List Nat × Nat) _ => (acc.1 ++ [acc.2], gfTwice acc.2)) ([], 1)).1

/-- The generator polynomial without its leading term, the highest coefficient first. -/
def lineGenerator : List Nat :=
  ((gfPowers 30).foldl (fun g r => List.zipWith (· ^^^ ·) (g ++ [0]) (0 :: g.map (gfTimes r))) [1]).drop 1

/-- The 30 parity symbols of 514 information symbols. -/
def lineParity (info : List Nat) : List Nat :=
  info.foldl (fun r d =>
    let f := d ^^^ r.headD 0
    List.zipWith (fun x g => x ^^^ gfTimes f g) (r.drop 1 ++ [0]) lineGenerator) (List.replicate 30 0)

def lineCodeword (info : List Nat) : List Nat := info ++ lineParity info

/-! ### Pairs and lanes (R153) -/

/-- Lanes of a link in each direction (R152, R275). -/
def laneCount : Link → Nat
  | .spoke _ => 8
  | .tandem => 16

/-- The four symbols of five bytes. -/
def symbolsOf5 (b : Bytes) : List Nat := let v := beAt b 0 5; [v / 2 ^ 30, v / 2 ^ 20 % 1024, v / 2 ^ 10 % 1024, v % 1024]

/-- The pair marker: 0xC7_1E5B, then sixteen zero bits. -/
def pairMarker : Bytes := beBytes 5 (0xC71E5B * 2 ^ 16)

/-- The 1,028 information symbols of a pair: the marker, then five flits, each header first. -/
def pairSymbols (fs : List (FlitHeader × Bytes)) : List Nat :=
  (blocksOf 5 (pairMarker ++ fs.flatMap fun f => beBytes 16 f.1.toNat ++ f.2)).flatMap symbolsOf5

/-- The two codewords of a pair. -/
def pairCodewords (fs : List (FlitHeader × Bytes)) : List Nat :=
  lineCodeword ((pairSymbols fs).take 514) ++ lineCodeword ((pairSymbols fs).drop 514)

/-- Symbols go round robin over the lanes, from lane 0 on. -/
def toLanes (n : Nat) (cw : List Nat) : List (List Nat) :=
  (List.range n).map fun l => (List.range ((cw.length + n - 1 - l) / n)).map fun i => cw.getD (i * n + l) 0

def pairLanes (l : Link) (fs : List (FlitHeader × Bytes)) : List (List Nat) := toLanes (laneCount l) (pairCodewords fs)

/-- A pair whose marker is wrong on a lane: its four symbols lie on lanes 0 to 3 (R154). -/
def markerWrong (lanes : List (List Nat)) : Bool :=
  decide ((List.range 4).map (fun i => (lanes.getD i []).headD 1024) ≠ symbolsOf5 pairMarker)

end Sys2Proof.Machine
end

