-- ==== Sys2Proof/Machine/LinkTx.lean ====
section
/-! DEFINITION. Sending on a spoke link or on the tandem link: flits, credits, the window of 128 and the replay buffer
(R155, R159-R161, R275). -/

namespace Sys2Proof.Machine

/-- The credit a flit type uses: 1 the first channel (CMD; STATE and HELD), 2 the second (DATA_OUT; VALUE), 0 none. -/
def creditOf : Nat → Nat
  | 0x1 => 1 | 0x2 => 2 | 0x6 => 1 | 0x8 => 1 | 0x7 => 2 | _ => 0

/-- Credits shown by the next flit: each count rises by at most 7 (R161). -/
def showCredits (k : LinkSt) : LinkSt :=
  let a := min 7 k.owedA
  let b := min 7 k.owedB
  { k with freedA := k.freedA + BitVec.ofNat 6 a, freedB := k.freedB + BitVec.ofNat 6 b, owedA := k.owedA - a,
           owedB := k.owedB - b }

/-- The header of a flit as this side sends it now: FACK names the last flit accepted in order (R155). -/
def headerNow (k : LinkSt) (fseq : BitVec 8) (f : Flit) : FlitHeader :=
  flitHeader f.ftype fseq (k.rxSeq - 1) k.freedA k.freedB f.body f.payload

/-- A flit may be sent: its channel has a credit and the window has room (R159, R161). -/
def sendable (k : LinkSt) (f : Flit) : Bool :=
  decide (k.replay.length < 128) &&
    (match creditOf f.ftype with
     | 1 => decide (0 < k.crA)
     | 2 => decide (0 < k.crB)
     | _ => true)

/-- A flit goes to the line: the fifth one completes a pair, whose two codewords leave over the lanes (R152, R153). -/
def sendLine (s : Blk) (l : Link) (h : FlitHeader) (payload : Bytes) : Blk :=
  let k := linkOf s l
  let fs := k.pair ++ [(h, payload)]
  let s := emit s (.flit l h payload)
  if fs.length < 5 then setLink s l { k with pair := fs } else emit (setLink s l { k with pair := [] }) (.pair l (pairLanes l fs))

/-- Send a sequence-consuming flit now. -/
def sendSeq (s : Blk) (l : Link) (f : Flit) : Blk :=
  let k := showCredits (linkOf s l)
  let c := creditOf f.ftype
  let h := headerNow k k.txSeq f
  sendLine (setLink s l { k with
      replay := k.replay ++ [(k.txSeq, f)], txSeq := k.txSeq + 1
      crA := if c = 1 then k.crA - 1 else k.crA, crB := if c = 2 then k.crB - 1 else k.crB }) l h f.payload

/-- IDLE: it carries the next FSEQ and is never replayed (R155). -/
def sendIdle (s : Blk) (l : Link) : Blk :=
  let k := showCredits (linkOf s l)
  sendLine (setLink s l k) l (headerNow k k.txSeq { payload := zeros 240 }) (zeros 240)

/-- The flit that goes next: the oldest one; on the tandem link a STATE or HELD flit before a VALUE flit (R275). -/
def nextFlit (k : LinkSt) : Option Flit :=
  match k.txq.find? (fun f => f.ftype ≠ 0x7) with
  | some f => if sendable k f then some f else (k.txq.find? (fun f => f.ftype = 0x7)).filter (sendable k)
  | none => (k.txq.find? (fun f => f.ftype = 0x7)).filter (sendable k)

/-- Send what credits and the window allow; a link that is not up keeps its flits. -/
def pumpN : Nat → Blk → Link → Blk
  | 0, s, _ => s
  | n + 1, s, l =>
    let k := linkOf s l
    if k.phase = .up then
      match nextFlit k with
      | some f => pumpN n (sendSeq (setLink s l { k with txq := k.txq.erase f }) l f) l
      | none => s
    else s

def pump (s : Blk) (l : Link) : Blk := pumpN (linkOf s l).txq.length s l

/-- A link that is up and has nothing that it may send sends IDLE (R155, R159). -/
def idleLink (s : Blk) (l : Link) : Blk :=
  if (linkOf s l).phase = .up ∧ (nextFlit (linkOf s l)).isNone then sendIdle s l else s

/-- Queue flits and send what may go. During a dump no operation but the dump's own goes to a spoke (R356). -/
def queueFlits (s : Blk) (l : Link) (fs : List Flit) : Blk :=
  let k := linkOf s l
  if s.pwr.dump.isSome ∧ l ≠ .tandem then s else pump (setLink s l { k with txq := k.txq ++ fs }) l

/-! ### Operations of a spoke (R156, R162, R163) -/

def opRead : Nat := 0x01
def opReadOffset : Nat := 0x02
def opProgram : Nat := 0x03
def opErase : Nat := 0x04
def opSuspend : Nat := 0x07
def opDieStatus : Nat := 0x09
def opResetDie : Nat := 0x0A
def opReadParam : Nat := 0x0B
def opBridgeQuery : Nat := 0x20

/-- Operations that the bridge offers and that no rule has the device send (R163). -/
def opSetFeature : Nat := 0x05
def opGetFeature : Nat := 0x06
def opResume : Nat := 0x08

/-- CMD payload of SET_FEATURE: FADDR, and P1 to P4 from byte 4; of GET_FEATURE: FADDR (R163). -/
def setFeatureBody (faddr : Nat) (p : Bytes) : Bytes := beBytes 1 faddr ++ zeros 3 ++ slice p 0 4
def getFeatureBody (faddr : Nat) : Bytes := beBytes 1 faddr

/-- P1 to P4 in the STATUS payload of GET_FEATURE (R163). -/
def featureOf (payload : Bytes) : Bytes := payload.take 4

/-- The spoke link of a slot. -/
def spokeLink (n : Nat) : Link := .spoke (Fin.ofNat 16 n)

/-- DATA_OUT flits of a transfer (R157). -/
def dataFlits (op opid : Nat) (b : Bytes) : List Flit :=
  let bs := blocksOf 240 b
  (bs.zip (List.range bs.length)).map fun p =>
    { ftype := 0x2, body := dataBody op opid p.2 p.1.length (p.2 + 1 == bs.length), payload := flitPayload p.1 }

/-- Every operation of a spoke, those that wait for an OPID too. -/
def allOps (x : SpokeSt) : List Op := x.ops.vals ++ x.opWait.map Prod.fst

/-- Operations a spoke may have outstanding: 4,096 OPIDs, or the MAX_OPS of its bridge (R156, R160). -/
def opRoom (x : SpokeSt) : Nat := let m := beAt x.ident 8 2; if m = 0 ∨ 4096 < m then 4096 else m

/-- Send an operation under the OPID `id`; its STATUS ends it (R156, R162). -/
def sendOp (s : Blk) (n id : Nat) (o : Op) (payload data : Bytes) : Blk :=
  let s := modSpoke s n fun x => { x with ops := x.ops.set id o, opidNext := (id + 1) % 4096 }
  let cmd : Flit := { ftype := 0x1, body := cmdBody o.op id o.channel o.die o.row o.slc, payload := flitPayload payload }
  queueFlits s (spokeLink n) (cmd :: dataFlits o.op id data)

/-- The next free OPID of a spoke, if it may have one more operation outstanding. -/
def freeOpid (x : SpokeSt) : Option Nat :=
  if opRoom x ≤ (x.ops.vals.filter fun o => !o.unsent).length then none
  else match x.ops.freeFrom 4096 x.opidNext with
    | some i => if i < 4096 then some i else x.ops.freeFrom 4096 0
    | none => none

/-- A dump die of a spoke: fixed by the format, 17 on distinct channels in each group (R357). Which dies of a channel they are is
the model's (DESIGN CHOICE, log entry 46): the lowest. -/
def isDumpDie (s : Blk) (n : Nat) (o : Op) : Bool :=
  s.med.pool.getLsbD n && decide (o.channel < 17 ∧ o.die < s.med.dumpGroups)

/-- In RUN a dump die has at most one operation outstanding: this one waits (R357). -/
def dieHolds (s : Blk) (n : Nat) (o : Op) : Bool :=
  decide (s.dev = .run) && isDumpDie s n o
    && (spokeOf s n).ops.vals.any fun p => !p.unsent && decide (p.channel = o.channel ∧ p.die = o.die)

/-- An operation for a spoke: its media engine is woken for it (R23), and it is sent under the next free OPID, or waits for one
(R156) or for its dump die (R357), in order. An orderly removal stops new operations (R169). -/
def issueOp (s : Blk) (n op channel die row : Nat) (slc : Bool) (payload data : Bytes) (why : OpFor) : Blk :=
  let s := startClock s (domSpke n)
  let x := spokeOf s n
  let o : Op := { op := op, channel := channel, die := die, row := row, slc := slc, why := why, unsent := x.removing.isSome }
  let behind := x.opWait.any fun w => !dieHolds s n w.1 || decide (w.1.channel = channel ∧ w.1.die = die)
  match (if behind ∨ dieHolds s n o then none else freeOpid x) with
  | some id =>
    if o.unsent then setSpoke s n { x with ops := x.ops.set id o, opidNext := (id + 1) % 4096 } else sendOp s n id o payload data
  | none => setSpoke s n { x with opWait := x.opWait ++ [(o, payload, data)] }

/-- An OPID is free again: the oldest operation that waits for nothing else takes it. -/
def resumeOps (s : Blk) (n : Nat) : Blk :=
  let x := spokeOf s n
  let i := x.opWait.findIdx fun w => !dieHolds s n w.1
  match x.opWait[i]?, freeOpid x with
  | some (o, payload, data), some id =>
    if x.removing.isSome then s else sendOp (setSpoke s n { x with opWait := x.opWait.eraseIdx i }) n id o payload data
  | _, _ => s

/-- Send a LINK flit: it carries the next FSEQ and is never replayed (R155, R158). -/
def sendLink (s : Blk) (l : Link) (lcode arg : Nat) (payload : Bytes) : Blk :=
  let k := showCredits (linkOf s l)
  let f : Flit := { ftype := 0x5, body := linkBody lcode arg, payload := flitPayload payload }
  sendLine (setLink s l k) l (headerNow k k.txSeq f) f.payload

/-- The link carries STATE, VALUE and HELD flits: up, and joined by the proofs of R278. -/
def pairJoined (s : Blk) : Bool := s.tdm.paired && s.tdm.joined && decide ((linkOf s .tandem).phase = .up)

/-- Queue a tandem object in one flit; nothing is sent while the link is not joined, and no VALUE flit once the release
gate is closed (R384). -/
def tandemSend (s : Blk) (ftype oclass obj body part : Nat) (payload : Bytes) : Blk :=
  if pairJoined s && !(s.safe.gate && ftype == 0x7) then
    queueFlits s .tandem [{ ftype := ftype, body := tdmBody oclass obj body part, payload := flitPayload payload }]
  else s

end Sys2Proof.Machine
end

