-- ==== Sys2Proof/Machine/Rim.lean ====
section
/-! DEFINITION. The rim: receive filtering, the slow path, priority flow control and transmission (R26-R39, R431). -/

namespace Sys2Proof.Machine

/-! ### Egress (R32, R36) -/

/-- The addresses a frame leaves with: those of its sub-MAC, or those it has adopted (R32, R284). -/
def egressCfg (s : Blk) (i : Nat) (adopted : Bool) : SubCfg :=
  let c := cfgOf s i
  match adopted, s.tdm.adopted.get? i with
  | true, some a => { c with mac := a.mac, ipv4 := a.ipv4, ipv6 := a.ipv6 }
  | _, _ => c

/-- The sub-MAC exists in the port's mode and its link serves frames (R26, R27, R367, R386). -/
def subUp (s : Blk) (p sub : Nat) : Bool := s.rim.up && decide (sub < modeOf s p)

/-- The port's MAC/PCS clock ungates: at the first non-idle block (R24), or to send. -/
def portUngate (s : Blk) (p : Nat) : Blk := startClock s (domRim p)

/-- A frame of `n` bytes leaves a sub-MAC: it is counted (R29). -/
def countSent (s : Blk) (p sub n : Nat) : Blk :=
  let i := subIx p sub
  addRim (countRim (portUngate s p) i 19) i 20 n

/-- Send a frame now and count it (R29, R32). Nothing leaves a sub-MAC that is down: while the links are down (R367, R386), or
when the port's mode does not have it (R27). -/
def sendNow (s : Blk) (f : TxFrame) : Blk :=
  let cfg := egressCfg s (subIx f.eg.port f.eg.sub) f.eg.adopted
  let b := if f.raw.isEmpty then buildFrame cfg s.rim.cktPort f.eg f.payload else sealFrame f.raw
  if subUp s f.eg.port f.eg.sub then emit (countSent s f.eg.port f.eg.sub b.length) (.frame f.eg.port f.eg.sub b) else s

/-- Send a PFC frame, 64 bytes long: quanta for one class (R33, R35). -/
def sendPfc (s : Blk) (i quanta : Nat) : Blk :=
  let p := i / 64
  let sub := i / 8 % 8
  if subUp s p sub then emit (countSent s p sub 64) (.pfc p sub (i % 8) quanta) else s

/-- Hand a frame to the rim: a class held by a pause keeps it (R36), otherwise it leaves (R32). -/
def rimEgress (s : Blk) (f : TxFrame) : Blk :=
  let i := clsIx f.eg.port f.eg.sub f.eg.cls
  let r := pfcOf s i
  if r.held then setPfc s i { r with heldFrames := r.heldFrames ++ [f] } else sendNow s f

/-- Hand a CKT frame to the rim (R32, R36). -/
def rimSend (s : Blk) (eg : Egress) (payload : Bytes) : Blk := rimEgress s { eg := eg, payload := payload }

/-- Hand a frame the firmware built to the rim, by the same egress (R31): untagged, in the sub-MAC's default class. -/
def firmwareSend (s : Blk) (i : Nat) (raw : Bytes) : Blk :=
  rimEgress s { eg := { port := i / 8, sub := i % 8, cls := (cfgOf s i).dfltClass }, raw := raw }

/-- A class may send again: its held frames leave in order (R36). -/
def pfcRelease (s : Blk) (i : Nat) : Blk :=
  let r := pfcOf s i
  forEach r.heldFrames sendNow (setPfc s i { r with held := false, quanta := 0, heldFrames := [] })

/-! ### Ingress buffer and PFC toward the partner (R33-R35) -/

def pfcCfgOf (s : Blk) (i : Nat) : PfcCfg := s.rim.pfcCfg.getD i {}

/-- The numbers of every class of every sub-MAC of a port in its mode. -/
def portClasses (s : Blk) (p : Nat) : List Nat :=
  (List.range (modeOf s p)).flatMap fun sub => (List.range 8).map fun c => clsIx p sub c

/-- KiB that a list of class settings reserves (R34). -/
def reservedKib (cs : List PfcCfg) : Nat := cs.foldl (fun a c => if c.enabled then a + c.xoff + c.headroom else a) 0

/-- No buffer is left for a frame of this class: an enabled class has XOFF plus headroom, the other classes of the port
share what no enabled class reserves (R33, R34). -/
def bufferFull (s : Blk) (p i size : Nat) : Bool :=
  let c := pfcCfgOf s i
  if c.enabled then decide ((c.xoff + c.headroom) * 1024 < (pfcOf s i).occ + size)
  else
    let cls := portClasses s p
    let shared := 2097152 - 1024 * reservedKib (cls.map (pfcCfgOf s))
    let used := cls.foldl (fun a j => if (pfcCfgOf s j).enabled then a else a + (pfcOf s j).occ) 0
    decide (shared < used + size)

/-- Compare a class's occupancy with XOFF and XON and send pause or quanta 0 when it crosses (R33, R35). No occupancy lies
below an XON of 0: a class that has emptied is then no longer above XON, so its pause is not repeated (R35) and runs out. -/
def pfcJudge (s : Blk) (i : Nat) : Blk :=
  let c := pfcCfgOf s i
  let r := pfcOf s i
  if c.enabled ∧ r.pausing = false ∧ c.xoff * 1024 < r.occ then sendPfc (setPfc s i { r with pausing := true }) i 0xFFFF
  else if r.pausing ∧ (c.enabled = false ∨ r.occ < c.xon * 1024) then sendPfc (setPfc s i { r with pausing := false }) i 0
  else if r.pausing ∧ r.occ = 0 then setPfc s i { r with pausing := false }
  else s

def occupy (s : Blk) (i size : Nat) : Blk :=
  let r := pfcOf s i
  pfcJudge (setPfc s i { r with occ := r.occ + size }) i

/-- Frames leave the buffer (R33). -/
def vacate (s : Blk) (i size : Nat) : Blk :=
  let r := pfcOf s i
  pfcJudge (setPfc s i { r with occ := r.occ - size }) i

/-! ### Receive filtering (R28) -/

/-- What becomes of a received frame. -/
inductive RxVerdict where
  /-- dropped at that cause of R28 -/
  | drop (cause : Nat)
  | pfc (e : Bytes)
  | slow
  | ckt (e : EthFrame) (ip : IpView)

/-- Broadcast and the two MAC control groups of cause 5. -/
def groupDa : List Bytes :=
  [List.replicate 6 0xff, [0x01#8, 0x80#8, 0xc2#8, 0x00#8, 0x00#8, 0x01#8], [0x01#8, 0x80#8, 0xc2#8, 0x00#8, 0x00#8, 0x0e#8]]

/-- The datagram goes to an address of the sub-MAC: its own, or its solicited-node group (R28 cause 10). -/
def toAddress (cfg : SubCfg) (ip : IpView) : Bool :=
  let own := if ip.v6 then cfg.ipv6 else cfg.ipv4
  own.any (· ≠ 0) && (decide (ip.dst = own) || (ip.v6 && decide (ip.proto = 58) && decide (ip.dst = solicited6 cfg.ipv6)))

/-- Causes 8 to 13 for an IP datagram, in order; `cfgs` are the sub-MAC's own addresses and those it has adopted. -/
def judgeIp (s : Blk) (cfgs : List SubCfg) (e : EthFrame) : RxVerdict :=
  let ip := parseIp e
  if ip.headerGood = false then .drop 8
  else if ip.optFrag then .drop 9
  else if ¬ cfgs.any (fun c => toAddress c ip) then .drop 10
  else if ip.proto ≠ 17 ∧ ip.proto ≠ (if ip.v6 then 58 else 1) then .drop 11
  else if ip.proto ≠ 17 then .slow
  else if udpGood ip = false then .drop 12
  else if beAt ip.body 2 2 ≠ s.rim.cktPort then .drop 13
  else .ckt e ip

/-- Causes 1 to 13 of R28 in order: the first that applies. -/
def judgeFrame (s : Blk) (p sub : Nat) (frame : Bytes) (pcsErr : Bool) : RxVerdict :=
  let cfg := cfgOf s (subIx p sub)
  let cfgs := if s.tdm.adopted.has (subIx p sub) then [cfg, egressCfg s (subIx p sub) true] else [cfg]
  let e := parseEth frame
  if pcsErr then .drop 1
  else if e.fcsGood = false then .drop 2
  else if e.len < 64 then .drop 3
  else if cfg.mtu + (if e.tagged then 22 else 18) < e.len then .drop 4
  else if ¬ (groupDa.contains e.da ∨ cfgs.any fun c => e.da = c.mac ∨ e.da = solicitedMac c.ipv6) then .drop 5
  else if ¬ [0x0800, 0x86DD, 0x0806, 0x8808, 0x88CC].contains e.etype then .drop 6
  else if e.etype = 0x8808 then (if beAt e.l3 0 2 = 0x0101 then .pfc e.l3 else .drop 6)
  else if (if e.tagged ∧ e.vid ≠ 0 then !cfg.vlans.contains e.vid else !cfg.untagged) then .drop 7
  else if e.etype = 0x0806 ∨ e.etype = 0x88CC then .slow
  else judgeIp s cfgs e

/-- Ingress class of a frame (R33). -/
def ingressClass (s : Blk) (i : Nat) (e : EthFrame) : Nat := if e.tagged then e.pcp else (cfgOf s i).dfltClass

/-- R31: admit a frame to the slow path, or count SLOW_OVERRUN. -/
def slowAdmit (s : Blk) (p i : Nat) (frame : Bytes) : Blk :=
  let times := s.rim.slowTimes.filter (fun t => s.now < t.1 + second)
  let mine := (times.filter (fun t => t.2 = p)).length
  if mine < 4096 ∧ times.length < 65536 ∧ s.rim.slowq.length < 1024 then
    { s with rim := { s.rim with slowq := s.rim.slowq ++ [(p, frame)], slowTimes := times ++ [(s.now, p)] } }
  else countRim { s with rim := { s.rim with slowTimes := times } } i 14

/-- R36: a pause frame for the classes of its enable vector. A class in a pause storm does not honour it. A pause is honoured
for a class whether or not PFC is enabled on it (DESIGN CHOICE: R33 enables what the device sends; log entry 41). -/
def pauseReceived (s : Blk) (p sub : Nat) (enable : BitVec 8) (quanta : List (BitVec 16)) : Blk :=
  forEach (List.range 8) (fun s c =>
    let i := clsIx p sub c
    let r := pfcOf s i
    let q := (quanta.getD c 0).toNat
    if enable.getLsbD c = false ∨ r.storm then s
    else if q = 0 then pfcRelease s i
    else setPfc s i { r with held := true, quanta := q }) s

/-- The MAC/PCS clock of a port gates between bursts with the link up (R22): here, at a cycle with no command waiting, once no
frame of the port lies in its ingress buffer (DESIGN CHOICE, log entry 41). -/
def gateRims (s : Blk) : Blk :=
  if s.rim.up then
    forEach (List.range 16) (fun s p => if s.rim.ingress.any (fun d => d.eg.port = p) then s else stopClock s (domRim p)) s
  else s

def countReceived (s : Blk) (i n : Nat) : Blk := addRim (countRim s i 17) i 18 n

/-- R28, R30: a frame arrives, is filtered cause by cause, and goes where R30 sends it. Only one counter counts a
dropped frame; a frame that passes counts as received. -/
def receiveFrameFn (p sub : Nat) (frame : Bytes) (pcsErr : Bool) (s : Blk) : Blk :=
  if subUp s p sub = false then s
  else
    let s := portUngate s p
    let i := subIx p sub
    match judgeFrame s p sub frame pcsErr with
    | .drop c => countRim s i (c - 1)
    | .pfc l3 =>
      pauseReceived (countReceived s i frame.length) p sub (BitVec.ofNat 8 (beAt l3 2 2))
        ((List.range 8).map fun c => BitVec.ofNat 16 (beAt l3 (4 + 2 * c) 2))
    | .slow =>
      let e := parseEth frame
      if bufferFull s p (clsIx p sub (ingressClass s i e)) frame.length then countRim s i 13
      else
        let t := slowAdmit s p i frame
        if t.rim.slowq.length = s.rim.slowq.length then t else countReceived t i frame.length
    | .ckt e ip =>
      let cls := ingressClass s i e
      let k := clsIx p sub cls
      if bufferFull s p k frame.length then countRim s i 13
      else
        let eg : Egress := { port := p, sub := sub, dstMac := e.sa, dstIp := ip.src, dstPort := beAt ip.body 0 2,
                             vlan := if e.tagged then some e.vid else none, cls := cls
                             adopted := !toAddress (cfgOf s i) ip }
        let s := occupy (countReceived s i frame.length) k frame.length
        { s with rim := { s.rim with ingress := s.rim.ingress ++
            [{ eg := eg, ecn := ip.ecn, size := frame.length, payload := ip.body.drop 8 }] } }

def execReceiveFrame (p : Fin 16) (sub : Fin 8) (frame : Bytes) (pcsErr : Bool) (s : State) :
    Host.Outcome State Fault Refusal := lift (receiveFrameFn p.val sub.val frame pcsErr) s

/-! ### Pause timers (R35, R36, R39) -/

/-- R35: half the pause time has elapsed and the class is still above XON. -/
def pauseRepeat (i : Nat) (s : Blk) : Blk :=
  let r := pfcOf s i
  if r.pausing ∧ (pfcCfgOf s i).xon * 1024 < r.occ then sendPfc s i 0xFFFF else s

def execPfcPauseRepeat (p : Fin 16) (sub : Fin 8) (c : Fin 8) (s : State) : Host.Outcome State Fault Refusal :=
  lift (pauseRepeat (clsIx p.val sub.val c.val)) s

def execPfcPauseReceived (p : Fin 16) (sub : Fin 8) (enable : BitVec 8) (quanta : List (BitVec 16)) (s : State) :
    Host.Outcome State Fault Refusal :=
  lift (fun b => if subUp b p.val sub.val then
      pauseReceived (countReceived (portUngate b p.val) (subIx p.val sub.val) 64) p.val sub.val enable quanta else b) s

/-- R36: the quanta given have passed. -/
def quantaExpire (i : Nat) (s : Blk) : Blk := if (pfcOf s i).held then pfcRelease s i else s

def execPauseQuantaExpire (p : Fin 16) (sub : Fin 8) (c : Fin 8) (s : State) : Host.Outcome State Fault Refusal :=
  lift (quantaExpire (clsIx p.val sub.val c.val)) s

/-- R36: paused without a break for 100 ms. The held frames are discarded and counted, and pause is not honoured. -/
def pfcStormFn (p sub c : Nat) (s : Blk) : Blk :=
  let i := clsIx p sub c
  let r := pfcOf s i
  if r.held ∧ r.storm = false then
    let s := addRim s (subIx p sub) 16 r.heldFrames.length
    let s := setPfc s i { r with held := false, quanta := 0, storm := true, heldFrames := [] }
    raise s 0x1101 4 (domRim p) (pl [(1, subIx p sub), (1, c)])
  else s

def execPfcStorm (p : Fin 16) (sub : Fin 8) (c : Fin 8) (s : State) : Host.Outcome State Fault Refusal :=
  lift (pfcStormFn p.val sub.val c.val) s

/-- R36: no pause has arrived for the class for 100 ms. -/
def pfcStormEndFn (p sub c : Nat) (s : Blk) : Blk :=
  let i := clsIx p sub c
  let r := pfcOf s i
  if r.storm then
    raise (setPfc s i { r with storm := false }) 0x1102 3 (domRim p) (pl [(1, subIx p sub), (1, c)])
  else s

def execPfcStormEnd (p : Fin 16) (sub : Fin 8) (c : Fin 8) (s : State) : Host.Outcome State Fault Refusal :=
  lift (pfcStormEndFn p.val sub.val c.val) s

/-! ### Mode change (R27, R33) -/

/-- R27: take the port down, discard the frames in its buffers counting them as PORT_RESET, disable PFC on it (R33) and
set the mode. The settings of each sub-MAC index stay (R431). A class that was pausing its partner is below XON once its frames
are gone, so quanta 0 leave for it (R33). A pause of the partner's is over with the link it came by; a pause storm ends only as
R36 says, once no pause has arrived for 100 ms. A command that names the mode in force is a mode change like any other (DESIGN
CHOICE, log entry 41). -/
def portModeChange (s : Blk) (p mode : Nat) : Blk :=
  let mine := s.rim.ingress.filter (fun d => d.eg.port = p)
  let s := forEach mine (fun s d => countRim s (subIx d.eg.port d.eg.sub) 15) s
  let s := forEach (portClasses s p) (fun s i =>
    let r := pfcOf s i
    let s := if r.heldFrames.length = 0 then s else addRim s (i / 8) 15 r.heldFrames.length
    let s := if r.pausing then sendPfc s i 0 else s
    setPfc s i { storm := r.storm }) s
  { s with rim := { s.rim with
      mode := s.rim.mode.set p mode
      ingress := s.rim.ingress.filter (fun d => d.eg.port ≠ p)
      pfcCfg := s.rim.pfcCfg.mapVal fun i c => if i / 64 = p then { c with enabled := false } else c } }

end Sys2Proof.Machine
end

