-- ==== Sys2Proof/Machine/Respond.lean ====
section
/-! DEFINITION. Answering: session frames and their common fields (R40-R55), sealing (R148), notices (R83), response
bodies and trailers (R68-R70), ring completions (R326-R332), the end of a command and of a session (R60, R62, R80). -/

namespace Sys2Proof.Machine

/-! ### Sequence state of a session (R45-R48, R53, R280) -/

def inStore (ss : Session) (q : Seq) : Bool := ss.store.any fun f => f.hdr.seq = q

/-- First client sequence from `q` on that has not arrived. -/
def firstMissing (ss : Session) : Nat → Seq → Seq
  | 0, q => q
  | n + 1, q => if inStore ss q then firstMissing ss n (q + 1) else q

/-- The release point the device sends as ACK: the first frame it still needs (R48); in a joined pair never past what the
partner has acknowledged (R280). -/
def ackOf (s : Blk) (ss : Session) : Seq :=
  let a := firstMissing ss ss.store.length ss.rxNext
  if pairJoined s ∧ seqBefore ss.mirrored a then ss.mirrored else a

/-- The edge the device grants: 256 frames beyond those passed on, never back (R53). -/
def edgeOf (s : Blk) (ss : Session) : Seq :=
  let e := ss.rxNext + 256
  let a := ackOf s ss + 256
  let e := if seqBefore a e then a else e
  if seqBefore e ss.edge then ss.edge else e

/-- A client frame has arrived: it waits in the ingress store, or has been processed. -/
def hasArrived (ss : Session) (q : Seq) : Bool := inStore ss q || seqBefore q ss.rxNext

/-- The SACK block when frames past ACK are there: bit i states that frame ACK + 1 + i has arrived (R48); in a joined pair those
may be processed frames whose deltas the partner has not acknowledged (R280). -/
def sackBlock (s : Blk) (ss : Session) : Bytes :=
  let a := ackOf s ss
  let v := (List.range 256).foldl (fun acc i => if hasArrived ss (a + 1 + BitVec.ofNat 32 i) then acc + 2 ^ i else acc) 0
  if v = 0 then [] else beBytes 32 v

/-- Common fields of a frame sent now on a session (R41, R53, R55). -/
def sessHdr (s : Blk) (sn : Nat) (ss : Session) (type : Nat) (sq : Seq) : CktHdr :=
  let a := ackOf s ss
  { type := type, session := sn, cookie := ss.cookie, seq := sq, ack := a, credit := (edgeOf s ss - a).toNat, ece := ss.ece }

/-- What sending a frame leaves in the session: the edge advertised, the CE mark reported, the count of R49 restarted. -/
def afterSend (s : Blk) (ss : Session) : Session := { ss with edge := edgeOf s ss, ece := false, sinceAck := 0 }

/-- Send a frame that consumes no sequence number on an open session, to that way back. -/
def sendControl (s : Blk) (sn type sackOff : Nat) (payload : Bytes) : Blk :=
  match sessOf s sn with
  | some ss =>
    let h := sessHdr s sn ss type ss.txNext
    rimSend (setSess s sn (afterSend s ss)) ss.eg (buildCkt { h with sackOff := sackOff } payload)
  | none => s

/-- R49: an ACK frame with a SACK block when frames are held early. -/
def sendAck (s : Blk) (sn : Nat) : Blk :=
  match sessOf s sn with
  | some ss =>
    let b := sackBlock s ss
    sendControl s sn 0x7 (if b.isEmpty then 0xFFFF else 0) b
  | none => s

/-- R50: one NAK naming the missing range. -/
def sendNak (s : Blk) (sn : Nat) (start : Seq) (count : Nat) : Blk :=
  match sessOf s sn with
  | some ss =>
    let b := sackBlock s ss
    sendControl s sn 0x8 (if b.isEmpty then 0xFFFF else 8) (beBytes 4 start.toNat ++ beBytes 2 count ++ [0#8, 0#8] ++ b)
  | none => s

/-! ### Sealing (R148) -/

def sealAad (h : CktHdr) : Bytes :=
  let b := cktHead28 { h with ece := false }
  b.take 12 ++ slice b 20 4 ++ slice b 24 4

def sealIv (e : Nat) : Bytes := zeros 4 ++ beBytes 8 e

/-- Ciphertext and tag of a sealed payload; PAYLOAD_LEN counts the tag. -/
def sealPayload (key : Bytes) (e : Nat) (h : CktHdr) (p : Bytes) : Bytes :=
  let ct := ctrXor key (sealIv e) 0 p
  ct ++ gcmTag key (sealIv e) (sealAad { h with payloadLen := p.length + 16 }) ct

/-- The carried bytes of a sealed payload, when its tag is good. -/
def openSeal (key : Bytes) (e : Nat) (h : CktHdr) (p : Bytes) : Option Bytes :=
  let n := p.length - 16
  let ct := p.take n
  if 16 ≤ p.length ∧ gcmTag key (sealIv e) (sealAad h) ct = p.drop n then some (ctrXor key (sealIv e) 0 ct) else none

/-- The 64-bit count E that a sequence number stands for: of the counts with its low 32 bits the one nearest to `near`, so
that a frame sent again has the E of its first sending (R51, R148). -/
def sealCount (init sq : Seq) (near : Nat) : Nat :=
  let lo := (sq - init).toNat
  let e := near / 4294967296 * 4294967296 + lo
  if e + 2147483648 < near then e + 4294967296
  else if near + 2147483648 ≤ e ∧ 4294967296 ≤ e then e - 4294967296 else e

/-! ### Response frames (R47, R51, R52) -/

/-- Build and send a response frame with its sequence number (R47, R51): the same SEQ, tag, flags and payload at every
sending, current ACK, CREDIT and ECE. -/
def emitResponse (s : Blk) (sn : Nat) (ss : Session) (sq : Seq) (f : RespFrame) : Blk :=
  let h0 := sessHdr s sn ss 0x6 sq
  let h := { h0 with tag := f.tag, opcode := f.opcode, ordered := f.ordered, final := f.final, trailer := f.trailer,
                     sealed := ss.sealed }
  let p := if ss.sealed then sealPayload ss.sealD (sealCount ss.deviceInit sq ss.sentCount) h f.payload else f.payload
  rimSend (setSess s sn (afterSend s ss)) f.eg (buildCkt h p)

/-- PAYLOAD_LEN of a response frame with `n` clear bytes: a sealed one carries its 16-byte tag (R148). -/
def wireLen (ss : Session) (n : Nat) : Nat := if ss.sealed then n + 16 else n

/-- Payload bytes of retained frames in the device-wide pool (R52). -/
def poolUsed (s : Blk) : Nat :=
  s.xpt.sessions.vals.foldl (fun a ss => ss.retained.foldl (fun a r => a + wireLen ss r.frame.payload.length) a) 0

/-- Credit, the 256-frame limits and the retained pool allow a new frame of that many clear bytes (R52, R54); in a pair
it lies below SEQ_TOP (R280). -/
def maySend (s : Blk) (ss : Session) (n : Nat) : Bool :=
  let used := poolUsed s
  seqBefore ss.txNext (ss.peerAck + BitVec.ofNat 32 ss.peerCredit) && seqBefore ss.txNext (ss.peerAck + 256)
  && decide (ss.retained.length < 256) && decide (used + wireLen ss n ≤ 4294967296)
  && !(decide (3221225472 < used) && decide (32 ≤ ss.retained.length))
  && (!pairJoined s || seqBefore ss.txNext ss.seqTop)

/-- Queue a notice (R83): it leaves with the response frames, in order. -/
def queueNotice (s : Blk) (sn : Nat) (kind tag status refSeq tagMap : Nat) : Blk :=
  modSess s sn fun ss => { ss with respq := ss.respq ++
    [{ tag := 0, opcode := 0xF0, final := true, notice := true, payload := notice kind tag status refSeq s.dev.code tagMap, eg := ss.eg }] }

/-! ### Mirrored session deltas (R279, R280; layout: log entry 12) -/

def delta (sn kind : Nat) (b : Bytes) : Bytes := slice (beBytes 3 sn ++ [BitVec.ofNat 8 kind] ++ b) 0 32

/-- Send one session delta to the partner; a ring's session is not mirrored (R321). -/
def sendDelta (s : Blk) (sn kind : Nat) (b : Bytes) : Blk :=
  if (sessOf s sn).any (·.ring.isSome) then s else tandemSend s 0x6 0x01 0 0 0 (delta sn kind b)

def tagCode : TagState → Nat
  | .idle => 0 | .queued => 1 | .active => 2 | .committing => 3 | .completing => 4

/-- What the delta of a tag says (R280): its state, the namespace and version of its command, and whether that is a write. -/
def tagDelta (s : Blk) (t : Nat) (x : TagCtx) : Bytes :=
  let w := match x.slot.bind (cmdOf s) with
    | some c => (c.head.ns, c.version)
    | none => (x.ns, x.version)
  [BitVec.ofNat 8 t, BitVec.ofNat 8 (tagCode x.st)] ++ beBytes 2 w.1 ++ beBytes 8 w.2
    ++ [BitVec.ofNat 8 (boolNat (if x.st = .completing then x.committed else !isReadOp x.opcode))]

/-- Set a tag of a session and send the delta of its state change (R80, R280). -/
def putTag (s : Blk) (sn t : Nat) (x : TagCtx) : Blk :=
  match sessOf s sn with
  | some ss =>
    let changed := decide ((tagOf ss t).st ≠ x.st)
    let s := setSess s sn (setTag ss t x)
    if changed then sendDelta s sn 3 (tagDelta s t x) else s
  | none => s

/-- R88: once every tag is IDLE, a session under reset answers RESET_DONE with its TAG_MAP. -/
def resetCheck (s : Blk) (sn : Nat) : Blk :=
  match sessOf s sn with
  | some ss =>
    match ss.resetting with
    | some q =>
      if ss.tags.vals.all (fun t => decide (t.st = .idle)) then
        queueNotice (setSess s sn { ss with resetting := none, tagMap := 0 }) sn 0x02 0 stOk q ss.tagMap.toNat
      else s
    | none => s
  | none => s

/-- The tag is IDLE once the command's last frame has come and the response's last frame has gone (R80). -/
def settleTag (s : Blk) (sn t : Nat) : Blk :=
  match sessOf s sn with
  | some ss =>
    let x := tagOf ss t
    if x.st = .completing ∧ x.gotFinal ∧ x.sentFinal then
      resetCheck (putTag s sn t { refusing := x.refusing }) sn
    else s
  | none => s

/-! ### The route tag of a command (R16, R19) -/

/-- The tag as the command engine writes it when the command has its slot: the ten fields of R19 from the session and the
namespace, and the class of the ingress frame. -/
def firstTag (s : Blk) (slot : Nat) (c : Cmd) : RouteTag :=
  let ns := nsOf s c.head.ns
  rtPack { session := c.session, tag := c.tag, slot := slot, ns := c.head.ns, tenant := c.tenant, keyPage := c.tenant
           ordered := c.ordered, sealed := ((sessOf s c.session).map (·.sealed)).getD false
           vbr := (ns.map (·.vbr)).getD false, mirror := (ns.map (·.mirrored)).getD false, cls := c.eg.cls }

/-- The tag of a later stage's cell: the ten fields as the command engine wrote them; VERSION and GEAR as they now stand. -/
def cmdRt (c : Cmd) : Rt := { rtOf c.rt with version := c.version, gear := c.gear }

/-! ### Trailers and bodies (R68-R70) -/

/-- GCM_RESULT of R69. -/
def gcmResult (c : Cmd) : Nat :=
  if c.extents.isEmpty then 0
  else if c.tagFail.isSome then 2
  else if c.tagsOk = c.extents.length then 1 else 3

def grainCount (c : Cmd) : Nat := c.extents.foldl (fun a e => a + e.grains) 0

/-- CF_RESULT of R69. -/
def cfResult (c : Cmd) : Nat :=
  if c.cfFail.isSome then 2
  else if c.grains.isEmpty then 0
  else if (c.grains.filter (fun g => g.cf = some true)).length = grainCount c then 1 else 3

/-- Largest payload of a session's response frames on a way back. -/
def respMax (s : Blk) (sn : Nat) (eg : Egress) : Nat :=
  let ss := (sessOf s sn).getD {}
  maxPayload (cfgOf s (subIx eg.port eg.sub)).mtu eg.dstIp - (if ss.sealed then 16 else 0)

/-- Full frames cut from a byte string, and the rest. -/
def cutFull (m : Nat) : Nat → Bytes → List Bytes × Bytes
  | 0, b => ([], b)
  | n + 1, b =>
    if 0 < m ∧ m ≤ b.length then
      let r := cutFull m n (b.drop m)
      (b.take m :: r.1, r.2)
    else ([], b)

/-- Where `len` bytes of a ring value from byte `off` on lie in host memory: (address, value offset, length) (R326). -/
def hostRanges (c : Cmd) (off len : Nat) : List (Nat × Nat × Nat) :=
  match c.frags with
  | none => if len = 0 then [] else [(c.dataAddr + off, off, len)]
  | some fs =>
    (fs.foldl (fun (acc : Nat × List (Nat × Nat × Nat)) f =>
      let lo := max acc.1 off
      let hi := min (acc.1 + f.2) (off + len)
      (acc.1 + f.2, if lo < hi then acc.2 ++ [(f.1 + (lo - acc.1), lo, hi - lo)] else acc.2)) (0, [])).2

/-- The same as pieces of (address, bytes). -/
def hostPieces (c : Cmd) (off : Nat) (b : Bytes) : List (Nat × Bytes) :=
  (hostRanges c off b.length).map fun r => (r.1, slice b (r.2.1 - off) r.2.2)

/-- The crank channel of a ring (R335). -/
def ringChan (s : Blk) (q : Nat) : Nat := (s.ring.sqs.getD q {}).channel

/-- The transfers of a GET's whole value are handed to the ring's channel, the last with FLUSH (R331, R338). -/
def loadValue (s : Blk) (slot q : Nat) (c : Cmd) : Blk :=
  let rs := hostRanges c 0 c.foundLen
  forEach (rs.zip (List.range rs.length)) (fun s e =>
    crankLoad s (ringChan s q) { hostAddr := e.1.1, count := e.1.2.2, dirOut := true, flush := decide (e.2 + 1 = rs.length),
                                 sq := q, localRef := slot }) s

/-- Value bytes of a ring GET leave for host memory (R329). -/
def streamHost (s : Blk) (slot q : Nat) (c : Cmd) (b : Bytes) : Blk :=
  let s := if c.written = 0 then loadValue s slot q c else s
  let ps := hostPieces c c.written b
  let last := (ps.getLast?).elim c.lastAddr fun p => p.1 + p.2.length - 1
  let s := setCmd s slot { c with written := c.written + b.length, sent := c.sent + b.length, lastAddr := last }
  forEach ps (fun s p => crankWrite s (ringChan s q) slot p.1 p.2) s

/-- Value bytes leave for the client: into full frames of the session, or into the host memory of a ring command (R32,
R329). Nothing leaves through a closed release gate (R384). -/
def streamBody (s : Blk) (slot : Nat) (b : Bytes) : Blk :=
  match cmdOf s slot with
  | none => s
  | some c =>
    if s.safe.gate then s
    else
      match c.ring with
      | some q => if s.ring.pcieUp ∧ b ≠ [] then streamHost s slot q c b else s
      | none =>
        let r := cutFull (respMax s c.session c.eg) (c.out.length + b.length) (c.out ++ b)
        let s := setCmd s slot { c with out := r.2, sent := c.sent + b.length }
        let fs := r.1.map fun p =>
          ({ tag := c.tag, opcode := c.opcode, ordered := c.ordered, payload := p, eg := c.eg } : RespFrame)
        modSess s c.session fun ss => { ss with respq := ss.respq ++ fs }

/-- A failed grain or tag still owes its single re-read (R146, R251). -/
def owesReread (c : Cmd) : Bool := (c.tagFail.isSome || c.cfFail.isSome) && !c.reread

/-- A completion cell on its way to the transport engine (R18, R20). -/
def isCompletion (x : Cell) : Bool := (rtOf x.rt).next == 0x1

/-- Cells of a slot leave the fabric with its command, but for its completion cell, and the reads made for it go nowhere. -/
def dropCells (s : Blk) (slot : Nat) : Blk :=
  let keep := fun (x : Cell) => decide ((rtOf x.rt).slot ≠ slot) || isCompletion x
  { s with
    cip := { s.cip with
      fabric := s.cip.fabric.filter keep, gated := s.cip.gated.filter (fun p => keep p.2)
      waiting := s.cip.waiting.filter (fun p => keep p.2), units := s.cip.units.filter fun u => u.1 / 2 ^ 20 ≠ slot }
    med := { s.med with reads := s.med.reads.mapVal fun _ x =>
      match x.why with
      | .valueGrain n _ => if n = slot then { x with why := .dropped } else x
      | .keyRecord n _ => if n = slot then { x with why := .dropped } else x
      | _ => x } }

/-- An in-band Iawatal command that the hub has not begun leaves it with no effect (R86, R88). -/
def leaveHub (s : Blk) (slot : Nat) : Blk :=
  { s with hub := { s.hub with
      exec := s.hub.exec.filter fun e => decide (e.1 ≠ .inBand slot) || e.2.begun
      waiting := s.hub.waiting.filter fun e => decide (e ≠ .inBand slot) } }

/-- Free a command slot (R91): nothing of it stays but what a write has in flight. -/
def freeSlot (s : Blk) (slot : Nat) : Blk :=
  let s := leaveHub (dropCells s slot) slot
  let st := ((cmdOf s slot).bind (·.stage)).getD 0
  let isRead := ((cmdOf s slot).map (fun c => isReadOp c.opcode)).getD false
  let s := { s with
    cmd := { s.cmd with slots := s.cmd.slots.del slot }
    idx := { s.idx with shadowq := s.idx.shadowq.filter (· ≠ slot), waiters := s.idx.waiters.filter (· ≠ slot) } }
  match isRead, s.idx.stages.get? st with
  | true, some x => { s with idx := { s.idx with stages := s.idx.stages.set st { x with readers := x.readers - 1 } } }
  | _, _ => s

/-- The frames that end a response: the bytes not yet framed, then the trailer in the last frame (R68). -/
def lastFrames (s : Blk) (sn t : Nat) (x : TagCtx) (tr : Bytes) : List RespFrame :=
  let f := fun fin (p : Bytes) => ({ tag := t, opcode := x.opcode, ordered := x.ordered, final := fin, trailer := fin,
                                     payload := p, eg := x.eg } : RespFrame)
  if x.out.length + 16 ≤ respMax s sn x.eg then [f true (x.out ++ tr)] else [f false x.out, f true tr]

/-- The completion cell of a command: CELL_KIND 0x5 to the transport engine, its payload the trailer (R18, R20, R69). -/
def completionCell (c : Cmd) (tr : Bytes) : Cell := { rt := rtPack { cmdRt c with next := 0x1, kind := 0x5, length := tr.length }, payload := tr }

/-- The transport engine has the completion of a tag: its last frames join the responses of the session (R20, R68). -/
def answerDue (s : Blk) (sn t : Nat) (tr : Bytes) : Blk :=
  match sessOf s sn with
  | none => s
  | some ss =>
    let x := tagOf ss t
    if x.due then
      let ss := setTag ss t { x with due := false, out := [] }
      setSess s sn { ss with respq := ss.respq ++ lastFrames s sn t x tr }
    else s

/-- The completion cell of a tag. -/
def isDueCell (sn t : Nat) (x : Cell) : Bool := isCompletion x && (rtOf x.rt).session == sn && (rtOf x.rt).tag == t

/-- A completion cell on its way arrives before what is done to its tag next (R86, R88, R384). -/
def deliverDue (s : Blk) (sn t : Nat) : Blk :=
  match s.cip.fabric.find? (isDueCell sn t) with
  | some x => answerDue { s with cip := { s.cip with fabric := s.cip.fabric.filter fun y => !isDueCell sn t y } } sn t x.payload
  | none => s

/-- VALUE_LEN of a ring completion (R330): the bytes written, the stored length of a value too long for the buffer, or the
length GET_VERSION found. -/
def cplValueLen (c : Cmd) (status : Nat) : Nat :=
  if c.opcode = 0x01 then (if status = stBadRequest then c.foundLen else c.written)
  else if c.opcode = 0x02 ∧ status = stOk then c.foundLen else 0

/-- Queue a completion on the CQ of its ring, in the order of fixing (R330). -/
def queueCpl (s : Blk) (q : Nat) (x : Cpl) : Blk :=
  { s with ring := { s.ring with cqs := s.ring.cqs.upd (s.ring.sqs.getD q {}).cq {} fun y => { y with wait := y.wait ++ [x] } } }

/-- The tag of a command whose final status is fixed (R80): what its deltas and a reset still need of it stays (R95, R280). -/
def completing (t : TagCtx) (c : Cmd) : TagCtx :=
  { t with st := .completing, slot := none, committed := decide (t.st = .committing), ns := c.head.ns, version := c.version, out := c.out }

/-- The completion of a ring command is queued; its tag stays COMPLETING until it is posted (R330-R332). -/
def finishRing (s : Blk) (slot q : Nat) (c : Cmd) (r : Nat × Nat × Nat × Nat × Nat) : Blk :=
  let x : Cpl := { cid := c.cid, sq := q, opcode := c.opcode, entryIx := c.entryIx, trailer := r, slot := some slot,
                   valueLen := cplValueLen c r.1,
                   uploadId := if c.opcode = 0x10 ∧ r.1 = stOk then c.head.uploadId else 0
                   flushing := decide (0 < c.written) }
  let s := crankStop s (ringChan s q) slot
  let s := if 0 < c.written then emit s (.hostRead (c.lastAddr / 4 * 4) 4) else s
  let s := queueCpl s q x
  match sessOf s c.session with
  | some ss => putTag s c.session c.tag (completing (tagOf ss c.tag) c)
  | none => s

/-- The response can not be sent, and no abort, reset or fault ends the command: it stays ACTIVE (R52). -/
def staysActive (s : Blk) (ss : Session) (t : TagCtx) (status : Nat) : Bool :=
  decide (t.st = .active) && !t.silent && decide (status ≠ stAborted ∧ status ≠ stResetAborted ∧ status ≠ stDeviceFault)
    && !maySend s ss ((ss.respq.head?.map (·.payload.length)).getD 16)

/-- The final status of a command is fixed (R80): its completion cell goes to the transport engine, which ends the response with
the trailer (R20, R68), or its ring completion is queued in the order of fixing (R330). A tag past a reset or CLOSE sends nothing (R62, R88). A command whose response can not be sent
stays ACTIVE until it can (R52). -/
def finishCmd (s : Blk) (slot status gcm cf detail version : Nat) : Blk :=
  match cmdOf s slot with
  | none => s
  | some c =>
    if c.phase = .done then s
    else
      let r := (status, gcm, cf, detail, version)
      let hold := decide (c.ring = none) && ((sessOf s c.session).any fun ss =>
        decide ((tagOf ss c.tag).slot = some slot) && staysActive s ss (tagOf ss c.tag) status)
      let s := setCmd s slot { c with phase := if hold then .held else .done, result := some r }
      if hold then s else
      match c.ring with
      | some q => finishRing s slot q c r
      | none =>
        let s := match sessOf s c.session with
          | some ss =>
            let t := tagOf ss c.tag
            if t.slot ≠ some slot then s
            else if t.silent then settleTag (putTag s c.session c.tag { completing t c with sentFinal := true }) c.session c.tag
            else
              let s := { s with cip := { s.cip with fabric := s.cip.fabric ++ [completionCell c (trailer r)] } }
              putTag s c.session c.tag { completing t c with due := true }
          | none => s
        if owesReread c then s else freeSlot s slot

/-- End a command with a status of no value: trailer only, or after what has left. -/
def failCmd (s : Blk) (slot status detail version : Nat) : Blk :=
  match cmdOf s slot with
  | some c => finishCmd s slot status (gcmResult c) (cfResult c) detail version
  | none => s

/-- A command that never got a slot ends (R91): a trailer-only response on its tag. -/
def refuseTag (s : Blk) (sn t status detail : Nat) : Blk :=
  match sessOf s sn with
  | none => s
  | some ss =>
    let x := tagOf ss t
    let f : RespFrame := { tag := t, opcode := x.opcode, ordered := x.ordered, final := true, trailer := true,
                           payload := trailer (status, 0, 0, detail, 0), eg := x.eg }
    let s := setSess s sn { ss with respq := ss.respq ++ [f] }
    putTag s sn t { x with st := .completing, slot := none, buf := [] }

/-- VERSION of a trailer that cuts a command short: that of the value a GET or GET_VERSION has found (R69, R72). -/
def versionFound (s : Blk) (slot : Nat) : Nat :=
  ((cmdOf s slot).map fun c => if isReadOp c.opcode then c.version else 0).getD 0

/-- Stop a command that is not past its commit point: the slot's command if it has one, else the tag alone. -/
def stopTag (s : Blk) (sn t status : Nat) : Blk :=
  match sessOf s sn with
  | none => s
  | some ss =>
    match (tagOf ss t).slot with
    | some slot => failCmd s slot status 0 (versionFound s slot)
    | none => refuseTag s sn t status 0

/-! ### The end of a session (R52, R60, R62) -/

/-- Free a session: its context, its retained frames, its number to the tail of the free list; commands of it that have
not started leave with it. -/
def freeSession (s : Blk) (sn : Nat) : Blk :=
  match sessOf s sn with
  | none => s
  | some ss =>
    let slots := (ss.tags.vals.filter (fun t => t.st ≠ .committing)).filterMap (·.slot)
    let s := forEach slots freeSlot s
    let s := sendDelta s sn 5 []
    { s with
      cip := { s.cip with fabric := s.cip.fabric.filter fun x => !(isCompletion x && (rtOf x.rt).session == sn) }
      xpt := { s.xpt with
        sessions := s.xpt.sessions.del sn
        freed := if s.tdm.paired ∧ sn / 1048576 ≠ s.tdm.side then s.xpt.freed else s.xpt.freed ++ [sn]
        ctl := s.xpt.ctl.filter (fun f => f.hdr.session ≠ sn) } }

/-- A command that waited ACTIVE for its session to be able to send is finished with the status it had (R52). -/
def releaseHeld (s : Blk) (sn : Nat) : Blk :=
  forEach (s.cmd.slots.filter fun p => decide (p.2.session = sn ∧ p.2.phase = .held)) (fun s p =>
    match p.2.result with
    | some r => finishCmd s p.1 r.1 r.2.1 r.2.2.1 r.2.2.2.1 r.2.2.2.2
    | none => s) s

/-- R88: what a session reset does to one tag. A write past its commit point gets no status: its bit of TAG_MAP is set, also when
its completion was fixed and not yet sent whole (R95). -/
def resetTag (s : Blk) (sn t : Nat) : Blk :=
  let s := deliverDue s sn t
  match sessOf s sn with
  | none => s
  | some ss =>
    let x := tagOf ss t
    let drop := fun (s : Blk) => modSess s sn fun y => { y with respq := y.respq.filter fun f => f.tag ≠ t ∨ f.notice }
    let mark := fun (s : Blk) => modSess s sn fun y => { y with tagMap := y.tagMap ||| (1#32 <<< t) }
    let cut := fun (s : Blk) => match x.slot with
      | some k => modCmd s k fun c => { c with out := [] }
      | none => s
    match x.st with
    | .idle => s
    | .queued => stopTag s sn t stResetAborted
    | .active => stopTag (cut (drop s)) sn t stResetAborted
    | .committing => mark (putTag s sn t { x with silent := true })
    | .completing =>
      let s := if x.committed ∧ x.sentFinal = false then mark s else s
      settleTag (putTag (drop s) sn t { x with sentFinal := true }) sn t

/-- R88, R89: a session reset, answered with RESET_DONE naming `q` once every tag is IDLE. -/
def resetSession (s : Blk) (sn q : Nat) : Blk :=
  match sessOf s sn with
  | none => s
  | some ss =>
    let s := setSess s sn { ss with retained := [], tagMap := 0, resetting := some q }
    resetCheck (forEach (List.range 32) (fun s t => resetTag s sn t) s) sn

end Sys2Proof.Machine
end

