-- ==== Sys2Proof/Machine/Kick.lean ====
section
/-! DEFINITION. Stopping: the boot record (R363, R369), RESIGN (R283), the pannier dump (R356-R358) and the entry of the
kickstand (R384-R387), each one operation shared by every cause. -/

namespace Sys2Proof.Machine

/-- TIME of R392: RTC_VALID, SECONDS and SUB. -/
def timeStamp (s : Blk) : BitVec 64 :=
  BitVec.ofNat 64 (boolNat s.time.valid * 2 ^ 63 + s.time.seconds.toNat * 32768 + s.time.sub.toNat)

/-! ### The boot record -/

/-- The valid record: the good copy of higher RECORD_SEQ; with both bad, slot 0 and no pending slot (R363). -/
def validRec (s : Blk) : BootRec :=
  let a := s.boot.rec0
  let b := s.boot.rec1
  if a.good ∧ (b.good = false ∨ b.recordSeq ≤ a.recordSeq) then a else if b.good then b else {}

/-- Write the record to the copy that does not hold the valid one (R363). -/
def writeRec (s : Blk) (f : BootRec → BootRec) : Blk :=
  let v := validRec s
  let r := { f v with recordSeq := v.recordSeq + 1, good := true }
  if s.boot.rec0.good ∧ (s.boot.rec1.good = false ∨ s.boot.rec1.recordSeq ≤ s.boot.rec0.recordSeq) then
    { s with boot := { s.boot with rec1 := r } }
  else { s with boot := { s.boot with rec0 := r } }

/-- R369: what a failure of a mandatory step writes. -/
def failRec (step : Nat) (r : BootRec) : BootRec :=
  { r with failStep := step, failCount := if r.failStep = step then min 3 (r.failCount + 1) else 1
           altMask := r.altMask ||| 2 ^ (step - 1) }

/-! ### RESIGN -/

/-- Send RESIGN with its scope (R275, R283). -/
def sendResign (s : Blk) (scope : Nat) : Blk :=
  sendLink s .tandem 0x11 0 [BitVec.ofNat 8 s.dev.code, BitVec.ofNat 8 scope]

/-! ### The pannier dump -/

/-- SUSPEND goes to every die that is erasing (R356 step 3). -/
def suspendErases (s : Blk) : Blk :=
  forEach (List.range 16) (fun s n =>
    forEach ((spokeOf s n).ops.vals.filter fun o => o.op = opErase) (fun s o =>
      issueOp s n opSuspend o.channel o.die 0 false [] [] .suspend) s) s

/-- The record that an event becomes when it is accepted now as number `sq` (R392). -/
def recordOf (s : Blk) (e : Ev) (sq : Nat) : EvRec :=
  { seq := sq, time := timeStamp s, powerCycles := s.time.powerCycles, code := e.code, sev := e.sev, devState := s.dev.code,
    src := e.src, payload := e.payload }

/-- The dump begins: the pannier is frozen into the image, and no other operation is sent (R356). `power` tells a
power-fail dump from a kickstand dump. -/
def startDump (s : Blk) (power : Bool) : Blk :=
  let s := suspendErases s
  { s with
    links := s.links.mapVal fun i k => if i < 16 then { k with txq := [] } else k
    pwr := { s.pwr with
      dump := some power, dumpDone := false, dumpUsed := true, imageRing := s.med.ring, imageStripes := s.med.stripes
      imageEvents := if s.evt.nextSeq = 0 then [] else (s.evt.buf.vals.filter fun r => decide (s.evt.flushed ≤ r.seq))
        ++ (s.evt.inq.zip (List.range s.evt.inq.length)).map (fun p => recordOf s p.1 (s.evt.nextSeq + p.2))
      imageOpTime := s.time.opTime } }

/-! ### The kickstand -/

/-- A completion of a ring not posted yet becomes DEVICE_FAULT (R384). -/
def faultCpl (c : Cpl) : Cpl :=
  { c with trailer := (stDeviceFault, c.trailer.2.1, c.trailer.2.2.1, 0, c.trailer.2.2.2.2), flushing := false }

/-- R384 step 3 on one tag: frames not sent are dropped, and the response ends with a trailer carrying DEVICE_FAULT and the
results and version of R69. -/
def faultTag (s : Blk) (sn t : Nat) : Blk :=
  let s := deliverDue s sn t
  match sessOf s sn with
  | none => s
  | some ss =>
    let x := tagOf ss t
    let mine := ss.respq.filter fun f => f.tag = t ∧ f.notice = false
    let s := setSess s sn { ss with respq := ss.respq.filter fun f => ¬ (f.tag = t ∧ f.notice = false) }
    match x.st with
    | .idle => s
    | .completing =>
      if x.sentFinal then s
      else
        match mine.getLast? with
        | none => s
        | some f =>
          let tr := f.payload.drop (f.payload.length - 16)
          modSess s sn fun y => { y with respq := y.respq ++
            [{ tag := t, opcode := x.opcode, ordered := x.ordered, final := true, trailer := true,
               payload := trailer (stDeviceFault, beAt tr 2 1, beAt tr 3 1, 0, beAt tr 8 8), eg := x.eg }] }
    | _ =>
      let s := match x.slot with
        | some k => modCmd s k fun c => { c with out := [] }
        | none => s
      match x.slot with
      | some k => deliverDue (failCmd s k stDeviceFault 0 (versionFound s k)) sn t
      | none => refuseTag s sn t stDeviceFault 0

/-- Every response in progress is cut short (R384 step 3). -/
def cutResponses (s : Blk) : Blk :=
  let s := forEach s.xpt.sessions.keys (fun s sn => forEach (List.range 32) (fun s t => faultTag s sn t) s) s
  let s := forEach s.cmd.slots.keys (fun s k => failCmd s k stDeviceFault 0 0) s
  let s := forEach ((s.cmd.slots.filter (fun p => p.2.ring.isNone)).map Prod.fst) freeSlot s
  { s with ring := { s.ring with cqs := s.ring.cqs.mapVal fun _ q => { q with wait := q.wait.map faultCpl } } }

/-- A side of a pair stops showing that it is alive, and resigns; when it cannot, its rim links go down at once (R384,
R386). -/
def leavePair (s : Blk) : Blk :=
  if s.tdm.paired = false then s
  else
    let s := { s with pin := { s.pin with peerAliveOut := false } }
    if (linkOf s .tandem).phase = .up then sendResign s 0 else { s with rim := { s.rim with up := false } }

/-- The dump of the kickstand, or why there is none (R387): in BOOTING the boot record instead, in FREEWHEEL
nothing, with AON_SEQ dead nothing, during a dump that dump goes on. -/
def kickDump (s : Blk) (was : DevState) (clockDead : Bool) : Blk :=
  if s.pwr.dump.isSome ∨ clockDead ∨ s.pwr.pstate = .freewheel then s
  else if was = .booting then
    let s := writeRec s (failRec s.boot.step)
    if s.boot.step < 13 then s else startDump s false
  else startDump s false

/-- R387: a cause in step 3 or 4 of the activation timeline sets the slot's SLOT_FAILED bit. -/
def kickActivation (s : Blk) : Blk :=
  match s.boot.activation with
  | some (st, _) =>
    let s := { s with boot := { s.boot with activation := none } }
    if st = 3 ∨ st = 4 then
      writeRec s fun r => { r with slotFailed := r.slotFailed ||| (if r.pendingSlot < 2 then 2 ^ r.pendingSlot else 0) }
    else s
  | none => s

/-- Taking the kickstand: the one operation of every cause of R385. The first cause is held, later ones set their bit. -/
def enterKickstand (s : Blk) (code wher : Nat) (clockDead : Bool) : Blk :=
  let s := { s with safe := { s.safe with ksAll := s.safe.ksAll ||| (1#10 <<< code) } }
  if s.dev = .kickstand then s
  else
    let was := s.dev
    let s := { s with
      safe := { s.safe with ksCode := code, ksWhere := wher, ksTime := timeStamp s, gate := true }
      pin := { s.pin with fault := true }
      links := s.links.mapVal fun i k => if i = 16 then { k with txq := k.txq.filter (fun f => f.ftype ≠ 0x7) } else k
      pwr := { s.pwr with prepare := none, backoff := [], heldFault := true } }
    let s := alert (setDev s .kickstand) 0
    let s := raise s 0xE085 7 domSafe (pl [(1, code)])
    let s := kickActivation (cutResponses s)
    kickDump (leavePair s) was clockDead

end Sys2Proof.Machine
end

