-- ==== Sys2Proof/Machine/Events.lean ====
section
/-! DEFINITION. The event recorder: acceptance into the on-chip buffer (R392-R396), the flush to the flash log and its two
policies (R398-R400), the history that EVENT_READ returns (R402), and the loss report (R403). -/

namespace Sys2Proof.Machine

/-! ### Acceptance (R394-R396, R410, R425) -/

/-- Records not yet flushed, in order (R398). -/
def unflushed (s : Blk) : List EvRec :=
  (s.evt.buf.vals.filter fun r => decide (s.evt.flushed ≤ r.seq)).mergeSort fun a b => decide (a.seq ≤ b.seq)

/-- The persisted ceiling rises by 2^20 when the next sequence comes within 2^18 of it (R394). -/
def raiseCeiling (e : EvtSt) : EvtSt := if e.ceiling < e.nextSeq + 2 ^ 18 then { e with ceiling := e.ceiling + 2 ^ 20 } else e

/-- The recorder numbers: it has started, and its domain runs. -/
def recorderRuns (s : Blk) : Bool := decide (s.evt.nextSeq ≠ 0) && decide (s.pwr.pstate ≠ .freewheel)

/-- A record takes its slot; an older record not yet on flash is lost to the log. -/
def storeRec (s : Blk) (r : EvRec) : Blk :=
  let k := r.seq % 65536
  let lost := (s.evt.buf.get? k).any fun o => decide (s.evt.flushed ≤ o.seq)
  let e := { s.evt with buf := s.evt.buf.set k r, nextSeq := r.seq + 1, overrun := if lost then s.evt.overrun + 1 else s.evt.overrun }
  { s with evt := raiseCeiling e }

/-- One event is accepted now: below MIN_SEV it is neither numbered nor stored. Severity 6 and 7 ask for a flush and set
EVENT; ALERT_SEV sets bit 4 of ALERT_STATUS; 75 % of the buffer unflushed starts a flush. -/
def acceptEv (s : Blk) (e : Ev) : Blk :=
  if e.sev < s.evt.minSev ∧ e.sev < 7 then s
  else
    let n := s.evt.nextSeq
    let s := storeRec s (recordOf s e n)
    let s := if 6 ≤ e.sev then { s with evt := { s.evt with flushTo := n }, reg := { s.reg with smbEvent := true } } else s
    let s := if s.reg.alertSev ≤ e.sev then alert s 4 else s
    if 49152 ≤ (unflushed s).length then { s with evt := { s.evt with flushing := true } } else s

/-- EVENT_ACCEPT. -/
def eventAcceptFn (s : Blk) : Blk :=
  match s.evt.inq with
  | e :: rest => if recorderRuns s then acceptEv { s with evt := { s.evt with inq := rest } } e else s
  | [] => s

def execEventAccept (s : State) : Host.Outcome State Fault Refusal := lift eventAcceptFn s

/-! ### The flash log (R398-R400) -/

def logSize : Nat := 16777216
def segment : Nat := 65536

/-- What is kept of a reclaimed segment: severities from KEEP_SEV up, at most 32,768 of them; the lowest severity goes first,
and the oldest first within one (R400). -/
def keptOf (keepSev : Nat) (seg : List EvRec) : List EvRec :=
  let q := seg.filter fun r => decide (keepSev ≤ r.sev)
  let worth := (q.zip (List.range q.length)).mergeSort fun a b => decide (b.1.sev < a.1.sev) || (decide (a.1.sev = b.1.sev) && decide (b.2 ≤ a.2))
  ((worth.take 32768).mergeSort fun a b => decide (a.2 ≤ b.2)).map Prod.fst

/-- One record goes to the log under its policy; one that the log refuses, or that a reclaim does not keep, counts as
DROPPED_FULL. Under STOP_WHEN_FULL the log raises 0xD002 when it is one segment short of full (R399). -/
def logRec (s : Blk) (r : EvRec) : Blk :=
  let n := s.evt.log.length
  let put := fun (s : Blk) => { s with evt := { s.evt with log := s.evt.log ++ [r] } }
  if s.evt.overwrite then
    if logSize ≤ n then
      let kept := keptOf s.evt.keepSev (s.evt.log.take segment)
      put { s with evt := { s.evt with
        log := s.evt.log.drop segment ++ kept, droppedFull := s.evt.droppedFull + BitVec.ofNat 64 (segment - kept.length) } }
    else put s
  else
    let s := if logSize ≤ n ∨ (logSize - segment ≤ n ∧ r.sev < 6) then { s with evt := { s.evt with droppedFull := s.evt.droppedFull + 1 } }
      else put s
    if logSize - segment ≤ s.evt.log.length ∧ s.evt.reserveInUse = false then
      raise { s with evt := { s.evt with reserveInUse := true } } 0xD002 4 domEvt []
    else s

/-- A list of records leaves the buffer for the log. -/
def flushRecs (s : Blk) (rs : List EvRec) : Blk :=
  let s := forEach rs logRec s
  match rs.getLast? with
  | some r => { s with evt := { s.evt with flushed := max s.evt.flushed (r.seq + 1) } }
  | none => s

/-- Every unflushed record (R347 step 4). -/
def flushAll (s : Blk) : Blk := flushRecs s (unflushed s)

/-- The records of the next unit: at most 256, and only up to the record that asked for the flush unless a 75 % flush runs. -/
def nextUnitRecs (s : Blk) : List EvRec :=
  let u := unflushed s
  (if s.evt.flushing then u else u.filter fun r => decide (r.seq ≤ s.evt.flushTo)).take 256

/-- EVENT_FLUSH_UNIT: a unit whose program fails is raised as 0xD004 and is written again. -/
def flushUnitFn (ok : Bool) (s : Blk) : Blk :=
  let u := nextUnitRecs s
  if u.isEmpty ∨ s.pwr.dump.isSome then s
  else if ok = false then raise s 0xD004 4 domEvt []
  else
    let s := flushRecs s u
    if (unflushed s).length < 16384 then { s with evt := { s.evt with flushing := false } } else s

def execEventFlushUnit (programOk : Bool) (s : State) : Host.Outcome State Fault Refusal := lift (flushUnitFn programOk) s

/-! ### History, erase, losses (R401-R403) -/

/-- Every record that the log or the buffer still holds and no erase has taken, in sequence order, each once. -/
def history (s : Blk) : List EvRec :=
  let logged := s.evt.log.map (·.seq)
  let b := s.evt.buf.vals.filter fun r => decide (s.evt.eraseBase ≤ r.seq) && !(logged.contains r.seq)
  (s.evt.log ++ b).mergeSort fun a b => decide (a.seq ≤ b.seq)

/-- ERASE: every record accepted before this instant leaves, and 0xD003 is the first after it. -/
def eraseLog (s : Blk) : Blk :=
  let n := s.evt.nextSeq
  acceptEv { s with evt := { s.evt with log := [], eraseBase := n, flushed := n, flushTo := 0, flushing := false, reserveInUse := false } }
    { code := 0xD003, sev := 3, src := domEvt, at_ := s.now }

/-- EVENT_LOSS_REPORT: while a loss counter has risen since the last report, at most once in any second (R403, R433). -/
def lossReportFn (s : Blk) : Blk :=
  let e := s.evt
  let sum := e.queueLost.toNat + e.overrun.toNat + e.droppedFull.toNat
  if sum = e.lossSeen ∨ e.lossAt.any (fun t => decide (s.now < t + second)) then s
  else
    raise { s with evt := { s.evt with lossSeen := sum, lossAt := some s.now } } 0xD001 4 domEvt
      (pl [(8, e.queueLost.toNat), (8, e.overrun.toNat), (8, e.droppedFull.toNat)])

def execEventLossReport (s : State) : Host.Outcome State Fault Refusal := lift lossReportFn s

end Sys2Proof.Machine
end

