-- ==== Sys2Proof/Machine/Hub.lean ====
section
/-! DEFINITION. The hub's executor: taking Iawatal requests, the checks of R305 and R312, answers on both paths, and jobs
(R304-R313, R331). -/

namespace Sys2Proof.Machine

/-! ### Classes, forms and resources of requests -/

/-- Classes of R312: 0 Q, 1 C, 2 F; none for an opcode that R314 does not list. -/
def adminClass (op : Nat) : Option Nat :=
  if adminQ.contains op then some 0
  else if [0xBC, 0xBD, 0xBE].contains op then some 2
  else if [0x82, 0x83, 0x84, 0x88, 0x89, 0x8A, 0x8B, 0x90, 0x91, 0x92, 0x93, 0x94, 0x99, 0x9A, 0xA0, 0xA1, 0xA2, 0xA3, 0xA4,
      0xA8, 0xAA, 0xAB, 0xB1, 0xB2, 0xB3, 0xB6, 0xB9, 0xBA, 0xBB].contains op then some 1
  else none

/-- PARAM_LEN that a command requires (R314, R401). -/
def paramSize (op : Nat) (params : Bytes) : Nat :=
  match op with
  | 0x81 => 4 | 0x82 => 4 | 0x84 => 1 | 0x88 => 28 | 0x89 => 2 | 0x8A => 3 | 0x8B => 20 | 0x8C => 2 | 0x8D => 2
  | 0x90 => 36 | 0x91 => 36 | 0x92 => 2 | 0x93 => 8 | 0x94 => 2 | 0x95 => 2 | 0x98 => 1 | 0x99 => 3 | 0x9A => 1
  | 0xA0 => 2 | 0xA1 => 48 | 0xA2 => 52 | 0xA3 => 2 | 0xA4 => 32 | 0xA8 => 4 + 16 * leAt params 0 1 | 0xA9 => 8
  | 0xAA => 16 | 0xAB => 2 | 0xB3 => 32 | 0xB4 => 4 | 0xB6 => 2 | 0xB8 => 12 | 0xB9 => 4 | 0xBA => 8 | 0xBB => 9
  | 0xBC => 4 | _ => 0

/-- The form of a request, whatever its opcode (R304, R305). -/
def requestOk (inBand : Bool) (r : Request) : Bool :=
  (adminClass r.opcode).isSome && decide (r.reserved = 0) && decide (r.flags / 2 = 0)
  && (decide (r.flags = 0) && decide (r.bufAddr = 0) || decide (r.flags = 1) && !inBand)
  && decide (r.paramLen ≤ 1992) && decide (r.paramLen = paramSize r.opcode r.params) && decide (r.bufLen ≤ 16777216)
  && (!inBand || decide (r.bulk.length = if r.opcode = 0xBC then r.bufLen else 0))

/-- What a policy parameter names: its namespace, or the pair policy (R316). -/
def policyNames (id scope : Nat) : List (Nat × Nat) :=
  if 0x1F ≤ id ∧ id ≤ 0x21 then [(5, 0)] else if scope = 0xFFFFFFFF then [] else [(1, scope)]

/-- What a request names, for the serial rule of R311: kind (1 namespace, 2 tenant, 3 spoke, 4 port, 5 pair policy) and
number. -/
def requestNames (r : Request) : List (Nat × Nat) :=
  let p := r.params
  if [0x89, 0x8A, 0x8B, 0x8C].contains r.opcode then [(1, leAt p 0 2)]
  else if r.opcode = 0x88 then [(1, leAt p 0 2), (2, leAt p 2 2)]
  else if [0x90, 0x91, 0x92, 0x93, 0x94, 0x95].contains r.opcode then [(2, leAt p 0 2)]
  else if r.opcode = 0xAA then [(if leAt p 0 1 = 1 then 2 else 1, leAt p 2 2)]
  else if [0x98, 0x9A, 0xB6].contains r.opcode then [(3, leAt p 0 1)]
  else if r.opcode = 0x99 then ((List.range 16).filter (leAt p 0 2).testBit).map fun n => (3, n)
  else if r.opcode = 0xA4 then [(4, leAt p 0 1), (5, 0)]
  else if [0xA0, 0xA1, 0xA2].contains r.opcode then [(4, leAt p 0 1)]
  else if [0xB1, 0xB2, 0xB3].contains r.opcode then [(5, 0)]
  else if r.opcode = 0xA8 then (List.range (leAt p 0 1)).flatMap fun i => policyNames (leAt p (4 + 16 * i) 2) (leAt p (8 + 16 * i) 4)
  else if r.opcode = 0xA9 then policyNames (leAt p 0 2) (leAt p 4 4)
  else if r.opcode = 0xB4 then
    (if leAt p 0 1 = 1 then [(4, leAt p 2 2 / 8)] else if leAt p 0 1 = 3 ∨ leAt p 0 1 = 4 then [(3, leAt p 2 2)] else [])
  else []

/-- Commands that change namespaces, tenants, key pages or pair policy: refused while a pair's link is down (R286).
A POLICY_SET counts when it names a namespace or the pair policy (DEDUCED, log entry 32). -/
def changesPair (r : Request) : Bool :=
  [0x88, 0x89, 0x8A, 0x8B, 0x90, 0x91, 0x92, 0x93, 0x94, 0xAA, 0xA4, 0xB1, 0xB2].contains r.opcode
    || (r.opcode == 0xA8 && !(requestNames r).isEmpty)

/-- The hub is healthy enough to take a request (R386), has started, and does not sleep. -/
def hubServes (s : Blk) : Bool :=
  s.pin.porN && decide (s.dev ≠ .booting) && decide (s.pwr.pstate ≠ .freewheel) && decide (s.pwr.pstate ≠ .off)
    && !(decide (s.dev = .kickstand) &&
      (s.safe.ksAll.getLsbD 1 || s.safe.ksAll.getLsbD 9 || (decide (s.safe.ksCode = 4) && decide (s.safe.ksWhere = domHub))))

/-- R312: the status a class gets in the present device state; 0 when it runs. -/
def classCause (s : Blk) (r : Request) : Nat :=
  match adminClass r.opcode with
  | some 1 =>
    if s.dev = .kickstand then stDeviceFault
    else if s.dev ≠ .run ∧ s.dev ≠ .activating then stStateConflict
    else if s.tdm.paired ∧ pairJoined s = false ∧ changesPair r then stStateConflict else 0
  | some 2 =>
    if s.dev = .kickstand then stDeviceFault
    else if s.dev ≠ .run ∧ s.dev ≠ .recovery then stStateConflict else 0
  | _ => 0

/-- DETAIL of a refusal by class: the state code of a STATE_CONFLICT (R69). -/
def classDetail (s : Blk) (c : Nat) : Nat := if c = stStateConflict then s.dev.code else 0

/-! ### Answers -/

def mboxOf (s : Blk) (n : Nat) : Mailbox := s.hub.mbox.getD n {}
def setMbox (s : Blk) (n : Nat) (m : Mailbox) : Blk := { s with hub := { s.hub with mbox := s.hub.mbox.set n m } }

/-- The response of a mailbox is complete: BUSY clears, DONE rises with its vector (R307, R308). -/
def mboxDone (s : Blk) (n : Nat) : Blk :=
  let m := mboxOf s n
  if m.discard then setMbox s n { m with busy := false, discard := false, flushing := false, progress := 0 }
  else
    let s := setMbox s n { m with busy := false, done := true, flushing := false }
    if m.irqEn then vector s (288 + n) else s

/-- R308: write the response, move bulk to host memory with its flushing read (R331), and finish. -/
def answerMbox (s : Blk) (n : Nat) (r : Request) (head bulk : Bytes) : Blk :=
  let m := mboxOf s n
  let s := setMbox s n { m with resp := if m.discard then m.resp else head }
  if bulk.isEmpty ∨ r.flags ≠ 1 ∨ m.discard then mboxDone s n
  else
    let last := r.bufAddr + bulk.length - 1
    let s := crankLoad s 31 { hostAddr := r.bufAddr, count := bulk.length, dirOut := true, flush := true, localRef := mboxRef n }
    let s := emit (crankWrite s 31 (mboxRef n) r.bufAddr bulk) (.hostRead (last / 4 * 4) 4)
    setMbox s n { mboxOf s n with flushing := true }

/-- R310: the response of an in-band command: its body when it is OK, then the trailer (R68). -/
def answerInBand (s : Blk) (slot status detail : Nat) (head bulk : Bytes) : Blk :=
  let s := if status = stOk then streamBody s slot (head ++ bulk) else s
  finishCmd s slot status 0 0 detail 0

def isInBand : Source → Bool
  | .inBand _ => true
  | .mailbox _ => false

/-- Answer a request wherever it came from. Bulk goes to the host buffer, or is appended to the response (R304); nothing
goes to the host buffer through a closed release gate (R384). -/
def answerRaw (s : Blk) (src : Source) (r : Request) (status detail : Nat) (result bulk : Bytes) : Blk :=
  let bulk := if s.safe.gate ∧ r.flags = 1 then [] else bulk
  let head := responseHead status r.reqId detail bulk.length result
  match src with
  | .mailbox n => answerMbox s n.val r (if r.flags = 1 then head else head ++ bulk) bulk
  | .inBand slot => answerInBand s slot status detail head bulk

/-- The executor's entry of a source leaves it. -/
def leaveExec (s : Blk) (src : Source) : Blk :=
  { s with hub := { s.hub with exec := s.hub.exec.filter (fun e => e.1 ≠ src) } }

/-! ### Taking (R308, R311) -/

/-- A request is in the hub's hands: the class and form checks of R305 answer it at once, or it waits to be executed. -/
def hubTake (s : Blk) (src : Source) (r : Request) : Blk :=
  let c := classCause s r
  if c ≠ 0 then answerRaw s src r c (classDetail s c) [] []
  else if requestOk (isInBand src) r = false then answerRaw s src r stBadRequest 0 [] []
  else
    let reading := decide (r.opcode = 0xBC) && decide (r.flags = 1) && decide (0 < r.bufLen)
    let s := { s with hub := { s.hub with exec := s.hub.exec ++ [(src, { r with reading := reading })] } }
    match src with
    | .mailbox n => if reading then crankRead s 31 0xFF (mboxRef n.val) r.bufAddr r.bufLen else s
    | .inBand _ => s

/-- In-band commands at the head of the queue are taken while the executor has room (R311). -/
def hubPull : Nat → Blk → Blk
  | 0, s => s
  | n + 1, s =>
    match s.hub.waiting with
    | .inBand slot :: rest =>
      if s.hub.exec.length < 4 ∧ hubServes s then
        let s := { s with hub := { s.hub with waiting := rest } }
        match cmdOf s slot with
        | some c => hubPull n (hubTake s (.inBand slot) (parseRequest c.value))
        | none => hubPull n s
      else s
    | _ => s

/-- The answer of a command the executor holds: it leaves the executor, and the next in-band command is taken. -/
def hubAnswer (s : Blk) (src : Source) (r : Request) (status detail : Nat) (result bulk : Bytes) : Blk :=
  let s := answerRaw (leaveExec s src) src r status detail result bulk
  hubPull s.hub.waiting.length s

def hubOk (s : Blk) (src : Source) (r : Request) (result : Bytes) : Blk := hubAnswer s src r stOk 0 result []
def hubFail (s : Blk) (src : Source) (r : Request) (status : Nat) : Blk := hubAnswer s src r status 0 [] []

/-- R310: an in-band Iawatal command is dispatched to the hub. -/
def hubSubmit (s : Blk) (slot : Nat) : Blk :=
  if ((cmdOf s slot).map (·.phase)) ≠ some .handed then s else
  let s := modCmd s slot fun c => { c with phase := .hub }
  let s := { s with hub := { s.hub with waiting := s.hub.waiting ++ [.inBand slot] } }
  hubPull s.hub.waiting.length s

/-- No earlier command of the executor names what this one names (R311). -/
def mayRun (s : Blk) (src : Source) (r : Request) : Bool :=
  let before := s.hub.exec.takeWhile fun e => e.1 ≠ src
  before.all fun e => (requestNames e.2).all fun x => !(requestNames r).contains x

/-- A write-type command has reached its commit point: the tag is COMMITTING (R311). -/
def hubBegin (s : Blk) (src : Source) (r : Request) : Blk :=
  let s := { s with hub := { s.hub with
    exec := s.hub.exec.map fun e => if e.1 = src then (src, { e.2 with begun := true }) else e } }
  let who := match src with
    | .mailbox n => [(1, 0), (4, n.val)]
    | .inBand slot => [(1, 1), (4, ((cmdOf s slot).map (·.session)).getD 0)]
  let s := if adminClass r.opcode = some 0 then s else raise s 0xB002 1 domHub (pl ((1, r.opcode) :: who))
  match src with
  | .mailbox _ => s
  | .inBand slot =>
    match cmdOf s slot with
    | some c =>
      match sessOf s c.session with
      | some ss => if isReadOp r.opcode then s else putTag s c.session c.tag { tagOf ss c.tag with st := .committing }
      | none => s
    | none => s

/-- Run the command of an opcode that the executor holds for a source: nothing happens while it is held during ACTIVATING
(R312), while an earlier command names the same thing (R311), or while its bulk bytes are still read. The checks come in
the order of R305: the class, then the command's own with a status and DETAIL, 0 when it runs. -/
def adminRun (op : Nat) (src : Source) (chk : Blk → Request → Nat × Nat) (f : Blk → Request → Blk) (s : Blk) : Blk :=
  match s.hub.exec.find? (fun e => e.1 = src ∧ e.2.opcode = op ∧ e.2.begun = false) with
  | none => s
  | some (_, r) =>
    if adminClass op = some 1 ∧ s.dev = .activating then s
    else if mayRun s src r = false ∨ r.reading then s
    else
      let c := classCause s r
      let x := chk s r
      if c ≠ 0 then hubAnswer s src r c (classDetail s c) [] []
      else if x.1 ≠ 0 then hubAnswer s src r x.1 x.2 [] []
      else f (hubBegin s src r) r

/-! ### Jobs (R313) -/

def jobsRunning (s : Blk) : Nat := (s.hub.jobs.vals.filter fun j => j.jstate = 1).length

/-- Start a job and answer its JOB_ID; a seventeenth gives BUSY_RETRY. -/
def startJob (s : Blk) (src : Source) (r : Request) (k : JobKind) (f : Blk → Nat → Blk) : Blk :=
  if 16 ≤ jobsRunning s then hubFail s src r stBusyRetry
  else
    let id := s.hub.jobSeq + 1
    let s := { s with hub := { s.hub with jobSeq := id % 4294967295, jobs := s.hub.jobs.set id { kind := k } } }
    f (hubOk s src r (leBytes 4 id)) id

/-- The percentage done now of mailbox `k`, or of job `k - 16`: a free value, 0 to 100 (R307, R314). -/
def progressNow (s : Blk) (k : Nat) : Nat := Config.progress k s.now % 101

/-- A job ends: its result is kept, 0xB005 is raised, and results 64 jobs old are dropped. -/
def endJob (s : Blk) (id jstate status detail : Nat) : Blk :=
  match s.hub.jobs.get? id with
  | none => s
  | some j =>
    if j.jstate ≠ 1 then s
    else
      let jobs := s.hub.jobs.mapVal fun _ x => if x.jstate = 1 then x else { x with age := x.age + 1 }
      let jobs := (jobs.set id { j with jstate := jstate, progress := if jstate = 2 ∧ status = stOk then 100 else progressNow s (16 + id), status := status, detail := detail }).filter
        fun p => p.2.age < 64
      raise { s with hub := { s.hub with jobs := jobs } } 0xB005 2 domHub (pl [(4, id), (2, status)])

/-- The running jobs of a kind. -/
def jobsWhere (s : Blk) (p : JobKind → Bool) : List Nat :=
  (s.hub.jobs.filter fun e => e.2.jstate = 1 && p e.2.kind).map Prod.fst

end Sys2Proof.Machine
end

