-- ==== Sys2Proof/Machine/Blocks.lean ====
section
/-! DEFINITION. Blocks: physical addresses and anchor blocks (R173, R174), free fractions, brake and SLC bypass (R192-R195),
the free blocks that streams take (R197, R205, R241), programs (R180), and the map journal on flash (R202, R205, R239). -/

namespace Sys2Proof.Machine

/-! ### Cipher clusters (R23, R128) -/

def clusterUp (s : Blk) (c : Nat) : Bool := (List.range 8).any fun i => s.cip.pairs.getLsbD (8 * c + i)

/-- Units in progress in a cluster (R128). -/
def clusterLoad (s : Blk) (c : Nat) : Nat := (s.cip.units.vals.filter fun u => u.cluster = c).length

/-- A cluster has queue space: how much it has, the manual leaves open (`Config.clusterQueue`); an idle cluster has some. -/
def clusterSpace (s : Blk) (c : Nat) : Bool := decide (clusterLoad s c = 0) || decide (clusterLoad s c < Config.clusterQueue)

/-- The cluster that takes a unit's first cell: a running one with queue space, else the one being woken, else a running one,
which keeps the cell until it has space (R23, R128). Among several the lowest-numbered one is taken (DESIGN CHOICE, log entry
44). -/
def pickCluster (s : Blk) : Nat :=
  let up := (List.range 16).filter (clusterUp s)
  let runs := up.filter fun c => clockOn s (domCiph c)
  ((runs.find? (clusterSpace s)).or (up.find? fun c => !clockOn s (domCiph c))).getD (runs.headD 0)

/-- A page, a record or a key goes through a cluster, which is woken for it (R23, R128); a disagreement in it has no effect but
those that CELL_ARRIVAL, BOOT_STEP_COMPLETE and SELF_TEST show. -/
def useCluster (s : Blk) : Blk := startClock s (domCiph (pickCluster s))

/-! ### Dies, blocks and addresses (R163, R171, R173, R174, R241) -/

/-- Namespace code of the system layout (R255). -/
def sysNs : Nat := 0xFFFF

def profOf (s : Blk) (n : Nat) : Profile := (spokeOf s n).profile.getD {}

/-- CHANNELS and DIES_PER_CHANNEL of IDENT (R160). -/
def chansOf (x : SpokeSt) : Nat := beAt x.ident 6 1
def diesPerChan (x : SpokeSt) : Nat := beAt x.ident 7 1

/-- Die numbers, channel x 16 + die. -/
def allDies (x : SpokeSt) : List Nat :=
  (List.range (chansOf x)).flatMap fun c => (List.range (diesPerChan x)).map fun d => c * 16 + d

def dieUsable (x : SpokeSt) (d : Nat) : Bool := !x.diesOut.contains d && !x.diesDead.contains d

/-- A spoke with fewer than 17 usable dies on distinct channels has failed as a whole (R241). -/
def enoughDies (x : SpokeSt) : Bool :=
  decide (17 ≤ (((allDies x).filter (dieUsable x)).map (· / 16)).eraseDups.length)

/-- SLC-buffer blocks of each die: SLC_SHARE of its blocks (R189), the lowest numbers above the anchor block. -/
def slcPer (s : Blk) (n : Nat) : Nat := (profOf s n).blocksPerPlane * s.med.slcShare / 100

def blkKey (n d b : Nat) : Nat := (n * 512 + d) * 65536 + b
def blkAt (s : Blk) (k : Nat) : NBlk := s.med.blks.getD k {}
def modBlk (s : Blk) (k : Nat) (f : NBlk → NBlk) : Blk := { s with med := { s.med with blks := s.med.blks.upd k {} f } }

/-- ONFI row address as the profile's ROW_SHIFTS lays it out (R171). -/
def rowOf (p : Profile) (plane page block : Nat) : Nat :=
  let pb := p.rowShifts % 16
  let lb := p.rowShifts / 16
  page + plane * 2 ^ pb + block * 2 ^ (pb + lb)

/-- Planes and pages per block of a spoke, or of the FAILED one behind a ghost number. -/
def geoOf (s : Blk) (n g : Nat) : Nat × Nat :=
  if g = 0 then (max 1 (profOf s n).planes, (profOf s n).pagesPerBlock) else s.med.ghostGeo.getD g (1, 1)

/-- The PGA of codeword `cw` of plane-page `ppi` of a block (R173, R241). -/
def blockPga (s : Blk) (n d block ppi cw : Nat) (g : Nat := 0) : Nat :=
  let p := geoOf s n g
  pgaPack { spoke := n, channel := d / 16, die := d % 16, plane := ppi % p.1,
            pageIx := block * p.2 + ppi / p.1, cw := cw }

/-- Where a PGA lies: spoke, die, block, plane-page index within the block, codeword. -/
structure Place where
  spoke : Nat
  die : Nat
  block : Nat
  page : Nat
  plane : Nat
  ppi : Nat
  cw : Nat

def placeOf (s : Blk) (pga : Nat) : Place :=
  let v := pgaView pga
  let p := geoOf s v.spoke (pga / 2 ^ 48)
  let per := max 1 p.2
  { spoke := v.spoke, die := v.channel * 16 + v.die, block := v.pageIx / per, page := v.pageIx % per, plane := v.plane,
    ppi := (v.pageIx % per) * p.1 + v.plane, cw := v.cw }

/-- Block of a PGA. -/
def pgaBlk (s : Blk) (pga : Nat) : Nat := let w := placeOf s pga; blkKey w.spoke w.die w.block

/-- The PGA of grain `i` of unit `u` of a spoke band (R241). -/
def unitPga (s : Blk) (sb : SBand) (u i : Nat) : Nat :=
  blockPga s sb.spoke (sb.dies.getD (u % 16) 0) (sb.blocks.getD (u % 16) 0) (4 * (u / 16) + i / 4) (i % 4) sb.ghost

/-! ### Free fraction, brake, capacity, SLC bypass (R192, R193, R195, R300) -/

/-- F in 0.01 %. -/
def freeFraction (x : SpokeSt) : Nat := if x.usableBlocks = 0 then 10000 else x.freeBlocks * 10000 / x.usableBlocks

/-- READ_ONLY by capacity, per namespace: entered when F of a member falls below 1 %, left when F is above 2 % on all its
members (R193). -/
def judgeCap (s : Blk) : Blk :=
  { s with nss := s.nss.mapVal fun n x =>
      let fs := (memberSpokes s n).map fun k => freeFraction (spokeOf s k)
      if fs.any (· < 100) then { x with capEmerg := true }
      else if fs.all (200 < ·) then { x with capEmerg := false } else x }

/-- Judge one spoke after a change of its free blocks. -/
def judgeSpoke (s : Blk) (n : Nat) : Blk :=
  let x := spokeOf s n
  let f := freeFraction x
  let u := target s 0x0A
  let on := decide (f < u) || (x.brake && decide (f < u + 100))
  let isOver := on && decide (f < 200)
  let low := decide (f < 100) || (x.capEmerg && decide (f ≤ 200))
  let y := { x with brake := on, account := if on && !x.brake then 0 else x.account, brakeOver := isOver, capEmerg := low,
                    accountHalf := x.accountHalf && isOver }
  let s := setSpoke s n y
  let s := if on ≠ x.brake then raise s 0x8002 4 (domSpke n) (pl [(1, n), (1, boolNat on)]) else s
  let s := if isOver ≠ x.brakeOver then alert (raise s 0x8015 4 (domSpke n) (pl [(1, n), (1, boolNat isOver)])) 7 else s
  let s := if s.spokes.vals.any (·.brakeOver) then s else endOverride s [0x0A]
  let s := if low && !x.capEmerg then raise s 0x8003 5 (domSpke n) (pl [(1, n)]) else s
  judgeNs (judgeCap s)

/-- SLC-buffer blocks over all spokes, and those filled. -/
def slcTotal (s : Blk) : Nat := s.spokes.vals.foldl (fun a x => a + x.slcBlocks) 0
def slcFilled (s : Blk) : Nat := s.spokes.vals.foldl (fun a x => a + x.slcUsed) 0

/-- The fill of the SLC buffer lies above `p` percent (R191, R192). -/
def slcAbove (s : Blk) (p : Nat) : Bool := decide (p * slcTotal s < 100 * slcFilled s)

/-- The fill in whole percent, as event 0x8001 shows it. -/
def slcFill (s : Blk) : Nat := if slcTotal s = 0 then 0 else slcFilled s * 100 / slcTotal s

/-- R192: the bypass begins at 95 % and ends at 85 %. -/
def judgeSlc (s : Blk) : Blk :=
  let on := if s.med.slcBypass then slcAbove s 85 else decide (slcTotal s ≠ 0) && decide (95 * slcTotal s ≤ 100 * slcFilled s)
  if on = s.med.slcBypass then s
  else raise { s with med := { s.med with slcBypass := on } } 0x8001 3 domNone (pl [(1, slcFill s)])

/-! ### Free blocks (R197) -/

/-- Free blocks of a die for the SLC buffer or for the native streams. -/
def freeOn (s : Blk) (n d : Nat) (slc : Bool) : List Nat :=
  let k := slcPer s n
  let bs := if slc then (List.range k).map (· + 1) else (List.range ((profOf s n).blocksPerPlane - 1 - k)).map (· + (k + 1))
  bs.filter fun b => decide ((blkAt s (blkKey n d b)).st = 0)

/-- R197: gears 2 to 4 take the free block of highest erase count, the others the lowest. -/
def chooseBlock (s : Blk) (n d gear : Nat) (bs : List Nat) : Option Nat :=
  let e := fun b => (blkAt s (blkKey n d b)).erases
  bs.foldl (fun a b => match a with
    | none => some b
    | some x => if (if 2 ≤ gear ∧ gear ≤ 4 then e x < e b else e b < e x) then some b else some x) none

/-! ### What a stream takes next (R205, R241) -/

/-- Streams of a spoke that take free blocks: gear x 2, + 1 for GC target blocks; 14 the SLC buffer (R205). -/
def streamNo (gear : Nat) (slc gc : Bool) : Nat := if slc then 14 else 2 * gear + boolNat gc
def streamGear (st : Nat) : Nat := if st = 14 then 0 else st / 2

def blkSpoke (k : Nat) : Nat := k / 65536 / 512
def blkDie (k : Nat) : Nat := k / 65536 % 512

/-- A named block can still be taken. -/
def canTake (s : Blk) (k : Nat) : Bool := decide ((blkAt s k).st = 0) && dieUsable (spokeOf s (blkSpoke k)) (blkDie k)

/-- The blocks named for a stream, in order. -/
def namedFor (s : Blk) (q : Nat) : List Nat := (s.med.named.getD q []).filter (canTake s)

/-- The free block that a stream takes next: on a channel that the band does not use yet (R241), by R197, and named for no
stream. Which die, the manual leaves open (`Config.dieOf`). -/
def nextBlock (s : Blk) (n st : Nat) (band used : List Nat) : Option Nat :=
  let x := spokeOf s n
  let mine := used ++ s.med.named.vals.flatten
  let free := fun d => (freeOn s n d (st == 14)).filter fun b => !mine.contains (blkKey n d b)
  let ds := (allDies x).filter fun d => dieUsable x d && !(band.any fun k => blkDie k / 16 == d / 16) && !(free d).isEmpty
  (ds[Config.dieOf s.med.sbandNext band.length % ds.length]?).bind fun d => (chooseBlock s n d (streamGear st) (free d)).map (blkKey n d)

/-- The next `k` blocks of a stream; `band` holds the blocks that the spoke band being opened has already. -/
def nameBlocks (s : Blk) (n st : Nat) : Nat → List Nat → List Nat → List Nat
  | 0, _, _ => []
  | k + 1, band, used =>
    let band := if band.length = 17 then [] else band
    match nextBlock s n st band used with
    | some b => b :: nameBlocks s n st k (if st = 12 then [] else band ++ [b]) (b :: used)
    | none => []

/-- Name the next four blocks of a stream: those named before stay first (R205). -/
def nameStream (s : Blk) (q : Nat) (band : List Nat) : Blk :=
  let old := namedFor s q
  let more := nameBlocks s (q / 16) (q % 16) (4 - old.length) (band ++ old) old
  { s with med := { s.med with named := s.med.named.set q (old ++ more) } }

/-! ### Programs (R156, R163, R174, R180) -/

/-- A codeword to be programmed: its body, and its tag once WSEQ is known. -/
structure Cw where
  body : Bytes := []
  tag : Nat → Bytes := fun _ => []

/-- Tag of a grain of a stripe (R179). -/
def grainTag (ns gear : Nat) (g : SGrain) (wseq : Nat) : GTag :=
  { digest := g.digest, version := g.version, wseq := wseq, lga := g.lga, kind := g.kind, gear := gear,
    ns := if 1 ≤ g.kind ∧ g.kind ≤ 3 then ns else 0, grain := g.grain }

/-- The span of a grain (R243). -/
def grainSpan (ns gear : Nat) (g : SGrain) : Bytes := spanOf g.body (gtagBytes (grainTag ns gear g 0))

/-- Span of position `p` of parity row `i` of a stripe (R247). -/
def paritySpan (x : Stripe) (i p : Nat) : Bytes :=
  rsRow i ((List.range x.k).map fun j => grainSpan x.ns x.gear (x.grains.getD (16 * j + p) {}))

/-- The parity codeword of a span (R244). -/
def parityCw (gear role : Nat) (sp : Bytes) : Cw :=
  { body := sp.take 4112, tag := fun w => parityTag (sp.drop 4112) w gear role }

/-- The sixteen spans of member `n` of a stripe. -/
def memberSpans (x : Stripe) (n : Nat) : List Bytes :=
  (List.range 16).map fun p =>
    if n < x.k then grainSpan x.ns x.gear (x.grains.getD (16 * n + p) {}) else paritySpan x (n - x.k) p

/-- The sixteen codewords of member `n` of a stripe. -/
def memberCws (x : Stripe) (n : Nat) : List Cw :=
  if n < x.k then
    (List.range 16).map fun p =>
      let g := x.grains.getD (16 * n + p) {}
      { body := g.body, tag := fun w => gtagBytes (grainTag x.ns x.gear g w) }
  else (List.range 16).map fun p => parityCw x.gear (n - x.k) (paritySpan x (n - x.k) p)

/-- R274: a side of a pair raises its ceiling by 2^24 when its counter comes within 2^22 of it; the new ceiling goes to its
pannier and to the partner. -/
def wseqGuard (s : Blk) : Blk :=
  if s.tdm.paired ∧ s.med.wseqTop < s.med.wseq + 4194304 then
    let top := s.med.wseqTop + 16777216 * ((s.med.wseq + 4194304 - s.med.wseqTop + 16777215) / 16777216)
    tandemSend { s with med := { s.med with wseqTop := top } } 0x6 0x05 0 0 0 (beBytes 8 top)
  else s

/-- Program four plane-pages of a block from `ppi` on, one PROGRAM for each page over its planes (R174); the answer is the
last write sequence taken. -/
def programPages (s : Blk) (n d block ppi : Nat) (slc : Bool) (cws : List Cw) (why : OpFor) : Nat × Blk :=
  let p := profOf s n
  let planes := max 1 p.planes
  let pages := ((List.range 4).map fun i => (ppi + i) / planes).eraseDups
  let r := pages.foldl (fun (acc : Nat × Blk) pg =>
    let t := takeWseq acc.2
    let ixs := (List.range 4).filter fun i => (ppi + i) / planes = pg
    let rows := ixs.map fun i => rowOf p ((ppi + i) % planes) pg block
    let data := ixs.flatMap fun i => (List.range 4).flatMap fun c =>
      let x := cws.getD (4 * i + c) {}
      encodeCw (blockPga t.2 n d block (ppi + i) c) x.body (x.tag t.1)
    (t.1, issueOp t.2 n opProgram (d / 16) (d % 16) (rows.headD 0) slc
      ([BitVec.ofNat 8 ixs.length, 0, 0, 0] ++ rows.tail.flatMap (beBytes 4)) data why)) (0, s)
  (r.1, wseqGuard (modBlk r.2 (blkKey n d block) fun b => { b with wp := max b.wp (ppi + 4) }))

/-! ### Gear 6: journal pages (R179, R202, R239) -/

/-- Plane-pages of a block in SLC mode. -/
def slcPages (s : Blk) (n : Nat) : Nat := let p := profOf s n; max 1 p.planes * (p.pagesPerBlock / max 1 p.bitsPerCell)

/-- A block takes no more pages. -/
def closeBlk (s : Blk) (k : Nat) : Blk :=
  let n := s.med.closeOrder
  modBlk { s with med := { s.med with closeOrder := n + 1 } } k fun b =>
    if b.st = 1 then { b with st := 2, closedAt := secs s, closeOrder := n } else b

/-- The journal block of a spoke with room for four more plane-pages: block and plane-page. -/
def journalBlock (s : Blk) (n : Nat) : Option (Nat × Nat × Blk) :=
  match s.med.jopen.get? n with
  | some (k, i) => if (blkAt s k).st = 1 ∧ i + 4 ≤ slcPages s n then some (k, i, s) else fresh (closeBlk s k)
  | none => fresh s
where
  fresh (s : Blk) : Option (Nat × Nat × Blk) :=
    let q := n * 16 + 12
    ((namedFor s q).head?.or (nextBlock s n 12 [] [])).map fun k =>
      let s := modBlk s k fun b => { b with st := 1, gear := 6, slc := true, sband := 0, wp := 0, reads := 0, counted := false, refreshed := false }
      let s := { s with med := { s.med with named := s.med.named.set q ((namedFor s q).filter (· ≠ k)) } }
      (k, 0, judgeSpoke (modSpoke s n fun y => { y with freeBlocks := y.freeBlocks - 1 }) n)

/-- Codeword of a journal page (R179). -/
def journalCw (page : Nat) (body : Bytes) : Cw :=
  { body := body, tag := fun w => gtagBytes { wseq := w, lga := page, kind := 7, gear := 6 } }

/-- A pad codeword (R243). -/
def padCw (gear : Nat) : Cw := { body := zeros 4112, tag := fun w => gtagBytes { wseq := w, gear := gear } }

/-- One copy of at most sixteen journal pages, from number `page` on, is programmed on a spoke; whether it could be. -/
def journalCopy (s : Blk) (n page : Nat) (bodies : List Bytes) : Bool × Blk :=
  match journalBlock s n with
  | none => (false, s)
  | some (k, i, s) =>
    let s := { s with med := { s.med with jopen := s.med.jopen.set n (k, i + 4) } }
    let s := modBlk s k fun b => { b with jseq := s.med.jflush }
    let cws := (bodies.zip (List.range bodies.length)).map (fun e => journalCw (page + e.2) e.1) ++ List.replicate (16 - bodies.length) (padCw 6)
    (true, (programPages s n (blkDie k) (k % 65536) i true cws (.journal page)).2)

/-- Write journal pages in copies on the spokes given (R239). -/
def writeJournal (s : Blk) (spokes : List Nat) (bodies : List Bytes) : Blk :=
  forEach (groupsOf 16 bodies.length bodies) (fun s chunk =>
    let page := s.med.jpage
    let s := { s with med := { s.med with jpage := page + chunk.length } }
    let r := spokes.foldl (fun (acc : Nat × Blk) n => let c := journalCopy acc.2 n page chunk; (acc.1 + boolNat c.1, c.2)) (0, s)
    if r.1 = 0 then r.2 else { r.2 with med := { r.2.med with jout := r.2.med.jout.set page (chunk, r.1) } }) s

/-- A copy of a journal page has ended. One that could not be written is written again elsewhere, with event 0x7008 (R256). -/
def journalEnded (s : Blk) (n page : Nat) (good : Bool) : Blk :=
  match s.med.jout.get? page with
  | none => s
  | some (bodies, left) =>
    let gone := { s with med := { s.med with jout := if left ≤ 1 then s.med.jout.del page else s.med.jout.set page (bodies, left - 1) } }
    if good then gone
    else
      let s := raise s 0x7008 4 domNone (pl [(4, page), (1, n)])
      let r := journalCopy s (if inService s n then n else ((bestSpokes s 16).headD n)) page bodies
      if r.1 then r.2 else { gone with evt := s.evt }

/-- Three spokes take the copies of the map journal: those with the most free blocks (DESIGN CHOICE, log entry 46). -/
def journalSpokes (s : Blk) : List Nat := bestSpokes s 3

/-- Bodies of the pages that the ring fills: their records have no layout in the manual (`Config.journalByte`); stored under XTS
class 3 by page number (R133). -/
def journalBodies (s : Blk) (records : Nat) : List Bytes :=
  (List.range (1 + Config.recordSize * records / 4096)).map fun i =>
    let page := s.med.jpage + i
    xtsEnc s.cip.xts1 s.cip.xts2 3 page ((List.range 4096).map (Config.journalByte page)) ++ zeros 16

/-- Write pointers of the open blocks (R205). -/
def openPointers (s : Blk) : List (Nat × Nat) := (s.med.blks.filter fun e => e.2.st = 1).map fun e => (e.1, e.2.wp)

/-- The ring goes to flash, in gear 6 pages on three spokes, with the write pointer of every open block and the next blocks of
every stream that takes blocks (R202, R205). `band`: the blocks of the spoke band being opened, with its stream. Nothing but a
dump is written during a dump (R356). -/
def journalWrite (s : Blk) (band : Option (Nat × List Nat)) : Blk :=
  if s.pwr.dump.isSome then s
  else
    let keys := (s.med.named.keys ++ (band.map Prod.fst).toList).eraseDups
    let s := forEach keys (fun s q => nameStream s q (((band.filter fun e => e.1 = q).map Prod.snd).getD [])) s
    let s := writeJournal (useCluster { s with med := { s.med with jflush := s.med.jflush + 1 } }) (journalSpokes s) (journalBodies s s.med.ring.length)
    { s with med := { s.med with ring := [], fjournal := s.med.fjournal ++ s.med.ring, wptrs := openPointers s ++ s.med.named.vals.flatten.map (·, 0) } }

def journalFlush (s : Blk) : Blk := journalWrite s none

/-- The ring of 256 MiB has reached 75 % (R202); the length of a record is open (`Config.recordSize`). -/
def ringHigh (s : Blk) : Bool := !s.med.ring.isEmpty && decide (3 * 2 ^ 26 ≤ Config.recordSize * s.med.ring.length)

/-- Take the blocks of a spoke band, in the order in which they were named: with fewer than two named, the journal is written
first (R205). None when the spoke has not 17 dies on distinct channels with a free block. -/
def takeBlocks : Nat → Blk → Nat → Nat → List Nat → Option (List Nat × Blk)
  | 0, s, _, _, band => some (band, s)
  | k + 1, s, n, st, band =>
    let q := n * 16 + st
    let s := if (namedFor s q).length < 2 then journalWrite s (some (q, band)) else s
    match (namedFor s q).find? fun b => !(band.any fun x => blkDie x / 16 == blkDie b / 16) with
    | none => none
    | some b =>
      let s := modBlk s b fun x => { x with st := 1 }
      takeBlocks k { s with med := { s.med with named := s.med.named.set q ((namedFor s q).filter (· ≠ b)) } } n st (band ++ [b])

/-! ### Anchor blocks (R174) -/

/-- What the anchor block of a die holds: for each block number of the die four bytes, little-endian, the erase count and, in
bit 31, the grown-bad mark (layout: DESIGN CHOICE, log entry 46). -/
def anchorBytes (s : Blk) (n d : Nat) : Bytes :=
  (List.range (profOf s n).blocksPerPlane).flatMap fun b =>
    let x := blkAt s (blkKey n d b)
    leBytes 4 (x.erases % 2 ^ 31 + (if x.st = 3 then 2 ^ 31 else 0))

/-- Erase and program an anchor block anew. A die that cannot be written keeps what it holds (R211). -/
def writeAnchor (s : Blk) (n d : Nat) : Blk :=
  if (spokeOf s n).diesDead.contains d ∨ inService s n = false ∨ s.pwr.dump.isSome then s
  else
    let p := profOf s n
    let b := anchorBytes s n d
    let s := { s with med := { s.med with anchors := s.med.anchors.set (n * 512 + d) b, anchorDue := s.med.anchorDue.filter (· ≠ n * 512 + d) } }
    let rows := (List.range (max 1 p.planes)).map fun i => rowOf p i 0 0
    let s := issueOp s n opErase (d / 16) (d % 16) (rows.headD 0) false ([BitVec.ofNat 8 rows.length, 0, 0, 0] ++ rows.tail.flatMap (beBytes 4)) [] .anchor
    let cws := (blocksOf 4096 b).map fun x => { padCw 0 with body := slice x 0 4112 }
    (programPages s n d 0 0 false (cws ++ List.replicate (16 - cws.length) (padCw 0)) .anchor).2

/-- What an anchor codeword of a newly matched sled says of blocks not used yet: grown-bad marks and erase counts. -/
def readAnchor (s : Blk) (n d cw : Nat) (body : Bytes) : Blk :=
  forEach (List.range 1024) (fun s i =>
    let b := 1024 * cw + i
    let v := leAt body (4 * i) 4
    let k := blkKey n d b
    if b = 0 ∨ (profOf s n).blocksPerPlane ≤ b ∨ v = 0 ∨ (blkAt s k).st ≠ 0 then s
    else
      let slc := decide (b ≤ slcPer s n)
      let s := modBlk s k fun x => { x with erases := v % 2 ^ 31, st := if 2 ^ 31 ≤ v then 3 else 0 }
      if v < 2 ^ 31 then s
      else modSpoke s n fun x => if slc then { x with grownBad := x.grownBad.upd d 0 (· + 1), slcBlocks := x.slcBlocks - 1 }
        else { x with grownBad := x.grownBad.upd d 0 (· + 1), usableBlocks := x.usableBlocks - 1, freeBlocks := x.freeBlocks - 1 }) s

end Sys2Proof.Machine
end

