-- ==== Sys2Proof/Machine/Media.lean ====
section
/-! DEFINITION. Placement: logical addresses, the map and its pages (R175-R184), spoke bands, stripe bands and stripes
(R241-R256), programs of member units, and the completion of writes (R252). -/

namespace Sys2Proof.Machine

/-! ### Taking and closing spoke bands (R197, R241, R242) -/

/-- Open a spoke band of 17 blocks; none when the spoke has not 17 dies on distinct channels with a free block. -/
def openSBand (s : Blk) (n gear : Nat) (slc gc : Bool) : Option (Nat × Blk) :=
  match takeBlocks 17 s n (streamNo gear slc gc) [] with
  | none => none
  | some (ks, s) =>
    let p := profOf s n
    let id := s.med.sbandNext
    let one := slc || decide (5 ≤ gear)
    let pages := if one then p.pagesPerBlock / max 1 p.bitsPerCell else p.pagesPerBlock
    let sb : SBand := { spoke := n, gear := gear, slc := slc, dies := ks.map blkDie, blocks := ks.map (· % 65536), units := 16 * (pages * p.planes / 4) }
    let s := ks.foldl (fun s k => modBlk s k fun b =>
      { b with st := 1, gear := gear, slc := one, sband := id, wp := 0, reads := 0, counted := false, refreshed := false }) s
    let s := { s with med := { s.med with sbands := s.med.sbands.set id sb, sbandNext := id + 1 } }
    let s := modSpoke s n fun y => if slc then { y with slcUsed := y.slcUsed + 17 } else { y with freeBlocks := y.freeBlocks - 17 }
    some (id, judgeSlc (judgeSpoke s n))

def stripeOf (s : Blk) (st : Nat) : Option Stripe := s.med.stripes.get? st
def setStripe (s : Blk) (st : Nat) (x : Stripe) : Blk := { s with med := { s.med with stripes := s.med.stripes.set st x } }
def setBand (s : Blk) (b : Nat) (x : Band) : Blk := { s with med := { s.med with bands := s.med.bands.set b x } }
def setSBand (s : Blk) (b : Nat) (x : SBand) : Blk := { s with med := { s.med with sbands := s.med.sbands.set b x } }

/-- A stripe-journal entry has changed: its pannier copy is the entry itself, its flash copy is due, and the partner gets
its copy (R256, R279). -/
def touchEntry (s : Blk) (st : Nat) : Blk :=
  match stripeOf s st with
  | some x =>
    tandemSend { s with med := { s.med with sjPending := s.med.sjPending ++ [(st, stripeEntry x)] } } 0x6 0x04 st 0 0 (stripeEntry x)
  | none => s

/-- Program member `n` of a stripe on its spoke band; an absent or lost member has no program, and none is issued to a dead die
(R211). -/
def programMember (s : Blk) (st n : Nat) : Blk :=
  match stripeOf s st with
  | none => s
  | some x =>
    match ((s.med.bands.get? x.band).bind (fun b => b.members[n]?)).bind (fun m => m.2.bind fun i => (s.med.sbands.get? i)) with
    | none => s
    | some sb =>
      if x.lost.getLsbD n ∨ x.absent.getLsbD n ∨ x.issued.getLsbD n
          ∨ (spokeOf s sb.spoke).diesDead.contains (sb.dies.getD (x.unit % 16) 0) then s
      else
        let j := x.unit % 16
        let r := programPages s sb.spoke (sb.dies.getD j 0) (sb.blocks.getD j 0) (4 * (x.unit / 16))
          (sb.slc || decide (5 ≤ sb.gear)) (memberCws x n) (.unit st n)
        setStripe r.2 st { x with issued := x.issued ||| (1#16 <<< n), mwseq := x.mwseq.set n r.1 }

/-! ### Die-XOR of a spoke band (R245) -/

def xorSpans (a b : List Bytes) : List Bytes := if a.isEmpty then b else List.zipWith xorBytes a b

/-- A program of a unit in that slot of the spoke band is still outstanding. -/
def slotBusy (s : Blk) (id slot : Nat) : Bool :=
  s.med.stripes.vals.any fun x =>
    decide (x.unit / 16 = slot) &&
      (match s.med.bands.get? x.band with
       | some b => (b.members.zip (List.range b.members.length)).any fun e =>
           decide (e.1.2 = some id) && x.issued.getLsbD e.2 && !x.programmed.getLsbD e.2 && !x.lost.getLsbD e.2
       | none => false)

/-- Program the XOR plane-pages of a slot once its 16 units have returned OK, or once a closed band awaits no more; the
accumulator of a block that can take no program stays (R208, R211). -/
def xorCheck (s : Blk) (id slot : Nat) : Blk :=
  match s.med.sbands.get? id with
  | none => s
  | some sb =>
    let done := (sb.okUnits.filter fun u => u / 16 = slot).length
    if sb.acc.has slot ∧ (done = 16 ∨ (sb.isOpen = false ∧ slotBusy s id slot = false))
        ∧ (spokeOf s sb.spoke).diesDead.contains (sb.dies.getD 16 0) = false
        ∧ (blkAt s (blkKey sb.spoke (sb.dies.getD 16 0) (sb.blocks.getD 16 0))).st ≠ 3
        ∧ ((allOps (spokeOf s sb.spoke)).all fun o => decide (o.why ≠ .xorUnit id slot)) then
      (programPages s sb.spoke (sb.dies.getD 16 0) (sb.blocks.getD 16 0) (4 * slot) (sb.slc || decide (5 ≤ sb.gear))
        ((sb.acc.getD slot []).map (parityCw sb.gear 0x10)) (.xorUnit id slot)).2
    else s

/-! ### Closing bands (R241, R259) -/

/-- A spoke band takes no more units: its blocks are closed, and its XOR pages follow. -/
def closeSBand (s : Blk) (id : Nat) : Blk :=
  match s.med.sbands.get? id with
  | none => s
  | some sb =>
    if sb.isOpen = false then s
    else
      let n := s.med.closeOrder
      let s := setSBand { s with med := { s.med with closeOrder := n + 1 } } id { sb with isOpen := false }
      let s := (sb.dies.zip sb.blocks).foldl (fun s e => modBlk s (blkKey sb.spoke e.1 e.2) fun b =>
        if b.st = 1 then { b with st := 2, closedAt := secs s, closeOrder := n } else b) s
      forEach sb.acc.keys (fun s slot => xorCheck s id slot) s

/-- A stripe band opens no more stripes. -/
def closeBand (s : Blk) (b : Nat) : Blk :=
  match s.med.bands.get? b with
  | none => s
  | some x =>
    let s := setBand s b { x with isOpen := false }
    forEach (x.members.filterMap Prod.snd) closeSBand s

/-! ### Opening stripe bands (R239, R242) -/

/-- k and m of a namespace or of the system layout. -/
def layoutOf (s : Blk) (ns : Nat) : Nat × Nat :=
  if ns = sysNs then (s.med.sysK, 4) else match nsOf s ns with | some x => (x.k, x.m) | none => (1, 1)

def openSBands (s : Blk) (n : Nat) : Nat := (s.med.sbands.vals.filter fun b => b.spoke = n ∧ b.isOpen).length

/-- The oldest open stripe band with a member on a spoke and no open stripe. -/
def idleBand (s : Blk) (n : Nat) : Option Nat :=
  (s.med.bands.find? fun e => e.2.isOpen && e.2.members.any (fun m => m.1 == n && m.2.isSome)
    && !(s.med.stripes.vals.any fun x => decide (x.band = e.1))).map Prod.fst

/-- A spoke holds at most 16 open spoke bands (R241): the oldest idle band makes room. -/
def roomOn (s : Blk) (n : Nat) : Blk :=
  if openSBands s n < 16 then s else match idleBand s n with | some b => closeBand s b | none => s

/-- Open spoke bands on the spokes in order; none when one of them cannot. -/
def openAll : List Nat → Nat → Bool → Bool → Blk → Option (List (Nat × Option Nat) × Blk)
  | [], _, _, _, s => some ([], s)
  | n :: ns, gear, slc, gc, s =>
    match openSBand s n gear slc gc with
    | none => none
    | some (id, s) =>
      match openAll ns gear slc gc s with
      | none => none
      | some (ms, s) => some ((n, some id) :: ms, s)

/-- R256: the spokes that take the flash copies of a band's journal entries: the three in service that are no members with the
most free blocks, and, where fewer exist, the present members of the highest parity rows. -/
def entrySpokes (s : Blk) (k : Nat) (members : List (Nat × Option Nat)) : List Nat :=
  let out := ((bestSpokes s 16).filter fun n => !(members.any fun m => m.1 == n)).take 3
  (out ++ (((members.drop k).filter fun m => m.2.isSome).map Prod.fst).reverse).take 3

/-- R242: open a stripe band; none when it cannot be filled. -/
def openBand (s : Blk) (ns gear : Nat) (slc gc : Bool) : Option (Nat × Blk) :=
  let (k, m) := layoutOf s ns
  let asc := (bestSpokes s (k + m)).mergeSort fun a b => decide (a ≤ b)
  let a := asc.length
  let gone := ((List.range 16).filter fun n => (spokeOf s n).failed.isSome && !inService s n).take (k + m - a)
  if a + m < k + m ∨ a + gone.length < k + m ∨ a = 0 then none
  else
    let j := s.med.bandSeq.getD (ns * 8 + gear) 0
    let s0 := forEach asc roomOn s
    if asc.any (fun n => decide (16 ≤ openSBands s0 n)) then none
    else
      match openAll ((List.range a).map fun n => asc.getD ((n + j) % a) 0) gear slc gc s0 with
      | none => none
      | some (ms, s) =>
        let b := s.med.bandNext
        let mem := ms ++ gone.map fun n => (n, none)
        let x : Band := { ns := ns, gear := gear, k := k, m := m, members := mem, slc := slc, gc := gc, order := b
                          jspokes := entrySpokes s k mem }
        let s := setBand { s with med := { s.med with
          bandNext := b + 1, bandSeq := s.med.bandSeq.set (ns * 8 + gear) (j + 1) } } b x
        some (b, journal s (.band b x))

/-- Stripes a band holds: as many as its smallest member holds units (R242). -/
def bandUnits (s : Blk) (x : Band) : Nat :=
  match (x.members.filterMap Prod.snd).map fun i => ((s.med.sbands.get? i).map (·.units)).getD 0 with
  | [] => 0
  | u :: us => us.foldl min u

/-! ### Stripes (R253-R256) -/

/-- Streams of a gear: host writes, GC targets, folds into the native host blocks (R185, R191). -/
def hostStream : Nat := 0
def gcStream : Nat := 1
def foldStream : Nat := 2

/-- New gear 0-3 programs go to the SLC buffer, unless it is bypassed; moves and direct data go to native blocks (R185,
R191, R192). -/
def wantsSlc (s : Blk) (gear str : Nat) : Bool := decide (gear ≤ 3) && str == hostStream && !s.med.slcBypass

/-- The stream that writes a band. -/
def bandStream (b : Band) : Nat := if b.gc then gcStream else if b.slc ∨ 4 ≤ b.gear then hostStream else foldStream

/-- A band takes the grains of a stream. -/
def bandTakes (s : Blk) (b : Band) (gear str : Nat) : Bool := b.gc == (str == gcStream) && b.slc == wantsSlc s gear str

/-- The open band of a stream, or a new one. -/
def bandFor (s : Blk) (ns gear str : Nat) : Option (Nat × Blk) :=
  let slc := wantsSlc s gear str
  match s.med.bands.find? fun e => e.2.isOpen ∧ e.2.ns = ns ∧ e.2.gear = gear ∧ bandTakes s e.2 gear str
      ∧ e.2.nextUnit < bandUnits s e.2 with
  | some e => some (e.1, s)
  | none => openBand s ns gear slc (str == gcStream)

/-- The stripe of a stream that still takes grains. -/
def stripeFor (s : Blk) (ns gear str : Nat) : Option Nat :=
  (s.med.stripes.find? fun e => e.2.sealed = false ∧ e.2.ns = ns ∧ e.2.gear = gear
    ∧ ((s.med.bands.get? e.2.band).any fun b => bandTakes s b gear str)).map Prod.fst

/-- Open a stripe: its journal entry and its m parity buffers (R253-R256). None while there is no buffer, no entry or no
band. -/
def openStripe (s : Blk) (ns gear str : Nat) : Option (Nat × Blk) :=
  let m := (layoutOf s ns).2
  if 4096 < s.med.pbufs + m ∨ 65536 ≤ s.med.stripes.length then none
  else
    match bandFor s ns gear str with
    | none => none
    | some (b, s) =>
      match s.med.bands.get? b with
      | none => none
      | some x =>
        let (w, s) := takeWseq s
        let st := s.med.stripeNext
        let absent := (List.range x.members.length).foldl (fun a i =>
          if ((x.members.getD i (0, none)).2).isNone then a ||| (1#16 <<< i) else a) 0#16
        let lost := x.lost.foldl (fun a i => a ||| (1#16 <<< i)) 0#16
        let y : Stripe := { eseq := w, band := b, unit := x.nextUnit, ns := ns, gear := gear, k := x.k, m := x.m,
                            absent := absent, lost := lost }
        let s := setBand s b { x with nextUnit := x.nextUnit + 1 }
        let s := setStripe { s with med := { s.med with stripeNext := (st + 1) % 2 ^ 32, pbufs := s.med.pbufs + x.m } } st y
        some (st, touchEntry s st)

/-- Members of a stripe that are absent or lost. -/
def stripeDown (x : Stripe) : Nat := ((List.range 16).filter fun n => x.absent.getLsbD n || x.lost.getLsbD n).length

/-- An entry becomes CLOSED when every member that is neither absent nor lost has returned OK; its buffers are freed
(R256). -/
def checkClosed (s : Blk) (st : Nat) : Blk :=
  match stripeOf s st with
  | none => s
  | some x =>
    let all := (List.range (x.k + x.m)).all fun n => x.programmed.getLsbD n || x.absent.getLsbD n || x.lost.getLsbD n
    if x.sealed ∧ all then
      let s := touchEntry (setStripe s st { x with closed := true }) st
      let s := if x.resolved then raise s 0x7009 3 domNone (pl [(4, x.band), (2, x.unit)]) else s
      { s with med := { s.med with stripes := s.med.stripes.del st, pbufs := s.med.pbufs - x.m } }
    else s

/-- R253: a stripe closes: pads fill it, its remaining data units and then its parity units are programmed. -/
def closeStripe (s : Blk) (st : Nat) : Blk :=
  match stripeOf s st with
  | none => s
  | some x =>
    if x.sealed then s
    else
      let s := setStripe s st { x with grains := x.grains ++ List.replicate (16 * x.k - x.grains.length) {}, sealed := true }
      let s := forEach (List.range (x.k + x.m)) (fun s n => programMember s st n) s
      let s := match s.med.bands.get? x.band with
        | some b => if bandUnits s b ≤ b.nextUnit then closeBand s x.band else s
        | none => s
      checkClosed s st

/-! ### Assigning grains (R182, R191, R253) -/

def modStage (s : Blk) (st : Nat) (f : Stage → Stage) : Blk :=
  match s.idx.stages.get? st with
  | some x => { s with idx := { s.idx with stages := s.idx.stages.set st (f x) } }
  | none => s

/-- Append one grain to an open stripe. -/
def putGrain (s : Blk) (st : Nat) (g : SGrain) : Blk :=
  match stripeOf s st with
  | none => s
  | some x =>
    let y := { x with grains := x.grains ++ [g] }
    let n := y.grains.length
    let s := setStripe s st y
    let s := match g.stage with
      | some r => modStage s r fun z => { z with placed := z.placed.set g.pos (st, false) }
      | none => s
    let s := if n % 16 = 0 then programMember s st (n / 16 - 1) else s
    if n = 16 * x.k then closeStripe s st else s

/-- Assign a grain of a stream to its stripe, or keep it waiting (R242, R254). -/
def assign (s : Blk) (ns gear str : Nat) (g : SGrain) : Blk :=
  if s.med.asmq.any fun e => e.1 == ns && e.2.1 == gear && e.2.2.1 == str then
    { s with med := { s.med with asmq := s.med.asmq ++ [(ns, gear, str, g)] } }
  else
    match stripeFor s ns gear str with
    | some st => putGrain s st g
    | none =>
      match openStripe s ns gear str with
      | some (st, s) => putGrain s st g
      | none =>
        let s := { s with med := { s.med with asmq := s.med.asmq ++ [(ns, gear, str, g)] } }
        if 4096 < s.med.pbufs + (layoutOf s ns).2 ∧ s.med.pbufExhausted = false then
          raise { s with med := { s.med with pbufExhausted := true } } 0x700F 3 domNone []
        else s

/-- Fill the current unit of a stream with pads, so that the next grain begins a unit (R182: a coarse unit lies in one
stripe unit); grains that still wait for a stripe come first. -/
def alignUnit (s : Blk) (ns gear str : Nat) : Blk :=
  let wait := (s.med.asmq.filter fun e => e.1 = ns ∧ e.2.1 = gear ∧ e.2.2.1 = str).length
  let here := (((stripeFor s ns gear str).bind (stripeOf s)).map (·.grains.length)).getD 0
  Nat.repeat (fun s => assign s ns gear str {}) ((16 - (here + wait) % 16) % 16) s

/-- Assign a run of grains in LGA order: each whole coarse unit of gears 1 to 4 begins a stripe unit (R182, R185). -/
def assignRun (s : Blk) (ns gear str : Nat) (gs : List SGrain) : Blk :=
  let n := gs.length
  (gs.zip (List.range n)).foldl (fun s e =>
    let s := if gear ≠ 0 ∧ e.1.lga % 16 = 0 ∧ e.2 + 16 ≤ n ∧ (gs.getD (e.2 + 15) {}).lga = e.1.lga + 15 then alignUnit s ns gear str else s
    assign s ns gear str e.1) s

/-- Try again what waits, oldest first, until one must wait still. -/
def pumpAsm : Nat → Blk → Blk
  | 0, s => s
  | k + 1, s =>
    match s.med.asmq with
    | [] => if s.med.pbufExhausted then { s with med := { s.med with pbufExhausted := false } } else s
    | (ns, gear, str, g) :: rest =>
      let t := match stripeFor s ns gear str with
        | some st => some (st, s)
        | none => openStripe s ns gear str
      match t with
      | none => s
      | some (st, s) => pumpAsm k (putGrain { s with med := { s.med with asmq := rest } } st g)

def resumeAsm (s : Blk) : Blk := pumpAsm (s.med.asmq.length + 1) s

/-! ### Map entries and map pages (R181, R183) -/

/-- The PGA that the map gives an LGA, with its gear. -/
def mapOf (s : Blk) (lga : Nat) : Option (Nat × Nat) :=
  match s.med.cmap.get? (lga / 16) with
  | some (.coarse gear pga) =>
    let w := placeOf s pga
    let i := lga % 16
    some (pga / 2 ^ 48 * 2 ^ 48 + blockPga s w.spoke w.die w.block (w.ppi + i / 4) (i % 4) (pga / 2 ^ 48), gear)
  | some (.split t) => (s.med.fmap.get? (16 * t + lga % 16)).map fun e => (e.2, e.1)
  | none => none

/-- Map page of a coarse unit's entry, and of a fine table. -/
def coarsePage (cu : Nat) : Nat := cu / 512
def finePage (t : Nat) : Nat := 2 ^ 27 + t / 32

/-- The map pages that name a grain's place: the coarse page, and the fine page of a split unit. -/
def pagesOf (s : Blk) (lga : Nat) : List Nat :=
  coarsePage (lga / 16) :: (match s.med.cmap.get? (lga / 16) with
    | some (.split t) => [finePage t]
    | _ => [])

/-- An 8-byte entry: TYPE, GEAR, LOC (R181). -/
def entryBits (type gear loc : Nat) : Bytes := leBytes 8 (type * 2 ^ 62 + gear * 2 ^ 59 + loc % 2 ^ 48)

def mapEntBytes : Option MapEnt → Bytes
  | some (.coarse gear pga) => entryBits 1 gear pga
  | some (.split t) => entryBits 2 0 t
  | none => zeros 8

/-- A map page in clear: 512 entries. -/
def mapPageBytes (s : Blk) (n : Nat) : Bytes :=
  (List.range 512).flatMap fun i =>
    if n < 2 ^ 27 then mapEntBytes (s.med.cmap.get? (512 * n + i))
    else match s.med.fmap.get? (512 * (n - 2 ^ 27) + i) with
      | some e => entryBits 1 e.1 e.2
      | none => zeros 8

/-- The body of a map page: XTS class 2 by its logical number (R133, R183). Coarse pages are numbered from 0, fine pages from 2^27
(DESIGN CHOICE, log entry 46). -/
def mapPageBody (s : Blk) (n : Nat) : Bytes := xtsEnc s.cip.xts1 s.cip.xts2 2 n (mapPageBytes s n) ++ zeros 16

/-- A write of the map page is on its way to the medium. -/
def mapBusy (s : Blk) (n : Nat) : Bool :=
  (s.med.asmq.any fun e => e.2.2.2.kind == 5 && e.2.2.2.lga == n) ||
    s.med.stripes.vals.any fun x => x.grains.any fun g => g.kind == 5 && g.lga == n && g.source == some (s.med.mroot.getD n 0)

/-- The page lies in the map cache; one that has never been written lies nowhere else. -/
def mapCached (s : Blk) (n : Nat) : Bool := s.med.mlru.contains n || !Tbl.has s.med.mroot n

/-- The entries of a page, as the copy on flash holds them from now on. -/
def snapMap (s : Blk) (n : Nat) : Blk :=
  if n < 2 ^ 27 then
    { s with med := { s.med with ckCmap := (s.med.cmap.filter fun e => coarsePage e.1 = n).foldl (fun t e => t.set e.1 e.2) (s.med.ckCmap.filter fun e => coarsePage e.1 ≠ n) } }
  else
    { s with med := { s.med with ckFmap := (s.med.fmap.filter fun e => finePage (e.1 / 16) = n).foldl (fun t e => t.set e.1 e.2) (s.med.ckFmap.filter fun e => finePage (e.1 / 16) ≠ n) } }

/-- Write a dirty map page to gear 5 (R183, R203). -/
def writeMapPage (s : Blk) (n : Nat) : Blk :=
  if s.med.mdirty.contains n = false ∨ mapBusy s n then s
  else
    let s := snapMap (useCluster s) n
    let s := { s with med := { s.med with mdirty := s.med.mdirty.filter (· ≠ n) } }
    assign s sysNs 5 hostStream { lga := n, kind := 5, body := mapPageBody s n, source := some (s.med.mroot.getD n 0) }

/-- The map cache holds 6,291,456 pages: the least recently used clean page gives up its frame; with none, the least recently
used dirty one is written (R183). -/
def trimMap (s : Blk) : Blk :=
  if s.med.mlru.length ≤ 6291456 then s
  else
    match s.med.mlru.find? fun n => !s.med.mdirty.contains n && !mapBusy s n with
    | some n => { s with med := { s.med with mlru := s.med.mlru.filter (· ≠ n) } }
    | none => match s.med.mlru.find? fun n => !mapBusy s n with
      | some n => writeMapPage s n
      | none => s

/-- A map page has been used, or changed. -/
def touchMap (s : Blk) (n : Nat) (dirty : Bool) : Blk :=
  trimMap { s with med := { s.med with
    mlru := s.med.mlru.filter (· ≠ n) ++ [n]
    mdirty := if dirty then s.med.mdirty.filter (· ≠ n) ++ [n] else s.med.mdirty } }

/-- A map page has come from flash: its entries are those of the page. -/
def loadMapPage (s : Blk) (n : Nat) (p : Bytes) : Blk :=
  if s.med.mlru.contains n then s
  else
    let ents := (List.range 512).map fun i => (512 * (if n < 2 ^ 27 then n else n - 2 ^ 27) + i, leAt p (8 * i) 8)
    let s := if n < 2 ^ 27 then
        { s with med := { s.med with cmap := ents.foldl (fun t e =>
            if e.2 / 2 ^ 62 = 1 then t.set e.1 (.coarse (e.2 / 2 ^ 59 % 8) (e.2 % 2 ^ 48))
            else if e.2 / 2 ^ 62 = 2 then t.set e.1 (.split (e.2 % 2 ^ 32)) else t.del e.1) s.med.cmap } }
      else
        { s with med := { s.med with fmap := ents.foldl (fun t e =>
            if e.2 / 2 ^ 62 = 1 then t.set e.1 (e.2 / 2 ^ 59 % 8, e.2 % 2 ^ 48) else t.del e.1) s.med.fmap } }
    touchMap s n false

/-! ### Changes of the map (R178, R182, R184) -/

/-- The lowest fine-table number not in use (DESIGN CHOICE, log entry 46). -/
def freeTable (fm : Tbl (Nat × Nat)) : Nat := fm.foldl (fun a e => if e.1 / 16 = a then a + 1 else a) 0

def dropTable (s : Blk) (cu : Nat) : Tbl (Nat × Nat) :=
  match s.med.cmap.get? cu with
  | some (.split t) => s.med.fmap.filter fun e => e.1 / 16 ≠ t
  | _ => s.med.fmap

/-- A whole unit is mapped. -/
def putCoarse (s : Blk) (cu gear pga : Nat) : Blk :=
  let ps := pagesOf s (16 * cu)
  forEach ps (fun s p => touchMap s p true) { s with med := { s.med with cmap := s.med.cmap.set cu (.coarse gear pga), fmap := dropTable s cu } }

/-- A single grain is mapped: its unit is split, with fine table `t`, and keeps the other grains of a coarse unit as fine
entries. -/
def putFine (s : Blk) (lga gear pga t : Nat) : Blk :=
  let cu := lga / 16
  let fm := match s.med.cmap.get? cu with
    | some (.coarse _ _) => (List.range 16).foldl (fun (m : Tbl (Nat × Nat)) i => match mapOf s (cu * 16 + i) with
        | some e => m.set (16 * t + i) (e.2, e.1)
        | none => m) s.med.fmap
    | _ => s.med.fmap
  let s := { s with med := { s.med with cmap := s.med.cmap.set cu (.split t), fmap := fm.set (16 * t + lga % 16) (gear, pga) } }
  forEach (pagesOf s lga) (fun s p => touchMap s p true) s

/-- The fine table of a unit, or the one it would get. -/
def tableOf (s : Blk) (cu : Nat) : Nat :=
  match s.med.cmap.get? cu with
  | some (.split t) => t
  | _ => freeTable s.med.fmap

def setCoarse (s : Blk) (cu gear pga : Nat) : Blk := journal (putCoarse s cu gear pga) (.mapCoarse cu gear pga)

def setFine (s : Blk) (lga gear pga : Nat) : Blk :=
  let t := tableOf s (lga / 16)
  journal (putFine s lga gear pga t) (.mapSplit lga gear pga t)

/-- A run leaves the map. -/
def dropRun (s : Blk) (lga n : Nat) : Blk :=
  let dead := fun a => decide (lga ≤ a) && decide (a < lga + n)
  let units := s.med.cmap.filter fun e => decide (lga < 16 * e.1 + 16 ∧ 16 * e.1 < lga + n)
  let pages := (units.flatMap fun e => pagesOf s (16 * e.1)).eraseDups
  let s := units.foldl (fun s e => match e.2 with
    | .coarse _ _ => if dead (16 * e.1) then { s with med := { s.med with cmap := s.med.cmap.del e.1 } } else s
    | .split t =>
      let fm := s.med.fmap.filter fun f => !(decide (f.1 / 16 = t) && dead (16 * e.1 + f.1 % 16))
      { s with med := { s.med with fmap := fm, cmap := if fm.any (fun f => f.1 / 16 == t) then s.med.cmap else s.med.cmap.del e.1 } }) s
  forEach pages (fun s p => touchMap s p true) { s with med := { s.med with rank := s.med.rank.filter fun e => !dead e.1 } }

/-! ### Logical addresses (R175-R178) -/

/-- The units of a run, and its grains in one of them. -/
def runUnits (a n : Nat) : List Nat := if n = 0 then [] else (List.range ((a + n - 1) / 16 + 1 - a / 16)).map (· + a / 16)

def runBits (a n u : Nat) : BitVec 16 :=
  (List.range 16).foldl (fun m i => if a ≤ 16 * u + i ∧ 16 * u + i < a + n then m ||| (1#16 <<< i) else m) 0

/-- The run is allocated to a namespace; each of its units belongs to it (R175). -/
def markRun (s : Blk) (ns a n : Nat) : Blk :=
  (runUnits a n).foldl (fun s u => { s with med := { s.med with
    lgaTaken := s.med.lgaTaken.upd u 0 (· ||| runBits a n u), unitNs := s.med.unitNs.set u ns } }) s

/-- The run is free again; a unit without an allocated grain belongs to no namespace. -/
def freeRun (s : Blk) (a n : Nat) : Blk :=
  (runUnits a n).foldl (fun s u =>
    let m := s.med.lgaTaken.getD u 0 &&& ~~~runBits a n u
    if m = 0 then { s with med := { s.med with lgaTaken := s.med.lgaTaken.del u, unitNs := s.med.unitNs.del u } }
    else { s with med := { s.med with lgaTaken := s.med.lgaTaken.set u m } }) s

/-- Unmap a run by a journal record; the record is durable at once, so the LGAs are free again (R178, R202). -/
def unmapRun (s : Blk) (lga n : Nat) : Blk :=
  if n = 0 then s else journal (freeRun (dropRun s lga n) lga n) (.unmap lga n)

/-- The lowest place of `c` free units between the units in use. -/
def gapFrom (c : Nat) : List Nat → Nat → Nat
  | [], u => u
  | k :: ks, u => if u + c ≤ k then u else gapFrom c ks (k + 1)

/-- A run of `n` grains has room in the 2^40 LGAs. -/
def lgaRoom (s : Blk) (n : Nat) : Bool := decide (gapFrom ((n + 15) / 16) s.med.lgaTaken.keys 0 + (n + 15) / 16 ≤ 2 ^ 36)

/-- A free LGA of a unit of the namespace that is in use and has `n` free grains in a row (R176). -/
def spareIn (s : Blk) (ns n : Nat) : Option Nat :=
  s.med.lgaTaken.findSome? fun e =>
    if s.med.unitNs.getD e.1 0 ≠ ns ∨ n = 0 ∨ 16 < n then none
    else ((List.range (17 - n)).find? fun i => e.2 &&& runBits (16 * e.1 + i) n e.1 = 0).map (16 * e.1 + ·)

/-- Take a run of `n` LGAs for a namespace (R175-R178): gears 1 to 4 and data runs at the lowest coarse-unit boundary with room,
gear 0 at a free LGA of a unit of the namespace that is in use, if one has room (which free run: DESIGN CHOICE, log entry 46). -/
def takeLga (s : Blk) (ns gear n : Nat) : Nat × Blk :=
  let a := ((if gear = 0 then spareIn s ns n else none).getD (16 * gapFrom ((n + 15) / 16) s.med.lgaTaken.keys 0))
  (a, markRun s ns a n)

/-! ### Directory and bucket pages (R99-R105) -/

def dirOf (s : Blk) (b : Nat) : DirEnt := s.idx.dir.getD b {}
def setDir (s : Blk) (b : Nat) (d : DirEnt) : Blk := { s with idx := { s.idx with dir := s.idx.dir.set b d } }
def modDir (s : Blk) (b : Nat) (f : DirEnt → DirEnt) : Blk := setDir s b (f (dirOf s b))

/-- A write of the page is on its way to the medium. -/
def pageBusy (s : Blk) (b : Nat) : Bool :=
  (s.med.asmq.any fun e => e.2.2.2.kind == 4 && e.2.2.2.lga == b) ||
    s.med.stripes.vals.any fun x => x.grains.any fun g => g.kind == 4 && g.lga == b && g.source == some (dirOf s b).pageLoc

/-- The cache holds 1,048,576 pages (R100): the least recently used clean page gives up its frame. -/
def trimCache (s : Blk) : Blk :=
  if s.idx.lru.length ≤ 1048576 then s
  else
    match s.idx.lru.find? fun b => !(dirOf s b).dirty && !pageBusy s b with
    | some b => modDir { s with idx := { s.idx with lru := s.idx.lru.filter (· ≠ b) } } b fun d => { d with cached := false, slots := [] }
    | none => s

/-- The page of bucket `b` has just been used: it is in the cache and is its newest page (R100). -/
def touchPage (s : Blk) (b : Nat) : Blk :=
  trimCache (modDir { s with idx := { s.idx with lru := s.idx.lru.filter (· ≠ b) ++ [b] } } b fun d => { d with cached := true })

/-- Fingerprint of R98. -/
def fingerprint (d : BitVec 128) : Byte := let f := d.extractLsb' 120 8; if f = 0 then 1 else f

/-- Home bucket of R98. -/
def homeOf (d : BitVec 128) : Nat := (d.truncate 30).toNat

/-- Write a slot into the cached page, its fingerprint into the directory, and raise SPILL of the home bucket (R105,
R121). -/
def applySlot (s : Blk) (b i : Nat) (sl : BSlot) (home : Nat) : Blk :=
  let s := modDir (touchPage s b) b fun d => { d with slots := d.slots.set i sl, fp := d.fp.set i (fingerprint sl.digest), dirty := true }
  modDir s home fun d => { d with spill := max d.spill ((b + 2 ^ 30 - home) % 2 ^ 30) }

/-- Free a slot: its fingerprint becomes 0x00 (R121). -/
def clearSlot (s : Blk) (b i : Nat) : Blk :=
  modDir (touchPage s b) b fun d => { d with slots := d.slots.del i, fp := d.fp.del i, dirty := true }

/-- The slot a write leaves (R103, R175). -/
def slotOfStage (x : Stage) : BSlot :=
  { ns := x.ns, keyLen := x.key.length, lost := x.lost, multipart := decide (x.kind = 3), digest := x.digest, version := x.version,
    valueLen := x.valueLen, loc := locPack (if x.kind = 3 then grainsOf x.valueLen else x.count) x.lga }

/-- LGAs of an extent's head run: the head grain, and its value grains (R176) or its part-table grains (R177). -/
def headRun (sl : BSlot) (partGrains : Nat) : Nat := if sl.multipart then 1 + partGrains else 1 + locGrains sl.loc

/-! ### The end of an extent (R121, R178) -/

/-- A command is reading the run. -/
def runRead (s : Blk) (lga n : Nat) : Bool :=
  s.cmd.slots.vals.any fun c => decide (c.phase = .streaming) && c.stage.isNone &&
    c.extents.any fun e => decide (e.lga < lga + n + 1) && decide (lga < e.lga + e.grains + 1)

/-- Unmap the dead runs that no command still reads. -/
def reapDead (s : Blk) : Blk :=
  let now := s.med.dead.filter fun e => !runRead s e.1 e.2
  let s := { s with med := { s.med with dead := s.med.dead.filter fun e => runRead s e.1 e.2 } }
  forEach now (fun s e => unmapRun s e.1 e.2) s

/-- An extent dies: its runs are unmapped (R178). -/
def killExtent (s : Blk) (sl : BSlot) : Blk :=
  let head := locHead sl.loc
  let rs := s.med.runs.getD head [(head, 1 + locGrains sl.loc)]
  reapDead { s with med := { s.med with runs := s.med.runs.del head, dead := s.med.dead ++ rs } }

/-- A bucket page read from flash within a step. -/
def pageLoad (s : Blk) (b : Nat) : Blk :=
  if (dirOf s b).cached then s else touchPage (modDir s b fun d => { d with slots := s.med.pages.getD b [] }) b

/-- A mirrored write takes its place in this side's index and map journal, unless a newer one has (R279). -/
def placeMirror (s : Blk) (x : Stage) : Blk :=
  let s := pageLoad s x.bslot.1
  let sl := slotOfStage x
  match (dirOf s x.bslot.1).slots.get? x.bslot.2 with
  | some old =>
    if x.version ≤ old.version ∨ x.retired then killExtent s sl
    else
      let s := modNs (killExtent s old) x.ns fun y => { y with bytes := y.bytes + x.valueLen - old.valueLen }
      journal (applySlot s x.bslot.1 x.bslot.2 sl x.home) (.slotSet x.bslot.1 x.bslot.2 sl x.home)
  | none =>
    if x.retired then killExtent (modDir s x.bslot.1 fun d => { d with fp := d.fp.del x.bslot.2 }) sl else
    let s := modNs s x.ns fun y => { y with bytes := y.bytes + x.valueLen, keys := y.keys + 1 }
    let s := { s with idx := { s.idx with keys := s.idx.keys + 1 } }
    journal (applySlot s x.bslot.1 x.bslot.2 sl x.home) (.slotSet x.bslot.1 x.bslot.2 sl x.home)

/-! ### Completion of writes (R252, R281) -/

/-- Every position of the run is in a data unit that returned OK, and its parity is programmed or in a buffer named by an
open entry; a stripe left with margin 0 does not count. -/
def onMedium (s : Blk) (x : Stage) (total : Nat) : Bool :=
  decide (x.placed.length = total) && x.placed.vals.all fun e =>
    e.2 && (match stripeOf s e.1 with
      | some y => y.hasBuf && (decide (stripeDown y < y.m) || decide (y.lost = 0))
      | none => true)

/-- Positions of the run of a staged write: head and grains, head and part-table grains, or the grains of a part. -/
def runLength (x : Stage) : Nat :=
  match x.kind with
  | 4 => x.count
  | 3 => 1 + (48 + x.keyCt.length + x.partTable.length - 4112 + 4111) / 4112
  | _ => 1 + x.count

/-- In a MIRRORED namespace the partner must hold the write, unless this side writes solo or has taken over (R281, R283,
R286). -/
def mirrorOk (s : Blk) (x : Stage) : Bool :=
  match nsOf s x.ns with
  | some y => !(y.mirrored && s.tdm.paired) || s.tdm.heldByPeer.contains x.version || s.tdm.solo
      || (s.tdm.split && decide (y.soloPolicy = 1))
  | none => true

/-- Send HELD for a mirrored write (R276, R279). -/
def sendHeld (s : Blk) (version : Nat) : Blk :=
  tandemSend { s with tdm := { s.tdm with heldHere := s.tdm.heldHere ++ [version] } } 0x8 0x20 0 0 0 (beBytes 8 version)

/-- The upload that owns a part. -/
def partDone (s : Blk) (x : Stage) (r : Nat) : Blk :=
  { s with cmd := { s.cmd with uploads := match s.cmd.uploads.get? x.upload with
    | some u => s.cmd.uploads.set x.upload { u with parts := u.parts.map fun p => if p.stage = r then { p with complete := true } else p }
    | none => s.cmd.uploads } }

/-- The same for a part of a partner's upload (R279). -/
def mirrorPartDone (s : Blk) (x : Stage) (r : Nat) : Blk :=
  { s with tdm := { s.tdm with uploads := match s.tdm.uploads.get? x.upload with
    | some u => s.tdm.uploads.set x.upload { u with parts := u.parts.map fun p => if p.stage = r then { p with complete := true } else p }
    | none => s.tdm.uploads } }

/-- Free a staging record that is retired, or a completed part, once no reader holds it (R121). -/
def freeStage (s : Blk) (r : Nat) : Blk :=
  match s.idx.stages.get? r with
  | some x => if (x.retired ∨ (x.kind = 4 ∧ x.complete)) ∧ x.readers = 0 then
      { s with idx := { s.idx with stages := s.idx.stages.del r } } else s
  | none => s

/-- A write is complete: the answer, and then its index delta to the journal (R21, R252). A re-key rewrite (kind 5) waits
for the sweep to commit it (R201). -/
def completeStage (s : Blk) (r : Nat) (x : Stage) : Blk :=
  let s := modStage s r fun y => { y with complete := true, medium := true }
  if x.kind = 5 then s
  else if x.mirror then
    if x.kind = 4 then mirrorPartDone s x r
    else sendHeld (modStage (placeMirror s x) r fun y => { y with retired := true }) x.version
  else if x.kind = 4 then failCmd (partDone s x r) x.slot stOk 0 0
  else
    let s := failCmd s x.slot stOk 0 x.version
    if x.kind = 2 then s else journal s (.slotSet x.bslot.1 x.bslot.2 (slotOfStage x) x.home)

/-- Complete a staged write when R252 and R281 hold. A commit record waits for the parts its table names. -/
def tryComplete (s : Blk) (r : Nat) : Blk :=
  match s.idx.stages.get? r with
  | none => s
  | some x =>
    let parts := x.parts.all fun p => ((s.idx.stages.get? p.stage).map (·.complete)).getD true
    let med := decide (x.kind = 2) || (x.encrypted && onMedium s x (runLength x))
    if x.complete ∨ med = false ∨ parts = false ∨ (x.mirror = false ∧ x.kind < 4 ∧ mirrorOk s x = false) then s
    else freeStage (completeStage s r x) r

/-- Complete whatever may complete now. -/
def completeAll (s : Blk) : Blk := forEach s.idx.stages.keys tryComplete s

/-! ### Results of member programs (R184, R208, R245, R252, R256, R259) -/

/-- Grains have been moved out of the block of a PGA (R195). -/
def movedOut (s : Blk) (pga n : Nat) : Blk := modBlk s (pgaBlk s pga) fun b => { b with moved := b.moved + n }

/-- The map change of one grain that has reached the medium (R184). -/
def mapGrain (s : Blk) (gear : Nat) (g : SGrain) (pga : Nat) : Blk :=
  if g.kind = 4 then
    let d := dirOf s g.lga
    if some d.pageLoc = g.source then
      journal (movedOut (setDir s g.lga { d with pageLoc := pga }) d.pageLoc 1) (.pageLoc g.lga pga) else s
  else if g.kind = 5 then
    let old := s.med.mroot.getD g.lga 0
    if some old = g.source then
      journal (movedOut { s with med := { s.med with mroot := s.med.mroot.set g.lga pga } } old 1) (.mapRoot g.lga pga) else s
  else if g.kind = 0 ∨ 5 < g.kind then s
  else
    match g.source, g.stage with
    | some p, _ => if (mapOf s g.lga).map Prod.fst = some p then movedOut (setFine s g.lga gear pga) p 1 else s
    | none, some r =>
      match s.idx.stages.get? r with
      | none => s
      | some x =>
        if x.kind = 4 then
          if x.retired = false ∧ s.med.rank.getD g.lga 0 ≤ x.order then
            setFine { s with med := { s.med with rank := s.med.rank.set g.lga x.order } } g.lga gear pga
          else s
        else setFine s g.lga gear pga
    | none, none => s

/-- The tags of a data unit lie on the medium. -/
def noteTags (s : Blk) (sb : SBand) (x : Stripe) (n : Nat) (gs : List SGrain) : Blk :=
  let w := x.mwseq.getD n 0
  { s with med := { s.med with tags := (gs.zip (List.range 16)).foldl (fun t e =>
      if e.1.kind = 0 then t else t.set (unitPga s sb x.unit e.2) (grainTag x.ns x.gear e.1 w)) s.med.tags } }

/-- The sixteen grains of a unit are one coarse unit, written together in LGA order (R182). -/
def coarseUnit (s : Blk) (gear : Nat) (gs : List SGrain) : Bool :=
  let g := gs.headD {}
  decide (gear ≠ 0) && decide (1 ≤ g.kind ∧ g.kind ≤ 3) && decide (g.lga % 16 = 0)
  && ((gs.zip (List.range 16)).all fun e => decide (e.1.lga = g.lga + e.2 ∧ 1 ≤ e.1.kind ∧ e.1.kind ≤ 3))
  && (match g.source with
      | some p => (match s.med.cmap.get? (g.lga / 16) with | some (.coarse _ q) => q == p | _ => false)
      | none => gs.all fun e => match e.stage.bind s.idx.stages.get? with
          | some x => decide (x.kind ≠ 4 ∨ (x.retired = false ∧ s.med.rank.getD e.lga 0 ≤ x.order))
          | none => false)

/-- Map every grain of a data unit. -/
def mapUnit (s : Blk) (sb : SBand) (x : Stripe) (n : Nat) : Blk :=
  let gs := (x.grains.drop (16 * n)).take 16
  let s := noteTags s sb x n gs
  let s := if coarseUnit s x.gear gs then
      let rank := gs.foldl (fun t g => match g.stage.bind s.idx.stages.get? with
        | some y => if y.kind = 4 then t.set g.lga y.order else t
        | none => t) s.med.rank
      let s := match (gs.headD {}).source with
        | some p => movedOut s p 16
        | none => s
      setCoarse { s with med := { s.med with rank := rank } } ((gs.headD {}).lga / 16) x.gear (unitPga s sb x.unit 0)
    else (gs.zip (List.range 16)).foldl (fun s e => mapGrain s x.gear e.1 (unitPga s sb x.unit e.2)) s
  gs.foldl (fun s g => match g.stage with
    | some r => modStage s r fun y => if (y.placed.get? g.pos).isSome then { y with placed := y.placed.upd g.pos (0, false) fun e => (e.1, true) } else y
    | none => s) s

/-- The spoke band of a member of a band. -/
def memberSBand (s : Blk) (b n : Nat) : Option (Nat × SBand) :=
  ((s.med.bands.get? b).bind (fun x => x.members[n]?)).bind fun m => m.2.bind fun i => (s.med.sbands.get? i).map fun y => (i, y)

/-- Another program of the same unit is still outstanding. -/
def unitBusy (s : Blk) (spoke st n : Nat) : Bool := (allOps (spokeOf s spoke)).any fun o => decide (o.why = .unit st n)

/-- A member unit has returned STATUS OK. -/
def unitOk (s : Blk) (st n : Nat) : Blk :=
  match stripeOf s st with
  | none => s
  | some x =>
    match memberSBand s x.band n with
    | none => s
    | some (id, sb) =>
      if unitBusy s sb.spoke st n ∨ x.lost.getLsbD n then s
      else
        let slot := x.unit / 16
        let s := setSBand s id { sb with okUnits := sb.okUnits ++ [x.unit], acc := sb.acc.set slot (xorSpans (sb.acc.getD slot []) (memberSpans x n)) }
        let s := touchEntry (setStripe s st { x with programmed := x.programmed ||| (1#16 <<< n) }) st
        let s := if n < x.k then mapUnit s sb x n else s
        completeAll (checkClosed (xorCheck s id slot) st)

/-! ### Rows of the stripe engine and the journal -/

/-- R253: STRIPE_CLOSE expires. -/
def execStripeClose (st : Nat) (s : State) : Host.Outcome State Fault Refusal := lift (fun b => closeStripe b st) s

/-- R254: a parity buffer is free, and the assembly that waits goes on. -/
def execParityBufferWait (s : State) : Host.Outcome State Fault Refusal := lift resumeAsm s

/-- The spokes that take a journal entry's flash copies, from the stripe band it names. -/
def spokesOfEntry (s : Blk) (e : Bytes) : List Nat := ((s.med.bands.get? (leAt e 8 4)).map (·.jspokes)).getD []

/-- Journal pages of entries, 32 to a page, under XTS class 5 by page number (R133, R256). -/
def entryPages (s : Blk) (es : List Bytes) : List Bytes :=
  let ps := blocksOf 4096 es.flatten
  (ps.zip (List.range ps.length)).map fun e => xtsEnc s.cip.xts1 s.cip.xts2 5 (s.med.jpage + e.2) (slice e.1 0 4096) ++ zeros 16

/-- R256: the oldest pending changes, at most 128, are written to journal pages, each on the three spokes of its stripe band. -/
def stripeJournalWrite (s : Blk) : Blk :=
  let now := s.med.sjPending.take 128
  let s := { useCluster s with med := { s.med with
      sjPending := s.med.sjPending.drop 128
      sjFlash := now.foldl (fun t e => match s.med.stripes.get? e.1 with
        | some x => t.set e.1 { x with grains := [] }
        | none => t.del e.1) s.med.sjFlash } }
  let sets := (now.map fun e => spokesOfEntry s e.2).eraseDups
  forEach sets (fun s q => writeJournal s q (entryPages s ((now.filter fun e => spokesOfEntry s e.2 = q).map Prod.snd))) s

def execStripeJournalFlashWrite (s : State) : Host.Outcome State Fault Refusal := lift stripeJournalWrite s

def execJournalFlush (s : State) : Host.Outcome State Fault Refusal := lift journalFlush s

/-! ### Checkpoints (R203) -/

/-- A record older than the checkpoints is still needed while the bucket page it changes has not been written since. -/
def stillNeeded (s : Blk) : JRec → Bool
  | .slotSet b _ _ _ => (dirOf s b).dirty
  | .slotClear b _ => (dirOf s b).dirty
  | _ => false

/-- A truing entry as its 16 bytes, and back (R227). -/
def truingBytes (e : TEntry) : Bytes :=
  (List.range 8).map (fun i => BitVec.ofInt 8 (e.code.getD i 0)) ++ leBytes 4 e.truedAt ++ leBytes 2 e.fLast
    ++ [BitVec.ofNat 8 (boolNat e.valid + 2 * boolNat e.atLimit + 4 * boolNat e.overriding), 0]

def truingOf (b : Bytes) : TEntry :=
  { code := (slice b 0 8).map sbyte, truedAt := leAt b 8 4, fLast := leAt b 12 2, valid := bitOf (leAt b 14 1) 0
    atLimit := bitOf (leAt b 14 1) 1, overriding := bitOf (leAt b 14 1) 2 }

/-- A directory entry as its 48 bytes (R99). -/
def dirBytes (d : DirEnt) : Bytes :=
  leBytes 6 d.pageLoc ++ leBytes 2 (d.pending * 16 + d.spill * 4 + boolNat d.dirty * 2 + boolNat d.cached)
    ++ (List.range 40).map fun i => d.fp.getD i 0

/-- Checkpoint pages of an image, in gear 5 (KIND 0x6): the image in pages of 4,096 bytes (layout: DESIGN CHOICE, log entry 46). -/
def writeCheckpoint (s : Blk) (image : Bytes) : Blk :=
  forEach (blocksOf 4096 image) (fun s p => assign s sysNs 5 hostStream { kind := 6, body := slice p 0 4112 }) s

/-- R203: the next item of the rotation: the directory, the map root with the truing entries (R227), the dirty map pages. Once all
three have been written, the flash journal keeps no record older than the rotation, but for those still needed. Anchor blocks
that are due are written with the directory. -/
def checkpointStep (s : Blk) : Blk :=
  if s.pwr.dump.isSome then s else
  match s.med.ckItem with
  | 0 =>
    let dir := s.idx.dir.mapVal fun _ d => { d with pending := 0, slots := [], cached := false, dirty := false }
    let s := forEach s.med.anchorDue (fun s a => writeAnchor s (a / 512) (a % 512)) s
    writeCheckpoint { s with med := { s.med with ckDir := dir, ckItem := 1, ckKeep := s.med.fjournal.length, ckFlush := s.med.jflush } }
      (s.idx.dir.flatMap fun e => dirBytes e.2)
  | 1 =>
    let t : Tbl Bytes := s.med.tentries.map fun e => (e.1, truingBytes e.2)
    writeCheckpoint { s with med := { s.med with ckRoot := s.med.mroot, ckTruing := t, ckBands := s.med.bands, ckItem := 2 } }
      ((s.med.mroot.flatMap fun e => leBytes 8 e.2) ++ t.vals.flatten)
  | _ =>
    let s := forEach s.med.mdirty writeMapPage s
    let old := (s.med.fjournal.take s.med.ckKeep).filter (stillNeeded s)
    { s with med := { s.med with
        ckItem := 0, fjournal := old ++ s.med.fjournal.drop s.med.ckKeep, jfree := if old.isEmpty then s.med.ckFlush else s.med.jfree } }

def execCheckpoint (s : State) : Host.Outcome State Fault Refusal := lift checkpointStep s

end Sys2Proof.Machine
end

