-- ==== Sys2Proof/Machine/Keys.lean ====
section
/-! DEFINITION. Key pages (R132), their flash images and the on-die cache (R131, R135), tenant data keys and the
comparison that guards them (R19, R133, R134). -/

namespace Sys2Proof.Machine

/-! ### Layout of a key page (R132) -/

def genBytes (g : GenSlot) : Bytes := leBytes 4 g.gen ++ zeros 4 ++ slice g.wrapped 0 40

/-- Bytes 0-495 of a key page. -/
def keyPageBytes (p : KeyPage) : Bytes :=
  leBytes 2 p.owner ++ [BitVec.ofNat 8 p.state, BitVec.ofNat 8 p.gens.length] ++ leBytes 4 p.genCur ++ leBytes 8 p.ctr0
  ++ leBytes 8 p.ctr1 ++ leBytes 8 p.top0 ++ leBytes 8 p.top1 ++ zeros 24 ++ slice (p.gens.flatMap genBytes) 0 192
  ++ slice p.wrappedAccess 0 40 ++ zeros 200

/-- The fields of a key page's bytes; PAGE_MAC as it stands there. -/
def pageOfBytes (b : Bytes) : KeyPage :=
  { owner := leAt b 0 2, state := leAt b 2 1, genCur := leAt b 4 4, ctr0 := leAt b 8 8, ctr1 := leAt b 16 8, top0 := leAt b 24 8, top1 := leAt b 32 8
    gens := (List.range (leAt b 3 1)).map fun i => { gen := leAt b (64 + 48 * i) 4, wrapped := slice b (72 + 48 * i) 40 }
    wrappedAccess := slice b 256 40, mac := slice b 496 16 }

def pageMac (s : Blk) (p : KeyPage) : Bytes := aesCmac s.cip.cmac (keyPageBytes p)

/-- The page on flash: one data unit of XTS, class 4 (R131, R133), the bytes past the page 0. -/
def keyImage (s : Blk) (n : Nat) (p : KeyPage) : Bytes := xtsEnc s.cip.xts1 s.cip.xts2 4 n (keyPageBytes p ++ p.mac ++ zeros 3584)

/-- The page a flash image holds. -/
def imagePage (s : Blk) (n : Nat) (b : Bytes) : KeyPage := pageOfBytes ((xtsDec s.cip.xts1 s.cip.xts2 4 n b).take 512)

/-- The flash image of a key page follows the page. -/
def flashPage (s : Blk) (n : Nat) : Blk :=
  match s.cip.pages.get? n with
  | some p => { s with cip := { s.cip with flashPages := s.cip.flashPages.set n (keyImage s n p) } }
  | none => { s with cip := { s.cip with flashPages := s.cip.flashPages.del n } }

def ctrOf (p : KeyPage) (side : Nat) : Nat := if side = 0 then p.ctr0 else p.ctr1
def topOf (p : KeyPage) (side : Nat) : Nat := if side = 0 then p.top0 else p.top1
def withCtr (p : KeyPage) (side v : Nat) : KeyPage := if side = 0 then { p with ctr0 := v } else { p with ctr1 := v }
def withTop (p : KeyPage) (side v : Nat) : KeyPage := if side = 0 then { p with top0 := v } else { p with top1 := v }

/-- Key material of the partner's form: unwrapped under the KEK, wrapped under PAIR_KEK (R278). -/
def pairWrap (s : Blk) (w : Bytes) : Bytes := ((aesUnwrap s.cip.kek w).map (aesWrap s.cip.pairKek)).getD (zeros 40)

/-- A key page to the partner, in three flits (R276-R278). -/
def sendPage (s : Blk) (n : Nat) : Blk :=
  match s.cip.pages.get? n with
  | none => s
  | some p =>
    let b := keyPageBytes { p with gens := p.gens.map (fun g => { g with wrapped := pairWrap s g.wrapped }), wrappedAccess := pairWrap s p.wrappedAccess }
    let b := b ++ aesCmac s.cip.pairMac b
    forEach (List.range 3) (fun s i => tandemSend s 0x6 0x02 n 0 i ((b.drop (240 * i)).take 240)) s

/-! ### The on-die cache (R135) -/

/-- The cache line of a page: its data keys unwrapped under the KEK. -/
def lineOf (s : Blk) (n : Nat) (p : KeyPage) : KeyLine :=
  { page := n, owner := p.owner, state := p.state
    keys := p.gens.filterMap fun g => (aesUnwrap s.cip.kek g.wrapped).map fun k => (g.gen, k) }

def cachedLine (s : Blk) (n : Nat) : Option KeyLine := s.cip.cache.find? fun l => l.page = n

/-- Write a key page in HBM with its PAGE_MAC; a line the cache holds of it follows. -/
def setPage (s : Blk) (n : Nat) (p : KeyPage) : Blk :=
  let q := { p with mac := pageMac s p }
  { s with cip := { s.cip with
      pages := s.cip.pages.set n q
      cache := s.cip.cache.map fun l => if l.page = n then lineOf s n q else l } }

/-- PAGE_MAC is good and every generation's key unwraps (R132, R135). -/
def pageSound (s : Blk) (p : KeyPage) : Bool :=
  decide (p.mac = pageMac s p) && p.gens.all fun g => (aesUnwrap s.cip.kek g.wrapped).isSome

/-- A key page is named by a cell that waits or is in the fabric, or by a unit that runs (R135). -/
def pageNamed (s : Blk) (n : Nat) : Bool :=
  (s.cip.waiting.any fun e => e.1 == n) || (s.cip.fabric.any fun c => (rtOf c.rt).next == 5 && (rtOf c.rt).keyPage == n)
    || (s.cip.gated.any fun e => (rtOf e.2.rt).keyPage == n)
    || s.cip.units.any fun u => (cmdOf s (u.1 / 2 ^ 20)).any fun c => (rtOf c.rt).keyPage == n

/-- A line joins the cache as its newest; a full cache gives up the least recently used page that no cell names, or, when every
page is named, takes none. -/
def cacheLine (s : Blk) (x : KeyLine) : Blk :=
  let l := s.cip.cache.filter fun y => y.page ≠ x.page
  if l.length < 8192 then { s with cip := { s.cip with cache := l ++ [x] } }
  else
    match l.find? fun y => !pageNamed s y.page with
    | some y => { s with cip := { s.cip with cache := l.erase y ++ [x] } }
    | none => s

/-! ### Tenant keys and their guard (R19, R133, R134) -/

/-- TENANT goes with the owner of the key page, and the page is not free (R134). -/
def ownerOk (s : Blk) (tenant page : Nat) : Bool := (s.cip.pages.get? page).any fun p => p.owner == tenant && p.state != 0

/-- The data key of a tenant's generation, unwrapped under the KEK; none when the page is not the tenant's (R134). -/
def dataKey (s : Blk) (tenant gen : Nat) : Option Bytes :=
  if ownerOk s tenant tenant then
    ((s.cip.pages.get? tenant).bind fun p => p.gens.find? fun g => g.gen = gen).bind fun g => aesUnwrap s.cip.kek g.wrapped
  else none

/-- R134: a core has found a tenant or a kind that does not go with the key page: event 0x6002, and the kickstand when it comes
again within a second. The command is ended by its caller. -/
def isolationEvent (s : Blk) (src keyPage tenant : Nat) : Blk :=
  let again := s.cip.isolAt.any fun t => s.now < t + second
  let s := raise { s with cip := { s.cip with isolAt := some s.now } } 0x6002 6 src (pl [(2, keyPage), (2, tenant)])
  if again then enterKickstand (raise s 0x600C 7 src []) 3 0 false else s

end Sys2Proof.Machine
end

