-- ==== Sys2Proof/Machine/Reads.lean ====
section
/-! DEFINITION. Reading the medium: cells on their way between engines (R15, R19, R23), read levels and truing
(R223-R232), the four stages of R220, LLR tables (R224-R226), die-XOR and Reed-Solomon rebuilds (R246, R248), and where a
read grain goes. -/

namespace Sys2Proof.Machine

/-! ### Cells (R15-R19, R23) -/

/-- Place of the extent that a cell belongs to: the one extent of a write; of a value read, that of its grain, or the one with a
key record. -/
def extentPlace (s : Blk) (r : Rt) : Nat :=
  if r.cf = 0 then 0
  else
    match cmdOf s r.slot with
    | none => 0
    | some c =>
      if r.kind = 3 then c.extents.findIdx fun e => e.kind ≠ 2
      else c.extents.findIdx fun e => e.kind ≠ 3 && decide (e.first ≤ r.grain ∧ r.grain < e.first + e.grains)

/-- Number of the unit of work of a cell (R128): its command and its extent. -/
def unitOf (s : Blk) (r : Rt) : Nat := r.slot * 2 ^ 20 + extentPlace s r

/-- The cluster of a cell: that of its unit, else the one R23 picks. -/
def clusterFor (s : Blk) (r : Rt) : Nat := ((s.cip.units.get? (unitOf s r)).map (·.cluster)).getD (pickCluster s)

/-- LGA of grain `g` of the value a command reads. -/
def grainLga (c : Cmd) (g : Nat) : Option Nat :=
  (c.extents.find? fun e => e.first ≤ g ∧ g < e.first + e.grains).map fun e => e.lga + (g - e.first)

/-- The spoke that holds the grain a cell asks for. -/
def grainSpoke (s : Blk) (r : Rt) : Nat :=
  match ((cmdOf s r.slot).bind fun c => grainLga c r.grain).bind (mapOf s) with
  | some e => (pgaView e.1).spoke
  | none => 0

/-- The gated domain a cell waits for, if any: a cipher cluster or a spoke media engine (R23). -/
def gateOf (s : Blk) (r : Rt) : Option Nat :=
  if r.next = 0x5 then
    let d := domCiph (clusterFor s r)
    if clockOn s d then none else some d
  else if r.next = 0x7 then
    let d := domSpke (grainSpoke s r)
    if clockOn s d then none else some d
  else none

/-- Send a cell: into the fabric, or into the sender's queue of a gated domain. -/
def sendCell (s : Blk) (c : Cell) : Blk :=
  match gateOf s (rtOf c.rt) with
  | none => { s with cip := { s.cip with fabric := s.cip.fabric ++ [c] } }
  | some d => { s with cip := { s.cip with gated := s.cip.gated ++ [(d, c)] } }

def sendCells (s : Blk) (cs : List Cell) : Blk := cs.foldl sendCell s

def cellOf (r : Rt) (b : Bytes) : Cell := { rt := rtPack { r with length := b.length }, payload := b }

/-- A command goes on to its next engine as a cell (CELL_KIND 0x0), where it takes its next step (R15, R20, R21). -/
def handOn (s : Blk) (slot : Nat) (c : Cmd) (next : Nat) : Blk :=
  sendCell (setCmd s slot { c with phase := .handed }) (cellOf { cmdRt c with next := next, kind := 0x0 } [])

/-- The seventeen cells of a grain (R15): sixteen of data, then the check field (CELL_KIND 0x2). -/
def grainCells (r : Rt) (grain : Nat) (body : Bytes) : List Cell :=
  (List.range 17).map fun i =>
    cellOf { r with grain := grain, cell := i, kind := if i = 16 then 0x2 else 0x1 } (slice body (256 * i) (if i = 16 then 16 else 256))

/-- Cells of a key record (CELL_KIND 0x3). -/
def keyCells (r : Rt) (b : Bytes) : List Cell :=
  let bs := blocksOf 256 b
  (bs.zip (List.range bs.length)).map fun e => cellOf { r with kind := 0x3, cell := e.2 } e.1

/-- R23: a domain woken by demand is accepting cells, and its queued cells flow. -/
def domainReady (d : Nat) (s : Blk) : Blk :=
  let mine := s.cip.gated.filter fun e => e.1 = d
  if mine.isEmpty then s
  else
    let s := startClock { s with cip := { s.cip with gated := s.cip.gated.filter fun e => e.1 ≠ d } } d
    { s with cip := { s.cip with fabric := s.cip.fabric ++ mine.map Prod.snd } }

def execDomainClockReady (d : Fin 84) (s : State) : Host.Outcome State Fault Refusal := lift (domainReady d.val) s

/-! ### Read levels (R223, R227, R228) -/

/-- Wear class W of R223. -/
def wearClass (p : Profile) (b : NBlk) : Nat :=
  let rated := if b.slc then p.peSlc else p.peRated
  if b.erases * 4 < rated then 0 else if b.erases * 2 < rated then 1 else if b.erases * 4 < rated * 3 then 2 else 3

/-- Age in RTC seconds, modulo 2^32; an age negative in serial arithmetic counts as 0 (R294). -/
def ageOf (now then_ : Nat) : Nat := let a := (now + 2 ^ 32 - then_ % 2 ^ 32) % 2 ^ 32; if a < 2 ^ 31 then a else 0

def blkAge (s : Blk) (b : NBlk) : Nat := if b.st = 2 then ageOf (secs s) b.closedAt else 0

def day : Nat := 86400

/-- Retention class T of R223, and of R235 for a block whose age is not known. -/
def retClass (s : Blk) (b : NBlk) : Nat :=
  if b.st = 2 ∧ b.closeOrder < s.med.ageUnknown then 3
  else
    let a := blkAge s b
    if a < day then 0 else if a < 7 * day then 1 else if a < 30 * day then 2 else 3

/-- Page type: the page's place among the BITS_PER_CELL pages of a word line (log entry 20); 0 in SLC mode. -/
def pageType (p : Profile) (slc : Bool) (page : Nat) : Nat := if slc then 0 else page % max 1 p.bitsPerCell

/-- LLR cell of a codeword: age bin x 3 + row (R223). -/
def llrCell (s : Blk) (w : Place) : Nat :=
  let p := profOf s w.spoke
  let b := blkAt s (blkKey w.spoke w.die w.block)
  (4 * wearClass p b + retClass s b) * 3 + min 2 (pageType p b.slc w.page)

/-- Number of the truing entry of a codeword (R227). -/
def entryKey (s : Blk) (w : Place) : Nat :=
  let b := blkAt s (blkKey w.spoke w.die w.block)
  ((w.spoke * 512 + w.die) * 1024 + w.block / 64) * 4 + pageType (profOf s w.spoke) b.slc w.page

/-- TRUING_DEFAULTS for a codeword (R228). -/
def defaultCodes (s : Blk) (w : Place) : List Int :=
  let p := profOf s w.spoke
  let b := blkAt s (blkKey w.spoke w.die w.block)
  let e := 8 * min 2 (pageType p b.slc w.page) + 2 * wearClass p b + (if retClass s b < 2 then 0 else 1)
  (slice p.truing (8 * e) 8).map sbyte

/-- The codes a read uses as it is issued (R232): the entry's, or the defaults while VALID is 0. -/
def codesFor (s : Blk) (w : Place) : List Int :=
  match s.med.tentries.get? (entryKey s w) with
  | some e => if e.valid then e.code else defaultCodes s w
  | none => defaultCodes s w

def clampTo (r x : Int) : Int := if r < x then r else if x < -r then -r else x

/-- Offset codes of one READ_OFFSET: the first OFFSET_COUNT codes, each shifted and held within OFFSET_RANGE (R220). -/
def shiftCodes (p : Profile) (codes : List Int) (sh : Int) : List Int :=
  (List.range 8).map fun i => if i < p.offsetCount then clampTo p.offsetRange (codes.getD i 0 + sh) else 0

/-- Issue one read of a codeword: READ where every code is zero, else READ_OFFSET (R163, R227); the reads of stage 2 and of
truing are READ_OFFSET whatever their codes (R220, R230). -/
def issueRead (s : Blk) (pga : Nat) (codes : List Int) (why : OpFor) (offset : Bool := false) : Blk :=
  let w := placeOf s pga
  let p := profOf s w.spoke
  let b := blkAt s (blkKey w.spoke w.die w.block)
  let row := rowOf p w.plane w.page w.block
  let mask : Byte := BitVec.ofNat 8 (2 ^ w.cw)
  if codes.all (· = 0) ∧ offset = false then issueOp s w.spoke opRead (w.die / 16) (w.die % 16) row b.slc [mask] [] why
  else
    issueOp s w.spoke opReadOffset (w.die / 16) (w.die % 16) row b.slc
      ([mask, BitVec.ofNat 8 (pageType p b.slc w.page)] ++ zeros 6 ++ codes.map (fun c => BitVec.ofInt 8 c)) [] why

/-! ### Lost grains and lost metadata (R104, R262, R270) -/

/-- Set LOST in a value's slot (R103, R270). -/
def markLost (s : Blk) (b i : Nat) : Blk :=
  match (dirOf s b).slots.get? i with
  | some sl => journal (applySlot s b i { sl with lost := true } b) (.slotSet b i { sl with lost := true } b)
  | none => s

/-- R262: a map page or bucket page is lost: every namespace goes OFFLINE while a full tag scan runs. -/
def loseMetadata (s : Blk) : Blk :=
  if s.med.tagScan then s
  else
    let s := raise { s with med := { s.med with tagScan := true } } 0x700D 6 domNone []
    judgeNs { s with nss := s.nss.mapVal fun _ x => { x with metaOffline := true } }

/-- R270: a stripe has lost more than m members: each lost unit is listed, and the rest is relocated. -/
def loseStripe (s : Blk) (b u : Nat) (ns : List Nat) : Blk :=
  let new := (ns.map fun n => (b, u * 16 + n)).filter fun e => ¬ s.med.lostUnits.contains e
  if new.isEmpty then s
  else
    let s := { s with med := { s.med with lostUnits := s.med.lostUnits ++ new } }
    let s := forEach new (fun s e => journal s (.lostUnit e.1 e.2)) s
    let s := match s.med.bands.get? b with
      | some x => setBand s b { x with relocate := true }
      | none => s
    raise s 0x7004 6 domNone (pl [(4, b), (2, u)])

/-! ### Release of a value (R70, R143-R145) -/

/-- The extent that holds grain `g` of a value. -/
def extentOf (c : Cmd) (g : Nat) : Option Extent := c.extents.find? fun e => e.first ≤ g ∧ g < e.first + e.grains

/-- A grain in clear with its check field: block 0 of grain j of an extent is its block KR + 257 j (R137). -/
def clearGrain (s : Blk) (c : Cmd) (g : GrainSt) : Option Bytes :=
  (extentOf c g.grain).bind fun e =>
    (dataKey s c.tenant e.gen).map fun k => ctrXor k e.iv (e.kr + 257 * (g.grain - e.first)) g.body

/-- Extents whose tags can be verified: all but what is left of parts (R76; log entry 43). -/
def tagsDue (c : Cmd) : Nat := (c.extents.filter fun e => !e.torn).length

/-- A failure of the value has been found. -/
def valueFails (c : Cmd) : Bool := c.lostGrain.isSome || c.tagFail.isSome || c.cfFail.isSome

/-- STATUS and DETAIL of a GET that ends now (R69, R70). -/
def valueStatus (c : Cmd) : Nat × Nat :=
  match c.lostGrain, c.tagFail, c.cfFail with
  | some g, _, _ => (stValueLost, g)
  | none, some g, _ => (stTagFail, g)
  | none, none, some g => (stCheckFail, g)
  | none, none, none => (stOk, 0)

/-- The final status of a GET is fixed, with what its checks found. -/
def finishValue (s : Blk) (slot : Nat) : Blk :=
  match cmdOf s slot with
  | some c => let r := valueStatus c; finishCmd s slot r.1 (gcmResult c) (cfResult c) r.2 c.version
  | none => s

/-- R145: the namespace holds its small values back until every tag has verified. -/
def isVbr (c : Cmd) : Bool := (rtOf c.rt).vbr && decide (c.foundLen ≤ 1048576)

/-- The first failing grain of a check-field or media failure (R70). -/
def badFrom (c : Cmd) (g : Nat) : Bool := c.cfFail.any (· ≤ g) || c.lostGrain.any (· ≤ g)

/-- Cells of one released grain to rim egress: zeros from the failing point on (R70). -/
def egressCells (r : Rt) (g len : Nat) (plain : Bytes) : List Cell :=
  let b := plain.take (min 4096 (len - 4096 * g))
  let bs := blocksOf 256 b
  (bs.zip (List.range bs.length)).map fun e =>
    cellOf { r with next := 0x0, kind := 0x1, grain := g, cell := e.2, first := decide (g = 0 ∧ e.2 = 0)
                    last := decide (len ≤ 4096 * g + 256 * e.2 + e.1.length) } e.1

/-- Release the grains whose verdict is in, in order (R143-R145). -/
def releaseN : Nat → Blk → Nat → Blk
  | 0, s, _ => s
  | n + 1, s, slot =>
    match cmdOf s slot with
    | none => s
    | some c =>
      if c.phase ≠ .streaming ∨ (isVbr c ∧ (valueFails c ∨ c.tagsOk ≠ tagsDue c)) then s
      else
        match c.grains[c.outGrain]? with
        | none => s
        | some g =>
          if g.lost = false ∧ g.cf.isNone then s
          else
            let plain := if badFrom c g.grain then zeros 4096 else (clearGrain s c g).getD (zeros 4096)
            let r := { cmdRt c with cf := if badFrom c g.grain then 3 else 2 }
            releaseN n (sendCells (setCmd s slot { c with outGrain := c.outGrain + 1 }) (egressCells r g.grain c.foundLen plain)) slot

def releaseGrains (s : Blk) (slot : Nat) : Blk := releaseN (((cmdOf s slot).map (·.grains.length)).getD 0) s slot

/-- What a failure found just now, or the end of a value without grains, brings about: a trailer alone when no value byte
has left (R68, R70), unless the re-read of R146 comes first; else the stream goes on. -/
def afterVerdict (s : Blk) (slot : Nat) : Blk :=
  match cmdOf s slot with
  | none => s
  | some c =>
    if c.phase ≠ .streaming then s
    else if valueFails c then
      if c.lostGrain.isNone ∧ isVbr c ∧ owesReread c then s
      else if c.sent = 0 then finishValue s slot else releaseGrains s slot
    else if c.grains.isEmpty then (if c.tagsOk = tagsDue c then finishValue s slot else s)
    else releaseGrains s slot

/-- A span that a stage, or a rebuild, awaits has come, or could not be read (R246, R248, R264). -/
def addSpan (s : Blk) (why : ReadFor) (v : Option Bytes) : Blk :=
  match why with
  | .xorOf rd i | .rsOf rd i =>
    match s.med.reads.get? rd with
    | some x => { s with med := { s.med with reads := s.med.reads.set rd { x with spans := x.spans.set i v, awaited := x.awaited - 1 } } }
    | none => s
  | .rebuildOf n m pos =>
    { s with med := { s.med with rebuilds := match s.med.rebuilds.get? n with
      | some r => s.med.rebuilds.set n { r with spans := r.spans.set (16 * m + pos) v, awaited := r.awaited - 1 }
      | none => s.med.rebuilds } }
  | _ => s

/-- A read that its last stage could not save (R220, R262, R270); `kind` is the KIND that its tag was to have. -/
def giveLost (s : Blk) (why : ReadFor) (kind : Nat := 0) : Blk :=
  match why with
  | .valueGrain slot g =>
    match cmdOf s slot with
    | some c =>
      let s := match c.desc with | some d => markLost s d.1 d.2 | none => s
      let gs := c.grains.map fun x => if x.grain = g then { x with lost := true } else x
      let first := match c.lostGrain with | some y => min y g | none => g
      afterVerdict (modCmd s slot fun c => { c with grains := gs, lostGrain := some first }) slot
    | none => s
  | .keyRecord slot pos => modCmd s slot fun c => { c with headIn := c.headIn.set pos none }
  | .bucketPage b => loseMetadata (modDir s b fun d => { d with unreadable := true })
  | .mapPage _ => loseMetadata s
  | .move lga _ _ =>
    if kind = 4 then loseMetadata (modDir s lga fun d => { d with unreadable := !d.cached })
    else if kind = 5 then (if s.med.mlru.contains lga then writeMapPage (touchMap s lga true) lga else loseMetadata s) else s
  | .xorOf _ _ | .rsOf _ _ | .rebuildOf _ _ _ => addSpan s why none
  | .patrol _ _ | .anchor _ _ | .dropped => s

/-- The last stage that a read may enter: patrol decodes hard alone (R198), the neighbours of stage 3 go through stages 1 and 2
(R246), those of stage 4 and of a rebuild through stages 1 to 3 (R264); every other one through all four. -/
def lastStage : ReadFor → Nat
  | .patrol _ _ => 1
  | .xorOf _ _ | .anchor _ _ => 2
  | .rsOf _ _ | .rebuildOf _ _ _ => 3
  | .valueGrain _ _ | .keyRecord _ _ | .bucketPage _ | .move _ _ _ | .mapPage _ | .dropped => 4

/-! ### Spans of the neighbours (R246, R248) -/

/-- Spoke band of a block. -/
def sbandAt (s : Blk) (w : Place) : Option (Nat × SBand) :=
  let id := (blkAt s (blkKey w.spoke w.die w.block)).sband
  ((s.med.sbands.get? id).filter fun sb => sb.spoke = w.spoke ∧ (sb.dies.zip sb.blocks).contains (w.die, w.block)).map fun sb => (id, sb)

/-- Stripe band, unit, member and position of a codeword of a data block. -/
def stripeAt (s : Blk) (pga : Nat) : Option (Nat × Nat × Nat × Nat) :=
  let w := placeOf s pga
  let at_ := if pga < 2 ^ 48 then sbandAt s w else s.med.sbands.find? fun e =>
    e.2.ghost = pga / 2 ^ 48 ∧ e.2.spoke = w.spoke ∧ (e.2.dies.zip e.2.blocks).contains (w.die, w.block)
  match at_ with
  | none => none
  | some (id, sb) =>
    let j := (sb.dies.zip sb.blocks).idxOf (w.die, w.block)
    match s.med.bands.find? fun e => e.2.members.any fun m => m.2 = some id with
    | some e => if j < 16 then some (e.1, 16 * (w.ppi / 4) + j, e.2.members.findIdx (fun m => m.2 = some id), (w.ppi % 4) * 4 + w.cw) else none
    | none => none

def setRead (s : Blk) (rd : Nat) (x : ReadCtx) : Blk := { s with med := { s.med with reads := s.med.reads.set rd x } }

/-- The trued code of a codeword at issue. -/
def readCodes (s : Blk) (pga : Nat) : List Int := shiftCodes (profOf s (placeOf s pga).spoke) (codesFor s (placeOf s pga)) 0

/-- A grain in a listed unit is lost (R270). -/
def listedLost (s : Blk) (pga : Nat) : Bool :=
  match stripeAt s pga with
  | some (b, u, n, _) => s.med.lostUnits.contains (b, u * 16 + n)
  | none => false

/-- Its member of the stripe band is lost as a whole, or a rebuild has not reached it (R260, R266). A block that is retired is
read like any other (R208). -/
def memberGone (s : Blk) (pga : Nat) : Bool :=
  let n := (placeOf s pga).spoke
  decide (2 ^ 48 ≤ pga) || decide ((spokeOf s n).sstate ≠ 1 ∧ (spokeOf s n).sstate ≠ 3) ||
    (match stripeAt s pga with
     | some (b, _, m, _) => (s.med.bands.get? b).any fun x => x.lost.contains m
     | none => false)

/-- A read of the codeword is in stage 2 or later. -/
def escalating (s : Blk) (pga : Nat) : Option (Nat × ReadCtx) := s.med.reads.find? fun e => e.2.pga = pga ∧ 2 ≤ e.2.stage

/-- A read waits for the outcome of another read of its codeword, unless that one is past the stages it may enter (R221). -/
def follow (s : Blk) (rd : Nat) (x : ReadCtx) (e : Nat × ReadCtx) : Blk :=
  if lastStage x.why < e.2.stage then giveLost { s with med := { s.med with reads := s.med.reads.del rd } } x.why ((x.expect.map (·.kind)).getD 0)
  else setRead (setRead s rd { x with stage := 0 }) e.1 { e.2 with followers := e.2.followers ++ [rd] }

/-- Stage 1: READ at the trued codes (R220). -/
def startHard (s : Blk) (rd : Nat) (x : ReadCtx) : Blk :=
  issueRead (setRead s rd { x with stage := 1, outstanding := 1 }) x.pga (readCodes s x.pga) (.read rd 0)

/-- A neighbour of a stage, or a member for a rebuild, is read: a codeword that an escalation already has takes its outcome; one
on a dead die, or on a spoke that is not there, is not read. -/
def askSpan (s : Blk) (pga : Nat) (why : ReadFor) (ex : Option Expect := none) : Blk :=
  let rd := s.med.readNext
  let x : ReadCtx := { pga := pga, expect := ex, why := why, cell := llrCell s (placeOf s pga) }
  let s := { s with med := { s.med with readNext := rd + 1 } }
  let w := placeOf s pga
  match escalating s pga with
  | some e => follow s rd x e
  | none =>
    if 2 ^ 48 ≤ pga ∨ inService s w.spoke = false ∨ dieUsable (spokeOf s w.spoke) w.die = false then addSpan s why none
    else startHard s rd x

/-- A member's span at a position, as its open stripe holds it while the member's program has not returned (R253, R254). -/
def heldSpan (s : Blk) (b u n pos : Nat) : Option Bytes :=
  ((s.med.stripes.vals.find? fun x => x.band = b ∧ x.unit = u ∧ x.programmed.getLsbD n = false ∧ x.lost.getLsbD n = false
    ∧ x.hasBuf).bind fun x => (memberSpans x n)[pos]?)

/-- Stage 3 begins: the other blocks of the group are read; a page never programmed counts as zeros, and the pannier accumulator
stands in for an XOR page not yet programmed (R243, R246). -/
def startXor (s : Blk) (rd : Nat) (x : ReadCtx) : Blk :=
  let w := placeOf s x.pga
  match sbandAt s w with
  | none => setRead s rd { x with stage := 3, spans := [], awaited := 0 }
  | some (_, sb) =>
    let es := ((sb.dies.zip sb.blocks).zip (List.range 17)).filter fun e => e.1 ≠ (w.die, w.block)
    let held := fun (e : (Nat × Nat) × Nat) =>
      match (if e.2 = 16 then (sb.acc.get? (w.ppi / 4)).bind fun a => a[(w.ppi % 4) * 4 + w.cw]? else none) with
      | some b => some b
      | none => if (blkAt s (blkKey w.spoke e.1.1 e.1.2)).wp ≤ w.ppi then some (zeros 4146) else none
    let now := es.filterMap fun e => (held e).map fun b => (e.2, b)
    let ask := es.filter fun e => (held e).isNone
    forEach ask (fun s e => askSpan s (blockPga s w.spoke e.1.1 e.1.2 w.ppi w.cw) (.xorOf rd e.2))
      (setRead s rd { x with stage := 3, awaited := ask.length, spans := now.foldl (fun t e => t.set e.1 (some e.2)) [] })

/-- Stage 4 begins: the same position of the other members is read; a member that its open stripe still holds is not (R248). -/
def startRs (s : Blk) (rd : Nat) (x : ReadCtx) : Blk :=
  match stripeAt s x.pga with
  | none => setRead s rd { x with stage := 4, spans := [], awaited := 0 }
  | some (b, u, n, pos) =>
    let ms := ((s.med.bands.get? b).map (·.members)).getD []
    let out := ((s.med.bands.get? b).map fun y => y.lost ++ (y.lostAt.filter fun p => p.1 = u).map Prod.snd).getD []
    let es := (ms.zip (List.range ms.length)).filter fun e => e.2 ≠ n ∧ ¬ out.contains e.2
    let now := es.filterMap fun e => (heldSpan s b u e.2 pos).map fun v => (e.2, v)
    let ask := es.filterMap fun e => if (heldSpan s b u e.2 pos).isSome then none else
      (e.1.2.bind s.med.sbands.get?).map fun sb => (e.2, sb.ghost * 2 ^ 48 + unitPga s sb u pos)
    forEach ask (fun s e => askSpan s e.2 (.rsOf rd e.1))
      (setRead s rd { x with stage := 4, awaited := ask.length, spans := now.foldl (fun t e => t.set e.1 (some e.2)) [] })

/-- Begin to read a codeword (R220, R221): it takes the outcome of a read of the same codeword that is in stage 2 or later;
a dead die goes straight to stage 3 (R211), a lost member to stage 4, and a grain of a listed unit is lost (R270). -/
def startRead (s : Blk) (pga : Nat) (ex : Option Expect) (why : ReadFor) : Blk :=
  let rd := s.med.readNext
  let w := placeOf s pga
  let x : ReadCtx := { pga := pga, expect := ex, why := why, cell := llrCell s w }
  let s := { s with med := { s.med with readNext := rd + 1 } }
  if listedLost s pga then giveLost s why ((ex.map (·.kind)).getD 0)
  else match escalating s pga with
  | some e => follow s rd x e
  | none =>
    if memberGone s pga then startRs s rd x
    else if dieUsable (spokeOf s w.spoke) w.die = false then startXor s rd x
    else startHard s rd x

/-- Read the codeword of an LGA. While a map page that names its place is not in the map cache, the lookup waits for one read of
that page (R183); an unmapped one is lost. -/
def readLga (s : Blk) (lga : Nat) (ex : Option Expect) (why : ReadFor) : Blk :=
  match (pagesOf s lga).find? fun p => !mapCached s p with
  | some p =>
    let s := { s with med := { s.med with mapWait := s.med.mapWait ++ [(p, lga, ex, why)] } }
    if s.med.reads.vals.any fun x => decide (x.why = .mapPage p) then s
    else startRead s (s.med.mroot.getD p 0) (some { kind := 5, lga := p }) (.mapPage p)
  | none =>
    let s := forEach ((pagesOf s lga).filter s.med.mlru.contains) (fun s p => touchMap s p false) s
    match mapOf s lga with
    | some e => startRead s e.1 ex why
    | none => giveLost s why ((ex.map (·.kind)).getD 0)

/-! ### Counters of a spoke (R236) and the LLR tables (R224-R226) -/

def countSpoke (s : Blk) (n k a : Nat) : Blk := modSpoke s n fun x => { x with cnt := countAdd x.cnt k a }

def popByte (b : Byte) : Nat := (List.range 8).foldl (fun a i => if b.getLsbD i then a + 1 else a) 0
def popBytes (b : Bytes) : Nat := b.foldl (fun a x => a + popByte x) 0

/-- Bits in which two reads differ. -/
def bitDiff (a b : Bytes) : Nat := popBytes (xorBytes a b)

/-- Base-2 logarithm in units of 2^-20, for a positive number. -/
def log2Q20 (v : Nat) : Nat :=
  let e := Nat.log2 v
  let r := (List.range 20).foldl (fun (a : Nat × Nat) _ =>
    let m := a.1 * a.1 / 2 ^ 30
    if 2 ^ 31 ≤ m then (m / 2, 2 * a.2 + 1) else (m, 2 * a.2)) (v * 2 ^ 30 / 2 ^ e, 0)
  e * 2 ^ 20 + r.2

/-- The error of the logarithm of R226, held within 1/64; 24 of its 1,024 units cover the rounding of `lnQ16`. -/
def lnOff (a b : Nat) : Int := let e := Config.lnError a b; if 1000 < e then 1000 else if e < -1000 then -1000 else e

/-- ln(a / b) in units of 2^-16, to within 1/64 (R226). -/
def lnQ16 (a b : Nat) : Int := ((log2Q20 a : Int) - log2Q20 b) * 45426 / 1048576 + lnOff a b

/-- Round half away from zero of 2 v, where v is in units of 2^-16 (R226). -/
def roundLn (v : Int) : Int := if 0 ≤ v then (2 * v + 32768) / 65536 else -((-2 * v + 32768) / 65536)

def clampLo (lo hi x : Int) : Int := if x < lo then lo else if hi < x then hi else x

/-- R226 on the hard counters. -/
def recalHard (c : LlrCell) : LlrCell × Bool :=
  if c.b < 16777216 then (c, false)
  else
    let h := (clampLo 1 7 (roundLn (lnQ16 (c.b - c.e + 1) (c.e + 1)))).toNat
    ({ c with hard := h, b := c.b / 2, e := c.e / 2 }, decide (h ≠ c.hard))

/-- R226 on the soft counters: every counter of the cell is halved. -/
def recalSoft (c : LlrCell) : LlrCell × Bool :=
  if c.n0.foldl (· + ·) 0 + c.n1.foldl (· + ·) 0 < 16777216 then (c, false)
  else
    let l := (List.range 6).map fun r => clampLo (-7) 7 (roundLn (lnQ16 (c.n0.getD r 0 + 1) (c.n1.getD r 0 + 1)))
    ({ c with llr := l, n0 := c.n0.map (· / 2), n1 := c.n1.map (· / 2), b := c.b / 2, e := c.e / 2 }, decide (l ≠ c.llr))

def setLlr (s : Blk) (n k : Nat) (c : LlrCell × Bool) : Blk :=
  let s := modSpoke s n fun x => { x with llr := x.llr.set k c.1 }
  if c.2 then raise s 0x8013 1 (domSpke n) (pl [(1, n), (1, k / 3), (1, k % 3)]) else s

def countHard (s : Blk) (n k bits bad : Nat) : Blk :=
  let c := (spokeOf s n).llr.getD k {}
  setLlr s n k (recalHard { c with b := c.b + bits, e := c.e + bad })

/-- Input of a bit of a hard decode: +HARD when read 0, -HARD when read 1 (R218, R224), by the table as it stood when the decode
started (R221). -/
def hardLlr (x : ReadCtx) (i : Nat) : Int := if (x.hard.getD (i / 8) 0).getLsbD (i % 8) then -x.table.hard else x.table.hard

/-- Region of a bit of a soft decode: how many of the five reads returned it as 1 (R225). -/
def softRegion (x : ReadCtx) (i : Nat) : Nat := ((x.hard :: x.soft).filter fun b => (b.getD (i / 8) 0).getLsbD (i % 8)).length

/-- Input of a bit of a soft decode (R225). -/
def softLlr (x : ReadCtx) (i : Nat) : Int := x.table.llr.getD (softRegion x i) 0

/-- Bits of each region 0-5 that were decoded as 0 and as 1 (R225). -/
def regionCounts (reads : List Bytes) (cw : Bytes) : List (Nat × Nat) :=
  (List.range 6).map fun r =>
    (List.range cw.length).foldl (fun (a : Nat × Nat) i =>
      let bs := reads.map fun x => x.getD i 0
      let out := cw.getD i 0
      (List.range 8).foldl (fun a t =>
        if (bs.filter (fun b => b.getLsbD t)).length = r then (if out.getLsbD t then (a.1, a.2 + 1) else (a.1 + 1, a.2)) else a) a) (0, 0)

def countSoft (s : Blk) (n k : Nat) (reads : List Bytes) (cw : Bytes) : Blk :=
  let c := (spokeOf s n).llr.getD k {}
  let rc := regionCounts reads cw
  setLlr s n k (recalSoft { c with n0 := List.zipWith (fun a b => a + b.1) c.n0 rc, n1 := List.zipWith (fun a b => a + b.2) c.n1 rc })

/-! ### Truing (R229-R231) -/

/-- f() of R230: one READ_OFFSET with reference `k` moved by `d`, the others at their current codes. -/
def truingRead (s : Blk) (t : Nat) (x : TRun) (d : Int) : Blk :=
  let p := profOf s x.spoke
  issueRead s x.pga (shiftCodes p (x.code.set x.k (x.code.getD x.k 0 + d)) 0) (.truing t) true

/-- TRUE_LIMIT of a spoke (R231). -/
def trueLimit (s : Blk) (n : Nat) : Nat := min (target s 0x14) (profOf s n).offsetRange

/-- The entry is written in one step (R230, R231): an entry whose codes lie past TRUE_LIMIT is OVERRIDING once a truing has taken
them there, until a truing ends inside. -/
def endTruing (s : Blk) (t : Nat) (x : TRun) : Blk :=
  let p := profOf s x.spoke
  let used := x.code.take p.offsetCount
  let lim := used.any fun c => c.natAbs = p.offsetRange ∧ p.offsetRange ≠ 0
  let was := (s.med.tentries.get? x.entry).any (·.overriding)
  let isOver := (x.past || was) && used.any fun c => decide (trueLimit s x.spoke < c.natAbs)
  let e : TEntry := { code := x.code, truedAt := secs s % 2 ^ 32, fLast := x.f0, valid := true, atLimit := lim, overriding := isOver }
  let s := { s with med := { s.med with tentries := s.med.tentries.set x.entry e, truns := s.med.truns.del t } }
  let s := if lim then raise s 0x8012 3 (domSpke x.spoke) (pl [(1, x.spoke), (4, x.entry)]) else s
  let any := s.med.tentries.any fun q => q.1 / (512 * 4096) = x.spoke ∧ q.2.overriding
  if any = (spokeOf s x.spoke).truingOver then s
  else
    let s := modSpoke s x.spoke fun y => { y with truingOver := any }
    let s := if s.spokes.vals.any (·.truingOver) then s else endOverride s [0x14]
    alert (raise s 0x8016 3 (domSpke x.spoke) (pl [(1, x.spoke), (1, boolNat any)])) 7

def setRun (s : Blk) (t : Nat) (x : TRun) : Blk := { s with med := { s.med with truns := s.med.truns.set t x } }

/-- The first read of a reference, one step to a side within the limit; none when both sides lie past it. A read past the limit is
never issued, and counts as worse than any other (R230). -/
def firstRead (s : Blk) (t : Nat) (x : TRun) : Option Blk :=
  let step : Int := policy s 0x12
  let c := x.code.getD x.k 0
  if (c - step).natAbs ≤ x.limit then some (truingRead (setRun s t { x with ph := 0 }) t x (-step))
  else if (c + step).natAbs ≤ x.limit then some (truingRead (setRun s t { x with ph := 1, fm := 37121 }) t x step)
  else none

/-- Past TRUE_LIMIT, within the hard band: the references that stopped at TRUE_LIMIT go on, each in the direction it took
(R231). -/
def goPast : Nat → Blk → Nat → TRun → Blk
  | 0, s, t, x => endTruing s t x
  | fuel + 1, s, t, x =>
    match x.stopped with
    | [] => endTruing s t x
    | (k, d, moves) :: rest =>
      let step : Int := policy s 0x12
      let x := { x with k := k, dir := d, moves := moves, stopped := rest }
      if d = 0 then (firstRead s t x).getD (goPast fuel s t x)
      else if (x.code.getD k 0 + d * step).natAbs ≤ x.limit then truingRead (setRun s t { x with ph := 2 }) t x (d * step)
      else goPast fuel s t x

/-- The references in order; at the end, if some stopped at TRUE_LIMIT and too many bits still fail, truing goes on in the hard band
(R230, R231). -/
def beginReference : Nat → Blk → Nat → TRun → Blk
  | 0, s, t, x => endTruing s t x
  | fuel + 1, s, t, x =>
    let p := profOf s x.spoke
    if x.k < p.offsetCount then
      (firstRead s t x).getD (beginReference fuel s t { x with k := x.k + 1, moves := 0, stopped := x.stopped ++ [(x.k, 0, 0)] })
    else if x.stopped.isEmpty = false ∧ policy s 0x11 < x.f0 ∧ trueLimit s x.spoke < p.offsetRange then
      goPast 20 s t { x with limit := p.offsetRange, past := true }
    else endTruing s t x

/-- A reference has stopped, at TRUE_LIMIT in a direction or for want of a better place; the next one begins. -/
def nextReference (s : Blk) (t : Nat) (x : TRun) (stop : Option Int) : Blk :=
  if x.past then goPast 20 s t x
  else
    let st := match stop with
      | some d => x.stopped ++ [(x.k, d, x.moves)]
      | none => x.stopped
    beginReference 20 s t { x with k := x.k + 1, moves := 0, stopped := st }

/-- Start truing of a codeword's entry, unless it is running (R229); `known` is the accepted decode. -/
def startTruing (s : Blk) (pga f0 : Nat) (known : Bytes) : Blk :=
  let w := placeOf s pga
  let e := entryKey s w
  if (s.med.truns.vals.any fun t => t.entry = e) ∨ (profOf s w.spoke).offsetCount = 0 then s
  else
    let t := s.med.trunNext
    let x : TRun := { spoke := w.spoke, entry := e, pga := pga, code := codesFor s w, f0 := f0, limit := trueLimit s w.spoke, known := known }
    beginReference 20 (countSpoke { s with med := { s.med with trunNext := t + 1 } } w.spoke 6 1) t x

/-- The side of a reference that has not moved on which no read could be made. -/
def shutSide (s : Blk) (x : TRun) : Option Int :=
  let step : Int := policy s 0x12
  let c := x.code.getD x.k 0
  if x.moves ≠ 0 then none
  else if x.limit < (c - step).natAbs then some (-1)
  else if x.limit < (c + step).natAbs then some 1
  else none

/-- While the fail count improves by more than the hysteresis, the reference moves (R230). -/
def tryMove (s : Blk) (t : Nat) (x : TRun) (best : Nat) : Blk :=
  let step : Int := policy s 0x12
  let dest := x.code.getD x.k 0 + x.dir * step
  if best + max 8 (x.f0 / 16) < x.f0 ∧ x.moves < policy s 0x13 ∧ dest.natAbs ≤ x.limit then
    let y := { x with code := x.code.set x.k dest, f0 := best, moves := x.moves + 1, ph := 2 }
    let s := countSpoke (setRun s t y) x.spoke 7 1
    if (dest + x.dir * step).natAbs ≤ x.limit then truingRead s t y (x.dir * step) else nextReference s t y (some x.dir)
  else nextReference s t x (shutSide s x)

/-- TRUING_READ: the fail bits of the read that has returned, against the known data, decide the next step (R230). -/
def truingStep (t : Nat) (s : Blk) : Blk :=
  match s.med.truns.get? t with
  | none => s
  | some x =>
    match x.got with
    | none => s
    | some b =>
      let fails := bitDiff b x.known
      let x := { x with got := none }
      let step : Int := policy s 0x12
      match x.ph with
      | 0 =>
        if (x.code.getD x.k 0 + step).natAbs ≤ x.limit then truingRead (setRun s t { x with fm := fails, ph := 1 }) t x step
        else tryMove s t { x with dir := -1 } fails
      | 1 => tryMove s t { x with dir := if x.fm ≤ fails then -1 else 1 } (min x.fm fails)
      | _ => tryMove s t x fails

/-- Truing `t` runs on spoke `n`: its reads return there and nowhere else (R230). -/
def truedOn (n t : Nat) (f : Blk → Blk) (s : Blk) : Blk := if (s.med.truns.get? t).any fun x => x.spoke = n then f s else s

def execTruingRead (n : Fin 16) (t : Nat) (s : State) : Host.Outcome State Fault Refusal := lift (truedOn n.val t (truingStep t)) s

/-! ### Where a read grain goes -/

/-- Put a block at the head of the patrol queue (R200, R246). -/
def patrolFirst (s : Blk) (pga : Nat) : Blk :=
  let k := pgaBlk s pga
  modSpoke s (placeOf s pga).spoke fun x =>
    { x with patrolq := k :: x.patrolq.filter (· ≠ k), patrolPos := if x.patrolq.head? = some k then x.patrolPos else 0 }

def parseSlot (b : Bytes) : BSlot :=
  { ns := leAt b 0 2, keyLen := leAt b 2 2, lost := bitOf (leAt b 4 1) 0, multipart := bitOf (leAt b 4 1) 1,
    digest := BitVec.ofNat 128 (leAt b 8 16), version := leAt b 24 8, valueLen := leAt b 32 8, loc := leAt b 40 8 }

/-- The slots of a bucket page in clear. -/
def parsePage (p : Bytes) : Tbl BSlot :=
  (List.range 40).filterMap fun i => let x := parseSlot (slice p (64 + 64 * i) 64); if x.keyLen = 0 then none else some (i, x)

/-- MAGIC, BUCKET and PAGE_CRC are good (R104). -/
def pageGood (b : Nat) (p : Bytes) : Bool :=
  decide (slice p 0 4 = ascii "CBKT") && decide (leAt p 4 4 % 2 ^ 30 = b) && decide (leAt p 4088 8 = (crc64 (p.take 4088)).toNat)

/-- The bucket page of a body (R133, class 1). -/
def pageOf (s : Blk) (b : Nat) (body : Bytes) : Bytes := xtsDec s.cip.xts1 s.cip.xts2 1 b (body.take 4096)

/-- A bucket page has been read: it is cached. -/
def cachePage (s : Blk) (b : Nat) (p : Bytes) : Blk :=
  touchPage (modDir (useCluster s) b fun d => if d.cached then d else { d with slots := parsePage p, pageSeq := leAt p 8 8, unreadable := false }) b

/-- A value grain has arrived as ciphertext: its cells go to the cluster, to be decrypted (R143). -/
def grainArrived (s : Blk) (slot g : Nat) (body : Bytes) : Blk :=
  match cmdOf s slot with
  | none => s
  | some c =>
    let s := setCmd s slot { c with grains := c.grains.map fun x => if x.grain = g then { x with body := body } else x }
    sendCells s (grainCells { cmdRt c with next := 0x5, cf := 1 } g body)

/-- A grain on the move goes to its target stream: the sixteen of a coarse unit together, once all have been read (R182,
R184). -/
def moveGrain (s : Blk) (gear str : Nat) (g : SGrain) : Blk :=
  let ns := if g.kind = 4 ∨ g.kind = 5 then sysNs else s.med.unitNs.getD (g.lga / 16) 0
  let coarse := match s.med.cmap.get? (g.lga / 16) with
    | some (.coarse _ _) => decide (g.kind ≠ 4 ∧ g.kind ≠ 5)
    | _ => false
  if coarse = false then assignRun s ns gear str [g]
  else
    let mv := s.med.moving.set g.lga g
    let unit := (List.range 16).filterMap fun i => (mv.get? (g.lga / 16 * 16 + i)).filter fun x => (mapOf s x.lga).map Prod.fst = x.source
    if unit.length < 16 then { s with med := { s.med with moving := mv } }
    else assignRun { s with med := { s.med with moving := mv.filter fun e => e.1 / 16 ≠ g.lga / 16 } } ns gear str unit

/-- A map page has come (R183): its entries are those of the page, and the lookups that waited for it go on. -/
def mapPageIn (s : Blk) (p : Nat) (body : Bytes) : Blk :=
  let s := loadMapPage (useCluster s) p (xtsDec s.cip.xts1 s.cip.xts2 2 p (body.take 4096))
  let mine := s.med.mapWait.filter fun e => e.1 = p
  forEach mine (fun s e => readLga s e.2.1 e.2.2.1 e.2.2.2) { s with med := { s.med with mapWait := s.med.mapWait.filter fun e => e.1 ≠ p } }

/-- The grain's codeword goes to where its read was made for. -/
def giveBody (s : Blk) (why : ReadFor) (pga : Nat) (ex : Option Expect) (body tag : Bytes) : Blk :=
  match why with
  | .valueGrain slot g => grainArrived s slot g body
  | .keyRecord slot pos => modCmd s slot fun c => { c with headIn := c.headIn.set pos (some body) }
  | .bucketPage b => cachePage s b (pageOf s b body)
  | .mapPage p => mapPageIn s p body
  | .xorOf _ _ | .rsOf _ _ | .rebuildOf _ _ _ => addSpan s why (some (spanOf body tag))
  | .anchor d cw => readAnchor s (placeOf s pga).spoke d cw body
  | .patrol _ _ | .dropped => s
  | .move lga gear str =>
    let t := gtagOf tag
    let kind := match ex with
      | some e => if e.anyKind then t.kind else e.kind
      | none => t.kind
    moveGrain s gear str { lga := lga, kind := kind, body := body, digest := t.digest, version := t.version, grain := t.grain,
                           source := some pga }

/-- The read and those that take its outcome (R221). -/
def withFollowers (s : Blk) (x : ReadCtx) : List ReadCtx := x :: x.followers.filterMap fun k => s.med.reads.get? k

/-- The end of the contexts. -/
def closeRead (s : Blk) (rd : Nat) (x : ReadCtx) : Blk :=
  { s with med := { s.med with reads := s.med.reads.filter fun e => e.1 ≠ rd ∧ ¬ x.followers.contains e.1 } }

/-- Deliver a codeword (R220). -/
def deliver (s : Blk) (rd : Nat) (x : ReadCtx) (body tag : Bytes) : Blk :=
  (withFollowers s x).foldl (fun s y => giveBody s y.why y.pga y.expect body tag) (closeRead s rd x)

/-- No stage is left. -/
def loseRead (s : Blk) (rd : Nat) (x : ReadCtx) : Blk :=
  (withFollowers s x).foldl (fun s y => giveLost s y.why ((y.expect.map (·.kind)).getD 0)) (closeRead s rd x)

/-- A stage has failed: the read, and those of its followers, that may enter the next one do; the others are at their end (R220,
R221, R246). -/
def enterStage (s : Blk) (rd : Nat) (x : ReadCtx) (stage : Nat) (start : Blk → ReadCtx → Blk) : Blk :=
  let can := fun (y : ReadCtx) => decide (stage ≤ lastStage y.why)
  let on := x.followers.filter fun k => (s.med.reads.get? k).all can
  let off := x.followers.filter fun k => ¬ (s.med.reads.get? k).all can
  let lost := off.filterMap s.med.reads.get?
  let s := { s with med := { s.med with reads := s.med.reads.filter fun e => ¬ off.contains e.1 } }
  let s := forEach lost (fun s y => giveLost s y.why ((y.expect.map (·.kind)).getD 0)) s
  if can x then start s { x with followers := on }
  else if on.isEmpty then loseRead s rd { x with followers := [] }
  else giveLost (start s { x with followers := on, why := .dropped, expect := none }) x.why ((x.expect.map (·.kind)).getD 0)

/-! ### Stages 1 and 2 (R218-R221) -/

/-- KIND, LGA, NAMESPACE and GRAIN are those the read expected (R219). -/
def tagExpected (ex : Option Expect) (tag : Bytes) : Bool :=
  match ex with
  | none => true
  | some e =>
    let t := gtagOf tag
    t.lga == e.lga && t.ns == e.ns
      && (if e.anyKind then decide (1 ≤ t.kind ∧ t.kind ≤ 3) else t.kind == e.kind && t.grain == e.grain)

/-- A bucket page must also be readable (R104). -/
def bodyGood (s : Blk) (why : ReadFor) (body : Bytes) : Bool :=
  match why with
  | .bucketPage b => pageGood b (pageOf s b body)
  | _ => true

/-- R219: 2 accepted, 1 converged but rejected, 0 not converged. -/
def judgeCw (s : Blk) (x : ReadCtx) (cw : Bytes) : Nat :=
  if cw.length ≠ 4640 ∨ ldpcValid cw = false then 0
  else
    let d := decodeCw x.pga cw
    if gtagCrcGood d.2 && tagExpected x.expect d.2 && bodyGood s x.why d.1 then 2 else 1

/-- Counts and event of a decode that failed R219. -/
def rejectCount (s : Blk) (n v : Nat) : Blk :=
  if v = 1 then raise (countSpoke s n 5 1) 0x8011 5 (domSpke n) (pl [(1, n)]) else s

/-- The reads of stage 2 are issued, in order (R220); a codeword that another read already escalates waits for that one's outcome
(R221). -/
def startSoft (s : Blk) (rd : Nat) (x : ReadCtx) : Blk :=
  match (escalating s x.pga).filter fun e => e.1 ≠ rd with
  | some e => follow s rd x e
  | none =>
    let w := placeOf s x.pga
    let p := profOf s w.spoke
    let codes := codesFor s w
    let st : Int := policy s 0x15
    let s := setRead s rd { x with stage := 2, outstanding := 4, soft := [] }
    ([(-2 : Int), -1, 1, 2].zip [1, 2, 3, 4]).foldl (fun s e => issueRead s x.pga (shiftCodes p codes (e.1 * st)) (.read rd e.2) true) s

/-- A block that a host read found in need goes to patrol (R200). -/
def isHostRead : ReadFor → Bool
  | .valueGrain _ _ | .keyRecord _ _ | .bucketPage _ | .mapPage _ | .dropped => true
  | .move _ _ _ | .patrol _ _ | .xorOf _ _ | .rsOf _ _ | .rebuildOf _ _ _ | .anchor _ _ => false

/-- A decoder takes a codeword, with the LLR table as it stands (R221). -/
def latchTable (s : Blk) (rd : Nat) : Blk :=
  match s.med.reads.get? rd with
  | some x => setRead s rd { x with table := (spokeOf s (placeOf s x.pga).spoke).llr.getD x.cell {} }
  | none => s

/-- A hard decoder is free again: the codeword that has waited longest takes it (R218). -/
def hardFree (s : Blk) (n : Nat) : Blk :=
  match (spokeOf s n).hardq with
  | [] => modSpoke s n fun x => { x with hardBusy := x.hardBusy - 1 }
  | k :: q => latchTable (modSpoke s n fun x => { x with hardq := q }) k

/-- The outcome of a hard decode but for patrol's: a word accepted is delivered, another one sends the read to stage 2 (R219, R220). -/
def hardOutcome (s : Blk) (rd : Nat) (x : ReadCtx) (cw : Bytes) (v : Nat) : Blk :=
  let n := (placeOf s x.pga).spoke
  if v = 2 then
    let bad := bitDiff x.hard cw
    let s := countHard (countSpoke s n 1 bad) n x.cell 37120 bad
    let s := if policy s 0x10 < bad then startTruing s x.pga bad cw else s
    let s := if policy s 0x11 < bad ∧ isHostRead x.why then patrolFirst s x.pga else s
    let d := decodeCw x.pga cw
    deliver s rd x d.1 d.2
  else enterStage (countSpoke s n 2 1) rd x 2 fun s x => startSoft s rd x

/-- A soft decoder is free again: the oldest codeword of the spoke's soft queue takes it (R221). -/
def softFree (s : Blk) (n : Nat) : Blk :=
  match (spokeOf s n).softq with
  | [] => modSpoke s n fun x => { x with softBusy := x.softBusy - 1 }
  | k :: q => latchTable (modSpoke s n fun x => { x with softq := q }) k

def softDone (rd : Nat) (cw : Bytes) (s : Blk) : Blk :=
  match s.med.reads.get? rd with
  | none => s
  | some x =>
    let n := (placeOf s x.pga).spoke
    if x.stage ≠ 2 ∨ x.outstanding ≠ 0 ∨ (spokeOf s n).softq.contains rd then s
    else
      let v := judgeCw s x cw
      let s := softFree (rejectCount (countSpoke s n 0 1) n v) n
      if v = 2 then
        let s := countSoft (countSpoke s n 3 1) n x.cell (x.hard :: x.soft) cw
        let s := startTruing s x.pga (bitDiff x.hard cw) cw
        let d := decodeCw x.pga cw
        deliver s rd x d.1 d.2
      else
        let s := raise (countSpoke s n 4 1) 0x8010 4 (domSpke n) (pl [(6, x.pga)])
        enterStage s rd x 3 fun s x => startXor s rd x

def execSoftDecodeDone (rd : Nat) (cw : Bytes) (s : State) : Host.Outcome State Fault Refusal := lift (softDone rd cw) s

/-- A read of a codeword has ended: `some b` with its bytes (R162), `none` without. Its decode takes a free decoder of the spoke, or
waits for one: of the twelve hard ones after stage 1, of the two soft ones after the reads of stage 2 (R218, R221). -/
def readReturned (s : Blk) (rd soft : Nat) (got : Option Bytes) : Blk :=
  match s.med.reads.get? rd with
  | none => s
  | some x =>
    let n := (placeOf s x.pga).spoke
    let b := got.getD []
    if soft = 0 then
      let x := { x with outstanding := 0, hard := b }
      match got with
      | some _ =>
        let s := setRead s rd x
        if (spokeOf s n).hardBusy < 12 then latchTable (modSpoke s n fun y => { y with hardBusy := y.hardBusy + 1 }) rd
        else modSpoke s n fun y => { y with hardq := y.hardq ++ [rd] }
      | none => enterStage (setRead s rd x) rd x 2 fun s x => startSoft s rd x
    else
      let x := { x with outstanding := x.outstanding - 1, soft := x.soft ++ [b] }
      let s := setRead s rd x
      if x.outstanding = 0 then
        if (spokeOf s n).softBusy < 2 then latchTable (modSpoke s n fun y => { y with softBusy := y.softBusy + 1 }) rd
        else modSpoke s n fun y => { y with softq := y.softq ++ [rd] }
      else s

/-! ### Stages 3 and 4 -/

/-- The tag of a rebuilt codeword (R243): the core, and the namespace of the stripe band for KIND 1 to 3. -/
def rebuiltTag (s : Blk) (pga : Nat) (core : Bytes) : Bytes :=
  let k := leAt core 29 1 / 16
  let ns := match stripeAt s pga with
    | some (b, _, _, _) => if 1 ≤ k ∧ k ≤ 3 then ((s.med.bands.get? b).map (·.ns)).getD 0 else 0
    | none => 0
  gtagBytes { digest := BitVec.ofNat 128 (leAt core 0 16), version := leAt core 16 8, lga := leAt core 24 5, kind := k,
              gear := leAt core 29 1 % 8, ns := ns, grain := leAt core 30 4 }

/-- A rebuilt span goes to where the read was made for; a bucket page must be readable (R104). -/
def giveSpan (s : Blk) (rd : Nat) (x : ReadCtx) (sp : Bytes) : Option Blk :=
  if bodyGood s x.why (sp.take 4112) then some (deliver s rd x (sp.take 4112) (rebuiltTag s x.pga (sp.drop 4112))) else none

/-- DIE_XOR_REBUILD: the reads of the group have returned; the XOR of the 16 spans is the lost one, or stage 4 follows (R246). -/
def xorRebuild (rd : Nat) (s : Blk) : Blk :=
  match s.med.reads.get? rd with
  | none => s
  | some x =>
    if x.stage ≠ 3 ∨ x.awaited ≠ 0 then s
    else
      let got := x.spans.vals.filterMap id
      let whole := decide (x.spans.length = 16) && decide (got.length = 16)
      match (if whole then giveSpan (patrolFirst s x.pga) rd x (got.foldl xorBytes (zeros 4146)) else none) with
      | some s => s
      | none => enterStage s rd x 4 fun s x => startRs s rd x

/-- Read `rd` is of a codeword of spoke `n`: the engine of that spoke rebuilds it and no other (R218, R246). -/
def rebuiltOn (n rd : Nat) (f : Blk → Blk) (s : Blk) : Blk :=
  if (s.med.reads.get? rd).any fun x => (placeOf s x.pga).spoke = n then f s else s

def execDieXorRebuild (n : Fin 16) (rd : Nat) (s : State) : Host.Outcome State Fault Refusal :=
  lift (rebuiltOn n.val rd (xorRebuild rd)) s

/-- RS_REBUILD: the members of the stripe have been read; the span is decoded, or the stripe is lost (R248, R270). -/
def rsRebuild (rd : Nat) (s : Blk) : Blk :=
  match s.med.reads.get? rd with
  | none => s
  | some x =>
    if x.stage ≠ 4 ∨ x.awaited ≠ 0 then s
    else
      match stripeAt s x.pga with
      | none => loseRead s rd x
      | some (b, u, n, _) =>
        match s.med.bands.get? b with
        | none => loseRead s rd x
        | some y =>
          let spans := (List.range (y.k + y.m)).map fun i => if i = n then none else (x.spans.getD i none).filter fun b => b.length = 4146
          match rsDecode y.k spans with
          | some data => (if n < y.k then giveSpan s rd x (data.getD n []) else none).getD (loseRead s rd x)
          | none => loseRead (loseStripe s b u ((List.range (y.k + y.m)).filter fun i => (spans.getD i none).isNone)) rd x

def execRsRebuild (n : Fin 16) (rd : Nat) (s : State) : Host.Outcome State Fault Refusal := lift (rebuiltOn n.val rd (rsRebuild rd)) s

end Sys2Proof.Machine
end

