-- ==== Sys2Proof/Machine/Index.lean ====
section
/-! DEFINITION. The in-flight key table and the key index: entries and masks (R110-R115), searches and stored-key verify
(R122, R123), the index lookup and full-key verification (R108, R109), retirement (R121), renormalisation (R116), bank
modes, sweeps and moves (R117-R119, R124), and bucket pages (R101, R102). -/

namespace Sys2Proof.Machine

/-! ### Entries (R110-R115) -/

/-- Compared word (R111). -/
def camWord (d : BitVec 128) (ns kind : Nat) : BitVec 160 :=
  BitVec.ofNat 160 (d.toNat * 2 ^ 32 + ns % 65536 * 2 ^ 16 + kind % 256 * 2 ^ 8 + 1)

def wordDigest (w : BitVec 160) : BitVec 128 := w.extractLsb' 32 128
def wordNs (w : BitVec 160) : Nat := (w.extractLsb' 16 16).toNat
def wordKind (w : BitVec 160) : Nat := (w.extractLsb' 8 8).toNat

/-- Masks M0 to M7 (R113): the word bits compared; VALID by every one. -/
def maskOf (s : Blk) : Nat → BitVec 160
  | 0 => BitVec.ofNat 160 (2 ^ 160 - 2 ^ 16 + 1)
  | 1 => BitVec.ofNat 160 ((2 ^ 30 - 1) * 2 ^ 32 + 1)
  | 2 => BitVec.ofNat 160 ((2 ^ 16 - 1) * 2 ^ 16 + 1)
  | 3 => BitVec.ofNat 160 ((2 ^ 24 - 1) * 2 ^ 8 + 1)
  | 4 => 1
  | n => s.idx.masks.getD n 0 ||| 1

def maskHit (m key w : BitVec 160) : Bool := (w ^^^ key) &&& m == 0

def bankOf (s : Blk) (b : Nat) : Bank := s.idx.banks.getD b {}
def modBank (s : Blk) (b : Nat) (f : Bank → Bank) : Blk := { s with idx := { s.idx with banks := s.idx.banks.upd b {} f } }
def setCam (s : Blk) (ea : Nat) (e : CamEntry) : Blk := { s with idx := { s.idx with cam := s.idx.cam.set ea e } }

/-- A copy of the entry's word matches (R110). -/
def entryHit (s : Blk) (ea : Nat) (e : CamEntry) (m key : BitVec 160) : Bool :=
  maskHit m key e.word || ((bankOf s (ea / 8192)).wide && maskHit m key e.copy)

/-- Matching entries of banks in service, without those excluded (R113, R114, R124). -/
def camMatches (s : Blk) (mask : Nat) (key : BitVec 160) (excl : List Nat) : List (Nat × CamEntry) :=
  s.idx.cam.filter fun p => !(bankOf s (p.1 / 8192)).out && !excl.contains p.1 && entryHit s p.1 p.2 (maskOf s mask) key

/-- The match-out of the cascade: the highest RANK; a tie goes to the lower entry address (R115). -/
def bestOf (l : List (Nat × CamEntry)) : Option (Nat × CamEntry) :=
  l.foldl (fun a p => match a with
    | none => some p
    | some q => if q.2.rank < p.2.rank then some p else some q) none

def digestOf (s : Blk) (ns : Nat) (key : Bytes) : BitVec 128 := sipHash128 (((nsOf s ns).map (·.sipKey)).getD []) key

/-- The result of a search (R114): the match count, and the best match with its address and RANK; up to four entries are
excluded. -/
def camSearch (s : Blk) (mask : Nat) (key : BitVec 160) (excl : List Nat) : Nat × Option (Nat × CamEntry) :=
  let l := camMatches s mask key (excl.take 4)
  (l.length, bestOf l)

/-- The match count of a search (R113): M2 for a namespace, M4 for all. -/
def camCount (s : Blk) (mask : Nat) (key : BitVec 160) : Nat := (camSearch s mask key []).1

/-- In-flight writes of a namespace (M2). -/
def nsInFlight (s : Blk) (ns : Nat) : Nat := camCount s 2 (camWord 0 ns 0)

/-! ### Repairs (R117, R118, R122-R124) -/

/-- Whether a stored word differs from its SHADOW. -/
def entryBad (s : Blk) (ea : Nat) (e : CamEntry) : Bool :=
  decide (e.word ≠ e.shadow) || ((bankOf s (ea / 8192)).wide && decide (e.copy ≠ e.shadow))

/-- Rewrite entries from their SHADOW, with event 0x5002 naming them. -/
def repairEntries (s : Blk) (eas : List Nat) : Blk :=
  if eas.isEmpty then s
  else
    let cam := s.idx.cam.mapVal fun ea e => if eas.contains ea then { e with word := e.shadow, copy := e.shadow } else e
    raise { s with idx := { s.idx with cam := cam } } 0x5002 5 (domSrch 0) (pl ((1, eas.length) :: (eas.take 13).map fun a => (2, a)))

/-! ### Free entries (R117, R119, R125) -/

def bankSize (b : Bank) : Nat := if b.wide then 4096 else 8192

/-- Entries held for a write that waits (R120). -/
def reservedEntries (s : Blk) : List Nat :=
  s.cmd.slots.vals.filterMap fun c => if c.phase = .reserving then c.entry else none

/-- The bank takes inserts: in service, neither draining nor being reconfigured (R117, R119, R124). -/
def bankTakes (x : Bank) : Bool := !x.out && x.drain.isNone && x.reconf.isNone

/-- The lowest free entry of the lowest-numbered bank that takes inserts (R117). -/
def freeEntry (s : Blk) : Option Nat :=
  (List.range 8).findSome? fun b =>
    let x := bankOf s b
    if bankTakes x = false then none
    else
      let used := ((s.idx.cam.keys ++ reservedEntries s).filter fun a => a / 8192 = b).mergeSort (fun a b => decide (a ≤ b))
      let free := used.foldl (fun n a => if a = b * 8192 + n then n + 1 else n) 0
      if free < bankSize x then some (b * 8192 + free) else none

/-- A reserved entry may still take its insert: its bank takes inserts, and nothing has moved into it (R119, R124). -/
def entryUsable (s : Blk) (ea : Nat) : Bool :=
  let x := bankOf s (ea / 8192)
  bankTakes x && decide (ea % 8192 < bankSize x) && !s.idx.cam.has ea

/-- A bank out of service still holds live entries: their moves come before any waiting write (R124, R125). -/
def movesPending (s : Blk) : Bool := s.idx.cam.keys.any fun a => (bankOf s (a / 8192)).out

/-- The free entry that a write may reserve: none while a move of R124 is still to come. -/
def writeEntry (s : Blk) : Option Nat := if movesPending s then none else freeEntry s

/-- Both edges of 0x5004, and CAM_FULL (R125): the table is full while no bank that takes inserts has a free entry. -/
def judgeFull (s : Blk) : Blk :=
  match freeEntry s, s.idx.full with
  | none, false => raise { s with idx := { s.idx with full := true, camFull := s.idx.camFull + 1 } } 0x5004 3 (domSrch 0) (pl [(1, 1)])
  | some _, true => raise { s with idx := { s.idx with full := false } } 0x5004 3 (domSrch 0) (pl [(1, 0)])
  | _, _ => s

/-- A failed compare test takes the bank out of service (R124). -/
def bankOut (s : Blk) (b : Nat) : Blk :=
  judgeFull (raise (modBank s b fun x => { x with out := true }) 0x5003 6 (domSrch b) (pl [(1, b)]))

/-! ### Serving a value (R20, R91, R109, R122) -/

/-- NOT_FOUND with VERSION 0. -/
def notFound (s : Blk) (slot : Nat) : Blk := failCmd s slot stNotFound 0 0

/-- The value descriptor is found: GET_VERSION answers; a GET is charged its value bytes (R91). A value too long for the
buffer of a ring GET is not read (R326). -/
def descriptorFound (s : Blk) (slot version len : Nat) : Blk :=
  match cmdOf s slot with
  | none => s
  | some c =>
    let s := setCmd s slot { c with version := version, foundLen := len }
    if c.opcode = 0x02 then failCmd (streamBody s slot (if c.ring.isSome then [] else beBytes 8 len)) slot stOk 0 version
    else if c.ring.isSome ∧ c.head.valueLen < len then failCmd s slot stBadRequest 0 version
    else charge s c.tenant c.head.ns len

/-- The key record's padded length in bytes (R107, R137). -/
def keyRecLen (keyLen : Nat) : Nat := (32 + (keyLen + 7) / 8 * 8 + 15) / 16 * 16

/-- The extents of a staged single value. -/
def stageExtent (x : Stage) : Extent :=
  { kind := 1, iv := x.sealIv, gen := x.sealGen, tagv := x.sealTag, first := 0, grains := x.count, kr := keyRecLen x.key.length / 16,
    keyCt := x.keyCt, valueLen := x.valueLen, bind := x.version, lga := x.lga + 1 }

/-- Runs of grains (first, count) without the grains of one interval. -/
def cutRun (g n : Nat) (l : List (Nat × Nat)) : List (Nat × Nat) :=
  l.flatMap fun r =>
    let lo := max r.1 (g + n)
    [(r.1, min (r.1 + r.2) g - r.1), (lo, r.1 + r.2 - lo)].filter fun x => x.2 ≠ 0

/-- The grains that later parts have left of a part of `n` grains from grain `g` (R76): the later commit point wins. -/
def wonRuns (g n : Nat) (later : List (Nat × Nat)) : List (Nat × Nat) := later.foldl (fun l q => cutRun q.1 q.2 l) [(g, n)]

/-- The extents of a part, from its entry of the part table (R176, R137): one for each run of grains that the later entries
leave it; what is left of a part keeps the counter blocks and the BIND of the whole. -/
def partExtents (total uid dataLga : Nat) (e : Bytes) (later : List Bytes) : List Extent :=
  let g := leAt e 0 4
  let n := leAt e 4 4
  (wonRuns g n (later.map fun x => (leAt x 0 4, leAt x 4 4))).map fun r =>
    { kind := 2, iv := slice e 8 12, gen := leAt e 20 4, tagv := slice e 24 16, first := r.1, grains := r.2, kr := 257 * (r.1 - g)
      valueLen := total, bind := uid * 2 ^ 32 + g, lga := dataLga + r.1, torn := decide (r ≠ (g, n)) }

/-- The extents of all parts; the entries of the table stand in the order of their commit points. -/
def tableExtents (total uid dataLga : Nat) : List Bytes → List Extent
  | [] => []
  | e :: es => partExtents total uid dataLga e es ++ tableExtents total uid dataLga es

/-- The extents of a value from its head codeword and part table (R137, R176). -/
def headExtents (sl : BSlot) (head : Bytes) (tableBytes : Bytes) : List Extent :=
  let kr := keyRecLen sl.keyLen
  let keyCt := slice head 48 kr
  let dataLga := leAt head 32 8
  let x : Extent := { iv := slice head 0 12, gen := leAt head 12 4, tagv := slice head 16 16, kr := kr / 16, keyCt := keyCt,
                         valueLen := sl.valueLen, bind := sl.version }
  if leAt head 40 4 = 0 then [{ x with kind := 1, grains := locGrains sl.loc, lga := dataLga }]
  else
    { x with kind := 3, partTable := tableBytes } ::
      (tableExtents sl.valueLen (leAt head 44 4) dataLga (blocksOf 40 tableBytes)).mergeSort fun a b => decide (a.first ≤ b.first)

/-- A GET begins to stream: the key records and the grains of its extents set out, the grains as requests to the spoke
media engines, or from staging (R20, R143). -/
def beginStream (s : Blk) (slot : Nat) (es : List Extent) (stage : Option (Nat × Stage)) : Blk :=
  match cmdOf s slot with
  | none => s
  | some c => if c.phase = .done then s else
    let gs := es.flatMap fun e => (List.range e.grains).map fun i => ({ grain := e.first + i } : GrainSt)
    let c := { c with extents := es, grains := gs, phase := .streaming, stage := stage.map Prod.fst }
    let s := setCmd s slot c
    let r := cmdRt c
    let s := sendCells s (es.flatMap fun e => if e.kind = 2 then [] else keyCells { r with next := 0x5, cf := 1, grain := e.first } e.keyCt)
    gs.foldl (fun s g => match stage with
      | some x => grainArrived s slot g.grain (x.2.grains.getD g.grain [])
      | none => sendCells s [cellOf { r with next := 0x7, kind := 0x0, grain := g.grain } []]) s

/-- Serve a verified in-flight match by its KIND, from SHADOW (R122). A mirrored write that the partner does not hold yet
makes the GET wait (R281); so does a staged value still in the cipher cluster. -/
def serveStage (s : Blk) (slot ea : Nat) (e : CamEntry) : Blk :=
  match s.idx.stages.get? e.stage, cmdOf s slot with
  | some x, some c =>
    if mirrorOk s x = false ∨ (x.encrypted = false ∧ c.opcode = 0x01 ∧ wordKind e.shadow ≠ 2) then
      setCmd s slot { c with entry := some ea, phase := .searching [] false }
    else if wordKind e.shadow = 2 then notFound s slot
    else if x.lost ∧ c.opcode = 0x01 then failCmd s slot stValueLost 0 x.version
    else
      let s := descriptorFound (setCmd s slot { c with entry := some ea }) slot x.version x.valueLen
      if c.opcode = 0x02 ∨ (cmdOf s slot).all (fun c => c.phase = .done) then s
      else if x.medium ∧ x.kind = 1 ∧ x.grains.isEmpty then beginStream s slot [stageExtent x] none
      else if x.kind = 3 then
        let head := headBody (sealBytes x.sealIv x.sealGen x.sealTag) x.dataLga (x.partTable.length / 40)
          x.upload x.keyCt x.partTable
        beginStream s slot (headExtents (slotOfStage x) head x.partTable) none
      else
        let s := modStage s e.stage fun y => { y with readers := y.readers + 1 }
        beginStream s slot [stageExtent x] (some (e.stage, x))
  | _, _ => s

/-! ### Searches (R122, R123) -/

/-- The staging record of an entry is for this namespace and this key. -/
def stageIs (s : Blk) (e : CamEntry) (c : Cmd) : Bool :=
  match s.idx.stages.get? e.stage with
  | some x => x.ns == c.head.ns && x.key == c.key
  | none => false

/-- Stored-key verify (R122). -/
def verifyEntry (s : Blk) (ea : Nat) (e : CamEntry) (key : BitVec 160) (c : Cmd) : Bool :=
  let m := maskOf s 0
  let wide := (bankOf s (ea / 8192)).wide
  ((maskHit m key e.word && decide (e.word = e.shadow)) || (wide && maskHit m key e.copy && decide (e.copy = e.shadow)))
    && stageIs s e c

/-- Event of a false hit (R122). -/
def raiseFalseHit (s : Blk) (ea : Nat) : Blk := raise s 0x5001 5 (domSrch (ea / 8192)) (pl [(2, ea)])

/-- Rewrite the copy of a verified wide entry that differs from its SHADOW (R122). -/
def repairHit (s : Blk) (ea : Nat) (e : CamEntry) : Blk := if entryBad s ea e then repairEntries s [ea] else s

def setPhase (s : Blk) (slot : Nat) (p : Phase) : Blk := modCmd s slot fun c => { c with phase := p }

/-- The search word of a command's key. -/
def searchWord (s : Blk) (c : Cmd) : BitVec 160 := camWord (digestOf s c.head.ns c.key) c.head.ns 0

/-- PENDING of the key's home bucket. -/
def pendingOf (s : Blk) (c : Cmd) : Nat := (dirOf s (homeOf (digestOf s c.head.ns c.key))).pending

/-- A genuine miss: the command goes to the key index engine (R20 step 5, R108). -/
def toIndex (s : Blk) (slot : Nat) : Blk :=
  match cmdOf s slot with
  | some c => handOn s slot c 0x4
  | none => s

/-- A miss: PENDING 0 goes to the index, else a SETTLED search, else the shadow check (R123). -/
def searchMiss (s : Blk) (slot : Nat) (c : Cmd) (excl : List Nat) (settled : Bool) : Blk :=
  if pendingOf s c = 0 then toIndex s slot
  else if settled then
    setPhase { s with idx := { s.idx with shadowq := s.idx.shadowq ++ [slot] } } slot (.shadow excl s.med.wseq)
  else setPhase s slot (.searching excl true)

/-- A false hit: the entry is excluded; after four the lookup goes on as a miss (R122). -/
def falseHit (s : Blk) (slot ea : Nat) (c : Cmd) (excl : List Nat) (settled : Bool) : Blk :=
  let s := raiseFalseHit s ea
  if 3 ≤ excl.length then searchMiss s slot c ((excl ++ [ea]).take 4) settled else setPhase s slot (.searching (excl ++ [ea]) settled)

def searchResult (slot : Nat) (s : Blk) : Blk :=
  match cmdOf s slot with
  | none => s
  | some c =>
    match c.phase with
    | .searching excl settled =>
      match (camSearch s 0 (searchWord s c) excl).2 with
      | none => searchMiss s slot c excl settled
      | some (ea, e) =>
        if verifyEntry s ea e (searchWord s c) c then serveStage (repairHit s ea e) slot ea e
        else falseHit s slot ea c excl settled
    | _ => s

def execInflightSearchResult (slot : Nat) (s : State) : Host.Outcome State Fault Refusal := lift (searchResult slot) s

/-- Candidates of the shadow check in RANK order, up to the four exclusions of R122: the first that passes the stored-key
verify. An entry of a bank out of service is verified by its SHADOW, which is what matched. -/
def firstVerified : Nat → Blk → Cmd → List Nat → List (Nat × CamEntry) → Blk × Option (Nat × CamEntry)
  | 0, s, _, _, _ => (s, none)
  | fuel + 1, s, c, excl, cs =>
    if 4 ≤ excl.length then (s, none)
    else
      match bestOf (cs.filter fun p => !excl.contains p.1) with
      | none => (s, none)
      | some (ea, e) =>
        if maskHit (maskOf s 0) (searchWord s c) e.shadow && stageIs s e c then (s, some (ea, e))
        else firstVerified fuel (raiseFalseHit s ea) c (excl ++ [ea]) cs

/-- The compare test of a bank that R123 asks for, with the outcome the command carries (R124). -/
def testBank (pass : Bool) (s : Blk) (b : Nat) : Blk := if pass || (bankOf s b).out then s else bankOut s b

/-- The shadow check of R123 for a lookup whose SETTLED search came at write sequence `since`: the entries of the bucket are
repaired from their SHADOW, the table is searched once more when any was, a bank that held a live word and did not match it is
tested at once, and the best candidate that passes verify is the answer. -/
def shadowScan (s : Blk) (c : Cmd) (excl : List Nat) (since : Nat) (pass : Bool) : Blk × Option (Nat × CamEntry) :=
  let key := searchWord s c
  let m := maskOf s 0
  let mine := s.idx.cam.filter fun p => homeOf (wordDigest p.2.shadow) == homeOf (wordDigest key)
  let bad := (mine.filter fun p => entryBad s p.1 p.2).map Prod.fst
  let s := repairEntries s bad
  let left := s.idx.cam.filter fun p => !excl.contains p.1 && maskHit m key p.2.shadow
  let outs := left.filter fun p => (bankOf s (p.1 / 8192)).out
  let held := left.filter fun p => !(bankOf s (p.1 / 8192)).out && decide (p.2.word = p.2.shadow)
  let cands := outs ++ (if bad.isEmpty then held else (camSearch s 0 key excl).2.toList)
  let tests := if bad.isEmpty then ((held.filter fun p => decide (p.2.version < since)).map fun p => p.1 / 8192).eraseDups else []
  firstVerified 5 (tests.foldl (testBank pass) s) c excl cands

/-- R123: the shadow check of the lookup at the head of the queue. When no candidate passes, the miss is genuine. -/
def shadowCheckFn (slot : Nat) (pass : Bool) (s : Blk) : Blk :=
  match cmdOf s slot with
  | none => s
  | some c =>
    match c.phase with
    | .shadow excl since =>
      if s.idx.shadowq.head? ≠ some slot then s
      else
        let r := shadowScan { s with idx := { s.idx with shadowq := s.idx.shadowq.drop 1 } } c excl since pass
        match r.2 with
        | some (ea, e) => serveStage r.1 slot ea e
        | none => toIndex r.1 slot
    | _ => s

def execShadowCheck (at_ : Nat × Bool) (s : State) : Host.Outcome State Fault Refusal := lift (shadowCheckFn at_.1 at_.2) s

/-- The searches of a write under its condition lock, in one step (R120): M0 with stored-key verify and up to four exclusions;
on a miss with PENDING above 0 the shadow check, whose SETTLED search would find the same. -/
def lockedSearch (s : Blk) (c : Cmd) (pass : Bool) : Nat → List Nat → Blk × Option (Nat × CamEntry)
  | 0, excl => if pendingOf s c = 0 then (s, none) else shadowScan s c excl s.med.wseq pass
  | fuel + 1, excl =>
    match (camSearch s 0 (searchWord s c) excl).2 with
    | none => lockedSearch s c pass 0 excl
    | some (ea, e) =>
      if verifyEntry s ea e (searchWord s c) c then (repairHit s ea e, some (ea, e))
      else lockedSearch (raiseFalseHit s ea) c pass fuel (excl ++ [ea])

/-! ### The index (R108, R109) -/

/-- Slots whose fingerprint matches, in bucket order and slot order (R108). -/
def fpMatches (s : Blk) (d : BitVec 128) : List (Nat × Nat) :=
  let b := homeOf d
  (List.range ((dirOf s b).spill + 1)).flatMap fun j =>
    let q := (b + j) % 2 ^ 30
    ((dirOf s q).fp.filter fun e => e.2 = fingerprint d).map fun e => (q, e.1)

/-- Candidates whose slot holds the digest and the namespace. -/
def slotMatches (s : Blk) (ns : Nat) (d : BitVec 128) : List (Nat × Nat) :=
  (fpMatches s d).filter fun e => (((dirOf s e.1).slots.get? e.2).any fun sl => sl.digest == d && sl.ns == ns)

/-- Start reading the head grain of a candidate, into place `pos` of the command. -/
def readHead (s : Blk) (slot pos : Nat) (sl : BSlot) : Blk :=
  readLga s (locHead sl.loc) (some { kind := 2, lga := locHead sl.loc, ns := sl.ns, grain := locGrains sl.loc }) (.keyRecord slot pos)

/-- Go on to the next candidate, or end with NOT_FOUND (R109). -/
def nextCandidate (s : Blk) (slot : Nat) (cands : List (Nat × Nat)) : Blk :=
  match cands with
  | [] => notFound s slot
  | (b, i) :: _ =>
    match (dirOf s b).slots.get? i, cmdOf s slot with
    | some sl, some c =>
      if sl.lost ∧ c.opcode = 0x01 then failCmd s slot stValueLost 0 sl.version
      else readHead (modCmd (setPhase s slot (.verifying cands)) slot fun c => { c with headIn := [] }) slot 0 sl
    | _, _ => setPhase s slot .lookup

def readingPage (s : Blk) (b : Nat) : Bool := s.med.reads.vals.any fun x => decide (x.why = .bucketPage b)

/-- The pages of the candidate buckets are read, from the cache or from flash (R101, R108). -/
def lookupFn (slot : Nat) (s : Blk) : Blk :=
  match cmdOf s slot with
  | none => s
  | some c =>
    if c.phase ≠ .lookup then s
    else
      let d := digestOf s c.head.ns c.key
      let fps := fpMatches s d
      let away := ((fps.map Prod.fst).eraseDups).filter fun b => !(dirOf s b).cached && decide ((dirOf s b).pageLoc ≠ 0)
      if fps.isEmpty then notFound s slot
      else if away.isEmpty then
        nextCandidate (((fps.map Prod.fst).eraseDups).foldl touchPage s) slot (slotMatches s c.head.ns d)
      else forEach (away.filter fun b => !readingPage s b) (fun s b =>
        startRead s (dirOf s b).pageLoc (some { kind := 4, lga := b }) (.bucketPage b)) s

def execIndexLookup (slot : Nat) (s : State) : Host.Outcome State Fault Refusal := lift (lookupFn slot) s

/-! ### Key records (R107-R109) -/

/-- R108's comparison of a key record in clear. -/
def keyRecordOk (c : Cmd) (sl : BSlot) (p : Bytes) : Bool :=
  decide (leAt p 0 2 = c.head.ns) && decide (leAt p 2 2 = c.key.length) && decide (leAt p 8 8 = sl.version)
    && decide (slice p 32 c.key.length = c.key)

/-- The key record in clear, from a head body. -/
def clearKeyRecord (s : Blk) (tenant : Nat) (sl : BSlot) (head : Bytes) : Option Bytes :=
  (dataKey s tenant (leAt head 12 4)).map fun k => ctrXor k (slice head 0 12) 0 (slice head 48 (keyRecLen sl.keyLen))

/-- Bytes of the part table, from the head body and the grains after it; none while one is missing. -/
def partTableOf (sl : BSlot) (ins : Tbl (Option Bytes)) (head : Bytes) : Option Bytes :=
  let n := leAt head 40 4 * 40
  let first := slice (head.drop (48 + keyRecLen sl.keyLen)) 0 (min n (4112 - 48 - keyRecLen sl.keyLen))
  let more := (n - first.length + 4111) / 4112
  let rest := (List.range more).map fun i => (ins.get? (i + 1)).join
  if rest.all (·.isSome) then some (slice (first ++ (rest.filterMap id).flatten) 0 n) else none

/-- Grains of the part table after the head grain. -/
def tableGrains (sl : BSlot) (head : Bytes) : Nat := (leAt head 40 4 * 40 + 48 + keyRecLen sl.keyLen - 4112 + 4111) / 4112

/-- The slot is the value descriptor (R108): a GET streams its extents, once the whole part table is in. -/
def verified (s : Blk) (slot : Nat) (c : Cmd) (b i : Nat) (sl : BSlot) (head : Bytes) : Blk :=
  let more := tableGrains sl head
  if c.opcode = 0x02 then descriptorFound (setCmd s slot { c with desc := some (b, i) }) slot sl.version sl.valueLen
  else
    match partTableOf sl c.headIn head with
    | some t => beginStream (descriptorFound (setCmd s slot { c with desc := some (b, i) }) slot sl.version sl.valueLen) slot (headExtents sl head t) none
    | none =>
      if ((List.range more).any fun k => c.headIn.get? (k + 1) = some none) then failCmd (markLost s b i) slot stValueLost 0 sl.version
      else
        forEach ((List.range more).filter fun k => !(c.headIn.has (k + 1)) &&
            !(s.med.reads.vals.any fun x => decide (x.why = .keyRecord slot (k + 1)))) (fun s k =>
          let lga := locHead sl.loc + 1 + k
          readLga s lga (some { kind := 3, lga := lga, ns := sl.ns }) (.keyRecord slot (k + 1))) s

/-- A candidate's key record has arrived (R108, R109). -/
def keyVerify (slot : Nat) (s : Blk) : Blk :=
  match cmdOf s slot with
  | none => s
  | some c =>
    match c.phase with
    | .verifying ((b, i) :: rest) =>
      match (dirOf s b).slots.get? i, c.headIn.get? 0 with
      | none, _ => setPhase s slot .lookup
      | _, none => s
      | some sl, some none => failCmd (markLost s b i) slot stValueLost 0 sl.version
      | some sl, some (some head) =>
        match clearKeyRecord s c.tenant sl head with
        | some p =>
          if keyRecordOk c sl p then verified s slot c b i sl head
          else nextCandidate (raise s 0x4001 4 domIdx (pl [(4, b), (1, i)])) slot rest
        | none =>
          let s := if ownerOk s c.tenant c.tenant then s else isolationEvent s domIdx c.tenant c.tenant
          failCmd s slot stDeviceFault 0 0
    | _ => s

def execKeyRecordVerify (slot : Nat) (s : State) : Host.Outcome State Fault Refusal := lift (keyVerify slot) s

/-! ### Waiting writes (R125) -/

/-- Writes that wait are served oldest first, after the moves of R124 (R125). -/
def writeResume (s : Blk) : Blk :=
  match writeEntry s, s.idx.waiters with
  | some ea, w :: ws => judgeFull (modCmd { s with idx := { s.idx with waiters := ws } } w fun c => { c with entry := some ea })
  | _, _ => judgeFull s

def execCamWriteResume (s : State) : Host.Outcome State Fault Refusal := lift writeResume s

/-! ### Bank modes (R119) -/

/-- A job that named the bank is done with it; it ends when no bank is left (R119, R313). -/
def camJobs (s : Blk) (p : Nat → JobKind → Option (Nat × Nat × Nat × Bool)) : Blk :=
  forEach s.hub.jobs (fun s e =>
    match p e.1 e.2.kind with
    | some (mask, left, taken, wide) =>
      let k := JobKind.camMode mask wide left taken
      let s := { s with hub := { s.hub with jobs := s.hub.jobs.upd e.1 {} fun j => { j with kind := k } } }
      if left = 0 then endJob s e.1 2 stOk taken else s
    | none => s) s

/-- Order a mode for a bank: it drains, replaces an earlier order, or stops draining; a bank being reconfigured finishes
first (R119). A write that holds a reserved entry of the bank gives it back (`entryUsable`). -/
def orderMode (s : Blk) (b : Nat) (wide : Bool) : Blk :=
  let x := bankOf s b
  judgeFull <| if x.reconf.isSome then modBank s b fun y => { y with after := some wide }
  else if x.wide = wide then modBank s b fun y => { y with drain := none }
  else if s.idx.cam.keys.any (fun a => a / 8192 = b) then modBank s b fun y => { y with drain := some wide }
  else modBank s b fun y => { y with drain := none, reconf := some wide }

/-- When the last entry of a draining bank leaves, its mode change begins (R119). -/
def bankEmptied (s : Blk) (b : Nat) : Blk :=
  let x := bankOf s b
  match x.drain with
  | some w => if (s.idx.cam.keys.any fun a => a / 8192 = b) then s else modBank s b fun y => { y with drain := none, reconf := some w }
  | none => s

def bankReconfigured (b : Nat) (s : Blk) : Blk :=
  let x := bankOf s b
  match x.reconf with
  | none => s
  | some w =>
    let s := raise (modBank s b fun y => { y with wide := w, reconf := none, after := none }) 0x5005 2 (domSrch b) (pl [(1, b), (1, boolNat w)])
    let s := camJobs (judgeFull s) fun _ k => match k with
      | .camMode mask wide left taken => if left.testBit b ∧ wide = w then some (mask, left - 2 ^ b, taken, wide) else none
      | _ => none
    match x.after with
    | some v => orderMode s b v
    | none => s

def execCamBankReconfigured (bank : Fin 8) (s : State) : Host.Outcome State Fault Refusal := lift (bankReconfigured bank.val) s

/-! ### Retirement (R121, R178) -/

/-- Absorb a write into its bucket page (R121): an overwritten value's extent dies; a DELETE frees its slot only when no
newer entry for the key is live. -/
def absorb (s : Blk) (x : Stage) (newer : Bool) : Blk :=
  let old := (dirOf s x.bslot.1).slots.get? x.bslot.2
  let s := match old with
    | some sl => killExtent s sl
    | none => s
  if x.kind = 2 then
    if newer then modDir s x.bslot.1 fun d => { d with slots := d.slots.del x.bslot.2, dirty := true }
    else clearSlot s x.bslot.1 x.bslot.2
  else applySlot s x.bslot.1 x.bslot.2 (slotOfStage x) x.home

/-- The bucket page of a write must be in the cache before a delta is absorbed. -/
def pageReady (s : Blk) (b : Nat) : Bool := (dirOf s b).cached || decide ((dirOf s b).pageLoc = 0)

def retireFn (ea : Nat) (s : Blk) : Blk :=
  match s.idx.cam.get? ea with
  | none => s
  | some e =>
    match s.idx.stages.get? e.stage with
    | none => s
    | some x =>
      let same := s.idx.cam.filter fun p => p.1 ≠ ea ∧ wordDigest p.2.shadow = wordDigest e.shadow ∧ wordNs p.2.shadow = wordNs e.shadow
      if x.complete = false ∨ same.any (fun p => decide (p.2.rank < e.rank)) then s
      else if pageReady s x.bslot.1 = false then
        if readingPage s x.bslot.1 then s
        else startRead s (dirOf s x.bslot.1).pageLoc (some { kind := 4, lga := x.bslot.1 }) (.bucketPage x.bslot.1)
      else
        let s := absorb s x (!same.isEmpty)
        let s := { s with idx := { s.idx with cam := s.idx.cam.del ea } }
        let s := modDir s x.home fun d => { d with pending := d.pending - 1 }
        let s := judgeFull (bankEmptied s (ea / 8192))
        freeStage (modStage s e.stage fun y => { y with retired := true }) e.stage

def execInflightRetire (ea : Nat) (s : State) : Host.Outcome State Fault Refusal := lift (retireFn ea) s

/-! ### Renormalisation, sweeps and moves (R116, R124) -/

/-- The walk visits the oldest entry not yet visited: the lowest RANK not below the next new one. At the tail NEXT follows
(R116). -/
def renormStep (s : Blk) : Blk :=
  match s.idx.renorm with
  | none => if 0xC00000 ≤ s.idx.next then { s with idx := { s.idx with renorm := some 0 } } else s
  | some i =>
    let todo := s.idx.cam.filter fun p => i ≤ p.2.rank
    let low := todo.foldl (fun a p => match a with
      | none => some p
      | some q => if p.2.rank < q.2.rank then some p else some q) none
    match low with
    | none => { s with idx := { s.idx with next := i, renorm := none, renormHeld := false } }
    | some (ea, e) =>
      let s := setCam s ea { e with rank := i }
      if todo.length = 1 then { s with idx := { s.idx with next := i + 1, renorm := none, renormHeld := false } }
      else { s with idx := { s.idx with renorm := some (i + 1) } }

def execRenormaliseStep (s : State) : Host.Outcome State Fault Refusal := lift renormStep s

/-- R124: the live words of a bank are compared and repaired, and its compare logic is tested. -/
def camSweepFn (b : Nat) (pass : Bool) (s : Blk) : Blk :=
  let bad := (s.idx.cam.filter fun p => p.1 / 8192 = b ∧ entryBad s p.1 p.2).map Prod.fst
  testBank pass (repairEntries s bad) b

def execCamSweep (bank : Fin 8) (comparePass : Bool) (s : State) : Host.Outcome State Fault Refusal :=
  lift (camSweepFn bank.val comparePass) s

/-- R124: the lowest live entry of a bank out of service moves to a free entry, ahead of any waiting insert. -/
def bankMove (b : Nat) (s : Blk) : Blk :=
  if (bankOf s b).out = false then s
  else
    match s.idx.cam.find? (fun p => p.1 / 8192 = b), freeEntry s with
    | some (ea, e), some dest =>
      let e := { e with word := e.shadow, copy := e.shadow }
      let s := { s with idx := { s.idx with cam := (s.idx.cam.del ea).set dest e } }
      let s := { s with cmd := { s.cmd with slots := s.cmd.slots.mapVal fun _ c => if c.entry = some ea then { c with entry := some dest } else c } }
      judgeFull (bankEmptied s b)
    | _, _ => s

def execBankEntryMove (bank : Fin 8) (s : State) : Host.Outcome State Fault Refusal := lift (bankMove bank.val) s

/-! ### Bucket pages on flash (R100-R102) -/

/-- A write in flight has taken a slot of bucket `q` for a key whose home is bucket `b` (R105). -/
def takenFor (s : Blk) (b q : Nat) : Bool :=
  s.idx.stages.vals.any fun x => x.home == b && x.bslot.1 == q && x.kind < 4 && !x.retired

/-- The least SPILL that the pages in the cache and the writes in flight allow (R100, R105). -/
def trueSpill (s : Blk) (b : Nat) : Nat :=
  ((List.range ((dirOf s b).spill + 1)).filter fun j =>
    let q := (b + j) % 2 ^ 30
    let d := dirOf s q
    j ≠ 0 && (!d.cached || takenFor s b q || d.slots.vals.any fun sl => homeOf sl.digest == b)).foldl max 0

/-- R101: write a DIRTY page; PAGE_LOC changes when the write is on the medium and journalled. -/
def writebackFn (b : Nat) (s : Blk) : Blk :=
  let d := dirOf s b
  if d.cached = false ∨ d.dirty = false ∨ pageBusy s b then s
  else
    let r := takeWseq s
    let s := r.2
    let d := { d with pageSeq := r.1, dirty := false, spill := trueSpill s b }
    let s := setDir s b d
    let s := useCluster s
    let body := xtsEnc s.cip.xts1 s.cip.xts2 1 b (bucketPage b d) ++ zeros 16
    let s := { s with med := { s.med with pages := s.med.pages.set b d.slots } }
    assign s sysNs 5 hostStream { lga := b, kind := 4, body := body, source := some d.pageLoc }

def execBucketPageWriteback (b : Nat) (s : State) : Host.Outcome State Fault Refusal := lift (writebackFn b) s

end Sys2Proof.Machine
end

