-- ==== Sys2Proof/Machine/Transport.lean ====
section
/-! DEFINITION. Cloex Key Transport: receive checks (R44), opening (R56-R58), the session table (R59-R62), release and
recovery (R48-R55). DATA is in `Machine/Commands.lean`. -/

namespace Sys2Proof.Machine

/-! ### Receive checks (R40-R44) -/

/-- Types a client may send (R42). -/
def clientTypes : List Nat := [0x1, 0x3, 0x6, 0x7, 0x8, 0x9, 0xA, 0xB]

/-- Types that consume a sequence number (R42). -/
def seqTypes : List Nat := [0x6, 0x9, 0xA, 0xB]

/-- SACK_OFF keeps R41. -/
def sackOffOk (h : CktHdr) : Bool :=
  decide (h.sackOff = 0xFFFF) || (decide (h.sackOff % 4 = 0) && decide (h.sackOff + 32 ≤ h.payloadLen))

/-- Causes 1 to 5 of R44, which need no session. -/
def formOfFrame (b : Bytes) : Option Nat :=
  let h := parseCkt b
  if b.length < 32 ∨ b.length ≠ 32 + h.payloadLen + (if h.payloadLen = 0 then 0 else 4) then some 1
  else if beAt b 28 4 ≠ (crc32c (b.take 28)).toNat then some 2
  else if h.version ≠ 1 then some 3
  else if ¬ clientTypes.contains h.type ∨ sackOffOk h = false then some 4
  else if h.payloadLen ≠ 0 ∧ beAt b (32 + h.payloadLen) 4 ≠ (crc32c (slice b 32 h.payloadLen)).toNat then some 5
  else none

/-- Causes 7 to 10 of R44, on an open session. -/
def sessionCause (ss : Session) (h : CktHdr) : Option Nat :=
  if h.cookie ≠ ss.cookie then some 7
  else if h.type = 0x6 ∧ h.sealed ≠ ss.sealed then some 8
  else if seqTypes.contains h.type ∧ (seqBefore h.seq ss.rxNext ∨ inStore ss h.seq) then some 9
  else if seqTypes.contains h.type ∧ seqBefore h.seq ss.edge = false then some 10
  else none

/-- R61: GONE carrying NOT_FOUND, at most 65,536 in any second. -/
def goneReply (s : Blk) (eg : Egress) (h : CktHdr) : Blk :=
  let times := windowOf s.now s.xpt.goneTimes
  if times.length < 65536 then
    let s := { s with xpt := { s.xpt with goneTimes := times ++ [s.now] } }
    rimSend s eg (buildCkt { type := 0xD, session := h.session, cookie := h.cookie, ack := h.seq }
      (beBytes 2 stNotFound ++ [0#8, 0#8]))
  else { s with xpt := { s.xpt with goneTimes := times } }

/-- The window that a client frame grants, taken when it is received (R54). -/
def takeWindow (ss : Session) (h : CktHdr) : Session := { ss with peerAck := h.ack, peerCredit := h.credit }

/-- The frames that a client frame's release point passes or its SACK block marks are no longer retained (R48, R52). -/
def releaseBy (ss : Session) (h : CktHdr) (payload : Bytes) : Session :=
  let map := if h.sackOff = 0xFFFF then 0 else beAt payload h.sackOff 32
  { ss with retained := ss.retained.filter fun r => !(seqBefore r.seq h.ack) && !(sackHas map h.ack r.seq) }

/-- The release point and credit of a client frame, with any SACK block (R48, R52, R54). -/
def takeAck (ss : Session) (h : CktHdr) (payload : Bytes) : Session := releaseBy (takeWindow ss h) h payload

/-- The highest client sequence that has arrived, plus one. -/
def highNext (ss : Session) : Seq :=
  ss.store.foldl (fun a f => if seqBefore f.hdr.seq a then a else f.hdr.seq + 1) ss.rxNext

/-- R46, R49, R50: take a sequence-consuming frame into the ingress store, and answer with a NAK for a new gap or with an
ACK on a trigger. A frame that opens a gap and meets a trigger of R49 as well is answered by the NAK alone, which carries ACK,
CREDIT and the SACK block (DESIGN CHOICE, log entry 42). -/
def acceptSeq (s : Blk) (sn : Nat) (ss : Session) (f : RxFrame) : Blk :=
  let hi := highNext ss
  let early := decide (f.hdr.seq ≠ firstMissing ss ss.store.length ss.rxNext)
  let newGap := seqBefore hi f.hdr.seq
  let ss := { ss with store := ss.store ++ [f], recvCount := ss.recvCount + 1, sinceAck := ss.sinceAck + 1 }
  let due := early || f.hdr.final || decide (f.hdr.type ≠ 0x6) || decide (16 ≤ ss.sinceAck)
  let s := sendDelta (setSess s sn ss) sn 2 (beBytes 4 (firstMissing ss ss.store.length ss.rxNext).toNat ++ beBytes 8 ss.recvCount)
  if newGap then sendNak s sn hi (f.hdr.seq - hi).toNat else if due then sendAck s sn else s

/-- R90: a session whose held commands a restart ended answers them with RESET_ABORTED and RESET_DONE before its first
frame is processed: none is until RESET_DONE has been sent. -/
def payReset (s : Blk) (sn q : Nat) : Blk :=
  match sessOf s sn with
  | some ss => if ss.owesReset then resetSession (setSess s sn { ss with owesReset := false, afterReset := true }) sn q else s
  | none => s

/-- An accepted frame of an open session, its payload in clear. -/
def acceptFrame (s : Blk) (sn : Nat) (eg : Egress) (h : CktHdr) (payload : Bytes) : Blk :=
  let s := payReset s sn h.seq.toNat
  match sessOf s sn with
  | none => s
  | some ss =>
    let ss := { ss with lastAt := s.now, eg := eg }
    let f : RxFrame := { hdr := h, payload := payload, eg := eg }
    if seqTypes.contains h.type then acceptSeq s sn (takeAck ss h payload) f
    else
      let s := setSess s sn (takeWindow ss h)
      { s with xpt := { s.xpt with ctl := s.xpt.ctl ++ [f] } }

/-- The clear payload of a frame, none when its seal fails (R148, R149): DATA and ABORT of a sealed session. -/
def clearPayload (ss : Session) (h : CktHdr) (payload : Bytes) : Option Bytes :=
  if ss.sealed ∧ (h.type = 0x6 ∨ h.type = 0x9) then
    if h.sackOff ≠ 0xFFFF then none
    else openSeal ss.sealC (sealCount ss.clientInit h.seq ss.recvCount) h payload
  else some payload

/-- R55: a delivered frame of an open session marked CE, dropped or not, sets ECE in the next frame sent on it. A frame is the
session's once its cookie is (DESIGN CHOICE, log entry 42). -/
def markCe (s : Blk) (h : CktHdr) (ecn : Nat) : Blk :=
  if ecn = 3 then modSess s h.session fun ss => if h.cookie = ss.cookie then { ss with ece := true } else ss else s

/-- R147: the wire keys are the session's own, or it has none. -/
def wireOwned (ss : Session) (sn : Nat) : Bool := !ss.sealed || ss.keyOwner == sn

/-- A response frame of a session, sealed where the session is; a key that another session owns is not used (R134, R147). -/
def sendResponse (s : Blk) (sn : Nat) (ss : Session) (sq : Seq) (f : RespFrame) : Blk :=
  if wireOwned ss sn then emitResponse s sn ss sq f else isolationEvent s domXpt 0xFFFF ss.tenant

/-- R44: judge one delivered datagram. The session of a ring is no session of a client (R321). -/
def judgeCkt (s : Blk) (d : RxDgram) : Blk :=
  match formOfFrame d.payload with
  | some c => countXpt s (c - 1)
  | none =>
    let h := parseCkt d.payload
    let payload := slice d.payload 32 h.payloadLen
    if h.type = 0x1 ∨ h.type = 0x3 then
      { s with xpt := { s.xpt with opens := s.xpt.opens ++ [{ hdr := h, payload := payload, eg := d.eg, ce := d.ecn == 3 }] } }
    else
      match (sessOf s h.session).filter (·.ring.isNone) with
      | none => goneReply (countXpt s 5) d.eg h
      | some ss =>
        let s := markCe s h d.ecn
        match sessionCause ss h with
        | some c =>
          let s := countXpt s (c - 1)
          if 9 ≤ c then sendAck s h.session else s
        | none =>
          if wireOwned ss h.session = false ∧ (h.type = 0x6 ∨ h.type = 0x9) then isolationEvent s domXpt 0xFFFF ss.tenant else
          match clearPayload ss h payload with
          | none => countXpt s 12
          | some p => acceptFrame s h.session d.eg h p

/-- R44: the engine checks the oldest datagram a port holds. Its buffer is freed (R33). -/
def cktReceiveFn (p : Nat) (s : Blk) : Blk :=
  match s.rim.ingress.find? (fun d => d.eg.port = p) with
  | none => s
  | some d =>
    let s := { s with rim := { s.rim with ingress := s.rim.ingress.erase d } }
    let s := idleExit (vacate s (clsIx d.eg.port d.eg.sub d.eg.cls) d.size)
    judgeCkt s d

def execCktFrameReceive (p : Fin 16) (s : State) : Host.Outcome State Fault Refusal := lift (cktReceiveFn p.val) s

/-! ### Opening (R56-R60) -/

/-- OPEN_REJECT. No device sequence is drawn before OPEN_ACCEPT, so OPEN_CHAL and OPEN_REJECT carry SEQ 0 (R42; DESIGN CHOICE,
log entry 42). -/
def openReject (s : Blk) (eg : Egress) (sn status state : Nat) : Blk :=
  rimSend s eg (buildCkt { type := 0x5, session := sn } (beBytes 2 status ++ [BitVec.ofNat 8 state, 0#8]))

/-- First number and count of the sessions this side opens (R59, R273). -/
def ownRange (s : Blk) : Nat × Nat := if s.tdm.paired then (s.tdm.side * 1048576, 1048576) else (0, 2097152)

/-- A session is idle: no frame for IDLE_LIMIT seconds; 0 means never (R60). -/
def isIdle (s : Blk) (ss : Session) : Bool :=
  let lim := policy s 0x01
  decide (lim ≠ 0) && decide (ss.lastAt + lim * second ≤ s.now)

def evictable (s : Blk) (ss : Session) : Bool :=
  isIdle s ss && ss.ring.isNone && ss.tags.vals.all fun t => t.st ≠ .active ∧ t.st ≠ .committing

/-- The idle session of oldest last frame in this side's half (R60, R273). -/
def evictVictim (s : Blk) : Option Nat :=
  let r := ownRange s
  let c := s.xpt.sessions.filter fun p => r.1 ≤ p.1 ∧ p.1 < r.1 + r.2 ∧ evictable s p.2
  (c.foldl (fun (a : Option (Nat × Nat)) p =>
    match a with
    | some (n, t) => if p.2.lastAt < t then some (p.1, p.2.lastAt) else some (n, t)
    | none => some (p.1, p.2.lastAt)) none).map Prod.fst

/-- R60: evict and raise 0x2002. -/
def evict (s : Blk) (sn : Nat) : Blk := raise (freeSession s sn) 0x2002 2 domXpt (pl [(4, sn)])

/-- Session numbers in use in this side's half: open or reserved. -/
def inUse (s : Blk) : Nat :=
  let r := ownRange s
  let c := fun (k : Nat) => decide (r.1 ≤ k ∧ k < r.1 + r.2)
  (s.xpt.sessions.keys.filter c).length + (s.xpt.half.keys.filter c).length

/-- The number is free: the partner may still serve a session of this side's half (R273, R285). -/
def numberFree (s : Blk) (n : Nat) : Bool := !(s.xpt.sessions.has n) && !(s.xpt.half.has n) && !(s.tdm.msessions.has n)

/-- The number at the head of the free list (R60). -/
def takeNumber (s : Blk) : Option (Nat × Blk) :=
  let r := ownRange s
  let all := s.xpt.sessions.length + s.xpt.half.length + s.tdm.msessions.length + 1
  match (List.range all).find? fun i => s.xpt.fresh + i < r.2 ∧ numberFree s (r.1 + s.xpt.fresh + i) with
  | some i => some (r.1 + s.xpt.fresh + i, { s with xpt := { s.xpt with fresh := s.xpt.fresh + i + 1 } })
  | none => (s.xpt.freed.find? (numberFree s)).map fun n => (n, { s with xpt := { s.xpt with freed := s.xpt.freed.erase n } })

def dropHalf (s : Blk) (sn : Nat) : Blk :=
  { s with xpt := { s.xpt with half := s.xpt.half.del sn, freed := s.xpt.freed ++ [sn] } }

/-- R58: with every half-open entry in use the oldest is discarded. -/
def trimHalf (s : Blk) : Blk :=
  if s.xpt.half.length < 65536 then s
  else
    let old := s.xpt.half.foldl (fun (a : Option (Nat × Nat)) p =>
      match a with
      | some (n, t) => if p.2.at_ < t then some (p.1, p.2.at_) else some (n, t)
      | none => some (p.1, p.2.at_)) none
    match old with
    | some (n, _) => dropHalf s n
    | none => s

/-- OPEN_CHAL, with ECE when its OPEN_REQ came marked CE (R55, R56), and SEQ 0 (log entry 42). -/
def sendChal (s : Blk) (eg : Egress) (sn : Nat) (nonce : Bytes) (ce : Bool) : Blk :=
  rimSend s eg (buildCkt { type := 0x2, session := sn, ece := ce } nonce)

/-- The same source address and port. -/
def sameSource (a b : Egress) : Bool := a.dstIp == b.dstIp && a.dstPort == b.dstPort

/-- R56: the challenge an equal OPEN_REQ has already received. -/
def earlierChal (s : Blk) (f : RxFrame) : Option (Nat × Bytes) :=
  let cn := slice f.payload 8 16
  match s.xpt.half.find? (fun p => sameSource p.2.eg f.eg ∧ p.2.clientNonce = cn) with
  | some p => some (p.1, p.2.deviceNonce)
  | none =>
    (s.xpt.sessions.find? (fun p => sameSource p.2.openEg f.eg ∧ p.2.clientNonce = cn)).map fun p => (p.1, p.2.deviceNonce)

/-- Room for one more session, evicting if the table is full (R58, R60). -/
def makeRoom (s : Blk) : Option Blk :=
  if inUse s < (ownRange s).2 then some s else (evictVictim s).map (evict s)

/-- R56 step 2 for a frame that is to be answered now. A device state that refuses opens refuses a repeated one as well (R58
before R56: DESIGN CHOICE, log entry 42). -/
def openReqNow (s : Blk) (f : RxFrame) : Blk :=
  let c := openCause s.dev
  if c ≠ 0 then openReject s f.eg 0 c s.dev.code
  else
    match earlierChal s f with
    | some (sn, n) => sendChal s f.eg sn n f.ce
    | none =>
      match makeRoom (trimHalf s) with
      | none => openReject s f.eg 0 stBusyRetry 0
      | some s1 =>
        match takeNumber s1 with
        | none => openReject s1 f.eg 0 stBusyRetry 0
        | some (sn, s2) =>
          let (nonce, s3) := drawBytes s2 16
          let x : HalfOpen := { tenant := beAt f.payload 0 2, options := beAt f.payload 2 2, eg := f.eg,
                                clientInit := f.hdr.seq, credit := f.hdr.credit, clientNonce := slice f.payload 8 16,
                                deviceNonce := nonce, at_ := s3.now }
          sendChal { s3 with xpt := { s3.xpt with half := s3.xpt.half.set sn x } } f.eg sn nonce f.ce

/-- Take the oldest waiting open frame of a type and handle it; an open is held during ACTIVATING (R58). -/
def takeOpen (type : Nat) (g : Blk → RxFrame → Blk) (s : Blk) : Blk :=
  if s.dev = .activating then s
  else
    match s.xpt.opens.find? (fun f => f.hdr.type = type) with
    | none => s
    | some f => g { s with xpt := { s.xpt with opens := s.xpt.opens.erase f } } f

def execOpenReq (s : State) : Host.Outcome State Fault Refusal := lift (takeOpen 0x1 openReqNow) s

/-- Bytes under a proof of R57. -/
def proofBytes (word : String) (sn : Nat) (x : HalfOpen) : Bytes :=
  ascii word ++ beBytes 2 x.tenant ++ beBytes 3 sn ++ x.clientNonce ++ x.deviceNonce ++ beBytes 4 x.clientInit.toNat

/-- The tenant's access key: unwrapped from its key page under the KEK (R132). -/
def accessKey (s : Blk) (tenant : Nat) : Bytes :=
  match s.cip.pages.get? tenant with
  | some p => (aesUnwrap s.cip.kek p.wrappedAccess).getD []
  | none => []

/-- Wire key of R147. -/
def wireKey (key : Bytes) (word : String) (sn : Nat) (x : HalfOpen) (cookie : Nat) : Bytes :=
  hmac256 key (ascii word ++ beBytes 2 x.tenant ++ beBytes 3 sn ++ x.clientNonce ++ x.deviceNonce ++ beBytes 4 cookie)

/-- OPEN_ACCEPT (R56, R57), with the CE marks received since the last frame sent on the session (R55). -/
def sendAccept (s : Blk) (eg : Egress) (sn : Nat) (ss : Session) (x : HalfOpen) (key : Bytes) (ce : Bool) : Blk :=
  let p := hmac256 key (proofBytes "CKT-D" sn x ++ beBytes 4 ss.cookie ++ beBytes 4 ss.deviceInit.toNat)
  rimSend (modSess s sn fun y => { y with ece := false }) eg
    (buildCkt { type := 0x4, session := sn, cookie := ss.cookie, seq := ss.deviceInit, ack := ss.clientInit, credit := 256
                ece := ce || ss.ece } p)

/-- Session deltas that open a mirrored session: identity and sequence spaces, the wire keys of a sealed session wrapped under
PAIR_KEK with their CMAC (R278), the way back to its client, and the two release points (R279, R280; layout: log entry 12). -/
def openDeltas (s : Blk) (sn : Nat) (ss : Session) : Blk :=
  let v6 := decide (ss.eg.dstIp.length = 16)
  let head := beBytes 2 ss.tenant ++ beBytes 4 ss.cookie ++ beBytes 4 ss.clientInit.toNat ++ beBytes 4 ss.deviceInit.toNat
    ++ [BitVec.ofNat 8 (boolNat ss.sealed + 2 * boolNat ss.admin)]
  let s := sendDelta s sn 0 head
  let s := sendDelta s sn 4 (beBytes 4 ss.seqTop.toNat ++ beBytes 8 (ss.sentCount + (ss.seqTop - ss.txNext).toNat))
  let s := if ss.sealed then
      let keys := aesWrap s.cip.pairKek ss.sealC ++ aesWrap s.cip.pairKek ss.sealD
      let b := keys ++ aesCmac s.cip.pairMac (delta sn 0 head ++ keys)
      forEach (List.range 4) (fun s i => sendDelta s sn (6 + i) (slice (b.drop (28 * i)) 0 28)) s
    else s
  let s := sendDelta s sn 1 (slice ss.eg.dstMac 0 6 ++ slice ss.eg.dstIp 0 16 ++ beBytes 2 ss.eg.dstPort
    ++ [BitVec.ofNat 8 (boolNat v6 * 128 + ss.eg.port * 8 + ss.eg.sub)]
    ++ beBytes 2 (ss.eg.vlan.getD 0 + boolNat ss.eg.vlan.isSome * 4096 + ss.eg.cls * 8192))
  sendDelta s sn 2 (beBytes 4 (firstMissing ss ss.store.length ss.rxNext).toNat ++ beBytes 8 ss.recvCount)

/-- R56 step 4: the session opens. -/
def openSession (s : Blk) (sn : Nat) (f : RxFrame) (x : HalfOpen) (key : Bytes) : Blk :=
  let (cb, s1) := drawBytes s 4
  let (ib, s2) := drawBytes s1 4
  let cookie := if beNat cb = 0 then 1 else beNat cb
  let dinit : Seq := BitVec.ofNat 32 (beNat ib)
  let sealed_ := x.options.testBit 0
  let ss : Session :=
    { tenant := x.tenant, admin := x.options.testBit 1, sealed := sealed_, eg := f.eg, cookie := cookie,
      clientInit := x.clientInit, deviceInit := dinit, clientNonce := x.clientNonce, deviceNonce := x.deviceNonce,
      proof := slice f.payload 0 32, openEg := f.eg, rxNext := x.clientInit, edge := x.clientInit + 256, txNext := dinit,
      peerAck := dinit, peerCredit := x.credit, lastAt := s2.now, mirrored := x.clientInit, seqTop := dinit + 4096
      sealC := if sealed_ then wireKey key "CKT-SC" sn x cookie else []
      sealD := if sealed_ then wireKey key "CKT-SD" sn x cookie else []
      keyOwner := sn }
  let s3 := { s2 with xpt := { s2.xpt with half := s2.xpt.half.del sn, sessions := s2.xpt.sessions.set sn ss } }
  sendAccept (openDeltas s3 sn ss) f.eg sn ss x key f.ce

/-- A half-open entry as an open session remembers it, for the same answer again (R56). -/
def halfOf (ss : Session) : HalfOpen :=
  { tenant := ss.tenant, clientInit := ss.clientInit, clientNonce := ss.clientNonce, deviceNonce := ss.deviceNonce }

/-- R57, R58: check an OPEN_PROOF. A rejected open leaves no state behind (R58), so a repeat of its OPEN_PROOF receives GONE
(R61) and not OPEN_REJECT again (DESIGN CHOICE, log entry 42). -/
def openProofNow (s : Blk) (f : RxFrame) : Blk :=
  let sn := f.hdr.session
  let c := openCause s.dev
  match s.xpt.half.get? sn with
  | none =>
    match sessOf s sn with
    | some ss =>
      if sameSource ss.openEg f.eg ∧ ss.proof = slice f.payload 0 32 then
        sendAccept s f.eg sn ss (halfOf ss) (accessKey s ss.tenant) f.ce
      else goneReply (countXpt s 5) f.eg f.hdr
    | none => goneReply (countXpt s 5) f.eg f.hdr
  | some x =>
    if c ≠ 0 then openReject (dropHalf s sn) f.eg sn c s.dev.code
    else
      let key := accessKey s x.tenant
      match s.tenants.get? x.tenant with
      | none => openReject (dropHalf s sn) f.eg sn stNotPermitted 0
      | some t =>
        if t.disabled then openReject (dropHalf s sn) f.eg sn stNotPermitted 0
        else if hmac256 key (proofBytes "CKT-C" sn x) ≠ slice f.payload 0 32 then
          let s := raise (dropHalf s sn) 0x2001 4 domXpt (pl [(2, x.tenant)] ++ f.eg.dstIp)
          openReject s f.eg sn stNotPermitted 0
        else if x.options.testBit 1 ∧ t.adminPermit = false then openReject (dropHalf s sn) f.eg sn stNotPermitted 0
        else openSession s sn f x key

def execOpenProof (s : State) : Host.Outcome State Fault Refusal := lift (takeOpen 0x3 openProofNow) s

/-- R58: 2 s after its OPEN_CHAL a half-open entry is discarded. -/
def halfOpenExpireFn (sn : Nat) (s : Blk) : Blk := if s.xpt.half.has sn then dropHalf s sn else s

def execHalfOpenExpire (sn : Nat) (s : State) : Host.Outcome State Fault Refusal := lift (halfOpenExpireFn sn) s

/-! ### ACK and NAK from the client (R48, R51, R52) -/

/-- No frame of the session is processed while the RESET_DONE of a failed activation is still to be sent (R90). -/
def waitsReset (s : Blk) (sn : Nat) : Bool := (sessOf s sn).any (·.afterReset)

/-- Take the session's oldest control frame of a type. -/
def takeCtl (s : Blk) (sn type : Nat) : Option (RxFrame × Blk) :=
  if waitsReset s sn then none
  else (s.xpt.ctl.find? (fun f => f.hdr.session = sn ∧ f.hdr.type = type)).map fun f =>
    (f, { s with xpt := { s.xpt with ctl := s.xpt.ctl.erase f } })

/-- R48, R52: the frames that the release point passes or the SACK block marks are freed; ACK and CREDIT themselves were taken when
the frame was received (R54). -/
def ackFn (sn : Nat) (s : Blk) : Blk :=
  match takeCtl s sn 0x7 with
  | none => s
  | some (f, s) => modSess s sn fun ss => releaseBy ss f.hdr f.payload

def execAck (sn : Nat) (s : State) : Host.Outcome State Fault Refusal := lift (ackFn sn) s

/-- The sequence numbers a NAK names, in its order: 1 to 16 ranges of 8 bytes (R51). -/
def nakSeqs (h : CktHdr) (p : Bytes) : List Seq :=
  let body := if h.sackOff = 0xFFFF then p else p.take h.sackOff
  ((blocksOf 8 body).take 16).flatMap fun r =>
    (List.range (min 256 (beAt r 4 2))).map fun i => BitVec.ofNat 32 (beAt r 0 4) + BitVec.ofNat 32 i

/-- Whether a frame may still leave: the release gate lets only notices and DEVICE_FAULT trailers pass (R384). -/
def gatePasses (s : Blk) (f : RespFrame) : Bool :=
  !s.safe.gate || f.notice || (decide (f.payload.length = 16) && decide (beAt f.payload 0 2 = stDeviceFault))

/-- R51: resend each named frame still retained, in SEQ order; count the others as NAK_STALE. -/
def nakFn (sn : Nat) (s : Blk) : Blk :=
  match takeCtl s sn 0x8 with
  | none => s
  | some (f, s) =>
    let s := modSess s sn fun ss => releaseBy ss f.hdr f.payload
    match sessOf s sn with
    | none => s
    | some ss =>
      let named := nakSeqs f.hdr f.payload
      let stale := named.filter fun q => ¬ ss.retained.any fun r => r.seq = q
      let s := forEach stale (fun s _ => countXpt s 10) s
      forEach (ss.retained.filter fun r => named.contains r.seq) (fun s r =>
        match sessOf s sn with
        | some ss => if gatePasses s r.frame then sendResponse s sn ss r.seq r.frame else s
        | none => s) s

def execNak (sn : Nat) (s : State) : Host.Outcome State Fault Refusal := lift (nakFn sn) s

/-! ### Frames processed in SEQ order (R46) -/

/-- The frame to be processed next, if it has arrived and has that type; the session moves past it. -/
def takeSeq (s : Blk) (sn type : Nat) : Option (RxFrame × Blk) :=
  match sessOf s sn with
  | none => none
  | some ss =>
    if ss.afterReset then none
    else (ss.store.find? (fun f => f.hdr.seq = ss.rxNext ∧ f.hdr.type = type)).map fun f =>
      (f, setSess s sn { ss with store := ss.store.erase f, rxNext := ss.rxNext + 1 })

/-- R49: an ACK when the granted edge has grown by 64 frames, or at all from an edge the client had filled. -/
def edgeAck (s : Blk) (sn : Nat) : Blk :=
  match sessOf s sn with
  | some ss =>
    let grow := (edgeOf s ss - ss.edge).toNat
    if 64 ≤ grow ∨ (0 < grow ∧ highNext ss = ss.edge) then sendAck s sn else s
  | none => s

/-- R86: what an ABORT does, and its answer. -/
def abortTag (s : Blk) (sn t : Nat) : Nat × Blk :=
  match sessOf s sn with
  | none => (stNotFound, s)
  | some ss =>
    match (tagOf ss t).st with
    | .queued => (stOk, deliverDue (stopTag s sn t stAborted) sn t)
    | .active => (stOk, deliverDue (stopTag s sn t stAborted) sn t)
    | .committing => (stTooLate, s)
    | _ => (stNotFound, s)

def abortFn (sn : Nat) (s : Blk) : Blk :=
  match takeSeq s sn 0x9 with
  | none => s
  | some (f, s) =>
    let t := (f.payload.getD 0 0).toNat % 32
    let (st, s) := abortTag s sn t
    edgeAck (queueNotice s sn 0x01 t st f.hdr.seq.toNat 0) sn

def execAbort (sn : Nat) (s : State) : Host.Outcome State Fault Refusal := lift (abortFn sn) s

def resetFn (sn : Nat) (s : Blk) : Blk :=
  match takeSeq s sn 0xA with
  | none => s
  | some (f, s) => edgeAck (resetSession s sn f.hdr.seq.toNat) sn

def execReset (sn : Nat) (s : State) : Host.Outcome State Fault Refusal := lift (resetFn sn) s

/-- R62: QUEUED commands end as under a reset, reads are stopped, started writes run on in silence. -/
def closeTag (s : Blk) (sn t : Nat) : Blk :=
  match sessOf s sn with
  | none => s
  | some ss =>
    let x := tagOf ss t
    match x.st with
    | .queued => stopTag s sn t stResetAborted
    | .active => if isReadOp x.opcode then resetTag s sn t else putTag s sn t { x with silent := true }
    | .committing => putTag s sn t { x with silent := true }
    | _ => s

def closeFn (sn : Nat) (s : Blk) : Blk :=
  match takeSeq s sn 0xB with
  | none => s
  | some (_, s) =>
    let s := forEach (List.range 32) (fun s t => closeTag s sn t) s
    edgeAck (modSess s sn fun ss => { ss with closing := true }) sn

def execClose (sn : Nat) (s : State) : Host.Outcome State Fault Refusal := lift (closeFn sn) s

/-- A started write of the session still runs. -/
def writesRun (ss : Session) : Bool :=
  ss.tags.vals.any fun t => t.st = .committing ∨ (t.st = .active ∧ ¬ isReadOp t.opcode)

/-- R62: the started writes have finished, and the completions of the commands that ended have been sent: CLOSE_ACK, and the
session is freed. -/
def closeAckFn (sn : Nat) (s : Blk) : Blk :=
  match sessOf s sn with
  | none => s
  | some ss => if ss.closing ∧ writesRun ss = false ∧ ss.respq = [] ∧ ss.tags.vals.all (fun t => !t.due) then freeSession (sendControl s sn 0xC 0xFFFF []) sn else s

def execCloseAck (sn : Nat) (s : State) : Host.Outcome State Fault Refusal := lift (closeAckFn sn) s

/-! ### Sending responses (R47, R52-R54, R280) -/

/-- R280: SEQ_TOP rises by 4,096 when the next SEQ comes within 1,024 of it. -/
def raiseSeqTop (s : Blk) (sn : Nat) : Blk :=
  match sessOf s sn with
  | some ss =>
    if s.tdm.paired ∧ (ss.seqTop - ss.txNext).toNat ≤ 1024 then
      let top := ss.seqTop + 4096
      sendDelta (setSess s sn { ss with seqTop := top }) sn 4 (beBytes 4 top.toNat ++ beBytes 8 (ss.sentCount + (top - ss.txNext).toNat))
    else s
  | none => s

/-- R54: send the oldest waiting response frame and retain it; the last frame of a response settles its tag (R80). With no
frame left, the commands that waited ACTIVE for room are finished (R52). -/
def responseSendFn (sn : Nat) (s : Blk) : Blk :=
  match sessOf s sn with
  | none => s
  | some ss =>
    match ss.respq with
    | [] => releaseHeld s sn
    | f :: rest =>
      if maySend s ss f.payload.length ∧ gatePasses s f then
        let sq := ss.txNext
        let s := sendResponse s sn ss sq f
        let s := modSess s sn fun x => { x with
          respq := rest, afterReset := x.afterReset && !(f.notice && f.payload.getD 0 0 == 2#8), txNext := sq + 1, sentCount := x.sentCount + 1, retained := x.retained ++ [{ seq := sq, frame := f }] }
        let s := raiseSeqTop s sn
        if f.final ∧ f.notice = false then
          match sessOf s sn with
          | some x => settleTag (putTag s sn f.tag { tagOf x f.tag with sentFinal := true }) sn f.tag
          | none => s
        else s
      else s

def execResponseFrameSend (sn : Nat) (s : State) : Host.Outcome State Fault Refusal := lift (responseSendFn sn) s

end Sys2Proof.Machine
end

