-- ==== Sys2Proof/Machine/Commands.lean ====
section
/-! DEFINITION. The command engine: DATA frames and tags (R64, R65, R80-R82), admission (R91), dispatch (R84, R87, R90,
R195), the start of the reads, and FLUSH. -/

namespace Sys2Proof.Machine

/-! ### Admission (R91) -/

/-- Grains that a write-type command brings: head and value grains, the grains of a part, head and part-table grains (R176, R177). -/
def grainsBrought (s : Blk) (op : Nat) (h : Head) : Nat :=
  if op = 0x03 then 1 + grainsOf h.valueLen
  else if op = 0x11 then grainsOf h.valueLen
  else if op = 0x12 then
    1 + (40 * (((s.cmd.uploads.get? h.uploadId).map (·.parts.length)).getD 0) + 48 + keyRecLen h.keyLen - 4112 + 4111) / 4112
  else 0

/-- R195: each grain of a write admitted costs 1 on the account of each braking spoke its data lands on. -/
def chargeBrake (s : Blk) (op : Nat) (h : Head) : Blk :=
  match nsOf s h.ns with
  | some x =>
    forEach ((nsSpokes s h.ns x).filter fun n => (spokeOf s n).brake) (fun s n =>
      modSpoke s n fun y => { y with account := y.account - grainsBrought s op h }) s
  | none => s

/-- Causes 3 to 6 of R91 for a command with a namespace: status and DETAIL, 0 when it is admitted. -/
def nsCause (s : Blk) (tenant op : Nat) (h : Head) : Nat × Nat :=
  match nsOf s h.ns with
  | none => (stNotPermitted, 0)
  | some x =>
    let code := nsState s h.ns x
    let tb := ((s.tenants.get? tenant).map (·.bucket)).getD {}
    if x.tenant ≠ tenant then (stNotPermitted, 0)
    else if stateRefuses code op then (stStateConflict, code)
    else if sizeCause op h ≠ 0 then (sizeCause op h, 0)
    else if bucketRefuses s.now tb ∨ bucketRefuses s.now x.bucket ∨ bucketRefuses s.now s.loops.bucket then (stBusyRetry, 0)
    else (0, 0)

/-- Causes 1 to 6 of R91 in order. -/
def admitCause (s : Blk) (tenant : Nat) (admin : Bool) (op : Nat) (h : Head) : Nat × Nat :=
  let d := devCause s.dev
  let f := formCause admin op h
  if d ≠ 0 then (d, if d = stStateConflict then s.dev.code else 0)
  else if f ≠ 0 then (f, 0)
  else if isAdminOp op then (0, 0)
  else if op = 0x05 then
    (if bucketRefuses s.now (((s.tenants.get? tenant).map (·.bucket)).getD {}) then (stBusyRetry, 0) else (0, 0))
  else nsCause s tenant op h

/-- The charges of an admitted command: key and value bytes (R91, R293); FLUSH and Iawatal commands carry none. -/
def admitCharge (s : Blk) (tenant op : Nat) (h : Head) : Blk :=
  if isAdminOp op ∨ op = 0x05 then s
  else chargeBrake (charge s tenant h.ns (h.keyLen + carriedBytes op h)) op h

/-- Lowest free command slot (R91). -/
def freeCmdSlot (s : Blk) : Option Nat := s.cmd.slots.freeFrom 524288 0

/-- R91: judge a command whose head is complete. -/
def admitTag (s : Blk) (sn t : Nat) : Blk :=
  match sessOf s sn with
  | none => s
  | some ss =>
    let x := tagOf ss t
    let h := parseHead x.buf
    let (st, detail) := admitCause s ss.tenant ss.admin x.opcode h
    if st ≠ 0 then refuseTag s sn t st detail
    else
      match freeCmdSlot s with
      | none => refuseTag s sn t stBusyRetry 0
      | some slot =>
        let s := admitCharge s ss.tenant x.opcode h
        let c : Cmd := { session := sn, tag := t, opcode := x.opcode, ordered := x.ordered, tenant := ss.tenant, head := h,
                         eg := x.eg, order := x.order }
        putTag (setCmd s slot { c with rt := firstTag s slot c }) sn t { x with slot := some slot }

/-! ### Dispatch (R84, R87, R90, R195, R286) -/

/-- The tag holds a command whose final status is not fixed yet. -/
def notDone (t : TagCtx) : Bool := t.st == .queued || t.st == .active || t.st == .committing

/-- Ordering holds the command: ORDERED behind every earlier command, any command behind an earlier FLUSH (R84, R87). -/
def orderHolds (ss : Session) (x : TagCtx) : Bool :=
  ss.tags.vals.any fun t => notDone t && decide (t.order < x.order) && (x.ordered || t.opcode == 0x05)

/-- The brake holds a write whose data lands on a braking spoke with no account left (R195). -/
def brakeHolds (s : Blk) (c : Cmd) : Bool :=
  (c.opcode == 0x03 || c.opcode == 0x11 || c.opcode == 0x12) &&
    (match nsOf s c.head.ns with
     | some x => (nsSpokes s c.head.ns x).any fun n => (spokeOf s n).brake && decide ((spokeOf s n).account ≤ 0)
     | none => false)

/-- A split link holds the writes of a MIRRORED namespace under HOLD (R286). -/
def splitHolds (s : Blk) (c : Cmd) : Bool :=
  isKvOp c.opcode && !isReadOp c.opcode && s.tdm.split &&
    (match nsOf s c.head.ns with
     | some x => x.mirrored && decide (x.soloPolicy = 0)
     | none => false)

/-- States checked again at dispatch (R91). -/
def dispatchCause (s : Blk) (c : Cmd) : Nat × Nat :=
  let d := devCause s.dev
  if d ≠ 0 then (d, if d = stStateConflict then s.dev.code else 0)
  else if isAdminOp c.opcode ∨ c.opcode = 0x05 then (0, 0)
  else match nsOf s c.head.ns with
    | none => (stStateConflict, 0x46)
    | some x =>
      let code := nsState s c.head.ns x
      if stateRefuses code c.opcode then (stStateConflict, code) else (0, 0)

/-- Dispatch a command received whole, unless something holds it. -/
def tryDispatch (s : Blk) (slot : Nat) : Blk :=
  match cmdOf s slot with
  | none => s
  | some c =>
    match sessOf s c.session with
    | none => s
    | some ss =>
      let x := tagOf ss c.tag
      if c.phase ≠ .queued ∨ x.gotFinal = false then s
      else if s.dev = .activating ∨ ss.owesReset ∨ orderHolds ss x ∨ brakeHolds s c ∨ splitHolds s c then s
      else
        let (st, detail) := dispatchCause s c
        if st ≠ 0 then failCmd s slot st detail 0
        else
          let s := putTag (setCmd s slot { c with phase := .started }) c.session c.tag { x with st := .active }
          if isAdminOp c.opcode then handOn s slot c 0xA else s

def execCommandDispatch (slot : Nat) (s : State) : Host.Outcome State Fault Refusal := lift (fun b => tryDispatch b slot) s

/-- The command's last frame is in: its length must be exact and its padding zero (R64). -/
def completeTag (s : Blk) (sn t : Nat) : Blk :=
  match sessOf s sn with
  | none => s
  | some ss =>
    let x := tagOf ss t
    match x.slot.bind (cmdOf s) with
    | none => if x.buf.length < 32 then refuseTag s sn t stBadRequest 0 else s
    | some c =>
      let slot := x.slot.getD 0
      let kp := keyPadded (32 + c.head.keyLen)
      let pad := slice (x.buf.drop (32 + c.head.keyLen)) 0 (kp - (32 + c.head.keyLen))
      if x.buf.length ≠ commandLen c.opcode c.head ∨ pad.any (· ≠ 0) then failCmd s slot stBadRequest 0 0
      else
        let s := setCmd s slot { c with key := slice (x.buf.drop 32) 0 c.head.keyLen, value := x.buf.drop kp }
        tryDispatch (putTag s sn t { x with buf := [] }) slot

/-- Bring a tag on as far as its frames allow: admission once the head is complete, dispatch once FINAL is in. During
ACTIVATING a new command stays QUEUED, and a command held over a failed activation waits for its RESET_ABORTED (R90); a power failure stops admission (R356). -/
def advanceTag (s : Blk) (sn t : Nat) : Blk :=
  match sessOf s sn with
  | none => s
  | some ss =>
    let x := tagOf ss t
    let s := if x.st = .queued ∧ x.slot.isNone ∧ 32 ≤ x.buf.length ∧ s.dev ≠ .activating ∧ ss.owesReset = false ∧ s.pwr.dump ≠ some true then admitTag s sn t else s
    match sessOf s sn with
    | none => s
    | some ss =>
      let x := tagOf ss t
      if x.st = .queued ∧ x.gotFinal then completeTag s sn t else s

/-- The held commands of every session, in their order (R90). -/
def dispatchHeld (s : Blk) : Blk :=
  let all := s.xpt.sessions.flatMap fun p =>
    (p.2.tags.filter fun t => t.2.st = .queued).map fun t => (t.2.order, p.1, t.1, t.2.slot)
  forEach (all.mergeSort fun a b => decide (a.1 ≤ b.1)) (fun s e =>
    match e.2.2.2 with
    | some slot => tryDispatch s slot
    | none => advanceTag s e.2.1 e.2.2.1) s

/-! ### DATA (R46, R64, R65, R80-R82) -/

/-- Payload without its SACK block (R64). -/
def commandBytes (h : CktHdr) (p : Bytes) : Bytes :=
  if h.sackOff = 0xFFFF then p else p.take h.sackOff ++ p.drop (h.sackOff + 32)

/-- A frame of a command that has ended is discarded and counted; FINAL settles the tag (R82). -/
def discardTail (s : Blk) (sn t : Nat) (x : TagCtx) (final : Bool) : Blk :=
  let s := countXpt s 11
  if final then settleTag (putTag s sn t { x with gotFinal := true }) sn t else s

/-- The first frame of a command on an IDLE tag (R80). -/
def firstFrame (s : Blk) (sn t : Nat) (x : TagCtx) (f : RxFrame) (b : Bytes) : Blk :=
  let n := s.cmd.order
  let s := { s with cmd := { s.cmd with order := n + 1 } }
  let y : TagCtx := { st := .queued, opcode := f.hdr.opcode, gotFinal := f.hdr.final, buf := b, ordered := f.hdr.ordered,
                      order := n, eg := f.eg, refusing := x.refusing }
  advanceTag (putTag s sn t y) sn t

/-- One DATA frame in SEQ order, by the state of its tag. -/
def dataOnTag (s : Blk) (sn : Nat) (ss : Session) (f : RxFrame) : Blk :=
  let t := f.hdr.tag
  let x := tagOf ss t
  let b := commandBytes f.hdr f.payload
  if x.refusing then countXpt (putTag s sn t { x with refusing := !f.hdr.final }) 11
  else if x.st = .idle then firstFrame s sn t x f b
  else if x.gotFinal then
    queueNotice (putTag s sn t { x with refusing := !f.hdr.final }) sn 0x03 t stTagInUse f.hdr.seq.toNat 0
  else if x.st = .completing then discardTail s sn t x f.hdr.final
  else if x.opcode ≠ f.hdr.opcode then
    stopTag (putTag s sn t { x with gotFinal := f.hdr.final }) sn t stBadRequest
  else advanceTag (putTag s sn t { x with buf := x.buf ++ b, gotFinal := f.hdr.final }) sn t

def dataFn (sn : Nat) (s : Blk) : Blk :=
  match takeSeq s sn 0x6 with
  | none => s
  | some (f, s) =>
    match sessOf s sn with
    | none => s
    | some ss => edgeAck (if ss.closing then s else dataOnTag s sn ss f) sn

def execData (sn : Nat) (s : State) : Host.Outcome State Fault Refusal := lift (dataFn sn) s

/-! ### Reads begin; FLUSH -/

/-- A dispatched command of that opcode. -/
def startedCmd (s : Blk) (slot op : Nat) : Option Cmd :=
  (cmdOf s slot).filter fun c => c.phase = .started ∧ c.opcode = op

/-- R20 step 4: the command goes to the in-flight key table, whose M0 search begins when its cell arrives (R122). -/
def beginRead (op slot : Nat) (s : Blk) : Blk :=
  match startedCmd s slot op with
  | some c => handOn s slot c 0x3
  | none => s

def execGet (slot : Nat) (s : State) : Host.Outcome State Fault Refusal := lift (beginRead 0x01 slot) s
def execGetVersion (slot : Nat) (s : State) : Host.Outcome State Fault Refusal := lift (beginRead 0x02 slot) s

/-- R87: FLUSH completes once every command received before it in the session has completed. -/
def flushFn (slot : Nat) (s : Blk) : Blk :=
  match startedCmd s slot 0x05 with
  | some c =>
    let before := ((sessOf s c.session).map fun ss => ss.tags.vals.any fun t => notDone t && decide (t.order < c.order)).getD false
    if before then s else failCmd s slot stOk 0 0
  | none => s

def execFlush (slot : Nat) (s : State) : Host.Outcome State Fault Refusal := lift (flushFn slot) s

end Sys2Proof.Machine
end

