-- ==== Sys2Proof/Machine/Writes.lean ====
section
/-! DEFINITION. Writes: multipart uploads (R75-R78), quotas (R94), slots (R105), gears and the derailleur (R186-R188), the
reservation and the commit point (R72, R73, R79, R120), and the cells that carry a value to the cipher cluster (R21, R137,
R250). -/

namespace Sys2Proof.Machine

/-! ### Uploads (R75-R78) -/

def setUpload (s : Blk) (u : Nat) (x : Upload) : Blk := { s with cmd := { s.cmd with uploads := s.cmd.uploads.set u x } }

/-- The upload a command names: its namespace and its key must be those of MP_BEGIN (R77). -/
def uploadOf (s : Blk) (c : Cmd) : Option Upload :=
  (s.cmd.uploads.get? c.head.uploadId).filter fun u => u.tenant = c.tenant ∧ u.ns = c.head.ns ∧ u.key = c.key

/-- The grains each part of an upload holds: those no part with a later commit point holds (R76). The parts stand in the order
of their commit points. -/
def partsWon : List Part → List (Part × List (Nat × Nat))
  | [] => []
  | p :: ps => (p, wonRuns p.grain p.grains (ps.map fun q => (q.grain, q.grains))) :: partsWon ps

/-- Value bytes of a run of grains of a value of `total` bytes: the last grain may be short. -/
def runBytes (total : Nat) (r : Nat × Nat) : Nat := min total (4096 * (r.1 + r.2)) - 4096 * r.1

/-- Value bytes of the parts of an upload, each grain counted once (R94). -/
def uploadBytes (u : Upload) : Nat := ((partsWon u.parts).flatMap fun p => p.2.map (runBytes u.total)).sum

/-- The parts of an upload with a part added. A part leaves once complete parts of later commit points hold all its grains. -/
def addPart (ps : List Part) (p : Part) : List Part :=
  let all := ps ++ [p]
  ((all.zip (List.range all.length)).filter fun e =>
    wonRuns e.1.grain e.1.grains (((all.drop (e.2 + 1)).filter (·.complete)).map fun q => (q.grain, q.grains)) ≠ []).map Prod.fst

/-- Upload record to the partner: the upload with its key, or its end (R277 class 0x06; layout: log entry 12). -/
def sendUpload (s : Blk) (uid : Nat) : Blk :=
  match s.cmd.uploads.get? uid with
  | some u =>
    let s := tandemSend s 0x6 0x06 uid 0 0 ([0#8] ++ beBytes 2 u.tenant ++ beBytes 2 u.ns ++ beBytes 8 u.total ++ beBytes 2 u.key.length)
    let ks := blocksOf 200 u.key
    forEach (ks.zip (List.range ks.length)) (fun s e => tandemSend s 0x6 0x06 uid 0 0 ([1#8] ++ beBytes 2 (200 * e.2) ++ beBytes 2 e.1.length ++ e.1)) s
  | none => tandemSend s 0x6 0x06 uid 0 0 [3#8]

/-- A part of an upload with its seal and the write sequence of its commit point, in an upload record. -/
def sendPart (s : Blk) (uid : Nat) (p : Part) : Blk :=
  tandemSend s 0x6 0x06 uid 0 0 ([2#8] ++ beBytes 4 p.grain ++ beBytes 4 p.grains ++ beBytes 4 p.bytes ++ slice p.sealv 0 32 ++ beBytes 8 p.order)

/-- The lowest number from `lo` of the parity `par` that is not listed. -/
def freeParity {α : Type} (t : Tbl α) (par : Nat) : Nat → Nat → Option Nat
  | 0, _ => none
  | fuel + 1, lo => if lo ≠ 0 ∧ lo % 2 = par ∧ Tbl.has t lo = false then some lo else freeParity t par fuel (lo + 1)

/-- The next UPLOAD_ID: 32 bits, never 0, not in use (R75). In a pair its bit 0 differs from that of the side's versions, so
that an OBJ of R277 names one or the other (log entry 12). -/
def nextUpload (s : Blk) : Nat :=
  let lo := s.cmd.uploadSeq % 4294967295 + 1
  if s.tdm.paired then (freeParity s.cmd.uploads (1 - s.tdm.side) 131076 lo).getD 1 else (s.cmd.uploads.freeFrom 65537 lo).getD 1

/-- MP_BEGIN (R75, R78, R177). -/
def mpBeginFn (slot : Nat) (s : Blk) : Blk :=
  match startedCmd s slot 0x10 with
  | none => s
  | some c =>
    let mine := (s.cmd.uploads.vals.filter fun u => u.tenant = c.tenant).length
    if 65536 ≤ s.cmd.uploads.length ∨ 1024 ≤ mine then failCmd s slot stUploadLimit 0 0
    else if lgaRoom s (grainsOf c.head.valueLen) = false then failCmd s slot stNsFull 0 0
    else
      let uid := nextUpload s
      let r := takeLga s c.head.ns 4 (grainsOf c.head.valueLen)
      let s := setUpload r.2 uid { tenant := c.tenant, ns := c.head.ns, key := c.key, total := c.head.valueLen, dataLga := r.1,
                                   lastAt := s.now }
      let s := sendUpload { s with cmd := { s.cmd with uploadSeq := uid } } uid
      let s := setCmd s slot { c with head := { c.head with uploadId := uid } }
      failCmd (if c.ring.isSome then s else streamBody s slot (beBytes 4 uid ++ zeros 4)) slot stOk 0 0

/-- The tag passes its commit point (R80). -/
def commitTag (s : Blk) (slot : Nat) : Blk :=
  match cmdOf s slot with
  | some c =>
    let s := setCmd s slot { c with phase := .committed }
    match sessOf s c.session with
    | some ss => if (tagOf ss c.tag).slot = some slot then putTag s c.session c.tag { tagOf ss c.tag with st := .committing } else s
    | none => s
  | none => s

/-- Grains of a value as the cells of a PUT or a part carry them: sixteen data cells a grain, with no check field yet, the
last grain filled with zeros (R15, R137). -/
def plainCells (r : Rt) (first : Nat) (v : Bytes) : List Cell :=
  let n := grainsOf v.length
  (List.range n).flatMap fun i =>
    let g := slice (v.drop (4096 * i)) 0 4096
    (List.range 16).map fun j =>
      cellOf { r with kind := 0x1, grain := first + i, cell := j, cf := 0, first := decide (i = 0 ∧ j = 0)
                      last := decide (i + 1 = n ∧ j = 15) } (slice g (256 * j) 256)

/-- Take a STAGE_REF for a record (R112). -/
def addStage (s : Blk) (x : Stage) : Nat × Blk :=
  let r := s.idx.stageSeq
  (r, { s with idx := { s.idx with stages := s.idx.stages.set r x, stageSeq := (r + 1) % 4294967296 } })

/-- MP_PART: the checks of R76 and R94, and the entry in the upload, which is its commit point and takes a value of the write
sequence (R79, R180). It replaces the grains it holds and no others (R76). -/
def mpPartFn (slot : Nat) (s : Blk) : Blk :=
  match startedCmd s slot 0x11 with
  | none => s
  | some c =>
    match uploadOf s c, nsOf s c.head.ns with
    | some u, some x =>
      let g := c.head.partGrain
      let len := c.head.valueLen
      let stop := 4096 * g + len
      let n := grainsOf len
      let p : Part := { grain := g, grains := n, bytes := len, order := s.med.wseq, stage := s.idx.stageSeq }
      let next := { u with parts := addPart u.parts p, lastAt := s.now }
      if u.total < stop ∨ (len % 4096 ≠ 0 ∧ stop ≠ u.total) then failCmd s slot stBadRequest 0 0
      else if x.byteQuota ≠ 0 ∧ x.byteQuota + uploadBytes u < x.bytes + uploadBytes next then failCmd s slot stNsFull 0 0
      else
        let w := takeWseq s
        let st : Stage := { ns := c.head.ns, tenant := c.tenant, key := c.key, kind := 4, valueLen := u.total, gear := 4
                            lga := u.dataLga + g, count := n, slot := slot, upload := c.head.uploadId
                            digest := digestOf s c.head.ns c.key, partGrain := g, order := w.1 }
        let a := addStage { w.2 with med := { w.2.med with commits := s.med.commits + 1 } } st
        let s := setUpload a.2 c.head.uploadId next
        let s := setNs s c.head.ns { x with bytes := x.bytes + uploadBytes next - uploadBytes u }
        let s := commitTag (modCmd s slot fun c => { c with stage := some a.1, gear := 4 }) slot
        sendCells s (plainCells { cmdRt { c with gear := 4 } with next := 0x5, version := c.head.uploadId } g c.value)
    | _, _ => failCmd s slot stUploadUnknown 0 0

/-- An upload is freed with its parts, and its data run dies (R75, R78, R178). -/
def freeUpload (s : Blk) (uid : Nat) : Blk :=
  match s.cmd.uploads.get? uid with
  | none => s
  | some u =>
    let s := { s with cmd := { s.cmd with uploads := s.cmd.uploads.del uid } }
    let s := modNs s u.ns fun x => { x with bytes := x.bytes - uploadBytes u }
    let s := { s with idx := { s.idx with stages := s.idx.stages.mapVal fun _ y =>
      if y.kind = 4 ∧ y.upload = uid then { y with retired := true } else y } }
    sendUpload (unmapRun s u.dataLga (grainsOf u.total)) uid

/-- MP_ABANDON (R75, R77). -/
def mpAbandonFn (slot : Nat) (s : Blk) : Blk :=
  match startedCmd s slot 0x13 with
  | none => s
  | some c =>
    if (uploadOf s c).isSome then failCmd (freeUpload s c.head.uploadId) slot stOk 0 0 else failCmd s slot stUploadUnknown 0 0

/-- R78: an upload expires. -/
def uploadExpireFn (uid : Nat) (s : Blk) : Blk :=
  match s.cmd.uploads.get? uid with
  | some u => raise (freeUpload s uid) 0x3002 2 domCmd (pl [(4, uid), (2, u.tenant)])
  | none => s

/-- R77: the causes that end an MP_COMMIT before its condition. -/
def commitCause (s : Blk) (c : Cmd) : Nat :=
  match uploadOf s c with
  | none => stUploadUnknown
  | some u =>
    let n := grainsOf u.total
    if c.head.valueLen ≠ u.total ∨ ¬ (List.range n).all (fun g => u.parts.any fun p => p.grain ≤ g && decide (g < p.grain + p.grains))
    then stUploadIncomplete else 0

/-! ### PUT, DELETE and MP_COMMIT reach their reservation -/

/-- A write goes to the key index engine, where it waits for its reservation (R21, R120). -/
def toReserve (op slot : Nat) (s : Blk) : Blk :=
  match startedCmd s slot op with
  | some c => handOn s slot c 0x4
  | none => s

def execPut (slot : Nat) (s : State) : Host.Outcome State Fault Refusal := lift (toReserve 0x03 slot) s
def execDelete (slot : Nat) (s : State) : Host.Outcome State Fault Refusal := lift (toReserve 0x04 slot) s

/-- MP_COMMIT: an upload that it touches lives on from here (R78). -/
def mpCommitFn (slot : Nat) (s : Blk) : Blk :=
  match startedCmd s slot 0x12 with
  | none => s
  | some c =>
    let s := match uploadOf s c with
      | some u => setUpload s c.head.uploadId { u with lastAt := s.now }
      | none => s
    if commitCause s c ≠ 0 then failCmd s slot (commitCause s c) 0 0 else toReserve 0x12 slot s

def execMpBegin (slot : Nat) (s : State) : Host.Outcome State Fault Refusal := lift (mpBeginFn slot) s
def execMpPart (slot : Nat) (s : State) : Host.Outcome State Fault Refusal := lift (mpPartFn slot) s
def execMpCommit (slot : Nat) (s : State) : Host.Outcome State Fault Refusal := lift (mpCommitFn slot) s
def execMpAbandon (slot : Nat) (s : State) : Host.Outcome State Fault Refusal := lift (mpAbandonFn slot) s
def execUploadExpire (uid : Nat) (s : State) : Host.Outcome State Fault Refusal := lift (uploadExpireFn uid) s

/-! ### The current version of a key (R73, R109, R120, R122, R123) -/

/-- What a write finds: version, value length, and the bucket slot of the key. -/
structure Found where
  version : Nat := 0
  len : Nat := 0
  place : Option (Nat × Nat) := none

/-- Candidates of a key at a write, before their pages are in the cache. -/
def pagesAway (s : Blk) (d : BitVec 128) : List Nat :=
  (((fpMatches s d).map Prod.fst).eraseDups).filter fun b => !(dirOf s b).cached && decide ((dirOf s b).pageLoc ≠ 0)

/-- What an in-flight entry says of the key: a DELETE leaves it no value (R72). -/
def foundStage (s : Blk) (e : CamEntry) : Found :=
  match s.idx.stages.get? e.stage with
  | some x => { version := if x.kind = 2 then 0 else x.version, len := if x.kind = 2 then 0 else x.valueLen, place := some x.bslot }
  | none => {}

/-- A candidate slot at a write: `none` while its key record is still to be read; a record that can not be read, or not be
decrypted, leaves the digest to decide (log entry 43). -/
def slotVerdict (s : Blk) (c : Cmd) (sl : BSlot) : Option Bool :=
  if sl.lost then some true
  else (c.headIn.get? (locHead sl.loc)).map fun o =>
    match o.bind (clearKeyRecord s c.tenant sl) with
    | some p => keyRecordOk c sl p
    | none => true

/-- The candidates of R108 in order, up to the first whose key record is still to be read; a record that fails its comparison
raises 0x4001 (R109). -/
def pickSlot (c : Cmd) : Blk → List (Nat × Nat) → Blk × Except BSlot Found
  | s, [] => (s, .ok {})
  | s, (b, i) :: rest =>
    match (dirOf s b).slots.get? i with
    | none => pickSlot c s rest
    | some sl =>
      match slotVerdict s c sl with
      | none => (s, .error sl)
      | some true => (s, .ok { version := sl.version, len := sl.valueLen, place := some (b, i) })
      | some false => pickSlot c (raise s 0x4001 4 domIdx (pl [(4, b), (1, i)])) rest

/-- The index at a write (R108, R109). Two keys with one digest are not told apart: the later write takes the earlier key's
slot. -/
def indexFound (s : Blk) (c : Cmd) : Blk × Except BSlot Found :=
  let l := slotMatches s c.head.ns (digestOf s c.head.ns c.key)
  match pickSlot c s l with
  | (s, .ok f) => (s, .ok { f with place := f.place.or l.head? })
  | r => r

/-- The newest version of the key, in-flight writes included (R73, R120): the searches of R122 and R123, then the index;
`.error` with the slot whose key record is still to be read. -/
def currentOf (s : Blk) (c : Cmd) (pass : Bool) : Blk × Except BSlot Found :=
  match lockedSearch s c pass 4 [] with
  | (s, some (_, e)) => (s, .ok (foundStage s e))
  | (s, none) => indexFound s c

/-- R73. -/
def condHolds (h : Head) (cur : Nat) : Bool :=
  match h.cond with
  | 0 => true
  | 1 => decide (cur = h.expect)
  | 2 => decide (cur = 0)
  | _ => decide (cur ≠ 0)

/-- R105: the lowest free slot of the home bucket, then of the three that follow. -/
def freeSlotNear (s : Blk) (home : Nat) : Option (Nat × Nat) :=
  (List.range 4).findSome? fun j =>
    let b := (home + j) % 2 ^ 30
    ((List.range 40).find? fun i => !((dirOf s b).fp.has i)).map fun i => (b, i)

/-- R94: NAMESPACE_FULL and KEY_CAPACITY, decided with the condition; 0 when neither applies. A run for which the 2^40 LGAs have no
room is answered as NAMESPACE_FULL (DESIGN CHOICE, log entry 46). -/
def quotaCause (s : Blk) (x : Namespace) (c : Cmd) (f : Found) : Nat :=
  if c.opcode = 0x03 ∧ x.byteQuota ≠ 0 ∧ x.byteQuota + f.len < x.bytes + c.head.valueLen then stNsFull
  else if c.opcode ≠ 0x04 ∧ f.version = 0 ∧ ((x.keyQuota ≠ 0 ∧ x.keyQuota ≤ x.keys) ∨ 2 ^ 35 ≤ s.idx.keys) then stKeyCapacity
  else if c.opcode ≠ 0x04 ∧ lgaRoom s (4096 + grainsOf c.head.valueLen) = false then stNsFull
  else 0

/-! ### Gears and the derailleur (R186-R188) -/

/-- E of R186. -/
def prefixHash (x : Namespace) (key : Bytes) : Nat := (sipHash128 x.sipKey (key.take x.prefixLen)).toNat

/-- log2 in unsigned 8.8, truncated. -/
def log2fix (a : Nat) : Nat := Nat.log2 (a ^ 256)

/-- B0, B1 and B2 in 8.8 (R187, R300). -/
def bands (s : Blk) : Nat × Nat × Nat := (s.loops.b0now.getD (target s 0x05), target s 0x06, target s 0x07)

/-- R187. -/
def gearOf (s : Blk) (x : Namespace) (c : Cmd) : Nat :=
  let e := prefixHash x c.key
  let t := s.med.der.getD (e % 4096) {}
  let b := bands s
  if c.opcode = 0x12 then 3
  else if s.loops.held.getD (65536 + c.head.ns) x.directMin ≤ c.head.valueLen then 4
  else if x.pinnedGear ≠ 0xFF then x.pinnedGear
  else if t.ptag = e / 4096 % 2 ^ 20 ∧ 8 ≤ t.samples then
    if t.logage < b.1 then 0 else if t.logage < b.2.1 then 1 else if t.logage < b.2.2 then 2 else 3
  else 1

/-- R188: a value of age `a` has ended. -/
def derUpdate (s : Blk) (x : Namespace) (key : Bytes) (a : Nat) : Blk :=
  let e := prefixHash x key
  let p := e / 4096 % 2 ^ 20
  let t := s.med.der.getD (e % 4096) {}
  let l := log2fix a
  let t' : Der :=
    if t.ptag = p then
      { t with logage := ((t.logage : Int) + ((l : Int) - t.logage).tdiv 16).toNat, samples := min 4095 (t.samples + 1)
               writes := min 65535 (t.writes + 1) }
    else if t.samples < 8 then { ptag := p, logage := l, samples := 1, writes := 0 }
    else { t with samples := t.samples - 1 }
  { s with med := { s.med with der := s.med.der.set (e % 4096) t' } }

/-! ### Cells of a committed write (R21, R137, R250) -/

/-- Part-table entries (R176), in the order of their commit points: where two parts hold a grain, the later has it (R76). -/
def partTable (ps : List Part) : Bytes := ps.flatMap fun p => leBytes 4 p.grain ++ leBytes 4 p.grains ++ slice p.sealv 0 32

/-- The key record of a staged write as cells to the cluster. -/
def recordCells (r : Rt) (x : Stage) : List Cell :=
  keyCells { r with next := 0x5, cf := 0, grain := 0 } (padTo 16 (keyRecord x.ns x.key x.version x.valueLen))

/-- A commit record is encrypted once every part has its seal, which its part table holds (R177). -/
def pushCommit (s : Blk) (r : Nat) : Blk :=
  match s.idx.stages.get? r with
  | none => s
  | some x =>
    if x.kind ≠ 3 ∨ x.partTable ≠ [] ∨ ¬ x.parts.all (fun p => p.sealv.length = 32) then s
    else
      match cmdOf s x.slot with
      | some c =>
        let s := modStage s r fun y => { y with partTable := partTable x.parts }
        sendCells s (recordCells (cmdRt c) x)
      | none => s

/-- The cells of a write past its commit point; a DELETE has none. -/
def pushCells (s : Blk) (slot r : Nat) : Blk :=
  match cmdOf s slot, s.idx.stages.get? r with
  | some c, some x =>
    let rt := { cmdRt c with next := 0x5 }
    if x.kind = 1 then sendCells s (recordCells rt x ++ plainCells rt 0 c.value)
    else if x.kind = 3 then pushCommit s r else s
  | _, _ => s

/-! ### The commit point (R72, R79, R120) -/

/-- The commit notice to the partner (R277 class 0x07). -/
def sendNotice (s : Blk) (x : Stage) (bodies : Nat) : Blk :=
  tandemSend s 0x6 0x07 (x.version % 2 ^ 32) 0 0
    (beBytes 8 x.version ++ beBytes 2 x.ns ++ [BitVec.ofNat 8 x.kind, BitVec.ofNat 8 x.gear] ++ beBytes 16 x.digest.toNat
      ++ beBytes 8 x.valueLen ++ beBytes 4 bodies)

/-- Whether a namespace's writes go to the partner (R272, R279). -/
def mirrors (s : Blk) (ns : Nat) : Bool := s.tdm.paired && ((nsOf s ns).map (·.mirrored)).getD false

def kindOf (op : Nat) : Nat := if op = 0x03 then 1 else if op = 0x04 then 2 else 3

/-- What a commit changes in the counts of its namespace and of the device (R94, R106). -/
def commitCounts (s : Blk) (x : Namespace) (c : Cmd) (f : Found) : Blk :=
  let new := decide (c.opcode ≠ 0x04) && decide (f.version = 0)
  let bytes := if c.opcode = 0x03 then x.bytes + c.head.valueLen - f.len else x.bytes - f.len
  let dk := fun (n : Nat) => if c.opcode = 0x04 then n - 1 else if new then n + 1 else n
  let s := setNs s c.head.ns { x with bytes := bytes, keys := dk x.keys }
  { s with idx := { s.idx with keys := dk s.idx.keys } }

/-- Steps 3 to 5 of R120 and what the commit point brings with it. -/
def commitFn (s : Blk) (slot ea : Nat) (c : Cmd) (x : Namespace) (f : Found) (b i : Nat) : Blk :=
  let d := digestOf s c.head.ns c.key
  let home := homeOf d
  let kind := kindOf c.opcode
  let gear := gearOf s x c
  let up := uploadOf s c
  let w := takeWseq s
  let v := w.1
  let rank := s.idx.next
  let n := if kind = 1 then grainsOf c.head.valueLen else 0
  let ps := if kind = 3 then (partsWon ((up.map (·.parts)).getD [])).filterMap fun p => if p.2 = [] then none else some p.1 else []
  let kr := keyRecLen c.key.length
  let pt := (40 * ps.length + 48 + kr - 4112 + 4111) / 4112
  let l := if kind = 2 then (0, w.2) else takeLga w.2 c.head.ns gear (if kind = 3 then 1 + pt else 1 + n)
  let st : Stage := { ns := c.head.ns, tenant := c.tenant, key := c.key, kind := kind, version := v, valueLen := c.head.valueLen
                      home := home, bslot := (b, i), gear := gear, lga := l.1, count := n, slot := slot
                      upload := if kind = 3 then c.head.uploadId else 0, digest := d
                      dataLga := if kind = 3 then (up.map (·.dataLga)).getD 0 else l.1 + 1, parts := ps }
  let a := addStage l.2 st
  let s := a.2
  let runs := if kind = 3 then [(l.1, 1 + pt), (st.dataLga, grainsOf c.head.valueLen)] else [(l.1, 1 + n)]
  let word := camWord d c.head.ns kind
  let s := setCam s ea { word := word, copy := word, shadow := word, rank := rank, version := v, slot := slot, stage := a.1 }
  let s := { s with
    idx := { s.idx with next := rank + 1 }
    med := { s.med with
      runs := if kind = 2 then s.med.runs else s.med.runs.set l.1 runs
      commits := s.med.commits + 1, allBytes := s.med.allBytes + (if kind = 1 then c.head.valueLen else 0)
      gear0Bytes := s.med.gear0Bytes + (if kind = 1 ∧ gear = 0 then c.head.valueLen else 0) }
    cmd := { s.cmd with uploads := if kind = 3 then s.cmd.uploads.del c.head.uploadId else s.cmd.uploads } }
  let s := modDir s home fun e => { e with pending := e.pending + 1, spill := max e.spill ((b + 2 ^ 30 - home) % 2 ^ 30) }
  let s := modDir s b fun e => { e with fp := e.fp.set i (fingerprint d) }
  let s := commitCounts s x c f
  let s := if f.version ≠ 0 then derUpdate s x c.key (v - f.version) else s
  let s := commitTag (modCmd s slot fun c => { c with stage := some a.1, entry := some ea, version := v, gear := gear }) slot
  let s := judgeFull (wseqGuard s)
  let s := if kind = 2 ∧ mirrors s c.head.ns then sendNotice s st 0 else s
  let s := if kind = 2 then tryComplete (journal s (.slotClear b i)) a.1 else pushCells s slot a.1
  if 2 ^ 64 - 2 ^ 24 ≤ v then enterKickstand (raise s 0xE086 7 domSafe []) 8 0 false else s

/-- The write gives its reserved entry back and waits for a retirement or for the renormaliser (R116, R120). -/
def releaseEntry (s : Blk) (slot : Nat) : Blk := judgeFull (modCmd s slot fun c => { c with entry := none })

/-- R120 under the condition lock: the condition, the quotas and the slot are decided, then the write commits. -/
def decideWrite (s : Blk) (slot ea : Nat) (c : Cmd) (f : Found) : Blk :=
  match nsOf s c.head.ns with
  | none => failCmd s slot stStateConflict 0x46 0
  | some x =>
    let home := homeOf (digestOf s c.head.ns c.key)
    let q := quotaCause s x c f
    if condHolds c.head f.version = false then failCmd s slot stVersionMismatch 0 f.version
    else if c.opcode = 0x04 ∧ f.version = 0 then failCmd s slot stNotFound 0 0
    else if q ≠ 0 then failCmd s slot q 0 0
    else
      match f.place.or (freeSlotNear s home) with
      | none => failCmd (raise s 0x4002 4 domIdx (pl [(4, home)])) slot stKeyCapacity 0 0
      | some (b, i) =>
        if 4095 ≤ (dirOf s home).pending then releaseEntry s slot
        else if 0xFFFFFF ≤ s.idx.next then
          let s := releaseEntry s slot
          if s.idx.renormHeld then s
          else raise { s with idx := { s.idx with renormHeld := true } } 0x5006 4 (domSrch 0) []
        else commitFn s slot ea c x f b i

/-- The entry a write goes on with: the one it holds while that may still take an insert, else a free one unless others wait
before it (R120, R125). -/
def heldEntry (s : Blk) (c : Cmd) : Option Nat :=
  match c.entry.filter (entryUsable s) with
  | some e => some e
  | none => if s.idx.waiters.isEmpty ∨ c.entry.isSome then writeEntry s else none

/-- The write waits for an entry: at the tail, or at the head when it has lost the one it held (R125). -/
def waitEntry (s : Blk) (slot : Nat) (c : Cmd) : Blk :=
  if s.idx.waiters.contains slot then s
  else
    let s := { s with idx := { s.idx with waiters := if c.entry.isSome then slot :: s.idx.waiters else s.idx.waiters ++ [slot] } }
    judgeFull (modCmd s slot fun c => { c with entry := none })

/-- The bucket pages of the candidates are brought into the cache. -/
def fetchPages (s : Blk) (bs : List Nat) : Blk :=
  forEach (bs.filter fun b => !readingPage s b) (fun s b =>
    startRead s (dirOf s b).pageLoc (some { kind := 4, lga := b }) (.bucketPage b)) s

/-- The key record of a candidate is being read for the command, into the place of its head LGA. -/
def readingHead (s : Blk) (slot : Nat) (sl : BSlot) : Bool :=
  s.med.reads.vals.any fun x => decide (x.why = .keyRecord slot (locHead sl.loc))

/-- WRITE_RESERVATION: a free entry is reserved, or the write waits for one in its order (R120, R125). The pages of the
candidate buckets and the key records its lookup needs are read before the lock is taken; once all are in, the write is decided
in one step. -/
def writeReservationFn (slot : Nat) (pass : Bool) (s : Blk) : Blk :=
  match cmdOf s slot with
  | none => s
  | some c =>
    if c.phase ≠ .reserving then s
    else
      let cause := if c.opcode = 0x12 then commitCause s c else 0
      if cause ≠ 0 then judgeFull (failCmd s slot cause 0 0)
      else
        match heldEntry s c with
        | none => waitEntry s slot c
        | some ea =>
          let held := judgeFull (modCmd s slot fun c => { c with entry := some ea })
          let away := pagesAway s (digestOf s c.head.ns c.key)
          if away ≠ [] then fetchPages held away
          else
            match currentOf s c pass with
            | (s, .ok f) => judgeFull (decideWrite s slot ea c f)
            | (_, .error sl) => if readingHead s slot sl then held else readHead held slot (locHead sl.loc) sl

def execWriteReservation (slot : Nat) (comparePass : Bool) (s : State) : Host.Outcome State Fault Refusal :=
  lift (writeReservationFn slot comparePass) s

end Sys2Proof.Machine
end

