-- ==== Sys2Proof/Machine/Cells.lean ====
section
/-! DEFINITION. Cells reaching an engine (R15-R19) and the cipher cluster (R127-R146): route-tag checks, key isolation, pair
disagreements, key pages and invocation counters, encryption and decryption of extents, staging, and the re-read after a
failure. -/

namespace Sys2Proof.Machine

/-! ### Invocation counters (R139-R141) -/

/-- The reservation record of a counter (R140): page, side and TOP, under AES-CMAC (R131; layout: log entry 44). -/
def ctrRecord (s : Blk) (n side top : Nat) : Bytes :=
  let b := leBytes 2 n ++ [BitVec.ofNat 8 side] ++ zeros 5 ++ leBytes 8 top
  b ++ aesCmac s.cip.cmac b

/-- TOP that a record in the pannier names, when its CMAC is good; 0 else. -/
def recordTop (s : Blk) (n side : Nat) : Nat :=
  match s.cip.ctrRecs.get? (2 * n + side) with
  | some b => if aesCmac s.cip.cmac (b.take 16) = slice b 16 16 ∧ leAt b 0 2 = n ∧ leAt b 2 1 = side then leAt b 8 8 else 0
  | none => 0

/-- R140: at TOP − 2^18 the counter's TOP is raised by 2^20 and its record is on its way; the partner is told. -/
def reserveBlock (s : Blk) (n side : Nat) : Blk :=
  match s.cip.pages.get? n with
  | none => s
  | some p =>
    if topOf p side ≤ ctrOf p side + 262144 ∧ ¬ s.cip.reserving.any (fun e => e.1 = n ∧ e.2.1 = side) then
      let q := withTop p side (topOf p side + 1048576)
      let s := setPage s n q
      tandemSend { s with cip := { s.cip with reserving := s.cip.reserving ++ [(n, side, topOf q side)] } } 0x6 0x05 n 0 0
        (beBytes 8 q.top0 ++ beBytes 8 q.top1 ++ [1#8])
    else s

/-- The ceiling a counter may use: the block whose record is still being written does not count (R140). -/
def usableTop (s : Blk) (n side : Nat) (p : KeyPage) : Nat :=
  if s.cip.reserving.any (fun e => e.1 = n ∧ e.2.1 = side) then topOf p side - 1048576 else topOf p side

/-- A page's STATE has changed: HBM, the flash image, and the partner's copy (R132, R279). -/
def stateChanged (s : Blk) (n : Nat) (p : KeyPage) : Blk := sendPage (flashPage (setPage s n p) n) n

/-- R141: what a counter's new value brings. -/
def judgeCounter (s : Blk) (n : Nat) : Blk :=
  match s.cip.pages.get? n with
  | none => s
  | some p =>
    let c := max p.ctr0 p.ctr1
    if 2 ^ 40 ≤ c ∧ p.state ≠ 3 then
      let s := raise (stateChanged s n { p with state := 3 }) 0x6008 5 domNone (pl [(2, n)])
      judgeNs { s with nss := s.nss.mapVal fun _ x => if x.tenant = n then { x with exhausted := true } else x }
    else if 2 ^ 36 ≤ c ∧ p.state = 1 then raise (stateChanged s n { p with state := 2 }) 0x6007 3 domNone (pl [(2, n)])
    else s

/-- Take one invocation counter value for an extent (R139): IV and generation, or none while the counter would reach the end of its
block (R140). -/
def takeIv (s : Blk) (n : Nat) : Option (Bytes × Nat × Blk) :=
  let side := sideBit s
  match s.cip.pages.get? n with
  | none => none
  | some p =>
    if usableTop s n side p ≤ ctrOf p side + 1 then none
    else
      let v := ctrOf p side
      let s := setPage s n (withCtr p side (v + 1))
      some (ivOf s.boot.serial.toNat side v, p.genCur, judgeCounter (reserveBlock s n side) n)

/-- Cells that wait for a page go on, ahead of later ones. -/
def freeWaiting (s : Blk) (n : Nat) : Blk :=
  let mine := (s.cip.waiting.filter fun e => e.1 = n).map Prod.snd
  { s with cip := { s.cip with waiting := s.cip.waiting.filter (fun e => e.1 ≠ n), fabric := mine ++ s.cip.fabric } }

/-- R140: the reservation record is in the pannier, and the page's flash image names the new TOP. -/
def counterReserved (n side : Nat) (s : Blk) : Blk :=
  match s.cip.reserving.find? (fun e => e.1 = n ∧ e.2.1 = side) with
  | some (_, _, top) =>
    let s := { s with cip := { s.cip with
      reserving := s.cip.reserving.filter fun e => ¬ (e.1 = n ∧ e.2.1 = side)
      ctrRecs := s.cip.ctrRecs.set (2 * n + side) (ctrRecord s n side top) } }
    freeWaiting (reserveBlock (flashPage s n) n side) n
  | none => s

def execCounterReservationDone (page : Nat) (side : Fin 2) (s : State) : Host.Outcome State Fault Refusal :=
  lift (counterReserved page side.val) s

/-! ### A command stopped by a fault of its cells (R17, R134) -/

/-- What the key had before a write that is withdrawn: its newest other in-flight entry, else its slot. -/
def olderOf (s : Blk) (c : Cmd) : Found :=
  match bestOf (s.idx.cam.filter fun p => maskHit (maskOf s 0) (searchWord s c) p.2.shadow && stageIs s p.2 c) with
  | some (_, e) => foundStage s e
  | none => match (indexFound s c).2 with | .ok f => f | .error sl => { version := sl.version, len := sl.valueLen }

/-- Take a write that cannot go on out of the in-flight table, with its counts (R382; log entry 21). -/
def withdrawWrite (s : Blk) (slot : Nat) : Blk :=
  match (cmdOf s slot).bind (·.stage) with
  | none => s
  | some r =>
    match s.idx.stages.get? r, cmdOf s slot with
    | some x, some c =>
      if c.phase ≠ .committed then s
      else
        let drop := fun (s : Blk) => { s with idx := { s.idx with stages := s.idx.stages.del r } }
        if x.kind = 4 then
          match s.cmd.uploads.get? x.upload with
          | some u =>
            let v := { u with parts := u.parts.filter fun p => p.stage ≠ r }
            drop (modNs (setUpload s x.upload v) x.ns fun y => { y with bytes := y.bytes + uploadBytes v - uploadBytes u })
          | none => drop s
        else
          match s.idx.cam.find? fun p => p.2.stage = r with
          | none => s
          | some (ea, _) =>
            let s := drop { s with idx := { s.idx with cam := s.idx.cam.del ea } }
            let s := modDir s x.home fun d => { d with pending := d.pending - 1 }
            let f := olderOf s c
            let s := if f.version = 0 ∧ (dirOf s x.bslot.1).slots.has x.bslot.2 = false then
                modDir s x.bslot.1 fun d => { d with fp := d.fp.del x.bslot.2 } else s
            let dk := fun (n : Nat) => if x.kind = 2 then n + 1 else if f.version = 0 then n - 1 else n
            let now := if x.kind = 2 then 0 else x.valueLen
            let s := modNs s x.ns fun y => { y with bytes := y.bytes + f.len - now, keys := dk y.keys }
            let s := { s with idx := { s.idx with keys := dk s.idx.keys } }
            let s := if x.kind = 2 then s else
              forEach (s.med.runs.getD x.lga []) (fun s e => unmapRun s e.1 e.2) { s with med := { s.med with runs := s.med.runs.del x.lga } }
            judgeFull (bankEmptied s (ea / 8192))
    | _, _ => s

/-- The command that owns a slot completes with DEVICE_FAULT (R17). -/
def faultSlot (s : Blk) (slot : Nat) : Blk := failCmd (withdrawWrite s slot) slot stDeviceFault 0 0

/-- R135: a page that neither HBM nor flash gives takes its tenant's namespaces OFFLINE. -/
def pageLost (s : Blk) (n : Nat) : Blk :=
  let s := raise s 0x600A 6 domNone (pl [(2, n)])
  let s := judgeNs { s with nss := s.nss.mapVal fun _ x => if x.tenant = n then { x with keyOffline := true } else x }
  let slots := ((s.cip.waiting.filter fun e => e.1 = n).map fun e => (rtOf e.2.rt).slot).eraseDups
  forEach slots faultSlot { s with cip := { s.cip with waiting := s.cip.waiting.filter fun e => e.1 ≠ n } }

/-- The page is in the cache: its cells go on. -/
def pageCached (s : Blk) (n : Nat) (p : KeyPage) : Blk := freeWaiting (cacheLine s (lineOf s n p)) n

/-- KEY_PAGE_FETCH: the page of HBM, or its flash image when the page is not sound, is unwrapped into the cache (R135). A page
that no tenant has is free (R132). -/
def keyPageFetchFn (n : Nat) (s : Blk) : Blk :=
  let s := useCluster s
  match s.cip.pages.get? n with
  | none => pageCached s n {}
  | some p =>
    if pageSound s p then pageCached s n p
    else
      match (s.cip.flashPages.get? n).map (imagePage s n) with
      | some q => if pageSound s q then pageCached { s with cip := { s.cip with pages := s.cip.pages.set n q } } n q else pageLost s n
      | none => pageLost s n

def execKeyPageFetch (page : Nat) (s : State) : Host.Outcome State Fault Refusal := lift (keyPageFetchFn page) s

/-! ### Pairs (R127-R130) -/

def pairsIn (s : Blk) (c : Nat) : List Nat := (List.range 8).filter fun i => s.cip.pairs.getLsbD (8 * c + i)

/-- A pair that disagreed leaves service until the next start (R130). -/
def retirePair (s : Blk) (c i : Nat) : Blk :=
  let s := { s with cip := { s.cip with pairs := s.cip.pairs &&& ~~~(1#128 <<< (8 * c + i)) } }
  let s := raise s 0x6001 5 (domCiph c) (pl [(1, c), (1, i)])
  if (pairsIn s c).isEmpty then raise s 0x6009 6 (domCiph c) (pl [(1, c)]) else s

/-- `n` disagreements on one block: each is on a pair of the cluster, or of another cluster when none is left; which pair, the
manual leaves open (`Config.retryPair`). -/
def disagreeOn : Nat → Blk → Nat → Blk
  | 0, s, _ => s
  | n + 1, s, c =>
    let here := (pairsIn s c).map fun i => 8 * c + i
    let all := if here.isEmpty then (List.range 128).filter fun i => s.cip.pairs.getLsbD i else here
    match all[Config.retryPair s.drawn % all.length]? with
    | none => s
    | some p => disagreeOn n (retirePair { s with drawn := s.drawn + 1 } (p / 8) (p % 8)) c

/-- The third pair that disagrees on one block is cause 0x02 (R130, R385). -/
def disagreements (s : Blk) (c n : Nat) : Blk :=
  let s := disagreeOn (min n 3) s c
  if 3 ≤ n then enterKickstand (raise s 0x600B 7 (domCiph c) (pl [(1, c)])) 2 0 false else s

/-- R134: a core finds a tenant or a kind that does not go with the key page. -/
def isolationMismatch (s : Blk) (c : Nat) (r : Rt) : Blk := faultSlot (isolationEvent s (domCiph c) r.keyPage r.tenant) r.slot

/-- The pairing of kind and key that R133 allows: key bytes, value data and check fields use a tenant key page, which must be the
tenant's and not free (R134); index pages and journal records use the system keys alone. -/
def keyAllowed (s : Blk) (r : Rt) : Bool :=
  if r.kind = 4 ∨ r.kind = 7 then true
  else
    (r.kind == 1 || r.kind == 2 || r.kind == 3) &&
      (match cachedLine s r.keyPage with
       | some l => l.owner == r.tenant && l.state != 0
       | none => false)

/-! ### Units of work (R128) -/

def setUnit (s : Blk) (n : Nat) (u : CUnit) : Blk := { s with cip := { s.cip with units := s.cip.units.set n u } }
def endUnit (s : Blk) (n : Nat) : Blk := { s with cip := { s.cip with units := s.cip.units.del n } }

/-- A cell's bytes join the unit: the key record, or the grain being received. The flag tells that a grain is complete. -/
def feedUnit (u : CUnit) (r : Rt) (b : Bytes) (cells : Nat) : CUnit × Option Bytes :=
  if r.kind = 3 then ({ u with kr := u.kr ++ b }, none)
  else
    let cur := u.cur ++ b
    if r.cell + 1 = cells then ({ u with cur := [] }, some cur) else ({ u with cur := cur }, none)

/-! ### Encryption (R137-R142) -/

/-- The extent kind and BIND of a staged write (R137). -/
def stageBind (x : Stage) : Nat × Nat :=
  if x.kind = 4 then (2, x.upload * 2 ^ 32 + x.partGrain) else if x.kind = 3 then (3, x.version) else (1, x.version)

/-- Padded key-record bytes of a staged write's extent. -/
def stageKr (x : Stage) : Nat := if x.kind = 4 then 0 else keyRecLen x.key.length

/-- The whole extent is in: it is encrypted, its seal written, and its ciphertext sent to HBM staging (R142). -/
def sealExtent (s : Blk) (slot ref : Nat) (r : Rt) (x : Stage) (u : CUnit) : Blk :=
  match dataKey s x.tenant x.sealGen with
  | none => faultSlot (endUnit s (unitOf s r)) slot
  | some k =>
    let ct := ctrXor k x.sealIv 0 (u.kr ++ u.bodies.flatten)
    let kb := stageBind x
    let tag := gcmTag k x.sealIv (extentAad x.ns x.tenant kb.1 x.valueLen kb.2 x.partTable) ct
    let s := modStage (endUnit s (unitOf s r)) ref fun y => { y with sealTag := tag }
    let r := { r with next := 0x8, cf := 1 }
    let bs := blocksOf 4112 (ct.drop (stageKr x))
    sendCells s (keyCells r (ct.take (stageKr x)) ++ (bs.zip (List.range bs.length)).flatMap fun e => grainCells r (x.partGrain + e.2) e.1)

/-- A plaintext cell of a write: the grain's check field is appended once its sixteen data cells are in (R142). -/
def encryptCell (s : Blk) (cell : Cell) (r : Rt) (u : CUnit) (fresh : Bool) : Blk :=
  match (cmdOf s r.slot).bind (·.stage) with
  | none => s
  | some ref =>
    let go := if fresh then takeIv s r.keyPage else some ([], 0, s)
    match go with
    | none => { reserveBlock s r.keyPage (sideBit s) with
        cip := { (reserveBlock s r.keyPage (sideBit s)).cip with waiting := s.cip.waiting ++ [(r.keyPage, cell)] } }
    | some (iv, gen, s) =>
      let s := if fresh then modStage s ref fun y => { y with sealIv := iv, sealGen := gen } else s
      match s.idx.stages.get? ref with
      | none => s
      | some x =>
        let f := feedUnit u r cell.payload 16
        let u := match f.2 with
          | some g => { f.1 with bodies := f.1.bodies ++ [g ++ checkField (r.grain % 65536) (r.version % 2 ^ 32) r.ns g] }
          | none => f.1
        let s := setUnit s (unitOf s r) u
        if u.kr.length = stageKr x ∧ u.bodies.length = x.count then sealExtent s r.slot ref r x u else s

/-! ### Decryption (R143, R144, R250) -/

/-- The reference version that the check fields of an extent hold (R250). -/
def refVersion (e : Extent) : Nat := if e.kind = 2 then e.bind / 2 ^ 32 else e.bind

/-- R143: the check field of a decrypted grain. -/
def checkGood (ns : Nat) (e : Extent) (g : Nat) (plain : Bytes) : Bool :=
  decide (plain.length = 4112) && decide (plain.drop 4096 = checkField (g % 65536) (refVersion e % 2 ^ 32) ns (plain.take 4096))

/-- R144: the tag of an extent whose last block has been decrypted. -/
def tagGood (s : Blk) (c : Cmd) (e : Extent) (keyCt : Bytes) (bodies : List Bytes) : Bool :=
  match dataKey s c.tenant e.gen with
  | some k => gcmTag k e.iv (extentAad c.head.ns c.tenant e.kind e.valueLen e.bind e.partTable) (keyCt ++ bodies.flatten) == e.tagv
  | none => false

/-- Ciphertext bodies of an extent's grains, in order, once every one of them has been decrypted. -/
def extentBodies (c : Cmd) (e : Extent) : Option (List Bytes) :=
  let gs := c.grains.filter fun g => e.first ≤ g.grain ∧ g.grain < e.first + e.grains
  if gs.length = e.grains ∧ gs.all (fun g => g.cf.isSome) then some (gs.map (·.body)) else none

/-- Give the verdict of extent `i` once its last block has been decrypted; what is left of a part has none (log entry 43). -/
def verdictOf (s : Blk) (slot i : Nat) : Blk :=
  match cmdOf s slot with
  | none => s
  | some c =>
    match c.extents[i]? with
    | none => s
    | some e =>
      if e.verdict ∨ (e.kind ≠ 2 ∧ e.keyDone = false) then s
      else
        match extentBodies c e with
        | none => s
        | some bs =>
          let s := endUnit s (slot * 2 ^ 20 + i)
          let c := { c with extents := c.extents.set i { e with verdict := true } }
          if e.torn then setCmd s slot c
          else if tagGood s c e e.keyCt bs then setCmd s slot { c with tagsOk := c.tagsOk + 1 }
          else
            let first := match c.tagFail with | some g => min g e.first | none => e.first
            let c := { c with tagFail := some first, extents := c.extents.set i { e with verdict := true, failed := true } }
            raise (setCmd s slot c) 0x6003 5 domNone (pl [(2, c.head.ns), (8, c.version)])

def verdicts (s : Blk) (slot : Nat) : Blk :=
  forEach (List.range (((cmdOf s slot).map (·.extents.length)).getD 0)) (fun s i => verdictOf s slot i) s

/-- A grain's seventeen cells are in: it is decrypted and its check field verified. -/
def grainDecrypted (s : Blk) (slot g : Nat) : Blk :=
  match cmdOf s slot with
  | none => s
  | some c =>
    match c.grains.find? (fun x => x.grain = g), extentOf c g with
    | some x, some e =>
      let ok := ((clearGrain s c x).map (checkGood c.head.ns e g)).getD false
      let c := { c with grains := c.grains.map fun y => if y.grain = g then { y with cf := some ok } else y
                        cfFail := if ok then c.cfFail else some (match c.cfFail with | some f => min f g | none => g) }
      let s := setCmd s slot c
      let s := if ok then s else raise s 0x6004 5 domNone (pl [(2, c.head.ns), (8, c.version), (4, g)])
      afterVerdict (verdicts s slot) slot
    | _, _ => s

/-- A ciphertext cell of a value or of its key record. -/
def decryptCell (s : Blk) (r : Rt) (u : CUnit) (b : Bytes) : Blk :=
  let f := feedUnit u r b 17
  let s := setUnit s (unitOf s r) f.1
  match cmdOf s r.slot with
  | none => s
  | some c =>
    if r.kind = 3 then
      match c.extents.findIdx? (fun e => e.kind ≠ 2 && !e.keyDone) with
      | some i =>
        let e := c.extents.getD i {}
        if f.1.kr.length < e.keyCt.length then s
        else
          let s := setCmd s r.slot { c with extents := c.extents.set i { e with keyDone := true } }
          afterVerdict (verdicts s r.slot) r.slot
      | none => s
    else if f.2.isSome then grainDecrypted s r.slot r.grain else s

/-- The cipher cluster acts on a cell (R128, R130, R134, R135). -/
def clusterCell (s : Blk) (cell : Cell) (r : Rt) (disagree : Nat) : Blk :=
  if (cachedLine s r.keyPage).isNone then
    { s with cip := { s.cip with waiting := s.cip.waiting ++ [(r.keyPage, cell)] } }
  else
    let fresh := (s.cip.units.get? (unitOf s r)).isNone
    let u := (s.cip.units.get? (unitOf s r)).getD { cluster := clusterFor s r, decrypt := decide (r.cf ≠ 0) }
    let s := (cachedLine s r.keyPage).elim s (cacheLine s)
    if keyAllowed s r = false then isolationMismatch s u.cluster r
    else
      let s := disagreements s u.cluster disagree
      if 3 ≤ disagree then s
      else if r.cf = 0 then encryptCell s cell r u fresh
      else decryptCell s r u cell.payload

/-! ### Staging and the spoke engine -/

/-- The grains of a staged write as they go to the medium (R176-R179). -/
def runGrains (ref : Nat) (x : Stage) : List SGrain :=
  let sealB := sealBytes x.sealIv x.sealGen x.sealTag
  let base : SGrain := { digest := x.digest, version := if x.kind = 4 then 0 else x.version, stage := some ref }
  if x.kind = 4 then
    (List.range x.count).map fun i =>
      { base with lga := x.lga + i, kind := 1, body := x.grains.getD (x.partGrain + i) [], grain := x.partGrain + i, pos := i }
  else
    let total := if x.kind = 3 then grainsOf x.valueLen else x.count
    let head := headBody sealB x.dataLga (x.partTable.length / 40) x.upload x.keyCt x.partTable
    let more := x.partTable.drop (4112 - 48 - x.keyCt.length)
    { base with lga := x.lga, kind := 2, body := head, grain := total } ::
      (if x.kind = 3 then
        let bs := blocksOf 4112 more
        (bs.zip (List.range bs.length)).map fun e => { base with lga := x.lga + 1 + e.2, kind := 3, body := slice e.1 0 4112, pos := 1 + e.2 }
      else (List.range x.count).map fun i =>
        { base with lga := x.lga + 1 + i, kind := 1, body := x.grains.getD i [], grain := i, pos := 1 + i })

/-- One codeword body to the partner in 18 flits (R277 class 0x10). -/
def sendBody (s : Blk) (obj body : Nat) (b : Bytes) : Blk :=
  forEach (List.range 18) (fun s i => tandemSend s 0x7 0x10 obj body i (slice (b.drop (240 * i)) 0 (min 240 (4112 - 240 * i)))) s

/-- R279: the ciphertext bodies of an extent of a MIRRORED namespace, with the commit notice. -/
def mirrorExtent (s : Blk) (x : Stage) (gs : List SGrain) : Blk :=
  if mirrors s x.ns = false ∨ x.mirror then s
  else if x.kind = 4 then forEach gs (fun s g => sendBody s x.upload (1 + g.grain) g.body) s
  else forEach gs (fun s g => sendBody s (x.version % 2 ^ 32) g.pos g.body) (sendNotice s x gs.length)

/-- GETs that wait for a staged write go on (R122, R281). -/
def wakeReaders (s : Blk) : Blk :=
  forEach ((s.cmd.slots.filter fun e => e.2.entry.isSome && (match e.2.phase with | .searching _ _ => true | _ => false)).map Prod.fst)
    (fun s slot => searchResult slot s) s

/-- The seal of a part is known: its upload and a commit that names it hold it. -/
def noteSeal (s : Blk) (ref : Nat) (x : Stage) : Blk :=
  let sealB := sealBytes x.sealIv x.sealGen x.sealTag
  let put := fun (ps : List Part) => ps.map fun p => if p.stage = ref then { p with sealv := sealB } else p
  let s := { s with cmd := { s.cmd with uploads := match s.cmd.uploads.get? x.upload with
    | some u => s.cmd.uploads.set x.upload { u with parts := put u.parts }
    | none => s.cmd.uploads } }
  let s := { s with idx := { s.idx with stages := s.idx.stages.mapVal fun _ y => { y with parts := put y.parts } } }
  let s := match (s.cmd.uploads.get? x.upload).bind fun u => u.parts.find? fun p => p.stage = ref with
    | some p => sendPart s x.upload p
    | none => s
  forEach s.idx.stages.keys pushCommit s

/-- The staged write of a command goes to stripe assembly, which reads staging through its own ports (R21 step 7, R25). -/
def assembleCmd (s : Blk) (slot : Nat) : Blk :=
  match ((cmdOf s slot).bind (·.stage)).bind fun r => (s.idx.stages.get? r).map fun x => (r, x) with
  | some (ref, x) => if x.encrypted then wakeReaders (tryComplete (assignRun s x.ns x.gear hostStream (runGrains ref x)) ref) else s
  | none => s

/-- The tandem controller sends the staged write of a command to the partner (R279). -/
def mirrorCmd (s : Blk) (slot : Nat) : Blk :=
  match ((cmdOf s slot).bind (·.stage)).bind fun r => (s.idx.stages.get? r).map fun x => (r, x) with
  | some (ref, x) => if x.encrypted then mirrorExtent s x (runGrains ref x) else s
  | none => s

/-- A ciphertext cell reaches HBM staging; with the last one the write goes on to the redundancy engine, and of a MIRRORED
namespace to the tandem controller (R21 steps 6 and 7, R279). -/
def stageCell (s : Blk) (r : Rt) (b : Bytes) : Blk :=
  match (cmdOf s r.slot).bind (·.stage) with
  | none => s
  | some ref =>
    let s := modStage s ref fun y =>
      if r.kind = 3 then { y with keyCt := y.keyCt ++ b } else { y with grains := y.grains.upd r.grain [] (· ++ b) }
    match s.idx.stages.get? ref with
    | none => s
    | some x =>
      if x.encrypted ∨ x.keyCt.length ≠ stageKr x ∨ x.grains.length ≠ x.count ∨ ¬ x.grains.vals.all (fun g => g.length = 4112) then s
      else
        let x := { x with encrypted := true }
        let s := modStage s ref fun _ => x
        let s := if x.kind = 4 then noteSeal s ref x else s
        let go := fun (n : Nat) => cellOf { r with next := n, kind := 0x0, cell := 0 } []
        sendCells s ((if mirrors s x.ns then [go 0x9] else []) ++ [go 0x6])

/-- A part that is still in staging serves a grain that the map does not name yet. -/
def stagedPart (s : Blk) (lga : Nat) : Option Bytes :=
  (s.idx.stages.vals.find? fun x => x.kind = 4 ∧ x.retired = false ∧ x.encrypted ∧ x.lga ≤ lga ∧ lga < x.lga + x.count).bind fun x =>
    x.grains.get? (x.partGrain + (lga - x.lga))

/-- A request for a value grain reaches the spoke media engine (R20 step 6). -/
def grainRequest (s : Blk) (slot g : Nat) : Blk :=
  match cmdOf s slot with
  | none => s
  | some c =>
    match grainLga c g with
    | none => s
    | some lga =>
      match stagedPart s lga with
      | some b => grainArrived s slot g b
      | none => readLga s lga (some { kind := 1, lga := lga, ns := c.head.ns, grain := g }) (.valueGrain slot g)

/-- A released cell leaves through rim egress; zeros from a failing point on; the last one ends the response (R70). -/
def egressCell (s : Blk) (r : Rt) (b : Bytes) : Blk :=
  match cmdOf s r.slot with
  | none => s
  | some c =>
    if c.phase ≠ .streaming then s
    else
      let s := streamBody s r.slot (if c.tagFail.isSome ∨ badFrom c r.grain then zeros b.length else b)
      if r.last then finishValue s r.slot else s

/-- SOURCE of an engine by its NEXT_STAGE code (R14, R17, R22). -/
def stageDomain (s : Blk) (r : Rt) : Nat :=
  match r.next with
  | 0x0 => domRim (((cmdOf s r.slot).map (·.eg.port)).getD 0)
  | 0x1 => domXpt
  | 0x2 => domCmd
  | 0x3 => domSrch 0
  | 0x4 => domIdx
  | 0x5 => domCiph (clusterFor s r)
  | 0x7 => domSpke (grainSpoke s r)
  | 0x9 => domTdm
  | 0xA => domHub
  | 0xB => domPcie
  | _ => domNone

/-- The cells of one command to one engine arrive in the order in which they were sent, and so do all cells to the transport
engine: the oldest such cell. -/
def takeCell (s : Blk) (i : Nat) : Option (Cell × Blk) :=
  match s.cip.fabric[i]? with
  | none => none
  | some c =>
    let r := rtOf c.rt
    let j := s.cip.fabric.findIdx fun x => (rtOf x.rt).next = r.next ∧ ((rtOf x.rt).slot = r.slot ∨ r.next = 0x1)
    (s.cip.fabric[j]?).map fun x => (x, { s with cip := { s.cip with fabric := s.cip.fabric.eraseIdx j } })

/-- A command's cell reaches the in-flight key table or the key index engine: its search, its lookup or its wait for a
reservation begins (R20, R21). -/
def beginAt (s : Blk) (slot : Nat) (p : Cmd → Phase) : Blk :=
  match cmdOf s slot with
  | some c => if c.phase = .handed then setCmd s slot { c with phase := p c } else s
  | none => s

/-- A completion cell arrives damaged: its command completes with DEVICE_FAULT and what R69 reports beside it (R17). -/
def faultDue (s : Blk) (r : Rt) (tr : Bytes) : Blk :=
  answerDue s r.session r.tag (trailer (stDeviceFault, beAt tr 2 1, beAt tr 3 1, 0, beAt tr 8 8))

/-- An engine rejects a cell (R17). A damaged tag may misname SLOT or NEXT_STAGE: the engine and the command charged are those of
the tag as it was sent (DESIGN CHOICE, log entry 44). -/
def rejectCell (s : Blk) (sent : Cell) : Blk :=
  let r := rtOf sent.rt
  let s := raise s (stageNibble r.next * 4096 + 0x0F1) 6 (stageDomain s r) []
  if r.next = 0x1 then faultDue s r sent.payload else faultSlot s r.slot

/-- A cell reaches an engine (R15-R18): `flip` are tag bits damaged on the way, `disagree` the pairs that disagreed on its
block. No cell goes to the command engine or, for the model, to the crank (log entry 44). -/
def cellArrivalFn (i : Nat) (flip : RouteTag) (disagree : Nat) (s : Blk) : Blk :=
  match takeCell s i with
  | none => s
  | some (sent, s) =>
    let cell := { sent with rt := sent.rt ^^^ flip }
    let r := rtOf cell.rt
    if rtGood cell.rt = false then rejectCell s sent
    else
      match r.next with
      | 0x0 => egressCell s r cell.payload
      | 0x1 => answerDue s r.session r.tag cell.payload
      | 0x3 => beginAt s r.slot fun _ => .searching [] false
      | 0x4 => beginAt s r.slot fun c => if isReadOp c.opcode then .lookup else .reserving
      | 0x5 => clusterCell s cell r disagree
      | 0x6 => assembleCmd s r.slot
      | 0x7 => grainRequest s r.slot r.grain
      | 0x8 => stageCell s r cell.payload
      | 0x9 => mirrorCmd s r.slot
      | 0xA => hubSubmit s r.slot
      | _ => s

def execCellArrival (i : Nat) (flip : RouteTag) (disagree : Nat) (s : State) : Host.Outcome State Fault Refusal :=
  lift (cellArrivalFn i flip disagree) s

/-! ### The re-read (R146, R251) -/

/-- The extent whose failure is re-read: that of the first failing tag, else that of the first failing grain. -/
def failedExtent (c : Cmd) : Option (Nat × Extent) :=
  let i := match c.tagFail, c.cfFail with
    | some g, _ => c.extents.findIdx fun e => e.failed && e.first == g
    | none, some g => c.extents.findIdx fun e => decide (e.first ≤ g ∧ g < e.first + e.grains)
    | none, none => c.extents.length
  (c.extents[i]?).map fun e => (i, e)

/-- The media copy of an extent is rewritten from its rebuilt bodies (R146): head and part-table codewords, then value grains. -/
def rewriteExtent (s : Blk) (c : Cmd) (e : Extent) (heads bodies : List Bytes) : Blk :=
  let d := digestOf s c.head.ns c.key
  let one := fun (s : Blk) (lga kind grain : Nat) (b : Bytes) =>
    match mapOf s lga with
    | some (pga, gear) => assignRun s c.head.ns gear gcStream
        [{ lga := lga, kind := kind, body := b, digest := d, version := if e.kind = 2 then 0 else c.version, grain := grain, source := some pga }]
    | none => s
  let s := match c.desc.bind (fun p => (dirOf s p.1).slots.get? p.2) with
    | some sl => (heads.zip (List.range heads.length)).foldl (fun s x =>
        one s (locHead sl.loc + x.2) (if x.2 = 0 then 2 else 3) (if x.2 = 0 then locGrains sl.loc else 0) x.1) s
    | none => s
  (bodies.zip (List.range bodies.length)).foldl (fun s x => one s (e.lga + x.2) 1 (e.first + x.2) x.1) s

/-- The value is marked lost (R104, R146), in its slot or in its staging record. -/
def markValueLost (s : Blk) (c : Cmd) : Blk :=
  let s := match c.desc with
    | some d => markLost s d.1 d.2
    | none => s
  match c.stage with
  | some r => modStage s r fun y => { y with lost := true }
  | none => s

/-- A completion of the slot still waits to be posted. -/
def cplPending (s : Blk) (slot : Nat) : Bool := s.ring.cqs.vals.any fun q => q.wait.any fun x => decide (x.slot = some slot)

/-- What is left of a command whose re-read is over. -/
def afterReread (s : Blk) (slot : Nat) : Blk :=
  match cmdOf s slot with
  | some c => if c.phase = .done ∧ cplPending s slot = false then freeSlot s slot else s
  | none => s

/-- An extent as its rebuilt head and part-table codewords describe it: seal, key record and part table (R176). -/
def rebuiltExtent (s : Blk) (c : Cmd) (e : Extent) (heads : List Bytes) : Extent :=
  match heads.head?, c.desc.bind fun p => (dirOf s p.1).slots.get? p.2 with
  | some h, some sl =>
    let ins : Tbl (Option Bytes) := (List.range heads.length).zip (heads.map some)
    { e with iv := slice h 0 12, gen := leAt h 12 4, tagv := slice h 16 16
             keyCt := slice h 48 (if e.kind = 3 then e.keyCt.length else 16 * e.kr)
             partTable := if e.kind = 3 then (partTableOf sl ins h).getD [] else [] }
  | _, _ => e

/-- Codewords before the value grains among the rebuilt bodies of an extent: the head, and the part-table grains of a commit
record (R176, R177). -/
def headCount (s : Blk) (c : Cmd) (e : Extent) (bodies : List Bytes) : Nat :=
  if e.kind = 2 then 0
  else if e.kind = 3 then
    1 + ((c.desc.bind fun p => (dirOf s p.1).slots.get? p.2).map fun sl => tableGrains sl (bodies.headD [])).getD 0
  else 1

/-- TAG_FAIL_REREAD: `bodies` are the failing extent's codewords rebuilt from redundancy, its head and part table first; grains
not yet on the medium come from staging (R146). -/
def rereadFn (slot : Nat) (bodies : List Bytes) (s : Blk) : Blk :=
  match cmdOf s slot with
  | none => s
  | some c =>
    if owesReread c = false then s
    else if ownerOk s c.tenant c.tenant = false then
      afterReread (failCmd (isolationEvent (setCmd s slot { c with reread := true }) domNone c.tenant c.tenant) slot stDeviceFault 0 0) slot
    else
      match failedExtent c with
      | none => s
      | some (i, e) =>
        let staged := c.stage.bind s.idx.stages.get?
        let n := headCount s c e bodies
        let heads := if staged.isNone then bodies.take n else []
        let e := match staged with
          | some x => { e with keyCt := x.keyCt }
          | none => rebuiltExtent s c e heads
        let gs := (List.range e.grains).map fun j =>
          match staged with
          | some x => x.grains.getD (e.first + j) []
          | none => (stagedPart s (e.lga + j)).getD ((bodies.drop n).getD j [])
        let c := { c with reread := true, extents := c.extents.set i e }
        let clear := fun (j : Nat) => clearGrain s c { grain := e.first + j, body := gs.getD j [] }
        let ok := (e.torn || tagGood s c e e.keyCt gs) &&
          (List.range e.grains).all fun j => ((clear j).map (checkGood c.head.ns e (e.first + j))).getD false
        let vbr := decide (c.phase = .streaming) && isVbr c
        let s := setCmd s slot c
        if ok then
          let s := raise (rewriteExtent s c e heads gs) 0x6005 4 domNone (pl [(2, c.head.ns), (8, c.version)])
          if vbr then
            let mine := fun (o : Option Nat) => o.any fun g => g = e.first ∨ (e.first ≤ g ∧ g < e.first + e.grains)
            let c := { c with
              grains := c.grains.map fun y => if e.first ≤ y.grain ∧ y.grain < e.first + e.grains then
                { y with body := gs.getD (y.grain - e.first) [], cf := some true } else y
              extents := c.extents.set i { e with verdict := true, keyDone := true, failed := false }
              reread := false
              tagsOk := if e.torn then c.tagsOk else if mine c.tagFail ∨ e.verdict = false then c.tagsOk + 1 else c.tagsOk
              tagFail := if mine c.tagFail then none else c.tagFail
              cfFail := if mine c.cfFail then none else c.cfFail }
            afterVerdict (setCmd s slot c) slot
          else afterReread s slot
        else
          let s := raise (markValueLost s c) 0x6006 6 domNone (pl [(2, c.head.ns), (8, c.version)])
          if vbr then finishValue s slot else afterReread s slot

def execTagFailReread (slot : Nat) (bodies : List Bytes) (s : State) : Host.Outcome State Fault Refusal := lift (rereadFn slot bodies) s

end Sys2Proof.Machine
end

