-- ==== Sys2Proof/Machine/Gc.lean ====
section
/-! DEFINITION. Background work on the medium: live grains, folding (R191), garbage collection and relocation (R194), erases
(R196), refresh and patrol (R197-R200, R234), the re-key sweep (R201), the derailleur's halving and override (R188, R300),
rebuilds (R264-R269), lost values (R270) and the full tag scan (R262). -/

namespace Sys2Proof.Machine

/-! ### REST (R343, R345) -/

/-- REST ends, with event 0xE008. -/
def restExit (s : Blk) : Blk :=
  if s.pwr.pstate = .rest then
    alert (raise { s with pwr := { s.pwr with pstate := .run, bgStopped := false } } 0xE008 2 domHub [1#8]) 6
  else s

/-- What a step has brought about that ends REST (R345). -/
def endsRest (s t : Blk) : Bool :=
  (t.nss.any fun e => (e.2.shown == 0x42 || e.2.shown == 0x43) && decide (((nsOf s e.1).map (·.shown)).getD 0 ≠ e.2.shown))
  || (List.range 16).any (fun n => decide ((spokeOf s n).sstate ≠ 3 ∧ (spokeOf t n).sstate = 3))
  || (List.range 16).any (fun n => decide (policy s 0x09 ≤ freeFraction (spokeOf s n) ∧ freeFraction (spokeOf t n) < policy t 0x09))
  || (!slcAbove s (policy s 0x0B) && slcAbove t (policy t 0x0B))

def withRest (f : Blk → Blk) (s : Blk) : Blk := let t := f s; if endsRest s t then restExit t else t

/-! ### Live grains -/

/-- A grain that the map names (`kind` 0), or the page that a PAGE_LOC (4) or the map root (5) names. -/
structure LiveG where
  lga : Nat
  kind : Nat
  pga : Nat

def liveGrains (s : Blk) : List LiveG :=
  (s.med.cmap.flatMap fun e => (List.range 16).filterMap fun i => (mapOf s (16 * e.1 + i)).map fun q => ⟨16 * e.1 + i, 0, q.1⟩)
  ++ ((s.idx.dir.filter fun e => e.2.pageLoc ≠ 0).map fun e => ⟨e.1, 4, e.2.pageLoc⟩)
  ++ (s.med.mroot.map fun e => ⟨e.1, 5, e.2⟩)

/-- Live grains of a block that is there. -/
def liveIn (s : Blk) (k : Nat) : List LiveG := (liveGrains s).filter fun g => g.pga < 2 ^ 48 ∧ pgaBlk s g.pga = k

/-- Live grains of a stripe band, those of lost members too. -/
def bandLive (s : Blk) (b : Nat) : List LiveG := (liveGrains s).filter fun g => ((stripeAt s g.pga).map fun x => x.1) = some b

/-- The place that names a grain: the map, a PAGE_LOC, the map root. -/
def placeNow (s : Blk) (kind lga : Nat) : Option Nat :=
  if kind = 4 then some (dirOf s lga).pageLoc else if kind = 5 then s.med.mroot.get? lga else (mapOf s lga).map Prod.fst

/-- What the tag of a live grain must be (R219): a page's KIND and number; of a grain its LGA and NAMESPACE, and KIND and GRAIN
where the runs of a value tell them. -/
def expectOf (s : Blk) (kind lga : Nat) : Expect :=
  let ns := s.med.unitNs.getD (lga / 16) 0
  if kind = 4 ∨ kind = 5 then { kind := kind, lga := lga }
  else
    match s.med.runs.find? fun e => e.2.any fun r => r.1 ≤ lga ∧ lga < r.1 + r.2 with
    | some (h, [(_, n)]) => if lga = h then { kind := 2, lga := lga, ns := ns, grain := n - 1 } else { kind := 1, lga := lga, ns := ns, grain := lga - h - 1 }
    | some (h, (_, p) :: (d, n) :: _) =>
      if lga = h then { kind := 2, lga := lga, ns := ns, grain := n }
      else if lga < h + p ∧ h < lga then { kind := 3, lga := lga, ns := ns }
      else { kind := 1, lga := lga, ns := ns, grain := lga - d }
    | _ => { lga := lga, ns := ns, anyKind := true }

/-- The grain is already on the move from that place. -/
def moveBusy (s : Blk) (g : LiveG) : Bool :=
  (s.med.reads.vals.any fun x => x.pga == g.pga && (match x.why with | .move _ _ _ => true | _ => false))
  || (s.med.moving.any fun e => decide (e.2.source = some g.pga))
  || (s.med.asmq.any fun e => decide (e.2.2.2.source = some g.pga))
  || (s.med.stripes.vals.any fun x => x.grains.any fun y => decide (y.source = some g.pga))

/-- R185: where the survivors of a GC pass go. -/
def colder : Nat → Nat
  | 0 => 1 | 1 => 2 | 5 => 5 | _ => 3

/-- Move live grains by reading them and programming them to a target stream in a gear; pages stay in gear 5 (R184, R194). -/
def moveLive (s : Blk) (gs : List LiveG) (gear str : Nat) : Blk :=
  forEach gs (fun s g =>
    if moveBusy s g then s
    else startRead s g.pga (some (expectOf s g.kind g.lga)) (.move g.lga (if g.kind = 0 then gear else 5) (if g.kind = 0 then str else gcStream))) s

/-- A block's live grains are moved as in GC, once until it is opened anew (R198). -/
def refreshBlock (s : Blk) (k : Nat) : Blk :=
  if (blkAt s k).refreshed then s
  else
    let n := blkSpoke k
    let s := moveLive (modBlk s k fun b => { b with refreshed := true }) (liveIn s k) (colder (blkAt s k).gear) gcStream
    raise s 0x8007 2 (domSpke n) (pl [(1, n), (2, blkDie k), (4, k % 65536)])

/-! ### Victims (R191, R194) -/

/-- An SLC-buffer block (R189). -/
def isBuffer (s : Blk) (k : Nat) : Bool := decide (1 ≤ k % 65536 ∧ k % 65536 ≤ slcPer s (blkSpoke k))

/-- Spoke band and place of a block in it. -/
def blkBand (s : Blk) (k : Nat) : Option (Nat × SBand × Nat) :=
  (s.med.sbands.get? (blkAt s k).sband).map fun sb => ((blkAt s k).sband, sb, (sb.dies.zip sb.blocks).idxOf (blkDie k, k % 65536))

/-- A block that holds data units: neither an XOR block nor a block of a parity member. -/
def holdsData (s : Blk) (k : Nat) : Bool :=
  match blkBand s k with
  | some (id, _, j) =>
    decide (j < 16) && s.med.bands.vals.any fun b => (b.members.zip (List.range b.members.length)).any fun e => e.1.2 == some id && decide (e.2 < b.k)
  | none => false

/-- Grains a block of a spoke can hold. -/
def blkGrains (s : Blk) (k : Nat) : Nat :=
  let p := profOf s (blkSpoke k)
  4 * p.planes * (if (blkAt s k).slc then p.pagesPerBlock / max 1 p.bitsPerCell else p.pagesPerBlock)

/-- The first least element under a measure; a tie goes to the block closed earliest. -/
def leastBlk (s : Blk) (f : Nat → Nat) (ks : List Nat) : Option Nat :=
  ks.foldl (fun a k => match a with
    | none => some k
    | some x => if f k < f x ∨ (f k = f x ∧ (blkAt s k).closeOrder < (blkAt s x).closeOrder) then some k else some x) none

/-- R194. -/
def victim (s : Blk) (n : Nat) : Option Nat :=
  let ks := (s.med.blks.filter fun e => e.2.st = 2 ∧ blkSpoke e.1 = n ∧ ¬ isBuffer s e.1 ∧ holdsData s e.1).map Prod.fst
  let live := fun k => (liveIn s k).length
  match leastBlk s (fun k => live k * 1000000 / max 1 (blkGrains s k)) ks with
  | none => none
  | some k => leastBlk s live (ks.filter fun x => (blkAt s x).gear = (blkAt s k).gear)

/-- A relocated band without a live grain needs no more moves. -/
def doneRelocating (s : Blk) : Blk :=
  { s with med := { s.med with bands := s.med.bands.mapVal fun b x => { x with relocate := x.relocate && !(bandLive s b).isEmpty } } }

/-- GC_PASS: the grains of a band queued for relocation first (R257, R259), else those of the victim while F is below
GC_START (R193, R194). -/
def gcPassFn (n : Nat) (s : Blk) : Blk :=
  if s.pwr.bgStopped then s
  else
    let s := doneRelocating s
    let mine := (s.med.bands.filter fun e => e.2.relocate).findSome? fun e =>
      let gs := (bandLive s e.1).filter fun g => (pgaView g.pga).spoke = n
      if gs.isEmpty then none else some (e.2.gear, gs)
    match mine with
    | some (gear, gs) => moveLive s gs (colder gear) gcStream
    | none =>
      if policy s 0x09 ≤ freeFraction (spokeOf s n) then s
      else match victim s n with
        | some k => moveLive s (liveIn s k) (colder (blkAt s k).gear) gcStream
        | none => s

def execGcPass (n : Fin 16) (s : State) : Host.Outcome State Fault Refusal := lift (fun b => gcPassFn n.val (idleExit b)) s

/-- FOLD: above FOLD_START the live grains of the oldest closed SLC-buffer block that still has any go to native blocks of
their gear (R191). Below GC_URGENT, GC comes first as long as it has a victim (R193). -/
def foldFn (n : Nat) (s : Blk) : Blk :=
  if s.pwr.bgStopped ∨ slcAbove s (policy s 0x0B) = false ∨ (freeFraction (spokeOf s n) < target s 0x0A ∧ (victim s n).isSome) then s
  else
    let ks := (s.med.blks.filter fun e => e.2.st = 2 ∧ blkSpoke e.1 = n ∧ isBuffer s e.1 ∧ (liveIn s e.1).any (fun g => !moveBusy s g)).map Prod.fst
    match leastBlk s (fun k => (blkAt s k).closeOrder) ks with
    | some k => moveLive s (liveIn s k) (blkAt s k).gear foldStream
    | none => s

def execFold (n : Fin 16) (s : State) : Host.Outcome State Fault Refusal := lift (fun b => foldFn n.val (idleExit b)) s

/-! ### Failures of programs, blocks and dies (R208-R211, R259) -/

/-- A stripe with margin 0: the grains of writes that have not completed are written again to a new stripe band (R252). -/
def rewriteStripe (s : Blk) (st : Nat) : Blk :=
  match stripeOf s st with
  | none => s
  | some x =>
    if stripeDown x < x.m ∨ x.lost = 0 then s
    else
      let gs := x.grains.filter fun g => match g.stage.bind s.idx.stages.get? with
        | some y => !y.complete && decide ((y.placed.getD g.pos (0, false)).1 = st)
        | none => false
      assignRun s x.ns x.gear (((s.med.bands.get? x.band).map bandStream).getD hostStream) gs

/-- The grains of a unit that has failed go to a new stripe band: those of writes from staging, those on the move from their
source, which is read again (R209, R259). -/
def placeAgain (s : Blk) (x : Stripe) (str : Nat) (gs : List SGrain) : Blk :=
  let moves := gs.filter fun g => g.source.isSome && str != hostStream && decide (placeNow s g.kind g.lga = g.source)
  let held := gs.filter fun g => (g.stage.bind s.idx.stages.get?).any (fun y => !y.complete) || (g.source.isSome && str == hostStream)
  forEach moves (fun s g => startRead s (g.source.getD 0) (some (expectOf s g.kind g.lga)) (.move g.lga x.gear str)) (assignRun s x.ns x.gear str held)

/-- Member `n` of a stripe counts as lost (R259, R260): the stripe completes its other members as planned. -/
def loseMember (s : Blk) (st n : Nat) : Blk :=
  match stripeOf s st with
  | none => s
  | some x =>
    if x.lost.getLsbD n ∨ x.absent.getLsbD n then s
    else
      let str := ((s.med.bands.get? x.band).map bandStream).getD hostStream
      let s := touchEntry (setStripe s st { x with lost := x.lost ||| (1#16 <<< n) }) st
      let s := closeStripe (closeBand s x.band) st
      let s := placeAgain s x str (if n < x.k ∧ x.programmed.getLsbD n = false then (x.grains.drop (16 * n)).take 16 else [])
      completeAll (checkClosed (rewriteStripe s st) st)

/-- Note in the band table that a member of one stripe is lost, and queue the band for relocation (R257, R259). -/
def noteLost (s : Blk) (b u n : Nat) : Blk :=
  match s.med.bands.get? b with
  | some x =>
    if x.lostAt.contains (u, n) then s
    else
      let y := { x with lostAt := x.lostAt ++ [(u, n)], relocate := true }
      journal (setBand s b y) (.band b y)
  | none => s

/-- Blocks of a die that are listed as other than erased: SLC-buffer blocks or native ones, by state. -/
def dieBlocks (s : Blk) (n d : Nat) (slc : Bool) (f : Nat → Bool) : Nat :=
  (s.med.blks.filter fun e => e.1 / 65536 = n * 512 + d ∧ isBuffer s e.1 = slc ∧ f e.2.st = true).length

/-- R211: a die is retired: its blocks are no longer counted (R193, R192), and its data is moved. -/
def retireDie (s : Blk) (n d : Nat) : Blk :=
  let x := spokeOf s n
  if x.diesOut.contains d then s
  else
    let native := (profOf s n).blocksPerPlane - 1 - slcPer s n
    let bad := fun slc => dieBlocks s n d slc (· == 3)
    let used := fun slc => dieBlocks s n d slc (fun st => st != 0 && st != 3)
    let s := setSpoke s n { x with
      diesOut := x.diesOut ++ [d], usableBlocks := x.usableBlocks - (native - bad false), freeBlocks := x.freeBlocks - (native - bad false - used false)
      slcBlocks := x.slcBlocks - (slcPer s n - bad true), slcUsed := x.slcUsed - used true }
    let s := raise s 0x800C 5 (domSpke n) (pl [(1, n), (1, d / 16), (1, d % 16)])
    let ids := (s.med.sbands.filter fun e => e.2.spoke = n ∧ e.2.ghost = 0 ∧ e.2.dies.contains d).map Prod.fst
    let bands := s.med.bands.mapVal fun _ b =>
      if b.members.any (fun m => m.2.any ids.contains) then { b with relocate := true } else b
    judgeSlc (judgeSpoke { s with med := { s.med with bands := bands } } n)

/-- A block joins the grown-bad list of its die, in the anchor block (R208, R210); at 3 % and 4 % of a die's blocks R211 applies.
The list of a die that cannot be written is not updated (R211). -/
def retireBlock (s : Blk) (n d b code : Nat) : Blk :=
  let k := blkKey n d b
  if (blkAt s k).st = 3 then s
  else
    let x := spokeOf s n
    let on := dieUsable x d
    let slc := isBuffer s k
    let free := boolNat (decide ((blkAt s k).st = 0))
    let s := modBlk s k fun x => { x with st := 3 }
    let x := if x.diesDead.contains d then x else { x with grownBad := x.grownBad.upd d 0 (· + 1) }
    let s := setSpoke s n
      (if on = false then x
       else if slc then { x with slcBlocks := x.slcBlocks - 1, slcUsed := x.slcUsed - (1 - free) }
       else { x with usableBlocks := x.usableBlocks - 1, freeBlocks := x.freeBlocks - free })
    let s := raise s code 4 (domSpke n) (pl [(1, n), (1, d / 16), (1, d % 16), (4, b)])
    let bad := (spokeOf s n).grownBad.getD d 0
    let all := (profOf s n).blocksPerPlane
    let s := if on ∧ all * 3 ≤ bad * 100 ∧ (bad - 1) * 100 < all * 3 then raise s 0x800B 5 (domSpke n) (pl [(1, n), (1, d / 16), (1, d % 16)]) else s
    let s := if on ∧ all * 4 ≤ bad * 100 then retireDie s n d else s
    writeAnchor (judgeSlc (judgeSpoke s n)) n d

/-- Every stripe already programmed into a retired block counts that member as lost (R259). -/
def loseBlock (s : Blk) (id j : Nat) : Blk :=
  forEach (s.med.bands.filter fun e => e.2.members.any fun m => m.2 = some id) (fun s e =>
    let n := e.2.members.findIdx fun m => m.2 = some id
    forEach ((List.range e.2.nextUnit).filter fun u => u % 16 = j) (fun s u => noteLost s e.1 u n) s) s

/-- R208, R209, R259: a PROGRAM of a member unit failed. -/
def unitFail (s : Blk) (st n : Nat) : Blk :=
  match stripeOf s st with
  | none => s
  | some x =>
    match memberSBand s x.band n with
    | none => s
    | some (id, sb) =>
      let j := x.unit % 16
      let gc := (s.med.bands.get? x.band).any (·.gc)
      let s := closeBand s x.band
      let s := retireBlock s sb.spoke (sb.dies.getD j 0) (sb.blocks.getD j 0) 0x8004
      let s := if gc then raise s 0x8006 4 (domSpke sb.spoke) (pl [(1, sb.spoke)]) else s
      let s := loseMember (loseBlock s id j) st n
      judgeNs (xorCheck s id (x.unit / 16))

/-! ### Erases (R196, R232) -/

/-- Block number of an operation's row. -/
def rowBlock (p : Profile) (row : Nat) : Nat := row / 2 ^ (p.rowShifts % 16 + p.rowShifts / 16)

/-- A read of the block has not returned. -/
def readsBlock (s : Blk) (k : Nat) : Bool :=
  let n := blkSpoke k
  ((allOps (spokeOf s n)).any fun o => (o.op == opRead || o.op == opReadOffset) && o.channel * 16 + o.die == k / 65536 % 512
    && rowBlock (profOf s n) o.row == k % 65536)
  || (s.med.reads.vals.any fun x => decide (x.pga < 2 ^ 48) && pgaBlk s x.pga == k && decide (x.stage ≤ 2))
  || (s.med.truns.vals.any fun t => pgaBlk s t.pga == k)

/-- Nothing live lies in the block; the parity of a band goes with the band's last live grain, the XOR of a spoke band with
that of its blocks; a journal block is dead once the rotation has passed the journal's last write to it (R203). -/
def blkDead (s : Blk) (k : Nat) : Bool :=
  match blkBand s k with
  | none => if (blkAt s k).gear = 6 then decide ((blkAt s k).jseq ≤ s.med.jfree) else (liveIn s k).isEmpty
  | some (id, sb, j) =>
    if holdsData s k then (liveIn s k).isEmpty
    else if j = 16 ∧ (s.med.bands.vals.any fun b => (b.members.take b.k).any fun m => m.2 == some id) then
      (sb.dies.zip sb.blocks).all fun e => (liveIn s (blkKey sb.spoke e.1 e.2)).isEmpty
    else (s.med.bands.filter fun e => e.2.members.any fun m => m.2 == some id).all fun e => (bandLive s e.1).isEmpty

def eraseFn (k : Nat) (s : Blk) : Blk :=
  let n := blkSpoke k
  let d := k / 65536 % 512
  let p := profOf s n
  if (blkAt s k).st ≠ 2 ∨ blkDead s k = false ∨ readsBlock s k ∨ inService s n = false ∨ dieUsable (spokeOf s n) d = false then s
  else
    let rows := (List.range (max 1 p.planes)).map fun i => rowOf p i 0 (k % 65536)
    issueOp (modBlk s k fun b => { b with st := 4 }) n opErase (d / 16) (d % 16) (rows.headD 0) (blkAt s k).slc
      ([BitVec.ofNat 8 rows.length, 0, 0, 0] ++ rows.tail.flatMap (beBytes 4)) [] (.erase k)

def execSourceErase (blk : Nat) (s : State) : Host.Outcome State Fault Refusal := lift (fun b => eraseFn blk (idleExit b)) s

/-- R197: the spread of a die's native blocks, or of its SLC-buffer blocks under their own limit. -/
def wearLimit (s : Blk) (k : Nat) : Nat :=
  let p := profOf s (blkSpoke k)
  if isBuffer s k then policy s 0x0C * p.peSlc / max 1 p.peRated else policy s 0x0C

/-- After an erase: a spread above the limit moves the data of the lowest-count closed block, with event 0x8009. -/
def wearLevel (s : Blk) (k : Nat) : Blk :=
  let peers := (s.med.blks.filter fun e => e.1 / 65536 = k / 65536 ∧ e.2.st ≠ 3 ∧ isBuffer s e.1 = isBuffer s k).map Prod.fst
  let e := fun x => (blkAt s x).erases
  let all := ((profOf s (blkSpoke k)).blocksPerPlane - 1 - slcPer s (blkSpoke k))
  let lo := if peers.length < (if isBuffer s k then slcPer s (blkSpoke k) else all) then 0 else (peers.map e).foldl min (e k)
  let hi := (peers.map e).foldl max 0
  if hi ≤ lo + wearLimit s k then s
  else match leastBlk s e (peers.filter fun x => (blkAt s x).st = 2) with
    | some x =>
      let s := moveLive s (liveIn s x) (if isBuffer s k then (blkAt s x).gear else 3) gcStream
      raise s 0x8009 2 (domSpke (blkSpoke k)) (pl [(1, blkSpoke k), (2, k / 65536 % 512), (4, x % 65536)])
    | none => s

/-! ### Patrol (R198-R200, R234) -/

/-- A privileged block (R199). -/
def isPrivileged (s : Blk) (k : Nat) : Bool := isBuffer s k || decide (5 ≤ (blkAt s k).gear)

/-- The block has been closed for longer than its retention limit (R233, R234). -/
def pastRetention (s : Blk) (k : Nat) : Bool :=
  let b := blkAt s k
  decide (b.st = 2) && decide ((if isPrivileged s k then policy s 0x18 else policy s 0x17) * day < blkAge s b)

/-- What patrol finds with one codeword of a block: the bits that its accepted hard decode `word` corrected, or none (R198, R229,
R234). A privileged block whose check is done and has refreshed nothing is checked again after half the limit. -/
def patrolCheck (s : Blk) (k cw : Nat) (hard : Option Nat) (word : Bytes) : Blk :=
  let n := blkSpoke k
  let pga := blockPga s n (blkDie k) (k % 65536) (cw / 4) (cw % 4)
  let old := match s.med.tentries.get? (entryKey s (placeOf s pga)) with
    | some e => !e.valid || decide (policy s 0x0D * day < ageOf (secs s) e.truedAt)
    | none => true
  let s := match hard with
    | some c =>
      let s := countHard (countSpoke s n 1 c) n (llrCell s (placeOf s pga)) 37120 c
      if policy s 0x10 < c ∨ old = true then startTruing s pga c word else s
    | none => countSpoke s n 2 1
  let s := if hard.all (policy s 0x11 < ·) ∨ pastRetention s k then refreshBlock s k else s
  if (blkAt s k).counted ∧ 4 * (blkAt s k).wp ≤ cw + 1 then
    modBlk s k fun b => { b with reads := if b.refreshed then b.reads else policy s 0x16 / 2, counted := b.refreshed }
  else s

/-- HARD_DECODE_DONE: a hard decoder has ended on a read's first word; patrol takes what it finds, and every other read delivers or
escalates (R218-R220). -/
def hardDone (rd : Nat) (cw : Bytes) (s : Blk) : Blk :=
  match s.med.reads.get? rd with
  | none => s
  | some x =>
    let n := (placeOf s x.pga).spoke
    if x.stage ≠ 1 ∨ x.outstanding ≠ 0 ∨ (spokeOf s n).hardq.contains rd then s
    else
      let v := judgeCw s x cw
      let s := hardFree (rejectCount (countSpoke s n 0 1) n v) n
      match x.why with
      | .patrol k c => patrolCheck (closeRead s rd x) k c (if v = 2 then some (bitDiff x.hard cw) else none) cw
      | _ => hardOutcome s rd x cw v

def execHardDecodeDone (rd : Nat) (cw : Bytes) (s : State) : Host.Outcome State Fault Refusal := lift (hardDone rd cw) s

/-- The blocks of the pass: the programmed native blocks of the spoke, in order. -/
def patrolBlocks (s : Blk) (n : Nat) : List Nat :=
  (s.med.blks.filter fun e => blkSpoke e.1 = n ∧ (e.2.st = 1 ∨ e.2.st = 2) ∧ ¬ isPrivileged s e.1 ∧ 0 < e.2.wp).map Prod.fst

/-- What patrol reads next: a block and the codeword in it. The block at the head of the queue comes first; else the pass goes on
with the first block not below the place it has reached, and begins again after the last one. -/
def patrolNext (s : Blk) (n : Nat) : Option (Nat × Nat) :=
  let x := spokeOf s n
  match x.patrolq with
  | k :: _ => some (k, x.patrolPos)
  | [] =>
    let ks := patrolBlocks s n
    ((ks.find? fun k => x.patrolDone ≤ k).or ks.head?).map fun k => (k, if k = x.patrolDone then x.patrolPos else 0)

/-- PATROL: the next codeword, which the command names, is read for a hard decode (R198). A codeword that another read escalates
already needs more than that. -/
def patrolFn (n blk at_ : Nat) (s : Blk) : Blk :=
  let s := restExit s
  match (patrolNext s n).filter (· == (blk, at_)) with
  | none => s
  | some (k, cw) =>
    let done := decide (4 * (blkAt s k).wp ≤ cw + 1)
    let s := modSpoke s n fun x => match x.patrolq with
      | _ :: q => { x with patrolq := if done then q else x.patrolq, patrolPos := if done then 0 else cw + 1 }
      | [] => { x with patrolDone := if done then k + 1 else k, patrolPos := if done then 0 else cw + 1 }
    let pga := blockPga s n (blkDie k) (k % 65536) (cw / 4) (cw % 4)
    if (escalating s pga).isSome then patrolCheck s k cw none []
    else askSpan s pga (.patrol k cw) (((liveIn s k).find? fun g => g.pga = pga).map fun g => expectOf s g.kind g.lga)

def execPatrol (n : Fin 16) (blk cw : Nat) (s : State) : Host.Outcome State Fault Refusal :=
  lift (fun b => patrolFn n.val blk cw (idleExit b)) s

/-! ### Derailleur (R188, R300) -/

/-- Every 2^24 commit points: SAMPLES and WRITES are halved, and the measure of the gear 0 share begins again. -/
def halveDer (s : Blk) : Blk :=
  if s.med.commits / 2 ^ 24 ≤ s.med.halvings then s
  else { s with med := { s.med with
      halvings := s.med.halvings + 1
      der := s.med.der.mapVal fun _ t => { t with samples := t.samples / 2, writes := t.writes / 2 }, gear0Bytes := 0, allBytes := 0 } }

def execDerailleurHalving (s : State) : Host.Outcome State Fault Refusal := lift halveDer s

/-- After each 2^20 commits: above a share of 50 % B0 falls by 0.5, never under 12.0; at 40 % or below the override ends. -/
def derOverride (s : Blk) : Blk :=
  if s.med.commits / 2 ^ 20 ≤ s.med.shareChecks then s else
  let s := { s with med := { s.med with shareChecks := s.med.shareChecks + 1 } }
  let g := s.med.gear0Bytes
  let a := s.med.allBytes
  let b0 := s.loops.b0now.getD (target s 0x05)
  if a < 2 * g ∨ (s.loops.derOver ∧ 2 * a < 5 * g) then
    let t := { s with loops := { s.loops with b0now := some (max 3072 (b0 - 128)), derOver := true } }
    if s.loops.derOver then t else alert (raise t 0x8017 3 domNone (pl [(1, 1)])) 7
  else if s.loops.derOver then
    let s := { s with loops := { s.loops with held := s.loops.held.filter fun e => !(e.1 ≤ 0x07 || 65536 ≤ e.1) } }
    alert (raise { s with loops := { s.loops with b0now := none, derOver := false } } 0x8017 3 domNone (pl [(1, 0)])) 7
  else s

def execDerailleurOverride (s : State) : Host.Outcome State Fault Refusal := lift derOverride s

/-! ### Pages read by a sweep -/

/-- The slots of a bucket, from the cache or from its page on flash. -/
def slotsAt (s : Blk) (b : Nat) : Tbl BSlot := if (dirOf s b).cached then (dirOf s b).slots else s.med.pages.getD b []

/-- A sweep brings a bucket page into the cache. -/
def pageIn (s : Blk) (b : Nat) : Blk :=
  if (dirOf s b).cached then s else pageLoad s b

/-- Occupied slots of the index from place `cur` (bucket x 40 + slot) on. -/
def slotsFrom (s : Blk) (cur : Nat) : List (Nat × BSlot) :=
  s.idx.dir.flatMap fun e => (slotsAt s e.1).filterMap fun p => if cur ≤ e.1 * 40 + p.1 then some (e.1 * 40 + p.1, p.2) else none

/-! ### Re-key sweep (R201, R251) -/

/-- Encrypt an extent again under the page's current generation: seal, ciphertext of the key record, ciphertext bodies. -/
def reseal (s : Blk) (ns tenant : Nat) (e : Extent) (kr : Bytes) (plains : List Bytes) (table : Bytes) :
    Option (Bytes × Bytes × List Bytes × Blk) :=
  match takeIv s tenant with
  | none => none
  | some (iv, gen, s) =>
    (dataKey s tenant gen).map fun k =>
      let ct := ctrXor k iv 0 (kr ++ plains.flatten)
      let bind := if e.kind = 2 then e.bind / 2 ^ 32 * 2 ^ 32 + e.first else e.bind
      let tag := gcmTag k iv (extentAad ns tenant e.kind e.valueLen bind table) ct
      (sealBytes iv gen tag, ct.take kr.length, blocksOf 4112 (ct.drop kr.length), s)

/-- The value is marked lost, with event 0x7005. -/
def sweepLost (s : Blk) (pos : Nat) (sl : BSlot) : Blk :=
  raise (markLost (pageIn s (pos / 40)) (pos / 40) (pos % 40)) 0x7005 5 domNone (pl [(2, sl.ns), (8, sl.version)])

/-- Rewrite one extent of a value whose ciphertext is at hand: its seal and bodies as they go to the new run; `none` when a
check field fails or a key is missing. An extent of another generation is copied as ciphertext; what is left of a part (R76) is
always encrypted again, as a part of its own. -/
def rekeyExtent (s : Blk) (ns tenant gen : Nat) (e : Extent) (bodies : List Bytes) : Option (Option (Bytes × Bytes × List Bytes × Blk)) :=
  if e.gen ≠ gen ∧ e.kind = 2 ∧ e.torn = false then some (some (sealBytes e.iv e.gen e.tagv, e.keyCt, bodies, s))
  else
    match dataKey s tenant e.gen with
    | none => none
    | some k =>
      let plain := ctrXor k e.iv (if e.kind = 2 then e.kr else 0) (e.keyCt ++ bodies.flatten)
      let ps := blocksOf 4112 (plain.drop e.keyCt.length)
      if (ps.zip (List.range ps.length)).all fun p => checkGood ns e (e.first + p.2) p.1 then
        some (reseal s ns tenant e (plain.take e.keyCt.length) ps [])
      else none

/-- Rewrite extents in order; the bodies of the value's grains follow one another. -/
def rekeyParts (ns tenant gen : Nat) : Blk → List Extent → List Bytes → Option (Option (List (Extent × Bytes × Bytes × List Bytes) × Blk))
  | s, [], _ => some (some ([], s))
  | s, e :: es, bodies =>
    match rekeyExtent s ns tenant gen e (bodies.take e.grains) with
    | none => none
    | some none => some none
    | some (some (sl, kc, bs, s)) =>
      match rekeyParts ns tenant gen s es (bodies.drop e.grains) with
      | some (some (rest, s)) => some (some ((e, sl, kc, bs) :: rest, s))
      | some none => some none
      | none => none

/-- Write a rewritten value to new runs in gear 3. -/
def rekeyWrite (s : Blk) (tenant pos : Nat) (sl : BSlot) (uid : Nat) (head : Bytes × Bytes) (table : Bytes) (bodies : List Bytes) : Blk :=
  let n := bodies.length
  let pt := (table.length + 48 + head.2.length - 4112 + 4111) / 4112
  let multi := sl.multipart
  let h := takeLga s sl.ns 3 (if multi then 1 + pt else 1 + n)
  let d := if multi then takeLga h.2 sl.ns 3 n else (h.1 + 1, h.2)
  let st : Stage := { ns := sl.ns, tenant := tenant, kind := 5, version := sl.version, valueLen := sl.valueLen, home := homeOf sl.digest
                      bslot := (pos / 40, pos % 40), gear := 3, lga := h.1, count := (if multi then pt else 0) + n, encrypted := true
                      digest := sl.digest, dataLga := d.1, slot := 524288 }
  let a := addStage d.2 st
  let ref := a.1
  let base : SGrain := { digest := sl.digest, version := sl.version, stage := some ref }
  let hb := headBody head.1 d.1 (table.length / 40) uid head.2 table
  let more := blocksOf 4112 (table.drop (4112 - 48 - head.2.length))
  let hg : List SGrain := { base with lga := h.1, kind := 2, body := hb, grain := n } ::
    (if multi then (more.zip (List.range more.length)).map fun e => { base with lga := h.1 + 1 + e.2, kind := 3, body := slice e.1 0 4112, pos := 1 + e.2 } else [])
  let dg : List SGrain := (bodies.zip (List.range n)).map fun e =>
    { base with lga := d.1 + e.2, kind := 1, body := e.1, grain := e.2, version := if multi then 0 else sl.version, pos := hg.length + e.2 }
  let s := { a.2 with med := { a.2.med with runs := a.2.med.runs.set h.1 (if multi then [(h.1, 1 + pt), (d.1, n)] else [(h.1, 1 + n)]) } }
  if multi then assignRun (assignRun s sl.ns 3 gcStream hg) sl.ns 3 gcStream dg else assignRun s sl.ns 3 gcStream (hg ++ dg)

/-- One slot: a value none of whose extents names the generation is passed by. -/
def rekeySlot (s : Blk) (tenant gen pos : Nat) (sl : BSlot) (bodies : List Bytes) : Option Blk :=
  let head := bodies.headD []
  let tg := if sl.multipart then tableGrains sl head else 0
  let ins : Tbl (Option Bytes) := (bodies.take (1 + tg)).zip (List.range (1 + tg)) |>.map fun e => (e.2, some e.1)
  let table := if sl.multipart then (partTableOf sl ins head).getD [] else []
  let es := headExtents sl head table
  let grains := bodies.drop (1 + tg)
  if ¬ (es.any fun e => e.gen = gen) then (if bodies.isEmpty then none else some s)
  else if grains.length ≠ locGrains sl.loc ∨ ¬ bodies.all (fun b => b.length = 4112) ∨ lgaRoom s (32 + bodies.length) = false then none
  else
    let data := if sl.multipart then es.drop 1 else es
    match rekeyParts sl.ns tenant gen s data grains with
    | none => some (sweepLost s pos sl)
    | some none => none
    | some (some (out, s)) =>
      let bs := out.flatMap fun e => e.2.2.2
      if sl.multipart then
        let table := out.flatMap fun e => leBytes 4 e.1.first ++ leBytes 4 e.1.grains ++ e.2.1
        match es.head?, (es.head?).bind fun e => dataKey s tenant e.gen with
        | some e, some k =>
          (reseal s sl.ns tenant e (ctrXor k e.iv 0 e.keyCt) [] table).map fun r =>
            rekeyWrite r.2.2.2 tenant pos sl (leAt head 44 4) (r.1, r.2.1) table bs
        | _, _ => some (sweepLost s pos sl)
      else
        match out with
        | e :: _ => some (rekeyWrite s tenant pos sl 0 (e.2.1, e.2.2.1) [] bs)
        | [] => some s

/-- A rewrite that is on the medium is committed if the slot still holds its VERSION; else it is dead (R201). -/
def rekeyApply (s : Blk) (r : Nat) : Blk :=
  match s.idx.stages.get? r with
  | none => s
  | some x =>
    if x.kind ≠ 5 ∨ x.complete = false then s
    else
      let s := pageIn s x.bslot.1
      let s := match (dirOf s x.bslot.1).slots.get? x.bslot.2 with
        | some sl =>
          if sl.version = x.version ∧ sl.ns = x.ns then
            let y := { sl with loc := locPack (locGrains sl.loc) x.lga }
            journal (applySlot (killExtent s sl) x.bslot.1 x.bslot.2 y x.home) (.slotSet x.bslot.1 x.bslot.2 y x.home)
          else killExtent s { sl with loc := locPack (locGrains sl.loc) x.lga }
        | none => killExtent s { loc := locPack x.count x.lga }
      { s with idx := { s.idx with stages := s.idx.stages.del r } }

/-- Something still to be stored, or in an upload, names the generation. -/
def genNamed (s : Blk) (tenant gen : Nat) : Bool :=
  (s.idx.stages.vals.any fun x => x.tenant == tenant && (x.kind == 5 || (x.sealIv != [] && x.sealGen == gen)))
  || s.cmd.uploads.vals.any fun u => u.tenant == tenant && u.parts.any fun p => leAt p.sealv 12 4 == gen

/-- The generation leaves its key page (R136). -/
def dropGen (s : Blk) (tenant gen : Nat) : Blk :=
  match s.cip.pages.get? tenant with
  | some p =>
    sendPage (flashPage (setPage s tenant { p with gens := p.gens.filter fun g => g.gen ≠ gen }) tenant) tenant
  | none => s

/-- REKEY_SWEEP: rewrites on the medium are committed, then the sweep goes on with its next value, whose ciphertext bodies
are `bodies`: the head, the part-table grains, the value grains in order. -/
def rekeyFn (tenant : Nat) (bodies : List Bytes) (s : Blk) : Blk :=
  if s.pwr.bgStopped then s
  else
    let s := forEach s.idx.stages.keys rekeyApply s
    let job := s.hub.jobs.vals.findSome? fun j => if j.jstate = 1 then
      (match j.kind with | .retireGen t g => if t = tenant then some g else none | _ => none) else none
    let s := match s.med.rekey, job with
      | none, some g =>
        if ((s.cip.pages.get? tenant).any fun (p : KeyPage) => p.gens.any fun x => x.gen == g) then
          raise { s with med := { s.med with rekey := some (tenant, g, 0) } } 0x800D 2 domNone (pl [(2, tenant), (4, g), (1, 1)])
        else s
      | _, _ => s
    match s.med.rekey with
    | none => s
    | some (t, gen, cur) =>
      if t ≠ tenant then s
      else
        match (slotsFrom s cur).find? (fun (e : Nat × BSlot) => ((nsOf s e.2.ns).map (·.tenant)) == some tenant && !e.2.lost) with
        | some (pos, sl) =>
          match rekeySlot s tenant gen pos sl bodies with
          | some s => { s with med := { s.med with rekey := some (t, gen, pos + 1) } }
          | none => s
        | none =>
          if genNamed s tenant gen then { s with med := { s.med with rekey := some (t, gen, 0) } }
          else
            let s := dropGen { s with med := { s.med with rekey := none } } tenant gen
            raise s 0x800D 2 domNone (pl [(2, tenant), (4, gen), (1, 0)])

def execRekeySweep (tenant : Nat) (bodies : List Bytes) (s : State) : Host.Outcome State Fault Refusal := lift (fun b => rekeyFn tenant bodies (idleExit b)) s

/-! ### Rebuilding for a replacement (R264-R269) -/

/-- The spans of position `p` of the members, as read; a member of `out` counts as missing. -/
def stripeSpans (spans : Tbl (Option Bytes)) (n p : Nat) (out : List Nat) : List (Option Bytes) :=
  (List.range n).map fun i => if out.contains i then none else (spans.getD (16 * i + p) none).filter fun b => b.length = 4146

/-- Every member of a stripe from what is present: data by decoding, parity by R247. -/
def fullStripe (k m : Nat) (ms : List (Option Bytes)) : Option (List Bytes) :=
  let got := (List.range (k + m)).filter fun i => (ms.getD i none).isSome
  let use := got.take k
  if got.length < k then none
  else (rsDecode k ((List.range (k + m)).map fun i => if use.contains i then ms.getD i none else none)).map fun d =>
    d ++ (List.range m).map fun i => rsRow i d

/-- The present members agree with the decoded stripe. -/
def agrees (ms : List (Option Bytes)) (full : List Bytes) : Bool :=
  (ms.zip full).all fun e => e.1.all fun b => b == e.2

/-- R264: the stripe, and the member excluded by its consistency check; none when there is no consistent result. -/
def settleStripe (k m : Nat) (ms : List (Option Bytes)) : Option (List Bytes × Option Nat) :=
  match fullStripe k m ms with
  | none => none
  | some d =>
    if agrees ms d then some (d, none)
    else (List.range (k + m)).findSome? fun i =>
      if (ms.getD i none).isNone then none
      else
        let ms := ms.set i none
        match fullStripe k m ms with
        | some d => if agrees ms d then some (d, some i) else none
        | none => none

/-- A rebuilt codeword of member `mi`. -/
def rebuiltCw (b : Band) (mi : Nat) (sp : Bytes) : Cw :=
  if mi < b.k then
    let c := sp.drop 4112
    let kind := leAt c 29 1 / 16
    let ns := if 1 ≤ kind ∧ kind ≤ 3 then b.ns else 0
    let t := fun (w : Nat) => gtagBytes { digest := BitVec.ofNat 128 (leAt c 0 16), version := leAt c 16 8, wseq := w,
                                          lga := leAt c 24 5, kind := kind, gear := leAt c 29 1 % 8, ns := ns, grain := leAt c 30 4 }
    { body := sp.take 4112, tag := t }
  else parityCw b.gear (mi - b.k) sp

/-- A unit of padding. -/
def padSpans (gear : Nat) : List Bytes := List.replicate 16 (grainSpan 0 gear {})

/-- Replacements that rebuild unit `u` of band `b` now. -/
def rebuildTargets (s : Blk) (b u : Nat) : List (Nat × Nat) :=
  s.med.rebuilds.filterMap fun e => if e.2.todo.head? = some b ∧ e.2.unit = u then e.2.sband.map fun i => (e.1, i) else none

/-- The member of a band that lies in a slot. -/
def memberIn (b : Band) (n : Nat) : Nat := b.members.findIdx fun m => m.1 = n

/-- The map names the rebuilt unit from its program on: a read of it queues behind that program (R162, R184, R266); `w` is the write
sequence of the program, which its tags carry (R243). -/
def remapUnit (s : Blk) (old new : SBand) (ns u w : Nat) (spans : List Bytes) : Blk :=
  let at_ := fun (x : SBand) i => x.ghost * 2 ^ 48 + unitPga s x u i
  (spans.zip (List.range 16)).foldl (fun s e =>
    let c := e.1.drop 4112
    let kind := leAt c 29 1 / 16
    let lga := leAt c 24 5
    let was := at_ old e.2
    let now := at_ new e.2
    if kind = 0 ∨ 7 < kind then s
    else
      let t : GTag := { digest := BitVec.ofNat 128 (leAt c 0 16), version := leAt c 16 8, wseq := w, lga := lga, kind := kind, gear := leAt c 29 1 % 8,
                        ns := if 1 ≤ kind ∧ kind ≤ 3 then ns else 0, grain := leAt c 30 4 }
      let s := { s with med := { s.med with tags := (s.med.tags.del was).set now t } }
      if placeNow s kind lga ≠ some was then s
      else if kind = 4 then journal (modDir s lga fun d => { d with pageLoc := now }) (.pageLoc lga now)
      else if kind = 5 then journal { s with med := { s.med with mroot := s.med.mroot.set lga now } } (.mapRoot lga now)
      else match s.med.cmap.get? (lga / 16) with
        | some (.coarse g _) => if e.2 = 0 then setCoarse s (lga / 16) g now else s
        | some (.split _) => setFine s lga (((mapOf s lga).map Prod.snd).getD 0) now
        | none => s) s

/-- Program one rebuilt unit to its replacement; the die-XOR takes its spans (R245). -/
def programRebuilt (s : Blk) (bi u : Nat) (b : Band) (e : Nat × Nat) (spans : List Bytes) : Blk :=
  match s.med.sbands.get? e.2 with
  | none => s
  | some sb =>
    let j := u % 16
    let s := setSBand s e.2 { sb with acc := sb.acc.set (u / 16) (xorSpans (sb.acc.getD (u / 16) []) spans) }
    let r := programPages s e.1 (sb.dies.getD j 0) (sb.blocks.getD j 0) (4 * (u / 16)) (sb.slc || decide (5 ≤ sb.gear))
      (spans.map (rebuiltCw b (memberIn b e.1))) (.rebuilt bi u)
    match ((b.members[memberIn b e.1]?).bind Prod.snd).bind s.med.sbands.get? with
    | some old => if memberIn b e.1 < b.k then remapUnit r.2 old sb b.ns u r.1 spans else r.2
    | none => r.2

/-- The end of a replacement's rebuild: event 0x7003, and the spoke is in service without one (R264). -/
def rebuildEnd (s : Blk) (n : Nat) : Blk :=
  match s.med.rebuilds.get? n with
  | some r =>
    if r.todo.isEmpty then
      let s := modSpoke { s with med := { s.med with rebuilds := s.med.rebuilds.del n } } n fun x => { x with sstate := 1 }
      raise s 0x7003 3 (domSpke n) (pl [(1, n)])
    else s
  | none => s

/-- R265: while a namespace being rebuilt is CRITICAL the rate overrides. -/
def rebuildRate (s : Blk) : Blk :=
  let on := s.nss.any fun e => e.2.shown == 0x43 && rebuilding s e.1
  if on = s.med.rebuildOver then s
  else
    let s := if on then s else endOverride s [0x1A]
    alert (raise { s with med := { s.med with rebuildOver := on } } 0x700B 3 domNone (pl [(1, boolNat on)])) 7

/-- The new member is recorded, and the band is marked rebuilt for the slot (R264, R269). -/
def bandRebuilt (s : Blk) (bi : Nat) (e : Nat × Nat) : Blk :=
  match s.med.bands.get? bi with
  | none => s
  | some b =>
    let mi := memberIn b e.1
    let y := { b with members := b.members.set mi (e.1, some e.2), lost := b.lost.filter (· ≠ mi)
                      lostAt := b.lostAt.filter (fun p => p.2 ≠ mi), rebuiltFor := b.rebuiltFor.filter (· ≠ e.1) ++ [e.1] }
    let s := journal (journal (setBand s bi y) (.band bi y)) (.rebuilt bi e.1)
    let s := { s with med := { s.med with rebuilds := s.med.rebuilds.upd e.1 {} fun r => { todo := r.todo.drop 1 } } }
    rebuildEnd (closeSBand s e.2) e.1

/-- Skip the bands without live grains at the head of a rebuild: they go to GC (R264, R266). -/
def skipEmpty : Nat → Blk → Nat → Blk
  | 0, s, _ => s
  | k + 1, s, n =>
    match s.med.rebuilds.get? n with
    | some r =>
      match r.todo with
      | b :: rest =>
        if (bandLive s b).isEmpty then
          skipEmpty k { s with med := { s.med with rebuilds := s.med.rebuilds.set n { todo := rest } } } n
        else s
      | [] => s
    | none => s

/-- Open the spoke bands for a band, on every replacement that shares it (R264, R268). -/
def openRebuilt (s : Blk) (n bi : Nat) (b : Band) : Blk :=
  let all := (s.med.rebuilds.filter fun e => e.2.todo.contains bi ∧ e.2.sband.isNone ∧ (e.1 = n ∨ e.2.unit = 0)).map Prod.fst
  forEach all (fun s k =>
    match openSBand (roomOn s k) k b.gear b.slc b.gc with
    | some (i, s) => { s with med := { s.med with rebuilds := s.med.rebuilds.upd k {} fun r =>
        { todo := bi :: r.todo.filter (· ≠ bi), unit := 0, sband := some i } } }
    | none => s) s

/-- The members of a stripe that count as lost or absent. -/
def stripeOut (b : Band) (u : Nat) : List Nat := b.lost ++ (b.lostAt.filter fun p => p.1 = u).map Prod.snd

/-- The reads of unit `u`: each position of every present member, but what its open stripe still holds (R264). -/
def askUnit (s : Blk) (lead bi u : Nat) (b : Band) (ts : List (Nat × Nat)) : Blk :=
  let ms := (b.members.zip (List.range b.members.length)).filter fun e => ¬ (stripeOut b u).contains e.2 ∧ ¬ ts.any fun t => memberIn b t.1 = e.2
  let ps := ms.flatMap fun e => ((e.1.2.bind s.med.sbands.get?).toList).flatMap fun sb => (List.range 16).map fun p => (e.2, p, sb)
  let held := ps.filterMap fun e => (heldSpan s bi u e.1 e.2.1).map fun v => (16 * e.1 + e.2.1, some v)
  let ask := ps.filter fun e => (heldSpan s bi u e.1 e.2.1).isNone
  let s := { s with med := { s.med with rebuilds := s.med.rebuilds.upd lead {} fun r =>
    { r with asked := true, awaited := ask.length, spans := held.foldl (fun t e => t.set e.1 e.2) [] } } }
  forEach ask (fun s e => askSpan s (e.2.2.ghost * 2 ^ 48 + unitPga s e.2.2 u e.2.1) (.rebuildOf lead e.1 e.2.1)) s

/-- The block of a member whose codeword could not be read is refreshed (R267). -/
def refreshMember (s : Blk) (b : Band) (u i : Nat) : Blk :=
  match ((b.members[i]?).bind Prod.snd).bind s.med.sbands.get? with
  | some sb => if sb.ghost = 0 then refreshBlock s (blkKey sb.spoke (sb.dies.getD (u % 16) 0) (sb.blocks.getD (u % 16) 0)) else s
  | none => s

/-- Unit `u` is settled from the spans that have been read, and programmed to every replacement that takes it (R264, R267). -/
def rebuildUnit (s : Blk) (bi u : Nat) (b : Band) (ts : List (Nat × Nat)) (spans : Tbl (Option Bytes)) : Blk :=
  let at_ := fun p => stripeSpans spans (b.k + b.m) p (stripeOut b u)
  let res := (List.range 16).map fun p => settleStripe b.k b.m (at_ p)
  let check := (List.range 16).any fun p => (fullStripe b.k b.m (at_ p)).any fun d => !agrees (at_ p) d
  let s := if check then raise s 0x7006 5 domNone (pl [(4, bi), (2, u)]) else s
  let bad := res.filterMap fun e => e.bind Prod.snd
  let gone := (List.range (b.k + b.m)).filter fun i => (List.range 16).any fun p => (at_ p)[i]? = some none
  let fresh := gone.filter fun i => ¬ b.lost.contains i ∧ ¬ ts.any fun t => memberIn b t.1 = i
  let s := forEach fresh (fun s i => refreshMember s b u i) (forEach (fresh ++ bad) (fun s i => noteLost s bi u i) s)
  let lost := res.any Option.isNone
  let s := if lost then loseStripe s bi u gone else s
  let s := forEach ts (fun s t =>
    let sp := res.map fun e => match e with
      | some (d, _) => d.getD (memberIn b t.1) []
      | none => []
    programRebuilt s bi u b t (if lost then padSpans b.gear else sp)) s
  let onward := fun k (r : Rebuild) => if ts.any (fun t => t.1 = k) then { r with unit := u + 1, spans := [], awaited := 0, asked := false } else r
  let s := { s with med := { s.med with rebuilds := s.med.rebuilds.mapVal onward } }
  if b.nextUnit ≤ u + 1 then forEach ts (fun s t => bandRebuilt s bi t) s else s

/-- REBUILD_BAND: the next unit of the band being rebuilt for a slot, which the command names: its reads are issued, and once all have
returned the unit is settled and programmed (R264-R268). -/
def rebuildFn (n band : Nat) (s : Blk) : Blk :=
  let s := skipEmpty (((s.med.rebuilds.get? n).map (·.todo.length)).getD 0) s n
  let s := rebuildEnd s n
  let next := (s.med.rebuilds.get? n).bind fun r => (r.todo.head?).bind fun b => (s.med.bands.get? b).map fun x => (r, b, x)
  match next with
  | none => judgeNs (rebuildRate s)
  | some (r, bi, b) =>
    if bi ≠ band then s else
    let s := if r.sband.isNone then openRebuilt s n bi b else s
    let u := ((s.med.rebuilds.get? n).map (·.unit)).getD 0
    let ts := rebuildTargets s bi u
    match ts.head? with
    | none => s
    | some (lead, _) =>
      let r := s.med.rebuilds.getD lead {}
      if r.asked = false then askUnit s lead bi u b ts
      else if r.awaited ≠ 0 then s
      else judgeNs (rebuildRate (rebuildUnit s bi u b ts r.spans))

def execRebuildBand (n : Fin 16) (band : Nat) (s : State) : Host.Outcome State Fault Refusal :=
  lift (fun b => withRest (rebuildFn n.val band) (idleExit b)) s

/-! ### Lost values and lost pages (R262, R270) -/

/-- A value has a grain in a listed unit. -/
def valueLostAt (s : Blk) (sl : BSlot) : Bool :=
  (s.med.runs.getD (locHead sl.loc) [(locHead sl.loc, 1 + locGrains sl.loc)]).any fun r =>
    (List.range r.2).any fun i => (mapOf s (r.1 + i)).any fun q => listedLost s q.1

/-- LOST_VALUE_SWEEP: every such value is marked; a listed unit that no map entry names leaves the list. -/
def lostSweep (s : Blk) : Blk :=
  let s := forEach ((slotsFrom s 0).filter fun e => e.2.lost = false ∧ valueLostAt s e.2) (fun s e => sweepLost s e.1 e.2) s
  let named := (liveGrains s).filterMap fun g => (stripeAt s g.pga).map fun x => (x.1, x.2.1 * 16 + x.2.2.1)
  { s with med := { s.med with lostUnits := s.med.lostUnits.filter fun e => named.contains e } }

def execLostValueSweep (s : State) : Host.Outcome State Fault Refusal := lift lostSweep s

/-- A bucket page rebuilt from the tags: the slots whose head grain is there; the others are not found, and leave the
counts. -/
def rebuildPage (s : Blk) (b : Nat) : Blk :=
  let all := slotsAt s b
  let keep : Tbl BSlot := all.filter fun e => (mapOf s (locHead e.2.loc)).any fun q => !listedLost s q.1
  let gone := all.filter fun e => !Tbl.has keep e.1
  let s := modDir (touchPage s b) b fun d => { d with slots := keep, fp := keep.map (fun e => (e.1, fingerprint e.2.digest)), dirty := true, unreadable := false }
  forEach gone (fun s e =>
    let s := modNs s e.2.ns fun x => { x with keys := x.keys - 1, bytes := x.bytes - e.2.valueLen }
    { s with idx := { s.idx with keys := s.idx.keys - 1 } }) s

/-- METADATA_TAG_SCAN: the lost pages are rebuilt, and each namespace returns to its state. -/
def metadataScan (s : Blk) : Blk :=
  let s := loseMetadata s
  let s := forEach ((s.idx.dir.filter fun e => e.2.unreadable).map Prod.fst) rebuildPage s
  let wait := s.med.mapWait
  let s := forEach ((wait.map Prod.fst).eraseDups) (fun s p => touchMap s p true) { s with med := { s.med with mapWait := [] } }
  let s := forEach wait (fun s e => readLga s e.2.1 e.2.2.1 e.2.2.2) s
  judgeNs { s with med := { s.med with tagScan := false }, nss := s.nss.mapVal fun _ x => { x with metaOffline := false } }

def execMetadataTagScan (s : State) : Host.Outcome State Fault Refusal := lift metadataScan s

end Sys2Proof.Machine
end

