-- ==== Sys2Proof/Machine/Spoke.lean ====
section
/-! DEFINITION. The spoke links and bridges: training, retry and credits (R154-R161, shared with the tandem link, R275),
read data and STATUS (R157, R158, R162-R166), sleds and slots (R167-R171, R434), failures of spokes, dies and blocks
(R208-R211, R260, R263). -/

namespace Sys2Proof.Machine

/-! ### Retry and training (R154, R159, R275) -/

def linkDom : Link → Nat
  | .spoke n => domSpkl n.val
  | .tandem => domTdm

def countLink (s : Blk) (l : Link) (k n : Nat) : Blk := let x := linkOf s l; setLink s l { x with cnt := countAdd x.cnt k n }

/-- The device sends IDENT: zero fields on a spoke link; its serial-derived value, side and a fresh nonce on the tandem
link (R160, R275). -/
def sendIdent (s : Blk) (l : Link) : Blk :=
  match l with
  | .spoke _ => sendLink s l 3 0 []
  | .tandem =>
    let d := drawBytes s 16
    let s := { d.2 with tdm := { d.2.tdm with nonce := d.1, joined := false } }
    sendLink s l 3 0 (serialBytes s ++ [BitVec.ofNat 8 s.tdm.side] ++ d.1)

/-- Training begins or goes on with attempt `a`; the link's clock runs while it trains or is up (R22). -/
def trainLink (s : Blk) (l : Link) (a : Nat) : Blk :=
  sendIdent (setLink (startClock s (linkDom l)) l { linkOf s l with phase := .training, attempt := a, identIn := false, creditIn := false, badRun := 0, rrCount := 0, reqCount := 0, pair := [] }) l

/-- A retrain keeps the replay buffer and the sequence state (R159). A side that starts one of itself says so with LCODE RETRAIN
(DEDUCED from R158, log entry 45). -/
def retrainLink (s : Blk) (l : Link) (own : Bool := true) : Blk :=
  if (linkOf s l).phase = .up then
    let s := if own then sendLink s l 4 0 [] else s
    trainLink (raise (countLink s l 5 1) 0x9001 3 (linkDom l) (pl [(1, linkNo l)])) l 1
  else s

/-- Ask for the FSEQ that is expected; the 16th request for one FSEQ retrains the link (R159). -/
def requestRetry (s : Blk) (l : Link) : Blk :=
  let n := (if (linkOf s l).awaiting then (linkOf s l).reqCount else 0) + 1
  let s := setLink s l { linkOf s l with awaiting := true, reqCount := n }
  let s := countLink (sendLink s l 1 (linkOf s l).rxSeq.toNat []) l 3 1
  if 16 ≤ n then retrainLink s l else s

/-- A flit that fails FCRC, or lies in an uncorrectable codeword (R159). -/
def badFlit (l : Link) (s : Blk) : Blk :=
  let k := linkOf s l
  if k.phase = .down then s
  else
    let s := countLink (setLink s l { k with badRun := k.badRun + 1 }) l 2 1
    if k.phase = .up ∧ 8 ≤ k.badRun + 1 then retrainLink s l
    else if k.awaiting ∨ k.phase ≠ .up then s else requestRetry s l

/-- FLIT_FCRC_FAILURE: the codewords found uncorrectable with it are counted as well (R159, R172). -/
def fcrcFailure (l : Link) (uncorrectable : Nat) (s : Blk) : Blk :=
  badFlit l (if (linkOf s l).phase = .down then s else countLink s l 1 uncorrectable)

def execFlitFcrcFailure (at_ : Link × Nat) (s : State) : Host.Outcome State Fault Refusal := lift (fcrcFailure at_.1 at_.2) s

/-- Replay in order from the flit named, rebuilding the common fields (R159). -/
def replayFrom (s : Blk) (l : Link) (q : BitVec 8) : Blk :=
  let k := linkOf s l
  let fs := k.replay.dropWhile fun e => e.1 ≠ q
  let s := fs.foldl (fun s e => let k := showCredits (linkOf s l); sendLine (setLink s l k) l (headerNow k e.1 e.2) e.2.payload) s
  countLink s l 4 fs.length

/-- The flits up to FACK are acknowledged. -/
def dropAcked (k : LinkSt) (fack : BitVec 8) : LinkSt :=
  match k.replay.head? with
  | some (q, _) =>
    let n := (fack - q).toNat + 1
    if n ≤ k.replay.length then { k with replay := k.replay.drop n } else k
  | none => k

/-- The partner has acknowledged a session's release point: the ACK of the session may pass it (R280). -/
def deltaAcked (s : Blk) (f : Flit) : Blk :=
  if f.ftype = 6 ∧ (tdmView f.body).1 = 1 ∧ beAt f.payload 3 1 = 2 then
    match sessOf s (beAt f.payload 0 3) with
    | some ss =>
      let q : Seq := BitVec.ofNat 32 (beAt f.payload 4 4)
      if seqBefore ss.mirrored q then sendAck (setSess s (beAt f.payload 0 3) { ss with mirrored := q }) (beAt f.payload 0 3) else s
    | none => s
  else s

/-- Credits and FACK, taken from every flit with a good FCRC (R161). -/
def takeCommon (s : Blk) (l : Link) (v : FlitView) : Blk :=
  let k := dropAcked (linkOf s l) v.fack
  let gone := match l with
    | .tandem => (linkOf s l).replay.take ((linkOf s l).replay.length - k.replay.length)
    | .spoke _ => []
  let s := forEach gone (fun s e => deltaAcked s e.2) s
  setLink s l { k with badRun := 0, crA := k.crA + (v.cra - k.takenA).toNat, crB := k.crB + (v.crb - k.takenB).toNat,
                       takenA := v.cra, takenB := v.crb }

/-- FTYPEs that consume an FSEQ in the direction of the device. -/
def consumes (l : Link) (ftype : Nat) : Bool :=
  match l with
  | .spoke _ => ftype == 3 || ftype == 4
  | .tandem => ftype == 6 || ftype == 7 || ftype == 8

/-! ### Failure of a spoke (R259, R260) -/

/-- Members of a slot in the stripe bands: band, member number. -/
def slotMembers (s : Blk) (n : Nat) : List (Nat × Nat) :=
  s.med.bands.filterMap fun e => if e.2.members.any fun m => m.1 = n ∧ m.2.isSome then some (e.1, memberIn e.2 n) else none

/-- A place in a journal record changed. -/
def mapRecPga (f : Nat → Nat) : JRec → JRec
  | .mapCoarse cu gear pga => .mapCoarse cu gear (f pga)
  | .mapSplit lga gear pga t => .mapSplit lga gear (f pga) t
  | .mapRoot page pga => .mapRoot page (f pga)
  | .pageLoc b pga => .pageLoc b (f pga)
  | r => r

/-- Map entries and spoke bands of the slot are marked, in every copy of the map, and with them every place that names one of its
codewords: a replacement uses the same places again. What lay on the sled goes with it. -/
def markGhosts (s : Blk) (n : Nat) : Blk :=
  let g := s.med.sbandNext
  let mv := fun (p : Nat) => if p < 2 ^ 48 ∧ p ≠ 0 ∧ (pgaView p).spoke = n then g * 2 ^ 48 + p else p
  let mvDir := fun (t : Tbl DirEnt) => t.mapVal fun _ d => { d with pageLoc := mv d.pageLoc }
  let mvMap := fun (t : Tbl MapEnt) => t.mapVal fun _ e => match e with
    | .coarse a p => .coarse a (mv p)
    | .split a => .split a
  let mvFine := fun (t : Tbl (Nat × Nat)) => t.mapVal fun _ p => (p.1, mv p.2)
  let mvRoot := fun (t : Tbl Nat) => t.mapVal fun _ p => mv p
  let mvRecs := fun (l : List JRec) => l.map (mapRecPga mv)
  let mvGrain := fun (x : SGrain) => { x with source := x.source.map mv }
  { s with
    idx := { s.idx with dir := mvDir s.idx.dir }
    pwr := { s.pwr with imageRing := mvRecs s.pwr.imageRing }
    med := { s.med with
      cmap := mvMap s.med.cmap
      fmap := mvFine s.med.fmap
      mroot := mvRoot s.med.mroot
      ckDir := mvDir s.med.ckDir
      ckCmap := mvMap s.med.ckCmap
      ckFmap := mvFine s.med.ckFmap
      ckRoot := mvRoot s.med.ckRoot
      fjournal := mvRecs s.med.fjournal
      ring := mvRecs s.med.ring
      reads := s.med.reads.mapVal fun _ x => { x with pga := mv x.pga }
      moving := s.med.moving.mapVal fun _ x => mvGrain x
      asmq := s.med.asmq.map fun e => (e.1, e.2.1, e.2.2.1, mvGrain e.2.2.2)
      stripes := s.med.stripes.mapVal fun _ x => { x with grains := x.grains.map mvGrain }
      truns := s.med.truns.filter fun e => e.2.spoke ≠ n
      tags := s.med.tags.filter fun e => (pgaView e.1).spoke ≠ n
      named := s.med.named.filter fun e => e.1 / 16 ≠ n
      jopen := s.med.jopen.del n
      anchors := s.med.anchors.filter fun e => e.1 / 512 ≠ n
      anchorDue := s.med.anchorDue.filter fun e => e / 512 ≠ n
      sbands := s.med.sbands.mapVal fun _ x => if x.spoke = n ∧ x.ghost = 0 then { x with ghost := g, isOpen := false } else x
      blks := s.med.blks.filter fun e => blkSpoke e.1 ≠ n
      ghostGeo := s.med.ghostGeo.set g (geoOf s n 0)
      sbandNext := g + 1 } }

/-- What an outstanding operation's failure means to what it was for: a read goes on with stage 4, where it may enter it. -/
def opLost (s : Blk) (n : Nat) (o : Op) : Blk :=
  match o.why with
  | .read rd _ => match s.med.reads.get? rd with
    | some x => if x.stage = 1 ∨ x.stage = 2 then enterStage s rd { x with outstanding := 0 } 4 (fun s x => startRs s rd x) else s
    | none => s
  | .rebuilt b u => match s.med.bands.get? b with | some x => noteLost s b u (memberIn x n) | none => s
  | .journal page => journalEnded s n page false
  | _ => s

/-- The brake and its override end with the spoke that they held back (R195, R300). -/
def brakeGone (s : Blk) (n : Nat) (was : SpokeSt) : Blk :=
  let s := if was.brake then raise s 0x8002 4 (domSpke n) (pl [(1, n), (1, 0)]) else s
  let s := if was.brakeOver then alert (raise s 0x8015 4 (domSpke n) (pl [(1, n), (1, 0)])) 7 else s
  if s.spokes.vals.any (·.brakeOver) then s else endOverride s [0x0A]

/-- R260: the spoke becomes FAILED; its members count as lost, and its open bands close at their current stripe. -/
def spokeFailed (s : Blk) (n : Nat) : Blk :=
  let x := spokeOf s n
  let p := profOf s n
  let ops := allOps x
  let shape := (max 1 p.planes * p.pagesPerBlock, x.usableBlocks + x.slcBlocks)
  let s := setSpoke s n { x with sstate := 2, ops := [], opWait := [], hardq := [], hardBusy := 0, failed := some shape, brake := false, account := 0, brakeOver := false, capEmerg := false
                                 freeBlocks := 0, slcUsed := 0, slcBlocks := 0, usableBlocks := 0, softq := [], softBusy := 0, patrolq := [] }
  let s := alert (raise s 0x7001 5 (domSpke n) (pl [(1, n)])) 3
  let mem := slotMembers s n
  let open_ := s.med.stripes.filterMap fun e => (mem.find? fun m => m.1 = e.2.band).map fun m => (e.1, m.2)
  let s := forEach open_ (fun s e => loseMember s e.1 e.2) s
  let s := forEach mem (fun s e => closeBand s e.1) s
  let s := forEach mem (fun s e => match s.med.bands.get? e.1 with
    | some b =>
      let y := { b with lost := if b.lost.contains e.2 then b.lost else b.lost ++ [e.2], rebuiltFor := b.rebuiltFor.filter (· ≠ n) }
      journal (setBand s e.1 y) (.band e.1 y)
    | none => s) s
  let s := markGhosts { s with med := { s.med with rebuilds := s.med.rebuilds.del n } } n
  let s := forEach ops (fun s o => opLost s n o) (brakeGone s n x)
  resumeAsm (completeAll (judgeNs (judgeSlc s)))

/-- Power and link of a slot go away, and with them the link's clock (R22). -/
def powerOff (s : Blk) (n : Nat) : Blk :=
  let l := spokeLink n
  let s := modSpoke (stopClock s (domSpkl n)) n fun x => { x with linkLost := x.linkLost || (linkOf s l).wasUp }
  setLink { s with pin := { s.pin with pwren := s.pin.pwren &&& ~~~(1#16 <<< n) } } l { cnt := (linkOf s l).cnt }

/-- The source of a command whose answer comes later gets it. -/
def answerLater (s : Blk) (src : Source) (status detail : Nat) (result : Bytes) : Blk :=
  match s.hub.later.find? fun e => e.1 = src with
  | some (_, r) => hubAnswer { s with hub := { s.hub with later := s.hub.later.filter fun e => e.1 ≠ src } } src r status detail result []
  | none => s

/-- R169: a removal, surprise or orderly. -/
def removeSpoke (s : Blk) (n : Nat) (orderly : Bool) : Blk :=
  let x := spokeOf s n
  let served := inService s n
  let seated := !s.pin.prsntN.getLsbD n
  let was := (linkOf s (spokeLink n)).wasUp
  let s := powerOff s n
  let s := setSpoke s n { x with ops := if served then x.ops else [], opWait := if served then x.opWait else [], remDebounce := false
                                 linkLost := x.linkLost || was, removing := none, profile := if served then x.profile else none
                                 params := [], dieReady := [], reseat := seated && !orderly, sstate := if x.failed.isSome then 2 else 0 }
  let s := alert (raise s 0x9004 5 (domSpkl n) (pl [(1, n), (1, boolNat orderly)])) 3
  let s := if served then spokeFailed s n else s
  match x.removing with
  | some src => answerLater s src stOk 0 []
  | none => s

/-- R170: a protocol violation takes the link down. -/
def violation (s : Blk) (n : Nat) : Blk := removeSpoke (raise s 0x9007 5 (domSpkl n) (pl [(1, n)])) n false

/-! ### Taking a flit -/

/-- A flit arrives (R159, R161): whether its content is to be acted on. -/
def flitIn (s : Blk) (l : Link) (h : FlitHeader) (payload : Bytes) : Bool × Blk :=
  let v := flitView h
  let k := linkOf s l
  if k.phase = .down then (false, s)
  else if flitCrc h payload ≠ v.fcrc then (false, badFlit l s)
  else
    let s := takeCommon s l v
    if consumes l v.ftype = false then (true, pump s l)
    else if k.phase ≠ .up then (false, s)
    else if v.fseq = k.rxSeq then
      let k := linkOf s l
      let a := match l with | .spoke _ => decide (v.ftype = 3) | .tandem => decide (v.ftype ≠ 7)
      let s := setLink s l { k with rxSeq := k.rxSeq + 1, awaiting := false, reqCount := 0, owedA := if a then k.owedA + 1 else k.owedA
                                    owedB := if a then k.owedB else k.owedB + 1 }
      (true, pump s l)
    else
      let s := pump s l
      match l with
      | .spoke n => if k.awaiting = false ∧ 128 ≤ (v.fseq - k.rxSeq).toNat then (false, violation s n.val)
                    else (false, if k.awaiting then s else requestRetry s l)
      | .tandem => (false, if k.awaiting then s else requestRetry s l)

/-- Act on a flit of the type, and LCODE, that a row is about. -/
def onFlit (l : Link) (h : FlitHeader) (payload : Bytes) (ftype lcode : Nat) (f : Blk → FlitView → Blk) (s : Blk) : Blk :=
  let r := flitIn s l h payload
  let v := flitView h
  if r.1 ∧ v.ftype = ftype ∧ (ftype ≠ 5 ∨ bitsOf v.body.toNat 56 8 = lcode) then f r.2 v else r.2

/-- IDLE_FLIT: its FACK and credits are taken; the codewords corrected since the last one are counted (R172). -/
def idleFlitFn (l : Link) (hdr : FlitHeader) (corrected : Nat) (s : Blk) : Blk :=
  onFlit l hdr (zeros 240) 0 0 (fun s _ => s) (if (linkOf s l).phase = .down then s else countLink s l 0 corrected)

def execIdleFlit (l : Link) (flit : FlitHeader × Nat) (s : State) : Host.Outcome State Fault Refusal :=
  lift (idleFlitFn l flit.1 flit.2) s

/-- RETRY_REQ: the 16th for one FSEQ retrains the link. -/
def retryReqFn (l : Link) (hdr : FlitHeader) (s : Blk) : Blk :=
  onFlit l hdr (zeros 240) 5 1 (fun s v =>
    let k := linkOf s l
    let q := BitVec.ofNat 8 (bitsOf v.body.toNat 48 8)
    let n := if k.rrSeq = q ∧ k.rrCount ≠ 0 then k.rrCount + 1 else 1
    let s := setLink s l { k with rrSeq := q, rrCount := n, replay := if k.replay.any (fun e => e.1 = q) then k.replay.dropWhile (fun e => e.1 ≠ q) else k.replay }
    if k.phase ≠ .up then s else if 16 ≤ n then retrainLink s l else replayFrom s l q) s

def execRetryReq (l : Link) (hdr : FlitHeader) (s : State) : Host.Outcome State Fault Refusal := lift (retryReqFn l hdr) s

def retryRepeat (l : Link) (s : Blk) : Blk := if (linkOf s l).phase = .up ∧ (linkOf s l).awaiting then requestRetry s l else s

def execRetryReqRepeat (l : Link) (s : State) : Host.Outcome State Fault Refusal := lift (retryRepeat l) s

/-- RETRAIN: the far side says that it retrains, or a pair has come whose marker is wrong (R154, R158, R159). -/
def retrainFn (l : Link) (cause : RetrainCause) (s : Blk) : Blk :=
  match cause with
  | .flit hdr => onFlit l hdr (zeros 240) 5 4 (fun s _ => retrainLink s l false) s
  | .pair lanes => if markerWrong lanes then retrainLink s l else s

def execRetrain (at_ : Link × RetrainCause) (s : State) : Host.Outcome State Fault Refusal := lift (retrainFn at_.1 at_.2) s
def execPairMarkerTimeout (l : Link) (s : State) : Host.Outcome State Fault Refusal := lift (fun b => retrainLink b l) s

/-! ### The tandem link goes down or comes up (R275, R278) -/

/-- The link path is no longer usable; `held` tells why it is held down: 1 same side, 2 join failed. -/
def tandemDown (s : Blk) (held : Nat) : Blk :=
  let k := linkOf s .tandem
  let s := setLink (stopClock s domTdm) .tandem { cnt := k.cnt }
  let s := { s with tdm := { s.tdm with joined := false, heldDown := held } }
  if k.wasUp then raise s 0xC001 3 domTdm [0#8] else s

def joinFailed (s : Blk) : Blk := tandemDown (raise s 0xC00E 5 domTdm []) 2

/-- JOIN_PROOF's payload (R278). -/
def joinProof (s : Blk) (serial : Bytes) (side : Nat) (own other : Bytes) : Bytes :=
  hmac256 s.cip.pairMac (ascii "TDM-J" ++ serial ++ [BitVec.ofNat 8 side] ++ own ++ other)

/-- Training of the tandem link has ended: each side proves itself; without a secret the link is held down. -/
def tandemUp (s : Blk) : Blk :=
  let s := if (linkOf s .tandem).wasUp then s else raise (setLink s .tandem { linkOf s .tandem with wasUp := true }) 0xC001 3 domTdm [1#8]
  if s.tdm.secret.isEmpty then joinFailed s
  else sendLink s .tandem 0x12 0 (joinProof s (serialBytes s) s.tdm.side s.tdm.nonce s.tdm.peerNonce)

/-! ### Identification of a sled (R168, R171, R263) -/

/-- A slot's newly seated sled answers: identity, and the parameter page and state of every die. -/
def identify (s : Blk) (n : Nat) : Blk :=
  let x := spokeOf s n
  let dies := allDies x
  let s := issueOp (setSpoke s n { x with params := [], dieReady := [], profile := none }) n opBridgeQuery 0 0 0 false [0#8] [] .identity
  forEach dies (fun s d =>
    let s := if x.failed.isSome ∨ x.linkLost then issueOp s n opResetDie (d / 16) (d % 16) 0 false [] [] (.resetDie d) else s
    let s := issueOp s n opReadParam (d / 16) (d % 16) 0 false [] [] (.param d)
    issueOp s n opDieStatus (d / 16) (d % 16) 0 false [] [] (.dieStatus d)) s

/-- The order of a rebuild (R264, R268): the bands that another rebuild has still to do first, then gear 5, then the lowest
margin, then the oldest. -/
def rebuildOrder (s : Blk) (n : Nat) : List Nat :=
  let shared := s.med.rebuilds.vals.flatMap (·.todo)
  let key : Nat → Nat := fun b => match s.med.bands.get? b with
    | some x => (if shared.contains b then 0 else 2 ^ 60) + (if x.gear = 5 then 0 else 2 ^ 50 * (1 + (heldMargin s x.ns x.m).getD x.m)) + x.order
    | none => 0
  ((s.med.bands.filter fun e => e.2.members.any fun m => m.1 = n).map Prod.fst).mergeSort fun a b => decide (key a ≤ key b)

/-- Blocks of a sled outside the SLC buffer, and in it. -/
def blockCounts (s : Blk) (n : Nat) : Nat × Nat :=
  let x := spokeOf s n
  let d := ((allDies x).filter (dieUsable x)).length
  (d * ((profOf s n).blocksPerPlane - 1 - slcPer s n), d * slcPer s n)

/-- The anchor blocks of a newly matched sled are read: a die's marks and counts take the first codewords (R174; layout and moment:
DESIGN CHOICE, log entry 46). -/
def askAnchors (s : Blk) (n : Nat) : Blk :=
  let cws := ((profOf s n).blocksPerPlane + 1023) / 1024
  forEach ((allDies (spokeOf s n)).filter (dieUsable (spokeOf s n))) (fun s d =>
    forEach (List.range (min 4 cws)) (fun s cw => askSpan s (blockPga s n d 0 0 cw) (.anchor d cw)) s) s

/-- A matched sled is offered to the media manager (R168, R263). -/
def offerSpoke (s : Blk) (n : Nat) (p : Profile) : Blk :=
  let s := modSpoke s n fun x => { x with profile := some p }
  let c := blockCounts s n
  match (spokeOf s n).failed with
  | none =>
    let new := decide ((spokeOf s n).usableBlocks = 0)
    let s := if new then modSpoke s n fun x => { x with freeBlocks := c.1, usableBlocks := c.1, slcBlocks := c.2 } else s
    let s := modSpoke s n fun x => { x with sstate := 1, linkLost := false }
    let s := if new then askAnchors s n else s
    resumeAsm (judgeNs (if enoughDies (spokeOf s n) then s else spokeFailed s n))
  | some (shape, blocks) =>
    if max 1 p.planes * p.pagesPerBlock = shape ∧ blocks ≤ c.1 + c.2 ∧ enoughDies (spokeOf s n) then
      let todo := rebuildOrder s n
      let s := modSpoke s n fun x => { x with sstate := 3, linkLost := false, failed := none, freeBlocks := c.1, usableBlocks := c.1, slcBlocks := c.2, slcUsed := 0
                                              grownBad := [], diesOut := [], diesDead := [] }
      let s := { s with med := { s.med with rebuilds := s.med.rebuilds.set n { todo := todo } } }
      let s := askAnchors s n
      resumeAsm (judgeNs (rebuildRate (alert (raise s 0x7002 3 (domSpke n) (pl [(1, n)])) 3)))
    else raise (powerOff (modSpoke s n fun x => { x with profile := none, sstate := 2 }) n) 0x700C 4 (domSpke n) (pl [(1, n)])

/-- Once every answer is in, the profiles are tried in the package's order. -/
def matchProfile (s : Blk) (n : Nat) : Blk :=
  let x := spokeOf s n
  let waits := (allOps x).any fun o => match o.why with
    | .identity => true | .param _ => true | .dieStatus _ => true | .resetDie _ => true | _ => false
  if x.profile.isSome ∨ waits ∨ inService s n ∨ (linkOf s (spokeLink n)).phase ≠ .up then s
  else
    let dies := allDies x
    let fits := fun (p : Profile) => (p.matchBridge == 0 || p.matchBridge == beAt x.ident 0 4) &&
      dies.all fun d => x.params.get? d == some p.matchNand
    match s.boot.profiles.find? fits with
    | some p => offerSpoke s n p
    | none =>
      raise (powerOff (modSpoke s n fun x => { x with sstate := if x.failed.isSome then 2 else 4 }) n) 0x9006 4 (domSpkl n) (pl [(1, n)])

/-! ### Rows of training -/

/-- The partner trains a tandem link that is declared down here: this side trains with it (log entry 34). -/
def wakeTandem (l : Link) (h : FlitHeader) (payload : Bytes) (s : Blk) : Blk :=
  if l = .tandem ∧ (linkOf s l).phase = .down ∧ s.tdm.heldDown = 0 ∧ (s.dev = .run ∨ s.dev = .activating ∨ s.dev = .draining) ∧ flitCrc h payload = (flitView h).fcrc then
    trainLink s l 1
  else s

/-- IDENT: the bridge's identity, or the partner's serial, side and nonce. -/
def identFn (l : Link) (h : FlitHeader) (payload : Bytes) (s : Blk) : Blk :=
  onFlit l h payload 5 3 (fun s _ =>
    let k := linkOf s l
    if k.phase ≠ .training ∨ k.identIn then s
    else
      match l with
      | .spoke n =>
        let s := modSpoke (setLink s l { k with identIn := true }) n.val fun x => { x with ident := payload.take 10 }
        sendLink s l 2 0 (zeros 8 ++ beBytes 4 1024 ++ beBytes 4 256)
      | .tandem =>
        let s := setLink { s with tdm := { s.tdm with peerSerial := payload.take 4, peerSide := beAt payload 4 1, peerNonce := slice payload 5 16 } } l
          { k with identIn := true }
        if beAt payload 4 1 = s.tdm.side then raise (tandemDown s 1) 0xC00D 5 domTdm []
        else sendLink s l 2 0 (beBytes 4 256 ++ beBytes 4 1024)) (wakeTandem l h payload s)

def execIdent (l : Link) (hdr : FlitHeader) (payload : Bytes) (s : State) : Host.Outcome State Fault Refusal :=
  liftFlit payload (identFn l hdr payload) s

/-- CREDIT_INIT: the link is up; both sides restart their counts at 0, and what was not accepted is sent again. -/
def creditInitFn (l : Link) (h : FlitHeader) (payload : Bytes) (s : Blk) : Blk :=
  onFlit l h payload 5 2 (fun s _ =>
    let k := linkOf s l
    if k.phase ≠ .training ∨ k.identIn = false then s
    else
      let used := fun c => (k.replay.filter fun e => creditOf e.2.ftype = c).length
      let s := setLink s l { k with
        phase := .up, creditIn := true, attempt := 0, crA := beAt payload 0 4 - used 1, crB := beAt payload 4 4 - used 2, takenA := 0, takenB := 0
        freedA := 0, freedB := 0, owedA := 0, owedB := 0, rrCount := 0 }
      let s := match k.replay.head? with
        | some e => replayFrom s l e.1
        | none => s
      match l with
      | .spoke n =>
        let s := setLink s l { linkOf s l with wasUp := true }
        pump (if k.wasUp ∨ (spokeOf s n.val).profile.isSome then s else identify s n.val) l
      | .tandem => tandemUp s) s

def execCreditInit (l : Link) (hdr : FlitHeader) (payload : Bytes) (s : State) : Host.Outcome State Fault Refusal :=
  liftFlit payload (creditInitFn l hdr payload) s

/-- A training attempt has failed; after the third the link is down (R154, R169, R434). -/
def attemptEnd (l : Link) (s : Blk) : Blk :=
  let k := linkOf s l
  if k.phase ≠ .training then s
  else if k.attempt < 3 then trainLink s l (k.attempt + 1)
  else
    let s := raise s 0x9002 5 (linkDom l) (pl [(1, linkNo l)])
    match l with
    | .tandem => tandemDown s 0
    | .spoke n =>
      if k.wasUp then removeSpoke s n.val false
      else powerOff (modSpoke s n.val fun x => { x with sstate := 5 }) n.val

def execLinkTrainingAttemptEnd (l : Link) (s : State) : Host.Outcome State Fault Refusal := lift (withRest (attemptEnd l)) s

/-! ### Slots (R167-R169) -/

/-- SPK_PWREN rises and training begins (R168 step 2). -/
def seatSled (s : Blk) (n : Nat) : Blk :=
  let s := { s with pin := { s.pin with pwren := s.pin.pwren ||| (1#16 <<< n) } }
  let s := modSpoke s n fun x => { x with insDebounce := false, reseat := false, sstate := if x.failed.isSome then 2 else 0, profile := none
                                          ident := [], params := [], dieReady := [], ops := [], opWait := [], health := zeros 16, freeBlocks := 0, usableBlocks := 0 }
  let s := alert (raise s 0x9003 2 (domSpkl n) (pl [(1, n)])) 3
  let s := startClock (startClock s (domSpkl n)) (domSpke n)
  trainLink (setLink s (spokeLink n) { cnt := (linkOf s (spokeLink n)).cnt }) (spokeLink n) 1

def prsntFall (n : Nat) (s : Blk) : Blk :=
  let s := { s with pin := { s.pin with prsntN := s.pin.prsntN &&& ~~~(1#16 <<< n) } }
  modSpoke s n fun x => { x with insDebounce := !s.pin.pwren.getLsbD n }

def execSpkPrsntNFall (n : Fin 16) (s : State) : Host.Outcome State Fault Refusal := lift (prsntFall n.val) s

def insertDebounce (n : Nat) (s : Blk) : Blk :=
  if (spokeOf s n).insDebounce ∧ s.pin.prsntN.getLsbD n = false ∧ s.pin.pwren.getLsbD n = false then seatSled s n else s

def execSledInsertDebounce (n : Fin 16) (s : State) : Host.Outcome State Fault Refusal := lift (insertDebounce n.val) s

/-- The sled is gone from a slot that was not powered at once; from a powered one after the removal debounce. -/
def prsntRise (n : Nat) (s : Blk) : Blk :=
  let s := { s with pin := { s.pin with prsntN := s.pin.prsntN ||| (1#16 <<< n) } }
  let on := s.pin.pwren.getLsbD n
  modSpoke s n fun x => { x with insDebounce := false, reseat := false, remDebounce := on
                                 sstate := if on ∨ (x.sstate ≠ 4 ∧ x.sstate ≠ 5) then x.sstate else if x.failed.isSome then 2 else 0 }

def execSpkPrsntNRise (n : Fin 16) (s : State) : Host.Outcome State Fault Refusal := lift (prsntRise n.val) s

def surpriseFn (n : Nat) (s : Blk) : Blk :=
  if (spokeOf s n).remDebounce ∧ s.pin.prsntN.getLsbD n then removeSpoke s n false else s

def execSurpriseRemoval (n : Fin 16) (s : State) : Host.Outcome State Fault Refusal := lift (withRest (surpriseFn n.val)) s

def reseatFn (n : Nat) (s : Blk) : Blk :=
  if (spokeOf s n).reseat ∧ s.pin.prsntN.getLsbD n = false ∧ s.pin.pwren.getLsbD n = false then seatSled s n else s

def execSlotReseat (n : Fin 16) (s : State) : Host.Outcome State Fault Refusal := lift (reseatFn n.val) s

/-- The device reads health when SPK_ALERT_N falls (R166). -/
def alertFall (n : Nat) (s : Blk) : Blk :=
  let s := { s with pin := { s.pin with alertN := s.pin.alertN &&& ~~~(1#16 <<< n) } }
  if (linkOf s (spokeLink n)).phase = .up then issueOp s n opBridgeQuery 0 0 0 false [1#8] [] .health else s

def execSpkAlertNFall (n : Fin 16) (s : State) : Host.Outcome State Fault Refusal := lift (alertFall n.val) s

def opTimeout (n : Nat) (opid : BitVec 12) (s : Blk) : Blk := if (spokeOf s n).ops.has opid.toNat then violation s n else s

def execBridgeOpTimeout (n : Fin 16) (opid : BitVec 12) (s : State) : Host.Outcome State Fault Refusal :=
  lift (withRest (opTimeout n.val opid)) s

/-! ### Read data (R157) -/

def dataInFn (n : Nat) (h : FlitHeader) (payload : Bytes) (s : Blk) : Blk :=
  onFlit (spokeLink n) h payload 3 0 (fun s v =>
    let o := opView v.body
    match ((spokeOf s n).ops.get? o.opid).filter (!·.unsent) with
    | none => violation s n
    | some x =>
      let reads := x.op = opRead ∨ x.op = opReadOffset ∨ x.op = opReadParam
      let want := if x.op = opReadParam then 256 else 4640
      let y := { x with got := x.got ++ payload.take o.len, gotFlits := x.gotFlits + 1 }
      if ¬ reads ∨ o.index ≠ x.gotFlits ∨ want < y.got.length then violation s n
      else modSpoke s n fun z => { z with ops := z.ops.set o.opid y }) s

def execDataIn (n : Fin 16) (hdr : FlitHeader) (payload : Bytes) (s : State) : Host.Outcome State Fault Refusal :=
  liftFlit payload (dataInFn n.val hdr payload) s

/-! ### Outcomes of operations (R165, R208-R211) -/

/-- A health record: event 0x9005 for an ALARMS bit that the previous record did not show (R166). -/
def healthRecord (s : Blk) (n : Nat) (h : Bytes) : Blk :=
  let old := healthAlarms (spokeOf s n).health
  let s := modSpoke s n fun x => { x with health := h }
  if (List.range 8).any fun i => (healthAlarms h).testBit i && !old.testBit i then raise s 0x9005 4 (domSpkl n) (pl [(1, n)] ++ h) else s

/-- The block an operation is on. -/
def opBlk (s : Blk) (n : Nat) (o : Op) : Nat := blkKey n (o.channel * 16 + o.die) (rowBlock (profOf s n) o.row)

/-- After a DIE_TIMEOUT the die is reset and asked for its status (R211). -/
def checkDie (s : Blk) (n : Nat) (o : Op) : Blk :=
  let d := o.channel * 16 + o.die
  if (allOps (spokeOf s n)).any fun x => decide (x.why = .dieCheck d) then s
  else
    issueOp (issueOp s n opResetDie o.channel o.die 0 false [] [] (.resetDie d)) n opDieStatus o.channel o.die 0 false [] [] (.dieCheck d)

/-- R211, R259: a die has failed as a whole: a member of an open stripe that was still to be programmed to it counts as lost. -/
def dieFailed (s : Blk) (n d : Nat) : Blk :=
  let s := modSpoke s n fun x => { x with diesDead := if x.diesDead.contains d then x.diesDead else x.diesDead ++ [d] }
  let ids := (s.med.sbands.filter fun e => e.2.spoke = n ∧ e.2.ghost = 0 ∧ e.2.isOpen ∧ e.2.dies.contains d).map Prod.fst
  let bands := (s.med.bands.filter fun e => e.2.isOpen ∧ e.2.members.any fun m => m.2.any ids.contains).map Prod.fst
  let s := retireDie (forEach ids closeSBand (forEach bands closeBand s)) n d
  let shut := s.med.stripes.flatMap fun e => (List.range (e.2.k + e.2.m)).filterMap fun i =>
    match memberSBand s e.2.band i with
    | some (_, sb) => if sb.spoke = n ∧ sb.ghost = 0 ∧ sb.dies.getD (e.2.unit % 16) 0 = d ∧ e.2.issued.getLsbD i = false then some (e.1, i) else none
    | none => none
  let s := forEach shut (fun s e => loseMember s e.1 e.2) s
  if enoughDies (spokeOf s n) then s else spokeFailed s n

/-- Stripe bands with nothing live whose blocks have all been erased or retired leave the table. -/
def dropBands (s : Blk) : Blk :=
  let gone := fun (i : Nat) => match s.med.sbands.get? i with
    | some sb => decide (sb.ghost ≠ 0) || (sb.dies.zip sb.blocks).all fun e =>
        let b := blkAt s (blkKey sb.spoke e.1 e.2)
        decide (b.sband ≠ i ∨ b.st = 0 ∨ b.st = 3) || !dieUsable (spokeOf s sb.spoke) e.1
    | none => true
  let dead : Tbl Band := s.med.bands.filter fun e => !e.2.isOpen && !(s.med.stripes.vals.any fun x => decide (x.band = e.1))
    && e.2.members.all (fun m => m.2.all gone) && (bandLive s e.1).isEmpty
  let ids := dead.flatMap fun e => e.2.members.filterMap Prod.snd
  { s with med := { s.med with
      bands := s.med.bands.filter fun e => ¬ (Tbl.keys dead).contains e.1
      sbands := s.med.sbands.filter fun e => ¬ ids.contains e.1
      lostUnits := s.med.lostUnits.filter fun e => ¬ (Tbl.keys dead).contains e.1 } }

/-- A block is erased: the free blocks, the grain account of the brake (R193, R195, R300), wear (R197). The erase count goes to the
die's anchor block with the next checkpoint (R174; log entry 46). -/
def blockErased (s : Blk) (n k : Nat) : Blk :=
  let b := blkAt s k
  let net := blkGrains s k - b.moved
  let buf := isBuffer s k
  let s := modBlk s k fun x => { erases := min (2 ^ 32 - 1) (x.erases + 1) }
  let a := n * 512 + blkDie k
  let s := { s with med := { s.med with
    tags := s.med.tags.filter fun e => pgaBlk s e.1 ≠ k, anchorDue := if s.med.anchorDue.contains a then s.med.anchorDue else s.med.anchorDue ++ [a] } }
  let s := modSpoke s n fun x =>
    let x := { x with patrolq := x.patrolq.filter (· ≠ k), patrolPos := if x.patrolq.head? = some k then 0 else x.patrolPos }
    if dieUsable x (blkDie k) = false then x else
    let half := net + boolNat x.accountHalf
    let gain : Int := if x.brakeOver then half / 2 else net
    let x := if buf then { x with slcUsed := x.slcUsed - 1 } else { x with freeBlocks := x.freeBlocks + 1 }
    if x.brake ∧ buf = false then { x with account := x.account + gain, accountHalf := x.brakeOver && decide (half % 2 = 1) } else x
  let s := wearLevel (judgeSlc (judgeSpoke (dropBands s) n)) k
  judgeNs (resumeAsm s)

/-- R199, R234: what a read of a block brings beside its data. -/
def noteRead (s : Blk) (n k : Nat) : Blk :=
  let s := if isPrivileged s k then modBlk s k fun b => { b with reads := min (2 ^ 32 - 1) (b.reads + 1) } else s
  let s := if isPrivileged s k ∧ policy s 0x16 ≤ (blkAt s k).reads ∧ (blkAt s k).counted = false then
      raise (modSpoke (modBlk s k fun b => { b with counted := true }) n fun x => { x with patrolq := k :: x.patrolq.filter (· ≠ k), patrolPos := 0 })
        0x8008 2 (domSpke n) (pl [(1, n), (2, blkDie k), (4, k % 65536)])
    else s
  if pastRetention s k then refreshBlock s k else s

/-- A unit of a stripe has ended. -/
def unitEnded (s : Blk) (n : Nat) (o : Op) (st m result : Nat) : Blk :=
  if result = 0 then unitOk s st m
  else
    let s := unitFail s st m
    if result = 3 then checkDie s n o else s

/-- The XOR pages of a slot have ended. Those of a failed program stay in the accumulator, and the band's data is moved (R208). -/
def xorEnded (s : Blk) (n : Nat) (o : Op) (sb slot result : Nat) : Blk :=
  if result = 0 then
    if (allOps (spokeOf s n)).any fun x => decide (x.why = .xorUnit sb slot) then s
    else match s.med.sbands.get? sb with
      | some x => setSBand s sb { x with acc := x.acc.del slot }
      | none => s
  else
    let s := retireBlock (closeSBand s sb) n (o.channel * 16 + o.die) (rowBlock (profOf s n) o.row) 0x8004
    let move := fun (b : Band) => if b.members.any (fun m => m.2 == some sb) then { b with relocate := true } else b
    let s := { s with med := { s.med with bands := s.med.bands.mapVal fun _ b => move b } }
    if result = 3 then checkDie s n o else s

/-- A rebuilt unit has ended. -/
def rebuiltEnded (s : Blk) (n : Nat) (o : Op) (b u result : Nat) : Blk :=
  let id := (blkAt s (opBlk s n o)).sband
  if result = 0 then
    match s.med.sbands.get? id with
    | some sb => if sb.okUnits.contains u then s else xorCheck (setSBand s id { sb with okUnits := sb.okUnits ++ [u] }) id (u / 16)
    | none => s
  else
    let s := retireBlock s n (o.channel * 16 + o.die) (rowBlock (profOf s n) o.row) 0x8004
    let s := match s.med.bands.get? b with | some x => noteLost s b u (memberIn x n) | none => s
    if result = 3 then checkDie s n o else s

/-- An operation has ended with a result and the payload of its STATUS. -/
def opEnded (s : Blk) (n : Nat) (o : Op) (result : Nat) (payload : Bytes) : Blk :=
  let k := opBlk s n o
  match o.why with
  | .read rd soft =>
    let s := noteRead s n k
    if result = 0 ∧ o.got.length = 4640 then readReturned s rd soft (some o.got)
    else
      let s := readReturned s rd soft none
      if result = 3 then checkDie s n o else s
  | .truing t =>
    let s := noteRead s n k
    if result = 0 ∧ o.got.length = 4640 then
      { s with med := { s.med with truns := match s.med.truns.get? t with
        | some x => s.med.truns.set t { x with got := some o.got }
        | none => s.med.truns } }
    else
      let s := { s with med := { s.med with truns := s.med.truns.del t } }
      if result = 3 then checkDie s n o else s
  | .unit st m => unitEnded s n o st m result
  | .xorUnit sb slot => xorEnded s n o sb slot result
  | .erase b => if result = 0 then blockErased s n b else
      let s := retireBlock s n (o.channel * 16 + o.die) (b % 65536) 0x8005
      if result = 3 then checkDie s n o else s
  | .identity => matchProfile (modSpoke s n fun x => { x with ident := if result = 0 then payload.take 10 else x.ident }) n
  | .health => if result = 0 then healthRecord s n (payload.take 16) else s
  | .param d => matchProfile (if result = 0 ∧ o.got.length = 256 then modSpoke s n fun x => { x with params := x.params.set d (slice o.got 64 12) } else s) n
  | .dieStatus d => matchProfile (if result = 0 ∧ bitOf (leAt payload 0 1) 6 then modSpoke s n fun x => { x with dieReady := x.dieReady ++ [d] } else s) n
  | .resetDie _ => matchProfile s n
  | .dieCheck d => if result = 0 ∧ bitOf (leAt payload 0 1) 6 then s else dieFailed s n d
  | .rebuilt b u => rebuiltEnded s n o b u result
  | .dump => if result = 0 then s else raise s 0xE007 4 (domSpke n) (pl [(1, n)])
  | .journal page =>
    if result = 0 then
      if (allOps (spokeOf s n)).any fun x => decide (x.why = .journal page) then s else journalEnded s n page true
    else
      let s := journalEnded (retireBlock s n (o.channel * 16 + o.die) (rowBlock (profOf s n) o.row) 0x8004) n page false
      if result = 3 then checkDie s n o else s
  | .anchor => if result = 3 then checkDie s n o else s
  | .suspend => s
  | .other => let s := noteRead s n k; if result = 3 then checkDie s n o else s

/-- STATUS: the outcome of an operation, or an alarm (R158, R162, R166). An OPID that is not outstanding is a violation
(R170). An orderly removal ends with the last STATUS (R169). -/
def statusFn (n : Nat) (h : FlitHeader) (payload : Bytes) (s : Blk) : Blk :=
  onFlit (spokeLink n) h payload 4 0 (fun s v =>
    let o := opView v.body
    if o.op = 0xFF ∧ o.opid = 0xFFF then healthRecord s n (payload.take 16)
    else
      match ((spokeOf s n).ops.get? o.opid).filter (!·.unsent) with
      | none => violation s n
      | some x =>
        let s := resumeOps (modSpoke s n fun y => { y with ops := y.ops.del o.opid }) n
        let s := opEnded s n x o.result payload
        let y := spokeOf s n
        if y.removing.isSome ∧ y.ops.vals.all (·.unsent) then removeSpoke s n true else s) s

def execStatus (n : Fin 16) (hdr : FlitHeader) (payload : Bytes) (s : State) : Host.Outcome State Fault Refusal :=
  liftFlit payload (withRest (statusFn n.val hdr payload)) s

end Sys2Proof.Machine
end

