-- ==== Sys2Proof/Machine/Tandem.lean ====
section
/-! DEFINITION. Tandem pairs: what is mirrored and held (R272-R281), join and heartbeat (R278, R282), silence, fencing and
takeover (R283-R287), resynchronisation, handover and failback (R288, R289), rim links of a side in the kickstand (R386). -/

namespace Sys2Proof.Machine

def otherSide (s : Blk) : Nat := 1 - s.tdm.side

/-- The side shows that it is alive (R282). -/
def showsAlive (s : Blk) : Bool := s.tdm.paired && s.pwr.dump != some true && (s.dev == .run || s.dev == .activating || s.dev == .draining)

/-! ### Records sent (R277, R278; layouts: log entry 12) -/

def bucketBytes (b : Bucket) : Bytes := [BitVec.ofNat 8 (boolNat b.enabled)] ++ beBytes 4 b.rate ++ beBytes 5 b.depth

/-- A namespace record: its settings, its SipHash key wrapped under PAIR_KEK, and a CMAC under PAIR_MAC. `mark` is 0 for a
setting, 1 where a slot list begins, 2 where a resynchronisation ends. -/
def nsRecord (s : Blk) (n mark : Nat) : Bytes :=
  let b := match nsOf s n with
    | some x => [1#8, BitVec.ofNat 8 mark] ++ beBytes 2 n ++ [1#8] ++ beBytes 2 x.tenant
        ++ [BitVec.ofNat 8 x.k, BitVec.ofNat 8 x.m, BitVec.ofNat 8 (boolNat x.mirrored), BitVec.ofNat 8 x.homeSide,
            BitVec.ofNat 8 x.ownerSide, BitVec.ofNat 8 (boolNat x.vbr)]
        ++ beBytes 8 x.byteQuota ++ beBytes 8 x.keyQuota ++ [BitVec.ofNat 8 (boolNat x.offline)] ++ beBytes 2 x.prefixLen
        ++ beBytes 8 x.directMin ++ [BitVec.ofNat 8 x.pinnedGear] ++ beBytes 2 x.stripeClose ++ [BitVec.ofNat 8 x.soloPolicy]
        ++ bucketBytes x.bucket ++ aesWrap s.cip.pairKek x.sipKey
    | none => [1#8, BitVec.ofNat 8 mark] ++ beBytes 2 n ++ [0#8]
  let b := slice b 0 96
  b ++ aesCmac s.cip.pairMac b

def sendNs (s : Blk) (n mark : Nat) : Blk := tandemSend s 0x6 0x03 n 0 0 (nsRecord s n mark)

def sendTenant (s : Blk) (t : Nat) : Blk :=
  tandemSend s 0x6 0x03 t 0 0 (match s.tenants.get? t with
    | some x => [2#8, 0#8] ++ beBytes 2 t ++ [1#8, BitVec.ofNat 8 (boolNat x.adminPermit + 2 * boolNat x.disabled)] ++ bucketBytes x.bucket
    | none => [2#8, 0#8] ++ beBytes 2 t ++ [0#8])

/-- Pair policy (R316: 0x1F to 0x21). -/
def sendPolicy (s : Blk) (id : Nat) : Blk := tandemSend s 0x6 0x03 id 0 0 ([3#8, 0#8] ++ beBytes 2 id ++ beBytes 8 (policy s id))

/-- Whether this side has taken over, so that a side that returns fences what it owned. -/
def sendPairState (s : Blk) : Blk := tandemSend s 0x6 0x03 0 0 0 [4#8, BitVec.ofNat 8 (boolNat s.tdm.tookOver)]

/-! ### Session deltas received (R279, R280) -/

def modMs (s : Blk) (sn : Nat) (f : MSession → MSession) : Blk :=
  { s with tdm := { s.tdm with msessions := s.tdm.msessions.upd sn {} f } }

/-- The way back of a mirrored session. -/
def deltaEgress (b : Bytes) : Egress :=
  let f := beAt b 28 1
  let v := beAt b 29 2
  { port := f / 8 % 16, sub := f % 8, dstMac := slice b 4 6, dstIp := slice b 10 (if 128 ≤ f then 16 else 4), dstPort := beAt b 26 2
    vlan := if v / 4096 % 2 = 1 then some (v % 4096) else none, cls := v / 8192, adopted := true }

/-- One delta of 32 bytes; all zeros means none. -/
def deltaIn (s : Blk) (b : Bytes) : Blk :=
  let sn := beAt b 0 3
  let kind := beAt b 3 1
  if b.all (· = 0) then s
  else if kind = 0 then
    modMs s sn fun m => { m with tenant := beAt b 4 2, cookie := beAt b 6 4, clientInit := BitVec.ofNat 32 (beAt b 10 4)
                                 deviceInit := BitVec.ofNat 32 (beAt b 14 4), sealed := bitOf (beAt b 18 1) 0, admin := bitOf (beAt b 18 1) 1
                                 release := BitVec.ofNat 32 (beAt b 10 4), pieces := [], tags := [] }
  else if kind = 1 then modMs s sn fun m => { m with eg := deltaEgress b }
  else if kind = 2 then modMs s sn fun m => { m with release := BitVec.ofNat 32 (beAt b 4 4), recvCount := beAt b 8 8 }
  else if kind = 3 then
    modMs s sn fun m => { m with tags := m.tags.set (beAt b 4 1) (beAt b 5 1, beAt b 6 2, beAt b 8 8, bitOf (beAt b 16 1) 0) }
  else if kind = 4 then modMs s sn fun m => { m with seqTop := BitVec.ofNat 32 (beAt b 4 4), topCount := beAt b 8 8 }
  else if kind = 5 then { s with tdm := { s.tdm with msessions := s.tdm.msessions.del sn } }
  else modMs s sn fun m => { m with pieces := m.pieces.set (kind - 6) (b.drop 4) }

/-- The wire keys of a mirrored sealed session: their CMAC is checked and each is unwrapped (R278). -/
def sessionKeys (s : Blk) (sn : Nat) (m : MSession) : Option (Bytes × Bytes) :=
  let head := delta sn 0 (beBytes 2 m.tenant ++ beBytes 4 m.cookie ++ beBytes 4 m.clientInit.toNat ++ beBytes 4 m.deviceInit.toNat
    ++ [BitVec.ofNat 8 (boolNat m.sealed + 2 * boolNat m.admin)])
  let b := (List.range 4).flatMap fun i => slice (m.pieces.getD i []) 0 28
  if aesCmac s.cip.pairMac (head ++ b.take 80) = slice b 80 16 then
    match aesUnwrap s.cip.pairKek (b.take 40), aesUnwrap s.cip.pairKek (slice b 40 40) with
    | some c, some d => some (c, d)
    | _, _ => none
  else none

/-- Mirrored key material that fails its check is dropped (R278). -/
def rejectKey (s : Blk) (cls n : Nat) : Blk := raise s 0xC00F 5 domTdm (pl [(1, cls), (4, n)])

/-- A session's keys are checked when its last piece is in; a session whose keys fail is dropped. -/
def checkPieces (s : Blk) (b : Bytes) : Blk :=
  if beAt b 3 1 ≠ 9 then s
  else
    match s.tdm.msessions.get? (beAt b 0 3) with
    | some m => if (sessionKeys s (beAt b 0 3) m).isSome then s
        else rejectKey { s with tdm := { s.tdm with msessions := s.tdm.msessions.del (beAt b 0 3) } } 1 (beAt b 0 3)
    | none => s

/-! ### Key pages and records received (R278) -/

/-- A field re-wrapped: unwrapped under PAIR_KEK, wrapped under this side's KEK. -/
def rewrap (s : Blk) (w : Bytes) : Option Bytes := (aesUnwrap s.cip.pairKek w).map (aesWrap s.cip.kek)

/-- A whole key page has arrived: checked, re-wrapped and stored under this side's own CMAC. The counter of
this side is never taken back under the same generation (R132, R140). -/
def keyPageIn (s : Blk) (n : Nat) (b : Bytes) : Blk :=
  let p := pageOfBytes b
  let gens := p.gens.map fun g => (rewrap s g.wrapped).map fun w => { g with wrapped := w }
  match decide (aesCmac s.cip.pairMac (b.take 496) = slice b 496 16) && gens.all (·.isSome), rewrap s p.wrappedAccess with
  | true, some a =>
    let old := (s.cip.pages.get? n).getD {}
    let q := { p with gens := gens.filterMap id, wrappedAccess := a }
    let q := if q.genCur = old.genCur then
        withTop (withCtr q s.tdm.side (max (ctrOf q s.tdm.side) (ctrOf old s.tdm.side))) s.tdm.side
          (max (topOf q s.tdm.side) (topOf old s.tdm.side))
      else q
    flashPage (setPage s n q) n
  | _, _ => rejectKey s 2 n

def pageFlit (s : Blk) (n part : Nat) (b : Bytes) : Blk :=
  let s := { s with tdm := { s.tdm with records := s.tdm.records.set (4 * n + part) b } }
  if part ≠ 2 then s
  else
    let whole := (List.range 3).flatMap fun i => slice (s.tdm.records.getD (4 * n + i) []) 0 240
    keyPageIn { s with tdm := { s.tdm with records := s.tdm.records.filter fun e => e.1 / 4 ≠ n } } n (whole.take 512)

/-- Every key of a namespace leaves this side's index, and its extents die. `keep` tells which slots stay. -/
def purgeNs (s : Blk) (n : Nat) (keep : BSlot → Bool) : Blk :=
  let gone := (slotsFrom s 0).filter fun e => e.2.ns = n && !keep e.2
  forEach gone (fun s e =>
    let s := killExtent (clearSlot (pageLoad s (e.1 / 40)) (e.1 / 40) (e.1 % 40)) e.2
    let s := modNs s n fun x => { x with bytes := x.bytes - e.2.valueLen, keys := x.keys - 1 }
    journal { s with idx := { s.idx with keys := s.idx.keys - 1 } } (.slotClear (e.1 / 40) (e.1 % 40))) s

/-- A bucket's settings from its bytes; its level stays. -/
def bucketIn (b : Bucket) (r : Bytes) : Bucket := { b with enabled := beAt r 0 1 = 1, rate := beAt r 1 4, depth := beAt r 5 5 }

/-- R288 on the mirror's side: a list begins, or the resynchronisation ends, and what the owner lacks is removed. -/
def resyncMark (s : Blk) (n mark : Nat) : Blk :=
  if mark = 1 then modNs { s with tdm := { s.tdm with listed := s.tdm.listed.set n [] } } n fun x => { x with stale := true }
  else if mark = 2 then
    let l := s.tdm.listed.getD n []
    let s := if Tbl.has s.tdm.listed n then purgeNs s n (fun sl => l.contains sl.digest) else s
    modNs { s with tdm := { s.tdm with listed := s.tdm.listed.del n } } n fun x => { x with stale := false }
  else s

/-- A namespace record (R278). Ownership is taken from it, unless this side has taken the namespace over. -/
def nsIn (s : Blk) (b : Bytes) : Blk :=
  let n := beAt b 2 2
  match decide (aesCmac s.cip.pairMac (b.take 96) = slice b 96 16), aesUnwrap s.cip.pairKek (slice b 54 24) with
  | false, _ => rejectKey s 3 n
  | true, k =>
    if beAt b 4 1 = 0 then
      let s := purgeNs s n fun _ => false
      judgeNs { s with nss := s.nss.del n }
    else
      match k with
      | none => rejectKey s 3 n
      | some key =>
        let old := (nsOf s n).getD {}
        let mine := s.tdm.tookOver && (nsOf s n).isSome && decide (old.ownerSide = s.tdm.side)
        let x := { old with tenant := beAt b 5 2, k := beAt b 7 1, m := beAt b 8 1, mirrored := beAt b 9 1 = 1, homeSide := beAt b 10 1
                            ownerSide := if mine then s.tdm.side else beAt b 11 1, vbr := beAt b 12 1 = 1, byteQuota := beAt b 13 8
                            keyQuota := beAt b 21 8, offline := beAt b 29 1 = 1, prefixLen := beAt b 30 2, directMin := beAt b 32 8
                            pinnedGear := beAt b 40 1, stripeClose := beAt b 41 2, soloPolicy := beAt b 43 1
                            bucket := bucketIn old.bucket (slice b 44 10), sipKey := key, wrappedSip := aesWrap s.cip.kek key }
        judgeNs (resyncMark (setNs s n x) n (beAt b 1 1))

/-- A tenant record. -/
def tenantIn (s : Blk) (b : Bytes) : Blk :=
  let t := beAt b 2 2
  if beAt b 4 1 = 0 then
    flashPage { s with tenants := s.tenants.del t, cip := { s.cip with pages := s.cip.pages.del t } } t
  else
    let old := (s.tenants.get? t).getD {}
    { s with tenants := s.tenants.set t { old with adminPermit := bitOf (beAt b 5 1) 0, disabled := bitOf (beAt b 5 1) 1
                                                   bucket := bucketIn old.bucket (slice b 6 10) } }

def recordIn (s : Blk) (b : Bytes) : Blk :=
  match beAt b 0 1 with
  | 1 => nsIn s b
  | 2 => tenantIn s b
  | 3 => { s with loops := { s.loops with policy := s.loops.policy.set (beAt b 2 2) (beAt b 4 8) } }
  | 4 => if beAt b 1 1 = 1 ∧ s.tdm.tookOver = false then judgeNs { s with tdm := { s.tdm with localFenced := true } } else s
  | _ => s

/-- A reservation record: WSEQ_TOP, or TOP_0 and TOP_1 of a key page. -/
def reserveIn (s : Blk) (n : Nat) (b : Bytes) : Blk :=
  if beAt b 16 1 = 1 then
    match s.cip.pages.get? n with
    | some p =>
      let o := otherSide s
      flashPage (setPage s n (withTop p o (max (topOf p o) (beAt b (8 * o) 8)))) n
    | none => s
  else { s with med := { s.med with peerWseqTop := max s.med.peerWseqTop (beAt b 0 8) } }

/-! ### Mirrored writes (R279) -/

/-- Where a mirrored value goes: the key's slot, that of an earlier mirrored write of it, or a free one (R105). -/
def mirrorPlace (s : Blk) (ns : Nat) (d : BitVec 128) : Option (Nat × Nat) × Blk :=
  let s := forEach ((fpMatches s d).map Prod.fst) pageLoad s
  match (slotMatches s ns d).head?, s.idx.stages.vals.find? fun x => x.mirror && x.ns == ns && x.digest == d && x.kind ≠ 4 with
  | some p, _ => (some p, s)
  | none, some x => (some x.bslot, s)
  | none, none => (freeSlotNear s (homeOf d), s)

/-- A stage whose bodies are all at hand goes to its stripe. -/
def stageRun (s : Blk) (x : Stage) : Nat × Blk :=
  let a := addStage s { x with mirror := true, encrypted := true, slot := 524288 }
  (a.1, assignRun a.2 x.ns x.gear hostStream (runGrains a.1 { x with mirror := true, encrypted := true }))

/-- The key record of a mirrored extent in clear, from its head body: the partner decrypts it with the mirrored key page. -/
def mirrorKey (s : Blk) (tenant : Nat) (head : Bytes) : Option Bytes :=
  (dataKey s tenant (leAt head 12 4)).bind fun k =>
    let n := leAt (ctrXor k (slice head 0 12) 0 (slice head 48 16)) 2 2
    if n = 0 ∨ 512 < n then none else some (slice (ctrXor k (slice head 0 12) 0 (slice head 48 (keyRecLen n))) 32 n)

/-- Every body of a noticed write is in: it is placed under this side's own map and redundancy. -/
def stageMirror (s : Blk) (obj : Nat) (m : Mirror) : Blk :=
  let head := m.data.getD 0 []
  let tenant := ((nsOf s m.ns).map (·.tenant)).getD 0
  match mirrorKey s tenant head with
  | none => s
  | some key =>
    let kr := keyRecLen key.length
    let n := grainsOf m.valueLen
    let body := fun i => m.data.getD i []
    let uid := leAt head 44 4
    let parts := leAt head 40 4
    let pt := if m.kind = 3 then (40 * parts + 48 + kr - 4112 + 4111) / 4112 else 0
    let table := slice (head.drop (48 + kr) ++ (List.range pt).flatMap fun i => body (1 + i)) 0 (40 * parts)
    let own := decide (m.kind = 3 ∧ m.bodies ≠ 1 + pt)
    match mirrorPlace s m.ns m.digest with
    | (none, s) => raise s 0x4002 4 domIdx (pl [(4, homeOf m.digest)])
    | (some (b, i), s) =>
      if lgaRoom s (4096 + pt + n) = false then s else
      let s := { s with tdm := { s.tdm with mirrors := s.tdm.mirrors.del obj } }
      let s := modDir s b fun e => { e with fp := e.fp.set i (fingerprint m.digest) }
      let l := takeLga s m.ns m.gear (if m.kind = 3 then 1 + pt else 1 + n)
      let x : Stage := { ns := m.ns, tenant := tenant, key := key, kind := m.kind, version := m.version, valueLen := m.valueLen
                         home := homeOf m.digest, bslot := (b, i), gear := m.gear, lga := l.1, count := if m.kind = 3 then 0 else n
                         keyCt := slice head 48 kr, sealIv := slice head 0 12, sealGen := leAt head 12 4, sealTag := slice head 16 16
                         upload := uid, partTable := table, digest := m.digest, dataLga := l.1 + 1, retired := m.dead
                         grains := if m.kind = 3 then [] else (List.range n).map fun i => (i, body (1 + i)) }
      let s := l.2
      if m.kind ≠ 3 then (stageRun { s with med := { s.med with runs := s.med.runs.set l.1 [(l.1, 1 + n)] } } x).2
      else
        let r : Nat × List Part × Blk :=
          if own then
            let d := takeLga s m.ns 3 n
            let y : Stage := { ns := m.ns, tenant := tenant, key := key, kind := 4, valueLen := m.valueLen, gear := 4, lga := d.1, count := n
                               digest := m.digest, order := d.2.med.wseq, grains := (List.range n).map fun i => (i, body (1 + pt + i)) }
            let a := stageRun d.2 y
            (d.1, [{ grains := n, stage := a.1 }], a.2)
          else
            match s.tdm.uploads.get? uid with
            | some u => (u.dataLga, u.parts, { s with tdm := { s.tdm with uploads := s.tdm.uploads.del uid } })
            | none => (0, [], s)
        let s := r.2.2
        (stageRun { s with med := { s.med with runs := s.med.runs.set l.1 [(l.1, 1 + pt), (r.1, n)] } } { x with dataLga := r.1, parts := r.2.1 }).2

/-- Place a noticed write once its notice and all its bodies are in. -/
def tryMirror (s : Blk) (obj : Nat) : Blk :=
  match s.tdm.mirrors.get? obj with
  | some m =>
    if m.noticed ∧ 0 < m.bodies ∧ m.data.length = m.bodies ∧ m.data.vals.all (fun b => b.length = 4112) then stageMirror s obj m else s
  | none => s

/-- A mirrored DELETE takes effect: the key leaves, and earlier mirrored writes of it that are not placed yet take no
place. -/
def mirrorDelete (s : Blk) (ns version : Nat) (d : BitVec 128) : Blk :=
  let s := forEach ((fpMatches s d).map Prod.fst) pageLoad s
  let s := forEach (slotMatches s ns d) (fun s e =>
    match (dirOf s e.1).slots.get? e.2 with
    | some sl =>
      if sl.version < version then
        let s := modNs (killExtent (clearSlot s e.1 e.2) sl) ns fun x => { x with bytes := x.bytes - sl.valueLen, keys := x.keys - 1 }
        journal { s with idx := { s.idx with keys := s.idx.keys - 1 } } (.slotClear e.1 e.2)
      else s
    | none => s) s
  { s with
    idx := { s.idx with stages := s.idx.stages.mapVal fun _ x =>
      if x.mirror ∧ x.ns = ns ∧ x.digest = d ∧ x.kind ≠ 4 ∧ x.version < version ∧ x.complete = false then { x with retired := true } else x }
    tdm := { s.tdm with mirrors := s.tdm.mirrors.mapVal fun _ m =>
      if m.ns = ns ∧ m.digest = d ∧ m.version < version then { m with dead := true } else m } }

/-- The value is in its slot with this version. -/
def mirrorHas (s : Blk) (ns version : Nat) (d : BitVec 128) : Bool :=
  (fpMatches s d).any fun e => (slotsAt s e.1).vals.any fun sl => sl.ns == ns && sl.digest == d && sl.version == version

/-- A commit notice (R277 class 0x07); with BODIES 0 it is an entry of a slot list (R288). -/
def noticeIn (s : Blk) (obj : Nat) (b : Bytes) : Blk :=
  let version := beAt b 0 8
  let ns := beAt b 8 2
  let kind := beAt b 10 1
  let d : BitVec 128 := BitVec.ofNat 128 (beAt b 12 16)
  let bodies := beAt b 36 4
  match nsOf s ns with
  | none => s
  | some x =>
    if x.mirrored = false ∨ x.ownerSide = s.tdm.side then s
    else
      let s := if Tbl.has s.tdm.listed ns ∧ kind ≠ 2 then
          { s with tdm := { s.tdm with listed := s.tdm.listed.upd ns [] (· ++ [d]) } } else s
      if kind = 2 then sendHeld (mirrorDelete s ns version d) version
      else if mirrorHas s ns version d then sendHeld s version
      else if bodies = 0 then s
      else
        let s := { s with tdm := { s.tdm with mirrors := s.tdm.mirrors.upd obj {} fun m =>
          { m with ns := ns, kind := kind, gear := beAt b 11 1, digest := d, valueLen := beAt b 28 8, bodies := bodies, version := version, noticed := true } } }
        tryMirror s obj

/-! ### Mirrored uploads (R279) -/

def setMUpload (s : Blk) (uid : Nat) (u : Upload) : Blk := { s with tdm := { s.tdm with uploads := s.tdm.uploads.set uid u } }

/-- A part whose seal and bodies are in goes to the medium. -/
def stagePart (s : Blk) (uid : Nat) : Blk :=
  match s.tdm.uploads.get? uid, s.tdm.mirrors.get? uid with
  | some u, some m =>
    let ready := u.parts.filter fun p => p.stage = 0 ∧ p.complete = false ∧ p.order = 0 ∧
      (List.range p.grains).all fun i => decide ((m.data.getD (1 + p.grain + i) []).length = 4112)
    let rest := m.data.filter fun (e : Nat × Bytes) => ready.all fun p => decide (e.1 < 1 + p.grain ∨ 1 + p.grain + p.grains ≤ e.1)
    forEach ready (fun s p =>
      let k := s.med.wseq
      let x : Stage := { ns := u.ns, tenant := u.tenant, key := u.key, kind := 4, valueLen := u.total, gear := 4, lga := u.dataLga + p.grain
                         count := p.grains, upload := uid, digest := digestOf s u.ns u.key, partGrain := p.grain, order := k
                         grains := (List.range p.grains).map fun i => (p.grain + i, m.data.getD (1 + p.grain + i) []) }
      let a := stageRun s x
      match a.2.tdm.uploads.get? uid with
      | some u => setMUpload a.2 uid { u with parts := u.parts.map fun q => if q.grain = p.grain ∧ q.order = 0 then { q with stage := a.1, order := k } else q }
      | none => a.2) { s with tdm := { s.tdm with mirrors := s.tdm.mirrors.set uid { m with data := rest } } }
  | _, _ => s

/-- An upload record (R277 class 0x06): an upload, a piece of its key, a part with its seal, or its end. -/
def uploadIn (s : Blk) (uid : Nat) (b : Bytes) : Blk :=
  match beAt b 0 1 with
  | 0 =>
    let ns := beAt b 3 2
    let total := beAt b 5 8
    if ((nsOf s ns).any fun x => x.mirrored) ∧ lgaRoom s (grainsOf total) then
      let l := takeLga s ns 4 (grainsOf total)
      setMUpload l.2 uid { tenant := beAt b 1 2, ns := ns, total := total, dataLga := l.1, key := zeros (beAt b 13 2), lastAt := s.now }
    else setMUpload s uid { tenant := beAt b 1 2, ns := ns, total := total, key := zeros (beAt b 13 2), lastAt := s.now }
  | 1 =>
    match s.tdm.uploads.get? uid with
    | some u => setMUpload s uid { u with key := u.key.take (beAt b 1 2) ++ slice b 5 (beAt b 3 2) ++ u.key.drop (beAt b 1 2 + beAt b 3 2) }
    | none => s
  | 2 =>
    match s.tdm.uploads.get? uid with
    | some u =>
      let p : Part := { grain := beAt b 1 4, grains := beAt b 5 4, bytes := beAt b 9 4, sealv := slice b 13 32, order := beAt b 45 8 }
      let s := setMUpload s uid { u with parts := ((u.parts.filter fun q => q.order ≠ p.order) ++ [p]).mergeSort fun a b => decide (a.order ≤ b.order) }
      if ((nsOf s u.ns).any fun x => x.mirrored) then stagePart s uid else s
    | none => s
  | _ =>
    match s.tdm.uploads.get? uid with
    | some u =>
      let s := { s with
        tdm := { s.tdm with uploads := s.tdm.uploads.del uid, mirrors := s.tdm.mirrors.del uid }
        idx := { s.idx with stages := s.idx.stages.mapVal fun _ y => if y.mirror ∧ y.kind = 4 ∧ y.upload = uid then { y with retired := true } else y } }
      if ((nsOf s u.ns).any fun x => x.mirrored) then unmapRun s u.dataLga (grainsOf u.total) else s
    | none => s

/-! ### STATE, VALUE and HELD flits -/

/-- Act on a STATE, VALUE or HELD flit; before the join none counts (R278). -/
def onObject (ftype : Nat) (h : FlitHeader) (payload : Bytes) (f : Blk → Nat × Nat × Nat × Nat → Blk) (s : Blk) : Blk :=
  onFlit .tandem h payload ftype 0 (fun s v => if s.tdm.joined then f s (tdmView v.body) else s) s

/-- The buffer of an object is free again once it is stored. -/
def stateFn (h : FlitHeader) (payload : Bytes) (s : Blk) : Blk :=
  onObject 0x6 h payload (fun s o =>
    match o.1 with
    | 0x01 => forEach ((blocksOf 32 (payload.take 224)).take 7) (fun s b => checkPieces (deltaIn s b) b) s
    | 0x02 => pageFlit s o.2.1 o.2.2.2 payload
    | 0x03 => recordIn s payload
    | 0x04 => { s with med := { s.med with sjPartner := s.med.sjPartner.set o.2.1 (payload.take 136) } }
    | 0x05 => reserveIn s o.2.1 payload
    | 0x06 => uploadIn s o.2.1 payload
    | 0x07 => completeAll (noticeIn s o.2.1 payload)
    | _ => s) s

def execTandemStateFlit (hdr : FlitHeader) (payload : Bytes) (s : State) : Host.Outcome State Fault Refusal :=
  liftFlit payload (stateFn hdr payload) s

/-- A part of a codeword body (R276): 18 flits, the last carries 32 bytes. -/
def valueFn (h : FlitHeader) (payload : Bytes) (s : Blk) : Blk :=
  onObject 0x7 h payload (fun s o =>
    if o.1 ≠ 0x10 ∨ 17 < o.2.2.2 then s
    else
      let b := if o.2.2.2 = 17 then payload.take 32 else payload
      let s := { s with tdm := { s.tdm with mirrors := s.tdm.mirrors.upd o.2.1 {} fun m =>
        { m with data := m.data.upd o.2.2.1 [] fun x => (slice x 0 (240 * o.2.2.2)) ++ b } } }
      completeAll (if o.2.2.2 ≠ 17 then s else if Tbl.has s.tdm.uploads o.2.1 then stagePart s o.2.1 else tryMirror s o.2.1)) s

def execTandemValueFlit (hdr : FlitHeader) (payload : Bytes) (s : State) : Host.Outcome State Fault Refusal :=
  liftFlit payload (valueFn hdr payload) s

/-- HELD: up to 30 VERSIONs of writes that the partner holds (R277, R281). -/
def heldFn (h : FlitHeader) (payload : Bytes) (s : Blk) : Blk :=
  onObject 0x8 h payload (fun s _ =>
    let vs := ((blocksOf 8 payload).take 30).map beNat |>.filter (· ≠ 0)
    wakeReaders (completeAll { s with tdm := { s.tdm with heldByPeer := s.tdm.heldByPeer ++ vs } })) s

def execHeld (hdr : FlitHeader) (payload : Bytes) (s : State) : Host.Outcome State Fault Refusal := liftFlit payload (heldFn hdr payload) s

/-! ### Silence (R282, R286, R287) -/

/-- The link path has become silent while PEER_ALIVE_IN toggles, or no longer is: namespaces that write on alone make the
other side's mirror STALE. -/
def judgeSplit (s : Blk) : Blk :=
  let now := s.tdm.linkSilent && !s.tdm.pinSilent
  if now = s.tdm.split then s
  else
    let s := alert (raise { s with tdm := { s.tdm with split := now } } 0xC007 4 domTdm [BitVec.ofNat 8 (boolNat now)]) 5
    if now = false then s
    else
      let going := (s.nss.filter fun e => e.2.mirrored && decide (e.2.soloPolicy = 1)).map Prod.fst
      let s := forEach going (fun s n =>
        let s := if (nsOf s n).any fun x => x.ownerSide = s.tdm.side then raise s 0xC00B 4 domTdm (pl [(2, n)]) else s
        modNs s n fun x => { x with stale := true }) s
      wakeReaders (completeAll s)

/-- What the two paths show now (R282, R286). -/
def judgeSilence (s : Blk) : Blk :=
  let d := s.tdm.linkSilent && s.tdm.pinSilent
  let s := if d && !s.tdm.double then alert (raise { s with tdm := { s.tdm with double := true } } 0xC002 5 domTdm []) 5
    else if d = false then { s with tdm := { s.tdm with double := false } } else s
  let p := s.tdm.pinSilent && !s.tdm.linkSilent
  let s := if p = s.tdm.pinOnly then s
    else raise { s with tdm := { s.tdm with pinOnly := p } } 0xC008 4 domTdm [BitVec.ofNat 8 (boolNat p)]
  judgeSplit s

def heartbeatFn (h : FlitHeader) (payload : Bytes) (s : Blk) : Blk :=
  onFlit .tandem h payload 5 0x10 (fun s _ =>
    if s.tdm.joined then
      judgeSilence { s with tdm := { s.tdm with linkSilent := false, lastHb := s.now, peerState := beAt payload 0 1 } }
    else s) s

def execHeartbeat (hdr : FlitHeader) (payload : Bytes) (s : State) : Host.Outcome State Fault Refusal :=
  liftFlit payload (heartbeatFn hdr payload) s

/-- HEARTBEAT every 10 µs while the side shows that it is alive. -/
def heartbeatSend (s : Blk) : Blk :=
  if showsAlive s ∧ (linkOf s .tandem).phase = .up then sendLink s .tandem 0x10 0 [BitVec.ofNat 8 s.dev.code] else s

def execHeartbeatSend (s : State) : Host.Outcome State Fault Refusal := lift heartbeatSend s

/-- PEER_ALIVE_OUT toggles every 100 µs; it is held low when the side does not show that it is alive. -/
def aliveToggle (s : Blk) : Blk :=
  { s with pin := { s.pin with peerAliveOut := if showsAlive s then !s.pin.peerAliveOut else false } }

def execPeerAliveOutToggle (s : State) : Host.Outcome State Fault Refusal := lift aliveToggle s

def aliveEdge (s : Blk) : Blk :=
  let s := { s with pin := { s.pin with peerAliveIn := !s.pin.peerAliveIn } }
  if s.tdm.paired then judgeSilence { s with tdm := { s.tdm with pinSilent := false, lastEdge := s.now } } else s

def execPeerAliveInEdge (s : State) : Host.Outcome State Fault Refusal := lift aliveEdge s

def linkSilence (s : Blk) : Blk := if s.tdm.paired then judgeSilence { s with tdm := { s.tdm with linkSilent := true } } else s
def pinSilence (s : Blk) : Blk := if s.tdm.paired then judgeSilence { s with tdm := { s.tdm with pinSilent := true } } else s

def execLinkPathSilence (s : State) : Host.Outcome State Fault Refusal := lift linkSilence s
def execPinPathSilence (s : State) : Host.Outcome State Fault Refusal := lift pinSilence s

/-! ### Takeover (R283-R285) -/

/-- R274: above this side's counter and the partner's last WSEQ_TOP, with this side's parity. -/
def raiseWseq (s : Blk) : Blk :=
  let m := max s.med.wseq s.med.peerWseqTop + 1
  wseqGuard { s with med := { s.med with wseq := if m % 2 = s.tdm.side then m else m + 1 } }

/-- R140: on takeover the partner's counters are set to their TOP. -/
def raiseCounters (s : Blk) : Blk :=
  forEach s.cip.pages.keys (fun s n => match s.cip.pages.get? n with
    | some p => setPage s n (withCtr p (otherSide s) (topOf p (otherSide s)))
    | none => s) s

/-- The namespaces a takeover of that scope brings over. -/
def takenNs (s : Blk) (scope : Nat) : List Nat :=
  (s.nss.filter fun e => e.2.mirrored && !e.2.stale && e.2.ownerSide ≠ s.tdm.side && (scope = 0 || e.2.homeSide = s.tdm.side)).map Prod.fst

/-- Writes noticed and not held are discarded (R284 step 2). -/
def discardUnheld (s : Blk) (taken : List Nat) : Blk :=
  let ms := s.tdm.mirrors.filter fun e => e.2.noticed && taken.contains e.2.ns
  let st := s.idx.stages.filter fun e => e.2.mirror && e.2.kind ≠ 4 && !e.2.complete && taken.contains e.2.ns
  let s := forEach st (fun s e =>
    let s := { s with idx := { s.idx with stages := s.idx.stages.del e.1 } }
    let x := e.2
    let s := if (slotsAt s x.bslot.1).has x.bslot.2 then s else modDir s x.bslot.1 fun d => { d with fp := d.fp.del x.bslot.2 }
    killExtent s (slotOfStage x)) s
  let s := { s with tdm := { s.tdm with mirrors := s.tdm.mirrors.filter fun e => !(taken.contains e.2.ns) } }
  let n := ms.length + st.length
  if n = 0 then s else raise s 0xC00C 4 domTdm (pl [(4, n)])

/-- TAG_MAP of R285: bit of one tag. -/
def tagKept (s : Blk) (taken : List Nat) (t : Nat × Nat × Nat × Bool) : Bool :=
  (t.1 == 3 || t.1 == 4) && t.2.2.2 && (if taken.contains t.2.1 then s.tdm.heldHere.contains t.2.2.1 else true)

/-- A mirrored session becomes this side's own, and its client gets the notice (R285). -/
def adoptSession (s : Blk) (sn : Nat) (m : MSession) (taken : List Nat) : Blk :=
  let map := m.tags.foldl (fun a e => if e.1 < 32 ∧ tagKept s taken e.2 then a + 2 ^ e.1 else a) 0
  let keys := if m.sealed then (sessionKeys s sn m).getD ([], []) else ([], [])
  let ss : Session :=
    { tenant := m.tenant, admin := m.admin, sealed := m.sealed, eg := m.eg, cookie := m.cookie, clientInit := m.clientInit, deviceInit := m.deviceInit
      rxNext := m.release, edge := m.release + 256, recvCount := m.recvCount, sentCount := m.topCount, txNext := m.seqTop, peerAck := m.seqTop
      peerCredit := 256, lastAt := s.now, seqTop := m.seqTop + 4096, mirrored := m.release, sealC := keys.1, sealD := keys.2, keyOwner := sn }
  let s := { s with
    xpt := { s.xpt with sessions := s.xpt.sessions.set sn ss }
    tdm := { s.tdm with msessions := s.tdm.msessions.del sn } }
  openDeltas (queueNotice s sn 0x04 0 stOk m.release.toNat map) sn ss

/-- Announce every adopted address once, through the slow path: an IPv4 address by a gratuitous ARP reply, an IPv6 address by
an unsolicited neighbour advertisement (R284 step 4); an address of zeros is none (R431). -/
def announceAdopted (s : Blk) : Blk :=
  forEach s.tdm.adopted (fun s e =>
    let s := if e.2.ipv4.any (· ≠ 0) then firmwareSend s e.1 (arpReply e.2.mac e.2.ipv4) else s
    if e.2.ipv6.any (· ≠ 0) then firmwareSend s e.1 (neighbourAdv e.2.mac e.2.ipv6) else s) s

/-- Uploads of the namespaces taken go on here with the parts that are held. -/
def adoptUploads (s : Blk) (taken : List Nat) : Blk :=
  let mine := s.tdm.uploads.filter fun e => taken.contains e.2.ns
  let s := { s with
    cmd := { s.cmd with uploads := mine.foldl (fun t e => t.set e.1 { e.2 with parts := e.2.parts.filter (·.complete), lastAt := s.now }) s.cmd.uploads }
    tdm := { s.tdm with uploads := s.tdm.uploads.filter fun e => !(taken.contains e.2.ns) } }
  forEach mine (fun s e => modNs s e.2.ns fun x => { x with bytes := x.bytes + uploadBytes { e.2 with parts := e.2.parts.filter (·.complete) } }) s

/-- The buckets of what is taken over restart full (R291). -/
def fillTaken (s : Blk) (taken : List Nat) : Blk :=
  let ts := taken.filterMap fun n => (nsOf s n).map (·.tenant)
  { s with tenants := s.tenants.mapVal fun t x => if ts.contains t then { x with bucket := bucketFullAt s.now x.bucket } else x }

/-- R284: this side takes over what the scope names; R425: FENCE_REQ clears. -/
def takeover (s : Blk) (scope : Nat) : Blk :=
  let s := raiseCounters (raiseWseq s)
  let taken := takenNs s scope
  let s := fillTaken (discardUnheld s taken) taken
  let s := forEach taken (fun s n => modNs s n fun x => { x with ownerSide := s.tdm.side, bucket := bucketFullAt s.now x.bucket }) s
  let s := adoptUploads { s with tdm := { s.tdm with tookOver := s.tdm.tookOver || scope = 0
                                                     localFenced := s.tdm.localFenced && scope = 0 } } taken
  let s := judgeNs s
  let s := if scope = 0 then announceAdopted { s with tdm := { s.tdm with adopted := s.tdm.takeMap, arpLeft := 2 } } else s
  let ms := s.tdm.msessions.filter fun e => e.2.cookie ≠ 0 && (scope = 0 || e.1 / 1048576 = s.tdm.side)
  let s := forEach ms (fun s e => adoptSession s e.1 e.2 taken) s
  let s := forEach taken (fun s n => sendNs s n 0) s
  let s := wakeReaders (completeAll (alert (raise s 0xC005 5 domTdm [BitVec.ofNat 8 scope]) 5))
  { s with tdm := { s.tdm with fenceReq := false } }

/-- The partner is gone: this side takes over and writes alone. -/
def takeoverAlone (s : Blk) : Blk := takeover { s with tdm := { s.tdm with solo := true } } 0

/-- R283: 50 ms of double silence. -/
def takeoverTimer (s : Blk) : Blk :=
  if ¬ (s.tdm.paired ∧ s.tdm.double ∧ showsAlive s) ∨ s.tdm.solo ∨ s.tdm.fenceReq then s
  else
    match policy s 0x1F with
    | 0 => raise { s with tdm := { s.tdm with fenceReq := true } } 0xC003 5 domTdm []
    | 1 => takeoverAlone s
    | _ => raise s 0xC004 6 domTdm []

def execTakeoverTimer (s : State) : Host.Outcome State Fault Refusal := lift takeoverTimer s

/-- The board controller writes FENCE_DONE: only 0xA5 with a good PEC, while FENCE_REQ is set, counts (R424, R425). -/
def fenceDoneFn (value : Byte) (pecGood : Bool) (s : Blk) : Blk :=
  if value = 0xA5#8 ∧ pecGood ∧ s.tdm.fenceReq then takeoverAlone s else s

def execFenceDone (value : Byte) (pecGood : Bool) (s : State) : Host.Outcome State Fault Refusal := lift (fenceDoneFn value pecGood) s

def fenceExpire (s : Blk) : Blk :=
  if s.tdm.fenceReq then raise { s with tdm := { s.tdm with fenceReq := false } } 0xC004 6 domTdm [] else s

def execFenceWaitExpire (s : State) : Host.Outcome State Fault Refusal := lift fenceExpire s

/-- RESIGN: take over what its scope names, in every mode (R275, R283). A partner that does not stay alive leaves this side
writing alone. -/
def resignFn (h : FlitHeader) (payload : Bytes) (s : Blk) : Blk :=
  onFlit .tandem h payload 5 0x11 (fun s _ =>
    let scope := if beAt payload 1 1 = 0 then 0 else 1
    let st := beAt payload 0 1
    let gone := decide (scope = 0 ∧ st ≠ 0x02 ∧ st ≠ 0x03 ∧ st ≠ 0x04)
    let s := alert (raise s 0xC006 4 domTdm [BitVec.ofNat 8 scope]) 5
    takeover { s with tdm := { s.tdm with peerResigned := s.tdm.peerResigned || scope = 0, peerState := st, solo := s.tdm.solo || gone } } scope) s

def execResign (hdr : FlitHeader) (payload : Bytes) (s : State) : Host.Outcome State Fault Refusal := liftFlit payload (resignFn hdr payload) s

/-- The second and third announcement of each adopted address, 1 ms apart (R284). -/
def arpRepeat (s : Blk) : Blk :=
  if s.tdm.arpLeft = 0 then s else announceAdopted { s with tdm := { s.tdm with arpLeft := s.tdm.arpLeft - 1 } }

def execGratuitousArpRepeat (s : State) : Host.Outcome State Fault Refusal := lift arpRepeat s

/-- R386: 1 ms after its RESIGN the rim links of a side in the kickstand go down. -/
def rimDown (s : Blk) : Blk := if s.tdm.paired ∧ s.dev = .kickstand then { s with rim := { s.rim with up := false } } else s

def execRimLinksDown (s : State) : Host.Outcome State Fault Refusal := lift rimDown s

/-! ### Joining and resynchronisation (R278, R288) -/

/-- Everything of R279 that the partner holds for this side. -/
def sendAll (s : Blk) : Blk :=
  let s := sendPairState s
  let s := forEach s.cip.pages.keys sendPage s
  let s := forEach s.tenants.keys sendTenant s
  let s := forEach [0x1F, 0x20, 0x21] sendPolicy s
  let s := forEach s.nss.keys (fun s n => if (nsOf s n).any fun x => x.ownerSide = s.tdm.side then sendNs s n 0 else s) s
  let s := tandemSend s 0x6 0x05 0 0 0 (beBytes 8 s.med.wseqTop)
  let s := forEach s.cmd.uploads.keys (fun s u =>
    forEach (((s.cmd.uploads.get? u).map fun x => x.parts.filter fun p => p.sealv.length = 32).getD []) (fun s p => sendPart s u p) (sendUpload s u)) s
  let s := forEach s.med.stripes (fun s e => tandemSend s 0x6 0x04 e.1 0 0 (stripeEntry e.2)) s
  let s := forEach (s.xpt.sessions.filter fun e => e.2.ring.isNone) (fun s e =>
    let ss := { e.2 with mirrored := firstMissing e.2 e.2.store.length e.2.rxNext }
    let s := openDeltas (setSess s e.1 ss) e.1 ss
    forEach ss.tags (fun s t => if t.2.st = .idle then s else
      sendDelta s e.1 3 (tagDelta s t.1 t.2)) s) s
  forEach (s.idx.stages.filter fun e => !e.2.mirror && !e.2.complete && e.2.kind < 4) (fun s e =>
    if e.2.kind = 2 then (if mirrors s e.2.ns then sendNotice s e.2 0 else s)
    else if e.2.encrypted then mirrorExtent s e.2 (runGrains e.1 e.2) else s) s

/-- The link is joined. After a silence the whole of R279 is sent again, and the mirrors of this side's namespaces are
resynchronised. -/
def joinDone (s : Blk) : Blk :=
  let was := s.tdm.linkSilent
  let s := { s with tdm := { s.tdm with joined := true, heldDown := 0, solo := false, peerResigned := false } }
  let s := sendAll s
  if was then
    let mine := (s.nss.filter fun e => e.2.mirrored && e.2.ownerSide = s.tdm.side).map fun e => (e.1, false)
    { s with tdm := { s.tdm with resync := mine } }
  else s

/-- JOIN_PROOF: the partner's proof over its own and this side's nonce (R278). -/
def joinProofFn (h : FlitHeader) (payload : Bytes) (s : Blk) : Blk :=
  onFlit .tandem h payload 5 0x12 (fun s _ =>
    if s.tdm.joined ∨ (linkOf s .tandem).phase ≠ .up then s
    else if s.tdm.secret ≠ [] ∧ payload.take 32 = joinProof s s.tdm.peerSerial s.tdm.peerSide s.tdm.peerNonce s.tdm.nonce then pump (joinDone s) .tandem
    else joinFailed s) s

def execJoinProof (hdr : FlitHeader) (payload : Bytes) (s : State) : Host.Outcome State Fault Refusal :=
  liftFlit payload (joinProofFn hdr payload) s

def joinTimeout (s : Blk) : Blk :=
  if s.tdm.paired ∧ s.tdm.joined = false ∧ (linkOf s .tandem).phase = .up then joinFailed s else s

def execJoinProofTimeout (s : State) : Host.Outcome State Fault Refusal := lift joinTimeout s

/-- 1 s after a failed join the side retrains (R278). -/
def joinRetry (s : Blk) : Blk :=
  if s.tdm.paired ∧ s.tdm.heldDown = 2 ∧ (linkOf s .tandem).phase = .down then
    trainLink { s with tdm := { s.tdm with heldDown := 0 } } .tandem 1
  else s

def execJoinRetry (s : State) : Host.Outcome State Fault Refusal := lift joinRetry s

/-- A slot as an entry of the slot list (R288 step 1). -/
def sendListed (s : Blk) (sl : BSlot) : Blk :=
  let gear := ((mapOf s (locHead sl.loc)).map Prod.snd).getD 0
  let x : Stage := { ns := sl.ns, kind := if sl.multipart then 3 else 1, gear := gear, version := sl.version, digest := sl.digest, valueLen := sl.valueLen }
  sendNotice s x 0

/-- The slots of a namespace whose values the partner has not said it holds. -/
def unheldSlots (s : Blk) (n : Nat) : List (Nat × BSlot) :=
  (slotsFrom s 0).filter fun e => e.2.ns = n && !e.2.lost && !(s.tdm.heldByPeer.contains e.2.version)

/-- A value's bodies to the partner: head, part-table grains, value grains, after its notice (R288 step 2). -/
def sendExtent (s : Blk) (sl : BSlot) (bodies : List Bytes) : Blk :=
  let gear := ((mapOf s (locHead sl.loc)).map Prod.snd).getD 0
  let x : Stage := { ns := sl.ns, kind := if sl.multipart then 3 else 1, gear := gear, version := sl.version, digest := sl.digest, valueLen := sl.valueLen }
  forEach (bodies.zip (List.range bodies.length)) (fun s e => sendBody s (sl.version % 2 ^ 32) e.2 e.1) (sendNotice s x bodies.length)

/-- A drain begins: the side serves nothing new (R289). -/
def startDrain (s : Blk) (job : Nat) (failback : Bool) : Blk :=
  setDev { s with tdm := { s.tdm with drain := some (job, failback) } } .draining

/-- Failback may start: this side serves namespaces or sessions of the other (R289). -/
def servesOther (s : Blk) : Bool :=
  (s.nss.vals.any fun x => x.ownerSide == s.tdm.side && x.homeSide ≠ s.tdm.side) || s.xpt.sessions.keys.any (fun n => decide (n / 1048576 = otherSide s))

/-- A failback job. -/
def isFailback : JobKind → Bool
  | .failback => true
  | _ => false

/-- RESYNCHRONISATION of one namespace: its slot list first, then the next value that the mirror lacks, with its bodies as
read from the medium; when nothing is missing it ends. A failback that was ordered, or FAILBACK AUTO, starts after the last
(R288, R289). -/
def resyncFn (n : Nat) (bodies : List Bytes) (s : Blk) : Blk :=
  match s.tdm.resync.find? fun e => e.1 = n with
  | none => s
  | some (_, listed) =>
    if pairJoined s = false then s
    else if listed = false then
      let s := { s with tdm := { s.tdm with resync := s.tdm.resync.map fun e => if e.1 = n then (n, true) else e } }
      let s := sendNs (raise s 0xC009 3 domTdm (pl [(2, n), (1, 1)])) n 1
      forEach ((slotsFrom s 0).filter fun e => e.2.ns = n) (fun s e => sendListed s e.2) s
    else
      match unheldSlots s n with
      | e :: _ => if bodies.isEmpty then s else sendExtent s e.2 bodies
      | [] =>
        let s := { s with tdm := { s.tdm with resync := s.tdm.resync.filter fun e => e.1 ≠ n } }
        let s := raise (sendNs (modNs s n fun x => { x with stale := false }) n 2) 0xC009 3 domTdm (pl [(2, n), (1, 0)])
        let job := (jobsWhere s isFailback).head?
        if s.tdm.resync.isEmpty ∧ s.dev = .run ∧ (job.isSome ∨ policy s 0x21 = 1 ∧ servesOther s) then startDrain s (job.getD 0) true else s

def execResynchronisation (ns : Nat) (bodies : List Bytes) (s : State) : Host.Outcome State Fault Refusal := lift (resyncFn ns bodies) s

/-! ### Handover and failback (R289) -/

/-- No command is ACTIVE or COMMITTING, and every write of a namespace given is held. -/
def drained (s : Blk) : Bool :=
  s.xpt.sessions.vals.all (fun ss => ss.tags.vals.all fun t => t.st ≠ .active && t.st ≠ .committing)
    && s.idx.stages.vals.all fun x => x.mirror || x.complete || decide (x.kind = 5)

/-- What a drain gives up: all of it, or what the other side is home to. -/
def giveUp (s : Blk) (failback : Bool) : Blk :=
  let mine := fun (x : Namespace) => x.mirrored && x.ownerSide == s.tdm.side && (!failback || x.homeSide ≠ s.tdm.side)
  let gone := (s.xpt.sessions.filter fun e => e.2.ring.isNone && (!failback || e.1 / 1048576 = otherSide s)).map Prod.fst
  let s := { s with
    nss := s.nss.mapVal fun _ x => if mine x then { x with ownerSide := otherSide s } else x
    cmd := { s.cmd with
      slots := s.cmd.slots.filter fun e => !(gone.contains e.2.session)
      uploads := s.cmd.uploads.filter fun e => !((nsOf s e.2.ns).any mine) }
    xpt := { s.xpt with sessions := s.xpt.sessions.filter fun e => !(gone.contains e.1), ctl := s.xpt.ctl.filter fun f => !(gone.contains f.hdr.session) }
    tdm := { s.tdm with adopted := [], arpLeft := 0, tookOver := false, localFenced := s.tdm.localFenced || !failback, drain := none } }
  judgeNs s

/-- Steps 3 and 4 of a drain that has nothing left to wait for: final deltas, RESIGN, and back to RUN (0xC00A). -/
def finishDrain (s : Blk) : Blk :=
  match s.tdm.drain with
  | some (job, failback) =>
    if drained s ∧ pairJoined s then
      let s := forEach (s.xpt.sessions.filter fun e => e.2.ring.isNone) (fun s e => openDeltas s e.1 e.2) s
      let s := giveUp (sendResign s (boolNat failback)) failback
      let s := raise (setDev s .run) 0xC00A 3 domTdm [1#8, BitVec.ofNat 8 (boolNat failback)]
      endJob s job 2 stOk 0
    else s
  | none => s

/-- 1 s has passed: the drain is abandoned, and the side keeps everything (R289). -/
def drainTimeout (s : Blk) : Blk :=
  match s.tdm.drain with
  | some (job, failback) =>
    let s := setDev { s with tdm := { s.tdm with drain := none } } .run
    let s := raise s 0xC00A 3 domTdm [0#8, BitVec.ofNat 8 (boolNat failback)]
    endJob s job 2 stStateConflict 0x04
  | none => s

def execHandoverDrainTimeout (s : State) : Host.Outcome State Fault Refusal := lift drainTimeout s

end Sys2Proof.Machine
end

