-- ==== Sys2Proof/Machine/Time.lean ====
section
/-! DEFINITION. Time and loops: the RTC with its trim, alarm and life counts (R294-R298), thermal stepping and the core
voltage (R300, R301, R419). -/

namespace Sys2Proof.Machine

/-! ### The alarm and the wake it causes (R297, R345, R352) -/

/-- {SECONDS, SUB} as one number. -/
def rtcNow (s : Blk) : Nat := s.time.seconds.toNat * 32768 + s.time.sub.toNat

/-- Steps 2 and 4 of the wake: the clocks of HUB and HBM run, and every spoke that was in service is powered and trains. -/
def startWake (s : Blk) : Blk :=
  let s := { s with pwr := { s.pwr with waking := true } }
  let s := forEach [74, 75, 76, 77, domHub] startClock s
  forEach s.pwr.wakeSpokes.keys (fun s n =>
    let s := { s with pin := { s.pin with pwren := s.pin.pwren ||| (1#16 <<< n) } }
    let s := startClock (startClock s (domSpkl n)) (domSpke n)
    trainLink (setLink s (spokeLink n) { cnt := (linkOf s (spokeLink n)).cnt, wasUp := true }) (spokeLink n) 1) s

/-- The alarm fires once {SECONDS, SUB} has reached ALARM while ALARM_EN is 1; it wakes the device from FREEWHEEL and ends
REST. -/
def judgeAlarm (s : Blk) : Blk :=
  if s.time.alarmEn ∧ s.time.alarm.toNat ≤ rtcNow s then
    let s := raise { s with time := { s.time with alarmEn := false, alarmHit := true } } 0xE042 2 0 []
    if s.pwr.pstate = .freewheel ∧ s.pwr.waking = false then startWake s else restExit s
  else s

/-! ### The RTC (R294-R296, R412) -/

/-- What one crystal tick adds to SUB: the first |TRIM| ticks at multiples of 1,024 in the window count double, or not at
all (R295). -/
def tickStep (t : TimeSt) : Nat :=
  let m := t.trimNow.toInt
  if t.window % 1024 = 0 ∧ t.window / 1024 < m.natAbs then (if 0 < m then 2 else 0) else 1

/-- One more second has begun: SCRUB_AGE counts (R413). -/
def secondPassed (s : Blk) : Blk :=
  { s with
    time := { s.time with seconds := s.time.seconds + 1 }
    safe := { s.safe with scrubAge := s.safe.scrubAge.map fun n => min (n + 1) 0xFFFFFFFF } }

/-- OP_TIME counts trimmed ticks while POR_N is high: 28,800 to a step of the fraction; it saturates (R298). -/
def opTick (s : Blk) (d : Nat) : Blk :=
  if s.pin.porN = false then s
  else
    let n := s.time.opTicks + d
    if 28800 ≤ n then { s with time := { s.time with opTicks := n - 28800, opTime := min (s.time.opTime + 1) (2 ^ 44 - 1) } }
    else { s with time := { s.time with opTicks := n } }

/-- A crystal tick. -/
def rtcTickFn (s : Blk) : Blk :=
  let d := tickStep s.time
  let n := s.time.sub.toNat + d
  let s := { s with time := { s.time with sub := BitVec.ofNat 15 n, window := (s.time.window + 1) % 2 ^ 20 } }
  judgeAlarm (opTick (if 32768 ≤ n then secondPassed s else s) d)

def execRtcTick (s : State) : Host.Outcome State Fault Refusal := lift rtcTickFn s

/-- A window of 2^20 ticks ends, and a newly written TRIM is in force (R295). -/
def trimWindowFn (s : Blk) : Blk := { s with time := { s.time with window := 0, trimNow := s.time.trim } }

def execTrimWindow (s : State) : Host.Outcome State Fault Refusal := lift trimWindowFn s

/-- OP_TIME and POWER_CYCLES are appended to the OPT_LOG ring of 4,096 records (R298, R362). -/
def opTimeSaveFn (s : Blk) : Blk :=
  let l := s.boot.optLog ++ [(s.time.opTime, s.time.powerCycles)]
  { s with boot := { s.boot with optLog := l.drop (l.length - 4096) } }

def execOpTimeSave (s : State) : Host.Outcome State Fault Refusal := lift opTimeSaveFn s

/-- SECONDS and SUB are written together and RTC_VALID is set; a step back by more than 1 s raises 0xE041; the alarm is
judged (R296, R297). -/
def setTime (s : Blk) (v : Nat) : Blk :=
  let back := decide (v / 32768 % 2 ^ 48 + 1 < s.time.seconds.toNat)
  let s := { s with time := { s.time with seconds := BitVec.ofNat 48 (v / 32768), sub := BitVec.ofNat 15 v, valid := true } }
  judgeAlarm (if back then raise s 0xE041 3 0 [] else s)

/-- ALARM and ALARM_EN are written; an alarm whose time has passed fires (R297, R412). -/
def setAlarm (s : Blk) (v : Nat) (en : Bool) : Blk :=
  judgeAlarm { s with time := { s.time with alarm := BitVec.ofNat 63 v, alarmEn := en } }

/-- VDD_AON leaves its window, or the crystal is lost: RTC_VALID clears and the counts restart from 0 (R296). -/
def rtcLost (s : Blk) : Blk := { s with time := { s.time with valid := false, seconds := 0, sub := 0 } }

/-! ### Thermal stepping (R300, R301) -/

/-- The bucket of step `n`: (8 − n) / 8 of 1.6 TB/s, in 1/256 bytes for each refill interval (R292, R300). -/
def stepRate (n : Nat) : Nat := 335544320 * (8 - n) / 8

/-- Set the step, with the device-wide bucket that enforces it. -/
def setStep (s : Blk) (n : Nat) : Blk :=
  let b : Bucket := { bucketNow s.now s.loops.bucket with rate := stepRate n, depth := Config.thermalDepth, enabled := decide (0 < n) }
  let b := if b.tokens ≤ b.depth then b else { b with tokens := b.depth, frac := 0 }
  { s with loops := { s.loops with step := n, bucket := b } }

/-- An override of thermal stepping starts or ends. -/
def thermalOver (s : Blk) (on : Bool) : Blk :=
  if on = s.loops.thermOver then s
  else
    let s := { s with loops := { s.loops with thermOver := on } }
    let s := if on then s else endOverride s [0x1B, 0x1C]
    alert (raise s 0xE043 4 domNone (pl [(1, boolNat on)])) 7

/-- Temperatures are signed 1/16 °C; policy THERMAL_TARGET is in °C. -/
def sixteenths (c : Nat) : Int := 16 * c

/-- T_J has been above THERMAL_TARGET, or at 85 °C above MAX_STEP, for 1 ms. -/
def thermalRise (tj : BitVec 16) (s : Blk) : Blk :=
  let s := { s with loops := { s.loops with tj := tj } }
  let n := s.loops.step
  if n < target s 0x1C ∧ sixteenths (target s 0x1B) < tj.toInt then setStep s (n + 1)
  else if n < 7 ∧ target s 0x1C ≤ n ∧ sixteenths 85 ≤ tj.toInt then thermalOver (setStep s (n + 1)) true
  else s

def execThermalStepRise (tj : BitVec 16) (s : State) : Host.Outcome State Fault Refusal := lift (thermalRise tj) s

/-- T_J has stayed 2 °C or more below the target for 100 ms; at MAX_STEP again the override has ended. -/
def thermalFall (tj : BitVec 16) (s : Blk) : Blk :=
  let s := { s with loops := { s.loops with tj := tj } }
  if 0 < s.loops.step ∧ tj.toInt ≤ sixteenths (target s 0x1B) - 32 then
    let s := setStep s (s.loops.step - 1)
    if s.loops.step ≤ target s 0x1C then thermalOver s false else s
  else s

def execThermalStepFall (tj : BitVec 16) (s : State) : Host.Outcome State Fault Refusal := lift (thermalFall tj) s

/-! ### Core voltage (R300, R301, R419) -/

def voltageOver (s : Blk) (on : Bool) : Blk :=
  if on = s.loops.vcoreOver then s
  else
    let s := { s with loops := { s.loops with vcoreOver := on } }
    let s := if on then s else endOverride s [0x1D, 0x1E]
    alert (raise s 0xE044 4 domNone (pl [(1, boolNat on)])) 7

/-- The next code of 5 mV at or above a voltage. -/
def upTo5 (v : Nat) : Nat := (v + 4) / 5 * 5

/-- Where the request is to go: what the path monitors need, inside VMIN_SW to VMAX_SW, above VMAX_SW only as far as they
need, and never above 820 mV. -/
def voltageGoal (s : Blk) (demand : Nat) : Nat :=
  if target s 0x1E < demand then min (upTo5 demand) 820
  else max (upTo5 (target s 0x1D)) (min (upTo5 demand) (target s 0x1E / 5 * 5))

/-- The request moves one step of 5 mV toward its goal, and CORE_VID follows. -/
def vcoreFn (demand : Nat) (s : Blk) : Blk :=
  let g := voltageGoal s demand
  let v := s.loops.vcore
  let v := if v + 5 ≤ g then v + 5 else if g + 5 ≤ v then v - 5 else v
  let s := { s with loops := { s.loops with vcore := v }, pin := { s.pin with vid := (v - 680) / 5 } }
  if target s 0x1E < demand ∧ target s 0x1E < v then voltageOver s true
  else if demand ≤ target s 0x1E ∧ v ≤ upTo5 (target s 0x1E) then voltageOver s false else s

def execVcoreStep (demand : Nat) (s : State) : Host.Outcome State Fault Refusal := lift (vcoreFn demand) s

end Sys2Proof.Machine
end

