-- ==== Sys2Proof/Machine/Power.lean ====
section
/-! DEFINITION. Power states: IDLE (R344), REST (R345), the sleep handshake with its refusals, rollback and commit
(R346-R351), and the wake from FREEWHEEL (R352-R355). -/

namespace Sys2Proof.Machine

/-! ### IDLE (R344) -/

/-- No command is QUEUED, ACTIVE, COMMITTING or COMPLETING, and no background work runs. -/
def quiet (s : Blk) : Bool :=
  s.cmd.slots.isEmpty && s.xpt.sessions.vals.all (fun ss => ss.tags.vals.all fun t => t.st == .idle) && s.med.reads.isEmpty
    && s.med.truns.isEmpty && s.med.moving.isEmpty && s.med.rekey.isNone && s.med.rebuilds.isEmpty && s.hub.exec.isEmpty
    && jobsRunning s == 0 && !s.evt.flushing && s.spokes.vals.all fun x => (allOps x).isEmpty

/-- The engines that IDLE gates: those that run in RUN alone, and every media engine and cipher cluster. -/
def idleGated : BitVec 84 := runDomains ||| (0xFFFFFFFF#84 <<< 34)

def idleEntryFn (s : Blk) : Blk :=
  if s.dev = .run ∧ s.pwr.pstate = .run ∧ quiet s then
    { s with pwr := { s.pwr with pstate := .idle, clocks := s.pwr.clocks &&& ~~~idleGated } }
  else s

def execIdleEntry (s : State) : Host.Outcome State Fault Refusal := lift idleEntryFn s

/-! ### The order of the handshake (R347) -/

/-- Domain indices in the order in which the hub asks them. -/
def sleepOrder : List Nat :=
  [71, 69, 70, 66, 67, 68] ++ (List.range 16).map domSpke ++ (List.range 16).map domCiph ++ (List.range 16).map domRim
    ++ (List.range 16).map domSpkl ++ [domTdm, domPcie, 72, 73, domEvt, 74, 75, 76, 77, domHub]

/-- For REST only the media engines are asked, and only for their background work. -/
def askedFor (targetState : Nat) : List Nat := if targetState = 2 then (List.range 16).map domSpke else sleepOrder

/-- A condition of R345 holds. -/
def backgroundDue (s : Blk) : Bool :=
  (s.nss.any fun e => e.2.shown == 0x42 || e.2.shown == 0x43)
    || (servingSpokes s).any (fun n => decide (freeFraction (spokeOf s n) < policy s 0x09))
    || slcAbove s (policy s 0x0B) || s.spokes.vals.any fun x => !x.patrolq.isEmpty

/-- A rebuild runs. -/
def rebuildRuns (s : Blk) : Bool := s.med.rebuilds.vals.any fun r => !r.todo.isEmpty

/-- Another Iawatal command or job runs (R348, code 0x08). -/
def mailboxBusy (s : Blk) (job : Nat) : Bool :=
  !s.hub.exec.isEmpty || !s.hub.waiting.isEmpty || s.hub.mbox.vals.any (fun m => m.go || m.busy)
    || s.hub.jobs.any fun e => e.2.jstate == 1 && e.1 != job

/-- A ring has ENABLE 1, or has not drained. -/
def ringsOn (s : Blk) : Bool := s.ring.sqs.vals.any (fun q => q.enable || q.running) || s.ring.cqs.vals.any (·.enable)

/-- A response frame has not been sent. -/
def unsent (s : Blk) : Bool := s.xpt.sessions.vals.any fun ss => !ss.respq.isEmpty || ss.tags.vals.any (·.due)

/-- What is not on flash yet when the media engines are asked for FREEWHEEL: open stripes and their entries, the map journal, map
pages, the checkpoints, and event records. -/
def unsettled (s : Blk) : Bool :=
  !s.pwr.settled || !s.med.stripes.isEmpty || !s.med.asmq.isEmpty || !s.med.ring.isEmpty || !s.med.sjPending.isEmpty
    || !s.med.mdirty.isEmpty || !(unflushed s).isEmpty

/-- The domain is quiesced (R347). -/
def isQuiesced (s : Blk) (targetState job d : Nat) : Bool :=
  if targetState = 2 then !rebuildRuns s && !backgroundDue s && s.med.moving.isEmpty
  else if d = domCmd then
    s.xpt.sessions.vals.all fun ss => ss.tags.vals.all fun t => t.st == .idle || t.st == .completing
  else if d = 69 ∨ d = 70 then !unsent s
  else if d = 66 ∨ d = 67 ∨ d = domIdx then s.idx.cam.isEmpty && s.idx.dir.vals.all fun e => !e.dirty
  else if 34 ≤ d ∧ d < 50 then !unsettled s && s.med.moving.isEmpty && s.spokes.vals.all fun x => (allOps x).isEmpty
  else if 50 ≤ d ∧ d < 66 then s.cip.fabric.isEmpty && s.cip.gated.isEmpty && s.cip.waiting.isEmpty
  else if 18 ≤ d ∧ d < 34 then (allOps (spokeOf s (d - 18))).isEmpty
  else if d = domPcie then !ringsOn s && !mailboxBusy s job
  else if d = domEvt then s.evt.inq.isEmpty
  else true

/-- The media engines bring to flash what is not there yet: the checkpoints once, then open stripes, entries, journal and event
records. Their programs return before the engines are quiesced. -/
def settleMedia (s : Blk) : Blk :=
  let s := if s.pwr.settled then s
    else { checkpointStep (checkpointStep (checkpointStep s)) with pwr := { s.pwr with settled := true } }
  let s := forEach s.med.stripes.keys closeStripe s
  let s := if s.med.sjPending.isEmpty then s else stripeJournalWrite s
  let s := if s.med.ring.isEmpty then s else journalFlush s
  flushAll s

/-- What goes with a domain's stop on the way to FREEWHEEL (R347). -/
def sleepDomain (s : Blk) (d : Nat) : Blk :=
  let s := stopClock s d
  if 2 ≤ d ∧ d < 18 then { s with rim := { s.rim with up := false } }
  else if 18 ≤ d ∧ d < 34 then
    let n := d - 18
    let s := if inService s n then { s with pwr := { s.pwr with wakeSpokes := s.pwr.wakeSpokes.set n (spokeOf s n).ident } } else s
    powerOff s n
  else if d = domTdm then (if s.tdm.paired then tandemDown s 0 else s)
  else if d = domPcie then { s with ring := { s.ring with pcieUp := false } }
  else if d = domHub then opTimeSaveFn s
  else s

/-! ### Commit (R350, R351) -/

/-- ALERT_N is low while FENCE_REQ, KICKSTAND or EVENT is 1 (R425); at pad hold it keeps its level (R351). -/
def alertLow (s : Blk) : Bool :=
  if s.pwr.padHold then s.pwr.heldAlert else s.tdm.fenceReq || decide (s.dev = .kickstand) || s.reg.smbEvent

/-- The banks of retained state: every domain but 0, 1, 79 and 83. -/
def banks : List Nat := (List.range 84).filter fun d => !([0, 1, 79, 83].contains d)

/-- Pad hold (R351). -/
def holdPads (s : Blk) : Blk :=
  { s with
    pwr := { s.pwr with padHold := true, heldFault := s.pin.fault, heldAlert := alertLow s }
    pin := { s.pin with peerAliveOut := false, pwren := 0 } }

/-- Every bank gets its seal: the CRC-32C of its content, which the manual lays out nowhere (log entry 3). -/
def sealBanks (s : Blk) : Blk :=
  forEach banks (fun s n =>
    let (b, s) := drawBytes s 4
    { s with pwr := { s.pwr with seals := s.pwr.seals.set n (leNat b) } }) s

/-- Commit: seals, pad hold, clocks stopped, and event 0xE002 in the buffer; the job has reached its state. -/
def sleepCommit (s : Blk) (job : Nat) : Blk :=
  let s := holdPads (sealBanks s)
  let s := { s with pwr := { s.pwr with prepare := none, clocks := 3#84 ||| (1#84 <<< 79) ||| (s.pwr.clocks &&& (1#84 <<< domDbg)) } }
  let s := acceptEv s { code := 0xE002, sev := 2, src := domHub, at_ := s.now }
  endJob { s with pwr := { s.pwr with pstate := .freewheel } } job 2 stOk 0

/-- REST is reached. -/
def restEnter (s : Blk) (job : Nat) : Blk :=
  let s := { s with pwr := { s.pwr with prepare := none, pstate := .rest, bgStopped := true } }
  endJob (alert (raise s 0xE008 2 domHub [0#8]) 6) job 2 stOk 0

/-- SLEEP_DOMAIN_QUIESCED: the domain being asked reports itself quiesced, and the next is asked; background work stops as soon as
the media engines are. -/
def quiescedFn (s : Blk) : Blk :=
  match s.pwr.prepare with
  | none => s
  | some (job, t, i) =>
    let ds := askedFor t
    let d := ds.getD i domHub
    if isQuiesced s t job d = false then (if t = 3 ∧ 34 ≤ d ∧ d < 50 then settleMedia s else s)
    else
      let s := if t = 2 then s else sleepDomain s d
      if i + 1 < ds.length then
        { s with pwr := { s.pwr with prepare := some (job, t, i + 1), bgStopped := s.pwr.bgStopped || decide (34 ≤ ds.getD (i + 1) 0) } }
      else if t = 2 then restEnter s job else sleepCommit s job

def execSleepDomainQuiesced (s : State) : Host.Outcome State Fault Refusal := lift quiescedFn s

/-! ### Refusal, rollback, retry (R346, R348, R349) -/

/-- Restart what had been stopped: the first `i` domains of the order, in reverse. -/
def wakeDomain (s : Blk) (d : Nat) : Blk :=
  let s := startClock s d
  if 2 ≤ d ∧ d < 18 then { s with rim := { s.rim with up := true } }
  else if 18 ≤ d ∧ d < 34 then
    let n := d - 18
    if s.pwr.wakeSpokes.has n then
      let s := { s with pin := { s.pin with pwren := s.pin.pwren ||| (1#16 <<< n) }, pwr := { s.pwr with wakeSpokes := s.pwr.wakeSpokes.del n } }
      trainLink (setLink s (spokeLink n) { cnt := (linkOf s (spokeLink n)).cnt, wasUp := true }) (spokeLink n) 1
    else s
  else if d = domTdm then (if s.tdm.paired then trainLink s .tandem 1 else s)
  else if d = domPcie then { s with ring := { s.ring with pcieUp := true } }
  else s

/-- R349: the attempt ends; what was quiesced restarts, the device is in RUN, and 0xE001 names domain and reason. -/
def rollback (s : Blk) (d reason : Nat) : Blk :=
  let s := match s.pwr.prepare with
    | some (_, 3, i) => forEach ((sleepOrder.take i).reverse) wakeDomain s
    | _ => s
  let s := { s with pwr := { s.pwr with prepare := none, bgStopped := decide (s.pwr.pstate = .rest) } }
  let s := if s.dev = .freewheelEntry then setDev s .run else s
  alert (raise s 0xE001 3 d (pl [(1, d), (1, reason)])) 6

/-- A refused attempt is tried again after BACKOFF while retries are left; then the job ends (R346). -/
def retryPower (s : Blk) (job d reason : Nat) : Blk :=
  match s.hub.jobs.get? job with
  | some j =>
    match j.kind with
    | .powerEnter t (r + 1) b =>
      let j' := { j with kind := .powerEnter t r b }
      { s with hub := { s.hub with jobs := s.hub.jobs.set job j' }, pwr := { s.pwr with backoff := s.pwr.backoff ++ [job] } }
    | _ => endJob s job 2 stStateConflict (s.dev.code + d * 256 + reason * 65536)
  | none => s

/-- R346, R349: a refused attempt is rolled back. -/
def refuseSleep (s : Blk) (job d reason : Nat) : Blk := retryPower (rollback s d reason) job d reason

/-- Why the domain being asked refuses (R348). -/
def refusalReason (s : Blk) (targetState job d : Nat) (mediaFault : Bool) : Nat :=
  if mediaFault ∧ 34 ≤ d ∧ d < 50 then 0x09
  else if targetState = 2 then (if rebuildRuns s then 0x05 else if backgroundDue s then 0x06 else 0x03)
  else if (d = domCmd ∨ d = 69 ∨ d = 70) ∧ s.xpt.sessions.vals.any (fun ss => !ss.respq.isEmpty && ss.peerCredit == 0) then 0x04
  else if d = domPcie ∧ ringsOn s then 0x07
  else if d = domPcie ∧ mailboxBusy s job then 0x08
  else 0x03

/-- SLEEP_DOMAIN_TIMEOUT: the domain being asked has passed its limit, or refuses. -/
def sleepTimeoutFn (mediaFault : Bool) (s : Blk) : Blk :=
  match s.pwr.prepare with
  | none => s
  | some (job, t, i) =>
    let d := (askedFor t).getD i domHub
    refuseSleep s job d (refusalReason s t job d mediaFault)

def execSleepDomainTimeout (mediaFault : Bool) (s : State) : Host.Outcome State Fault Refusal := lift (sleepTimeoutFn mediaFault) s

/-- This side still owns a namespace or a session (R348 code 0x02, R289). -/
def ownsSomething (s : Blk) : Bool :=
  (s.nss.vals.any fun x => x.ownerSide == s.tdm.side && (x.mirrored || !s.tdm.localFenced)) || s.xpt.sessions.vals.any (·.ring.isNone)

/-- One attempt of a POWER_ENTER job (R346-R348); while another job's attempt runs, the mailbox is busy (0x08). -/
def powerAttempt (s : Blk) (job : Nat) : Blk :=
  match s.hub.jobs.get? job with
  | none => s
  | some j =>
    match j.kind with
    | .powerEnter t _ _ =>
      if j.jstate ≠ 1 then s
      else if s.pwr.prepare.isSome then
        retryPower (alert (raise s 0xE001 3 domHub (pl [(1, domHub), (1, 0x08)])) 6) job domHub 0x08
      else if s.dev ≠ .run then refuseSleep s job domHub 0x08
      else if t = 1 then endJob (restExit s) job 2 stOk 0
      else if t = 2 ∧ s.pwr.pstate = .rest then endJob s job 2 stOk 0
      else if t = 2 then { s with pwr := { s.pwr with prepare := some (job, 2, 0), bgStopped := true } }
      else if s.time.alarmEn = false then refuseSleep s job domHub 0x01
      else if pairJoined s ∧ ownsSomething s then refuseSleep s job domHub 0x02
      else setDev { s with pwr := { s.pwr with prepare := some (job, 3, 0), wakeSpokes := [], settled := false } } .freewheelEntry
    | _ => s

/-- POWER_BACKOFF_EXPIRE. -/
def backoffFn (s : Blk) : Blk :=
  match s.pwr.backoff with
  | job :: rest => powerAttempt { s with pwr := { s.pwr with backoff := rest } } job
  | [] => s

def execPowerBackoffExpire (s : State) : Host.Outcome State Fault Refusal := lift backoffFn s

/-- JOB_CANCEL of a POWER_ENTER job (R346): prepare is rolled back, a back-off ends. -/
def cancelPower (s : Blk) (job : Nat) : Blk :=
  let s := { s with pwr := { s.pwr with backoff := s.pwr.backoff.filter (· ≠ job) } }
  match s.pwr.prepare with
  | some (j, t, i) => if j = job then rollback s ((askedFor t).getD i domHub) 0 else s
  | none => s

/-! ### Wake (R352-R355) -/

/-- A bank that failed its seal is reinitialised: its domain comes up cold (R353). -/
def coldBank (s : Blk) (n : Nat) : Blk :=
  let s := raise s 0xE004 4 n (pl [(1, n)])
  if 2 ≤ n ∧ n < 18 then { s with rim := { s.rim with pfc := s.rim.pfc.filter fun e => e.1 / 64 ≠ n - 2 } }
  else if 18 ≤ n ∧ n < 34 then setLink s (spokeLink (n - 18)) { linkOf s (spokeLink (n - 18)) with cnt := [] }
  else if 34 ≤ n ∧ n < 50 then modSpoke s (n - 34) fun x => { x with llr := [], cnt := [] }
  else if 50 ≤ n ∧ n < 66 then { s with cip := { s.cip with cache := [] } }
  else if n = 66 ∨ n = 67 then { s with idx := { s.idx with banks := s.idx.banks.filter fun e => e.1 / 4 ≠ n - 66 } }
  else if n = domIdx then { s with idx := { s.idx with lru := [], dir := s.idx.dir.mapVal fun _ d => { d with slots := [], cached := false } } }
  else if n = 69 ∨ n = 70 then { s with xpt := { cnt := s.xpt.cnt } }
  else if n = domCmd then { s with cmd := { s.cmd with slots := [] } }
  else if n = domHub then { s with hub := {} }
  else if n = domEvt then { s with evt := { s.evt with inq := [], buf := [] } }
  else if n = domPcie then { s with ring := {} }
  else if n = domTdm then { s with tdm := { s.tdm with mirrors := [], msessions := [] } }
  else s

/-- A spoke that is absent, or whose IDENT differs from the one at entry, is handled as a surprise removal (R354). -/
def checkWoken (s : Blk) (absent : BitVec 16) (n : Nat) : Blk :=
  let was := (s.pwr.wakeSpokes.get? n).getD []
  if absent.getLsbD n ∨ s.pin.prsntN.getLsbD n ∨ (spokeOf s n).ident ≠ was ∨ (linkOf s (spokeLink n)).phase ≠ .up then
    removeSpoke s n false
  else s

/-- The wake report names the failed banks: their count, then their numbers. -/
def wakeReport (bad : List Nat) : Bytes := (BitVec.ofNat 8 bad.length :: bad.map (BitVec.ofNat 8)).take 28

/-- WAKE_COMPLETE: steps 6 to 8. -/
def wakeFn (badBanks : List Nat) (absent : BitVec 16) (s : Blk) : Blk :=
  if s.pwr.waking = false then s
  else
    let bad := badBanks.filter banks.contains
    let s := forEach bad coldBank s
    let s := forEach s.pwr.wakeSpokes.keys (fun s n => checkWoken s absent n) s
    let s := { s with
      rim := { s.rim with up := true }
      ring := { s.ring with pcieUp := true }
      pwr := { s.pwr with waking := false, padHold := false, pstate := .run, bgStopped := false, wakeSpokes := [], seals := []
                          clocks := s.pwr.clocks ||| runDomains ||| (1#84 <<< domHub) ||| (1#84 <<< domPcie) } }
    let s := if s.tdm.paired then trainLink (startClock s domTdm) .tandem 1 else s
    let s := { s with evt := { s.evt with flushTo := s.evt.nextSeq - 1 } }
    alert (raise (setDev s .run) 0xE003 2 domHub (wakeReport bad)) 6

def execWakeComplete (badBanks : List Nat) (absent : BitVec 16) (s : State) : Host.Outcome State Fault Refusal :=
  lift (wakeFn badBanks absent) s

end Sys2Proof.Machine
end

