-- ==== Sys2Proof/Machine/Restore.lean ====
section
/-! DEFINITION. What a start keeps and what it restores: the state a restart leaves (R58, R62, R89, R291, R298, R388,
R407), and media restoration, step 11 of the boot ladder (R140, R202-R207, R235, R256-R258, R269). -/

namespace Sys2Proof.Machine

/-! ### What survives a restart -/

/-- A namespace's record: its settings and its ownership; what a run adds to them is found anew, and its bucket is full
(R291). -/
def coldNs (now : Nat) (x : Namespace) : Namespace :=
  { x with sipKey := [], keyOffline := false, metaOffline := false, deleting := false, capEmerg := false, bucket := bucketFullAt now x.bucket }

/-- A slot: what the media manager knows of its medium. -/
def coldSpoke (x : SpokeSt) : SpokeSt :=
  { sstate := if x.failed.isSome then 2 else 0, profile := x.profile, failed := x.failed, freeBlocks := x.freeBlocks
    usableBlocks := x.usableBlocks, slcBlocks := x.slcBlocks, slcUsed := x.slcUsed, diesOut := x.diesOut, diesDead := x.diesDead
    grownBad := x.grownBad }

/-- A rebuild goes on with the first band not marked, and discards that band's partial spoke band (R269). -/
def coldRebuild (r : Rebuild) : Rebuild := { todo := r.todo }

/-- A head grain's part of a journal record. -/
def headRec : JRec → Bool
  | .slotSet _ _ sl _ => !sl.lost
  | _ => false

/-- What the medium and the firmware flash hold; the map, the directory and the open stripes are restored at step 11. -/
def coldMed (restored : Bool) (stages : Tbl Stage) (m : MedSt) : MedSt :=
  let partial_ := m.rebuilds.vals.filterMap (·.sband)
  { m with
    cmap := [], fmap := [], mroot := [], mlru := [], mdirty := [], mapWait := [], rank := [], stripes := [], pbufs := 0, asmq := [], pbufExhausted := false, sjPending := [], sjPartner := []
    ring := [], slcBypass := false, commits := 0, halvings := 0, shareChecks := 0, gear0Bytes := 0, allBytes := 0, reads := [], truns := [], rekey := none, moving := []
    rebuildOver := false, tagScan := false, ageUnknown := 0, jout := [], ckItem := 0
    tentries := m.ckTruing.map fun e => (e.1, truingOf e.2)
    rebuilds := m.rebuilds.mapVal fun _ r => coldRebuild r
    sbands := m.sbands.filter fun e => !partial_.contains e.1
    blks := m.blks.mapVal fun _ b => if b.st = 4 ∨ (b.st = 1 ∧ partial_.contains b.sband) then { b with st := 2, refreshed := false } else { b with refreshed := false }
    left := if restored then { heads := m.ring.filter headRec, stages := stages, stripes := m.stripes } else m.left }

/-- The state that a restart leaves before its ladder runs: everything on flash, in the fuses and in the always-on domain,
and the levels on the input pins; all else is as after reset. The port modes, the settings of the sub-MACs and of PFC and the CKT
port are kept, and the counters of the rim start at 0 at every restart (DESIGN CHOICE, log entry 41). -/
def coldBlk (s : Blk) : Blk :=
  let restored := decide (s.boot.step = 0 ∨ 12 ≤ s.boot.step)
  { now := s.now, drawn := s.drawn, out := s.out
    evt := { ceiling := s.evt.ceiling, log := s.evt.log, eraseBase := s.evt.eraseBase, overwrite := s.evt.overwrite
             keepSev := s.evt.keepSev, minSev := s.evt.minSev, reserveInUse := s.evt.reserveInUse }
    rim := { mode := s.rim.mode, cfg := s.rim.cfg, pfcCfg := s.rim.pfcCfg, cktPort := s.rim.cktPort }
    cmd := { uploads := s.cmd.uploads }
    nss := s.nss.mapVal fun _ x => coldNs s.now x
    tenants := s.tenants.mapVal fun _ x => { x with bucket := bucketFullAt s.now x.bucket }
    cip := { flashPages := s.cip.flashPages, ctrRecs := if s.pwr.image = some true then s.cip.ctrRecs else [] }
    spokes := s.spokes.mapVal fun _ x => coldSpoke x
    med := coldMed restored s.idx.stages s.med
    tdm := { secret := s.tdm.secret, takeMap := s.tdm.takeMap }
    time := { s.time with opTime := 0, opTicks := 0, powerCycles := 0 }
    loops := { policy := s.loops.policy }
    pwr := { image := s.pwr.image, imageRing := s.pwr.imageRing, imageStripes := s.pwr.imageStripes, imageEvents := s.pwr.imageEvents
             imageOpTime := s.pwr.imageOpTime, dumpUsed := s.pwr.dumpUsed, coldStart := s.pwr.coldStart }
    boot := { rec0 := s.boot.rec0, rec1 := s.boot.rec1, slot0 := s.boot.slot0, slot1 := s.boot.slot1, optLog := s.boot.optLog
              bootLog := s.boot.bootLog, early := s.boot.early, secret := s.boot.secret, serial := s.boot.serial
              vendorHash := s.boot.vendorHash, ownerHash := s.boot.ownerHash, secFuse := s.boot.secFuse }
    pin := { porN := s.pin.porN, pfailN := s.pin.pfailN, peerAliveIn := s.pin.peerAliveIn
             prsntN := s.pin.prsntN, alertN := s.pin.alertN, smbAddr := s.pin.smbAddr, trstN := s.pin.trstN, bypass := s.pin.bypass } }

/-! ### Replay of the map journal (R202-R204) -/

/-- Apply one record of the journal, without writing it again. A bucket page on flash stands for every slot change before
its PAGE_LOC record. -/
def applyRec (s : Blk) : JRec → Blk
  | .mapCoarse cu gear pga => putCoarse s cu gear pga
  | .mapSplit lga gear pga table => putFine s lga gear pga table
  | .unmap lga n => dropRun s lga n
  | .pageLoc b pga => modDir s b fun d => { d with pageLoc := pga, slots := [], cached := false, dirty := false }
  | .mapRoot page pga => { s with med := { s.med with mroot := s.med.mroot.set page pga } }
  | .slotSet b i sl home => applySlot (pageLoad s b) b i sl home
  | .slotClear b i => clearSlot (pageLoad s b) b i
  | .band _ _ => s
  | .lostUnit _ _ => s
  | .rebuilt _ _ => s

/-- The image of the pannier is good (R358). -/
def imageGood (s : Blk) : Bool := s.pwr.image == some true

/-! ### The tag scan (R204-R206) -/

/-- The runs of a value. -/
def slotRuns (s : Blk) (sl : BSlot) : List (Nat × Nat) := s.med.runs.getD (locHead sl.loc) [(locHead sl.loc, 1 + locGrains sl.loc)]

/-- The runs that are live: those of the values, of the writes found on the medium, and of the open uploads, each with its
namespace. -/
def liveRuns (s : Blk) : List (Nat × Nat × Nat) :=
  ((slotsFrom s 0).flatMap fun e => (slotRuns s e.2).map fun r => (e.2.ns, r))
  ++ ((s.med.left.stages.vals.filter fun x => x.kind ≠ 2 ∧ x.kind ≠ 4).flatMap fun x => (s.med.runs.getD x.lga [(x.lga, runLength x)]).map fun r => (x.ns, r))
  ++ s.cmd.uploads.vals.map fun u => (u.ns, u.dataLga, (u.total + 4095) / 4096)

/-- Write sequence of a copy; one that is not there is older than all. -/
def wseqAt (s : Blk) (pga : Nat) : Nat := ((s.med.tags.get? pga).map (·.wseq)).getD 0

/-- A copy found by the scan stands in place of the one named: that one is not there, and the run is live, or it is older. -/
def scanWins (s : Blk) (live : List (Nat × Nat × Nat)) (pga : Nat) (t : GTag) : Bool :=
  match placeNow s t.kind t.lga with
  | some p => decide (p ≠ pga) && decide (wseqAt s p < t.wseq)
  | none => t.kind == 5 || live.any fun r => decide (r.2.1 ≤ t.lga ∧ t.lga < r.2.1 + r.2.2)

/-- The copies that become stale, with event 0x800E for each. -/
def staleCopies (s : Blk) (n : Nat) : Blk := Nat.repeat (fun s => raise s 0x800E 3 domNone []) n s

/-- One codeword found by the scan (R206). A bucket page newer than the one named keeps what the journals say of its slots. -/
def scanGrain (live : List (Nat × Nat × Nat)) (s : Blk) (e : Nat × GTag) : Blk :=
  let t := e.2
  if t.kind = 0 ∨ 5 < t.kind ∨ scanWins s live e.1 t = false then s
  else
    let was := (placeNow s t.kind t.lga).getD 0
    let s := staleCopies s (if was = 0 then 0 else 1)
    if t.kind = 4 then journal (modDir s t.lga fun d => { d with pageLoc := e.1 }) (.pageLoc t.lga e.1)
    else if t.kind = 5 then journal { s with med := { s.med with mroot := s.med.mroot.set t.lga e.1 } } (.mapRoot t.lga e.1)
    else setFine s t.lga t.gear e.1

/-- The sixteen codewords of a stripe unit from its first one on. A whole coarse unit stays one (R182). -/
def scanUnit (live : List (Nat × Nat × Nat)) (s : Blk) (pga : Nat) : Blk :=
  let w := placeOf s pga
  let es := (List.range 16).filterMap fun i =>
    let p := blockPga s w.spoke w.die w.block (w.ppi + i / 4) (i % 4)
    (s.med.tags.get? p).map fun t => (p, t)
  let t := (es.headD (0, {})).2
  let whole := decide (es.length = 16) && decide (t.lga % 16 = 0) && decide (t.gear ≠ 0)
    && (es.zip (List.range 16)).all (fun e => decide (1 ≤ e.1.2.kind ∧ e.1.2.kind ≤ 3 ∧ e.1.2.lga = t.lga + e.2) && scanWins s live e.1.1 e.1.2)
    && (match s.med.cmap.get? (t.lga / 16) with | some (.split _) => false | _ => true)
  if whole then
    setCoarse (staleCopies s (es.filter fun e => (mapOf s e.2.lga).isSome).length) (t.lga / 16) t.gear pga
  else es.foldl (scanGrain live) s

/-- The tails of the blocks that the last flash journal write names as open, from their recorded write pointers, and as next, from
page 0, each up to its first erased page (R204, R205). -/
def tagScan (s : Blk) : Blk :=
  let live := liveRuns s
  let tail := fun (e : Nat × GTag) => s.med.wptrs.any fun p => decide (pgaBlk s e.1 = p.1 ∧ p.2 ≤ (placeOf s e.1).ppi)
  let units := ((s.med.tags.filter tail).map fun e =>
    let w := placeOf s e.1
    blockPga s w.spoke w.die w.block (w.ppi / 4 * 4) 0).eraseDups
  units.foldl (scanUnit live) s

/-- A head grain newer than its key's slot, whose extent is there, is applied again as an index delta (R206). -/
def scanHead (s : Blk) (r : JRec) : Blk :=
  match r with
  | .slotSet b i sl _ =>
    let old := (dirOf (pageLoad s b) b).slots.get? i
    if old.any fun x => decide (sl.version ≤ x.version) then s else journal (applyRec s r) r
  | _ => s

/-- Steps 1 to 4 of R204: the checkpoints, the flash journal, the pannier ring of a good image, and the tag scan of the tails;
without a good image, or after power was lost without PFAIL_N, the scan is the wide one (R205). -/
def replayAll (s : Blk) (wide : Bool) : Blk :=
  let s := { s with
    idx := { s.idx with dir := s.med.ckDir }
    med := { s.med with cmap := s.med.ckCmap, fmap := s.med.ckFmap, mroot := s.med.ckRoot } }
  let s := forEach s.med.fjournal applyRec s
  let good := imageGood s
  let s := if good then forEach s.pwr.imageRing applyRec s else s
  let s := if good = false ∨ wide then raise s 0x800A 5 domNone [] else s
  tagScan (if good then s else forEach s.med.left.heads scanHead s)

/-- Which LGAs are allocated, and to which namespace, follows from the live runs and the runs that are still to be unmapped. -/
def recountLgas (s : Blk) : Blk :=
  let s0 := { s with med := { s.med with lgaTaken := [], unitNs := [] } }
  let s1 := s.med.dead.foldl (fun t r => markRun t (s.med.unitNs.getD (r.1 / 16) 0) r.1 r.2) s0
  (liveRuns s).foldl (fun t r => markRun t r.1 r.2.1 r.2.2) s1

/-! ### Open stripes (R256-R258) -/

/-- The members of the open stripes whose program was issued and had not returned, in order: stripe and member. Two bits of
the step's mask tell what the scan finds of the i-th of them: 2i set, DAMAGED; else 2i+1 set, ERASED; else PRESENT. A member whose
program was never issued is ERASED. -/
def inDoubt (t : Tbl Stripe) : List (Nat × Nat) :=
  t.flatMap fun e => ((List.range (e.2.k + e.2.m)).filter fun n =>
    e.2.issued.getLsbD n && !e.2.programmed.getLsbD n && !e.2.lost.getLsbD n && !e.2.absent.getLsbD n).map fun n => (e.1, n)

/-- A DAMAGED member counts as lost, and its band is queued for relocation, with 0x700E. -/
def damaged (s : Blk) (e : Nat × Nat) : Blk :=
  match stripeOf s e.1 with
  | none => s
  | some x =>
    let s := setStripe s e.1 { x with lost := x.lost ||| (1#16 <<< e.2) }
    raise (noteLost s x.band x.unit e.2) 0x700E 4 domNone (pl [(4, x.band), (2, x.unit), (1, e.2)])

/-- A member ERASED: its program is to be issued again. -/
def erasedMember (s : Blk) (e : Nat × Nat) : Blk :=
  match stripeOf s e.1 with
  | none => s
  | some x => setStripe s e.1 { x with issued := x.issued &&& ~~~(1#16 <<< e.2) }

/-- A member PRESENT: its codewords lie on the medium, and the tag scan finds them as it finds every other one. -/
def presentMember (s : Blk) (e : Nat × Nat) : Blk :=
  match stripeOf s e.1 with
  | none => s
  | some x =>
    match memberSBand s x.band e.2 with
    | some (_, sb) =>
      let s := setStripe s e.1 { x with programmed := x.programmed ||| (1#16 <<< e.2) }
      if x.k ≤ e.2 then s
      else
        let gs := (x.grains.drop (16 * e.2)).take 16
        let s := scanUnit (liveRuns s) (noteTags s sb x e.2 gs) (unitPga s sb x.unit 0)
        gs.foldl (fun s g => match g.stage with
          | some r => modStage s r fun y => { y with placed := y.placed.set g.pos (e.1, true) }
          | none => s) s
    | none => s

/-- What the scan finds of a member in doubt. -/
def classMember (mask : BitVec 128) (s : Blk) (e : (Nat × Nat) × Nat) : Blk :=
  if mask.getLsbD (2 * e.2) then damaged s e.1
  else if mask.getLsbD (2 * e.2 + 1) then erasedMember s e.1
  else presentMember s e.1

/-- The spoke band of a member has its unit, as found; its die-XOR goes on. -/
def countUnit (s : Blk) (x : Stripe) (n : Nat) : Blk :=
  match memberSBand s x.band n with
  | some (id, sb) =>
    if x.lost.getLsbD n ∨ x.programmed.getLsbD n = false ∨ sb.okUnits.contains x.unit then s
    else
      let slot := x.unit / 16
      setSBand s id { sb with okUnits := sb.okUnits ++ [x.unit], acc := sb.acc.set slot (xorSpans (sb.acc.getD slot []) (memberSpans x n)) }
  | none => s

/-- An open stripe as recovery takes it up: it takes no more grains, and none of those it holds is mapped any more, for the
writes they belong to are decided (R206, R257). Its parity buffers are those of a good image. -/
def takeUp (s : Blk) (e : Nat × Stripe) : Blk :=
  match stripeOf s e.1 with
  | none => s
  | some x =>
    let gs := (x.grains ++ List.replicate (16 * x.k - x.grains.length) ({} : SGrain)).map fun (g : SGrain) => { g with stage := none, source := none }
    let s := forEach (List.range (x.k + x.m)) (fun s n => countUnit s x n) s
    setStripe { s with med := { s.med with pbufs := s.med.pbufs + x.m } } e.1
      { x with grains := gs, hasBuf := imageGood s, sealed := true, resolved := true }

/-- The stripe with its ERASED data members as they are programmed: as decoded where the missing data members are no more than
the parity there is, else as pad. -/
def recoveredGrains (x : Stripe) : List SGrain :=
  let here := fun n => x.programmed.getLsbD n && !x.lost.getLsbD n
  let missing := ((List.range x.k).filter fun n => !here n).length
  let parity := if x.hasBuf then x.m else ((List.range x.m).filter fun r => here (x.k + r)).length
  if missing ≤ parity then x.grains
  else (x.grains.zip (List.range x.grains.length)).map fun e =>
    if here (e.2 / 16) ∨ x.lost.getLsbD (e.2 / 16) then e.1 else {}

/-- R257: the stripe is resolved: what is ERASED is programmed, data members before parity members, a parity member that
disagrees with the data counts as lost, and the entry closes once they have returned. Where every copy of the entry is lost, R258
finds it, with 0x700A. -/
def resolveStripe (s : Blk) (e : Nat × Stripe) : Blk :=
  match stripeOf s e.1 with
  | none => s
  | some x =>
    let y := { x with grains := recoveredGrains x }
    let wrong := ((List.range x.m).map (x.k + ·)).filter fun n =>
      y.programmed.getLsbD n && !y.lost.getLsbD n && decide (memberSpans x n ≠ memberSpans y n)
    let s := setStripe s e.1 { y with lost := wrong.foldl (fun a n => a ||| (1#16 <<< n)) y.lost }
    let s := forEach wrong (fun s n => noteLost s x.band x.unit n) s
    let s := if imageGood s = false ∧ Tbl.has s.med.sjFlash e.1 = false then raise s 0x700A 5 domNone (pl [(4, x.band), (2, x.unit)]) else s
    let s := forEach (List.range (x.k + x.m)) (fun s n => programMember s e.1 n) (touchEntry s e.1)
    checkClosed s e.1

/-! ### Writes found on the medium (R206) -/

/-- Every grain and record of the write is there. -/
def wholeStage (x : Stage) : Bool := x.encrypted && decide (x.placed.length = runLength x) && x.placed.vals.all Prod.snd

/-- Every part that a commit record names is there: done before, or whole on the medium. -/
def partsWhole (left : Tbl Stage) (x : Stage) : Bool := x.parts.all fun p => (left.get? p.stage).all wholeStage

/-- A write whose index delta had not reached the pannier is re-applied when it is whole and newer than its key's slot; what
is not whole is discarded, and the key keeps its older value (R74, R206). -/
def applyLeft (left : Tbl Stage) (s : Blk) (e : Nat × Stage) : Blk :=
  let x := e.2
  let sl := slotOfStage x
  let s := if x.kind = 1 ∨ x.kind = 3 then pageLoad s x.bslot.1 else s
  let old := (dirOf s x.bslot.1).slots.get? x.bslot.2
  if x.kind = 2 then s
  else if x.kind = 4 then
    match s.cmd.uploads.get? x.upload with
    | none => s
    | some u =>
      let part := u.parts.find? fun p => p.stage = e.1
      let done := u.parts.map fun p => if p.stage = e.1 then { p with complete := true } else p
      let gone := u.parts.filter fun p => p.stage ≠ e.1
      let put := fun (ps : List Part) => { s with cmd := { s.cmd with uploads := s.cmd.uploads.set x.upload { u with parts := ps } } }
      if part.any (·.complete) then s else if wholeStage x then put done else unmapRun (put gone) x.lga x.count
  else if (x.kind = 1 ∨ x.kind = 3) ∧ old.any (fun o => decide (o.digest = sl.digest ∧ o.version = sl.version)) then s
  else if (x.kind = 1 ∨ x.kind = 3) ∧ wholeStage x ∧ partsWhole left x ∧ old.all (fun o => decide (o.version < sl.version)) then
    let s := match old with
      | some o => killExtent s o
      | none => s
    journal (applySlot s x.bslot.1 x.bslot.2 sl x.home) (.slotSet x.bslot.1 x.bslot.2 sl x.home)
  else unmapRun s x.lga (runLength x)

/-! ### Step 11 -/

/-- Keys and value bytes of the device and of each namespace, counted from the index and the open uploads (R94, R106). -/
def recount (s : Blk) : Blk :=
  let all := s.idx.dir.flatMap fun e => (slotsAt s e.1).vals
  let parts := s.cmd.uploads.vals.map fun u => (u.ns, uploadBytes u)
  { s with
    idx := { s.idx with keys := all.length }
    nss := s.nss.mapVal fun n x =>
      let mine := all.filter fun sl => sl.ns = n
      { x with
        keys := mine.length
        bytes := mine.foldl (fun a sl => a + sl.valueLen) 0 + (parts.filter fun p => p.1 = n).foldl (fun a p => a + p.2) 0 } }

/-- A key page comes back from its flash image: its counter is set to TOP, which the record in the pannier names when it is the
newer, and a new block is reserved (R140). -/
def restorePage (s : Blk) (n : Nat) (b : Bytes) : Blk :=
  let side := sideBit s
  let p := imagePage s n b
  let top := max (topOf p side) (recordTop s n side)
  let s := if pageSound s p then setPage s n (withTop (withCtr p side top) side top)
    else { s with cip := { s.cip with pages := s.cip.pages.set n p } }
  judgeCounter (reserveBlock s n side) n

/-- The keys that a start brings back: the key pages, and each namespace's SipHash key, unwrapped under the KEK (R97, R140). -/
def restoreKeys (s : Blk) : Blk :=
  let s := { s with nss := s.nss.mapVal fun _ x => { x with sipKey := (aesUnwrap s.cip.kek x.wrappedSip).getD [] } }
  forEach s.cip.flashPages (fun s e => restorePage s e.1 e.2) s

/-- R235: with no valid RTC the age of every block is unknown, and a patrol pass begins. -/
def restoreAges (s : Blk) : Blk :=
  if s.time.valid then s
  else
    let s := raise { s with med := { s.med with ageUnknown := s.med.closeOrder } } 0x8014 4 domNone []
    { s with spokes := s.spokes.mapVal fun _ x => { x with patrolDone := 0, patrolPos := 0 } }

/-- R234: the blocks found past their retention limit at start are refreshed; with no valid RTC none is known to be. -/
def refreshOld (s : Blk) : Blk :=
  if s.time.valid then forEach ((s.med.blks.keys).filter (pastRetention s)) refreshBlock s else s

/-- A spoke that holds members of stripe bands and is not there has FAILED (R260). -/
def missingSpoke (s : Blk) (n : Nat) : Blk :=
  if inService s n = false ∧ (spokeOf s n).failed.isNone ∧ s.med.sbands.vals.any (fun b => b.spoke = n ∧ b.ghost = 0) then spokeFailed s n else s

/-- Media restoration. `mask` tells what the scan finds of the members in doubt (`inDoubt`). -/
def restoreMedia (s : Blk) (mask : BitVec 128) : Blk :=
  let wide := (validRec s).altMask.testBit 10
  let left := s.med.left
  let s := replayAll s wide
  let sbs := if imageGood s then s.med.sbands else s.med.sbands.mapVal fun _ b => { b with acc := [] }
  let s := { s with idx := { s.idx with stages := left.stages }, med := { s.med with stripes := left.stripes, sbands := sbs } }
  let doubt := inDoubt left.stripes
  let s := forEach (doubt.zip (List.range doubt.length)) (classMember mask) s
  let found := s.idx.stages
  let s := forEach found (applyLeft found) { s with idx := { s.idx with stages := [], cam := [] } }
  let s := forEach left.stripes takeUp s
  let s := { s with spokes := s.spokes.mapVal fun n x => if Tbl.has s.med.rebuilds n && x.sstate == 1 then { x with sstate := 3 } else x }
  let s := forEach left.stripes resolveStripe (forEach (List.range 16) missingSpoke s)
  let s := { s with med := { s.med with dead := if imageGood s then s.med.dead else [] } }
  let s := reapDead s
  let s := recount (restoreAges (restoreKeys (recountLgas { s with med := { s.med with left := {} } })))
  let s := { s with time := { s.time with opTime := if imageGood s then max s.time.opTime s.pwr.imageOpTime else s.time.opTime } }
  let s := { s with
    med := { s.med with fjournal := s.med.fjournal ++ (if imageGood s then s.pwr.imageRing else []) ++ s.med.ring, ring := [], left := {} }
    pwr := { s.pwr with imageRing := [] } }
  refreshOld (judgeNs (forEach (servingSpokes s) judgeSpoke s))

end Sys2Proof.Machine
end

