-- ==== Sys2Proof/Machine/Boot.lean ====
section
/-! DEFINITION. Resets and starts: POR_N (R388, R407, R421, R422), the boot ladder with its alternates, its failures and
recovery mode (R362-R372), firmware activation (R375), and power failure (R356-R359, R376). -/

namespace Sys2Proof.Machine

/-! ### POR_N -/

/-- POR_N falls: everything but flash, fuses and the always-on domain is lost, and the outputs take the levels of R421. -/
def porFall (s : Blk) : Blk :=
  if s.pin.porN then let t := coldBlk s; { t with pin := { t.pin with porN := false } } else s

/-- POR_N_FALL: the memory behind the BAR is reset too. -/
def execPorNFall (s : State) : Host.Outcome State Fault Refusal :=
  .next { s with toBlk := porFall s.toBlk, mem := if s.pin.porN then [] else s.mem }

/-- In a pair, what this side mirrors for the partner is STALE from the start of its restart (R287). -/
def staleMirrors (s : Blk) : Blk :=
  if s.tdm.paired then
    { s with nss := s.nss.mapVal fun _ x => if x.mirrored ∧ x.ownerSide ≠ s.tdm.side then { x with stale := true } else x }
  else s

/-- In a pair bit 0 of the write sequence is the side (R274). -/
def pairWseq (s : Blk) : Blk :=
  if s.tdm.paired ∧ s.med.wseq % 2 ≠ s.tdm.side then { s with med := { s.med with wseq := s.med.wseq + 1 } } else s

/-- Step 1 of the ladder begins: the device is BOOTING, its clocks are those of AON, SAFE and, by its strap, DBG. -/
def beginLadder (s : Blk) : Blk :=
  { s with
    dev := .booting
    boot := { s.boot with step := 1 }
    pwr := { s.pwr with pstate := .run, clocks := 3#84 ||| (1#84 <<< domSafe) ||| (if s.safe.dbg then 1#84 <<< domDbg else 0) } }

/-- POR_N rises: the straps are sampled (R417, R422). TDM_SIDE is ignored in an unpaired device. -/
def porRise (paired side : Bool) (smbAddr : BitVec 2) (dbgEn : Bool) (s : Blk) : Blk :=
  if s.pin.porN then s
  else
    beginLadder (pairWseq (staleMirrors { s with
      pin := { s.pin with porN := true, smbAddr := smbAddr, scan := [], bypass := true }
      tdm := { s.tdm with paired := paired, side := if paired then boolNat side else 0 }
      safe := { s.safe with dbg := dbgEn } }))

def execPorNRise (paired side : Bool) (smbAddr : BitVec 2) (dbgEn : Bool) (s : State) : Host.Outcome State Fault Refusal :=
  lift (porRise paired side smbAddr dbgEn) s

/-- The device restarts itself with the rails kept: the straps stay as sampled (R367). -/
def restart (s : Blk) : Blk :=
  let t := coldBlk s
  beginLadder (staleMirrors { t with tdm := { t.tdm with paired := s.tdm.paired, side := s.tdm.side }, safe := s.safe })

/-! ### Images and slots (R362-R368, R371) -/

/-- What slot `i` of the firmware flash holds. -/
def slotBytes (s : Blk) (i : Nat) : Bytes :=
  let b := if i = 0 then s.boot.slot0 else s.boot.slot1
  if b.isEmpty then Config.factoryImage i else b

/-- Slot `i` verifies under R365. Of an image as manufactured the manual says nothing: whether it verifies is told by bit
`i` of the step's mask. -/
def slotVerifies (s : Blk) (mask : BitVec 128) (i : Nat) : Bool :=
  if (if i = 0 then s.boot.slot0 else s.boot.slot1).isEmpty then !mask.getLsbD i
  else decide (imageCheck (slotBytes s i) s.boot.vendorHash s.boot.ownerHash s.boot.secFuse = 0)

def slotHasFailed (r : BootRec) (i : Nat) : Bool := r.slotFailed.testBit i

/-- The slot that step 4 tries first: the pending one, unless it has failed a trial, else the active one; a failure of step 4,
5 or 7 takes the other slot, unless that one has failed a trial (R367, R368). -/
def firstSlot (r : BootRec) : Nat :=
  let i := if r.pendingSlot < 2 ∧ slotHasFailed r r.pendingSlot = false then r.pendingSlot else r.activeSlot % 2
  let alt := r.altMask.testBit 3 || r.altMask.testBit 4 || r.altMask.testBit 6
  if alt ∧ slotHasFailed r (1 - i) = false then 1 - i else i

/-- The slots tried, in order. -/
def slotsTried (r : BootRec) : List Nat :=
  let i := firstSlot r
  if slotHasFailed r (1 - i) then [i] else [i, 1 - i]

/-- The image is confirmed (R371), and its SEC_VERSION raises the fuse minimum (R366). -/
def confirmImage (s : Blk) : Blk :=
  let n := s.boot.running
  let s := writeRec s fun r => { r with activeSlot := n, pendingSlot := 0xFF }
  let s := raise { s with boot := { s.boot with trial := false } } 0xB02C 2 domHub (pl [(1, n)])
  let v := leAt (slotBytes s n) 40 4
  if s.boot.secFuse < v ∧ v ≤ 64 then raise { s with boot := { s.boot with secFuse := v } } 0xB027 3 domHub (pl [(1, v)]) else s

/-- The subsidiary processors of every unit are loaded from the running image and checked (R372). -/
def loadSubsidiaries (s : Blk) : Blk :=
  { s with
    boot := { s.boot with microcode := BitVec.allOnes 16, profiles := imageProfiles (slotBytes s s.boot.running) }
    spokes := (List.range 16).foldl (fun t n => t.upd n {} fun x => { x with mcuLoaded := true }) s.spokes }

/-! ### Failures and recovery (R367, R369, R370) -/

/-- Failure record and severity of a mandatory step; none where the step's own events are the record. -/
def stepRecord : Nat → Option (Nat × Nat)
  | 2 => some (0xB021, 5) | 3 => some (0xB022, 6) | 4 => some (0xB023, 5) | 5 => some (0xB024, 6) | 6 => some (0xB025, 6)
  | 7 => some (0xB026, 5) | 11 => some (0xB028, 6) | 12 => some (0xB029, 6) | 13 => some (0xB02A, 5) | _ => none

/-- A failure record goes to BOOT_LOG, and to the event log once the recorder runs. -/
def bootRecord (s : Blk) (code sev step info : Nat) : Blk :=
  let l := s.boot.bootLog ++ [(code, step)]
  { s with boot := { s.boot with
      bootLog := l.drop (l.length - 16384)
      early := s.boot.early ++ [{ code := code, sev := sev, src := domHub, payload := pl [(1, step), (1, info)] }] } }

/-- Recovery mode: the mailboxes and the PCIe endpoint are served, and no session opens. -/
def enterRecovery (s : Blk) : Blk :=
  let s := startClock (startClock s domHub) domPcie
  let s := bootRecord s 0xB02B 6 s.boot.step 0
  setDev { s with ring := { s.ring with pcieUp := true } } .recovery

/-- A mandatory step has failed: its records are written, a trial from step 4 on sets its slot's bit, and the device restarts,
or after three failures of the step enters recovery mode. -/
def bootFail (s : Blk) : Blk :=
  let n := s.boot.step
  let s := match stepRecord n with
    | some (c, sev) => bootRecord s c sev n s.boot.running
    | none => s
  let bad := if s.boot.trial ∧ 4 ≤ n then 2 ^ s.boot.running else 0
  let s := writeRec s fun r => let q := failRec n r; { q with slotFailed := q.slotFailed ||| bad }
  if 3 ≤ (validRec s).failCount ∧ 3 ≤ n then enterRecovery s else restart s

/-! ### The ladder (R367) -/

/-- Step `n` begins. -/
def toStep (s : Blk) (n : Nat) : Blk := { s with boot := { s.boot with step := n } }

/-- Step 2: the loader copies in their order; bit i of the mask says that copy i does not verify. -/
def loaderStep (s : Blk) (mask : BitVec 128) : Blk :=
  let first := boolNat ((validRec s).altMask.testBit 1)
  let note := fun (s : Blk) (i : Nat) => bootRecord s 0xB021 5 2 i
  let start := fun (s : Blk) (i : Nat) =>
    let s := { s with boot := { s.boot with loaderVersion := Config.loaderVersion i } }
    if 3 ≤ (validRec s).failCount then enterRecovery s else toStep s 3
  if mask.getLsbD first = false then start s first
  else if mask.getLsbD (1 - first) = false then start (note s first) (1 - first)
  else bootFail s

/-- The system key store (R133, R278), and the life counts (R298). -/
def keyStep (s : Blk) : Blk :=
  let k := fun t => hmac256 s.boot.secret (ascii t)
  let kek := k "KEK"
  let pairSecret := (aesUnwrap kek s.tdm.secret).getD []
  let cip := { s.cip with kek := kek, xts1 := k "XTS1", xts2 := k "XTS2", cmac := k "CMAC" }
  let cip := if s.tdm.secret.isEmpty then cip
    else { cip with pairKek := hmac256 pairSecret (ascii "PKEK"), pairMac := hmac256 pairSecret (ascii "PMAC") }
  let best := s.boot.optLog.foldl (fun (a b : Nat × Nat) => if a.1 ≤ b.1 then b else a) (0, 0)
  let cycles := if s.pwr.coldStart then min (best.2 + 1) 0xFFFFFFFF else best.2
  { s with
    cip := cip
    time := { s.time with opTime := best.1, powerCycles := cycles }
    pwr := { s.pwr with coldStart := false } }

/-- Step 4: the first slot of R368 that verifies; each that does not is 0xB023. -/
def slotStep (s : Blk) (mask : BitVec 128) : Blk :=
  let r := validRec s
  let tried := slotsTried r
  let bad := tried.takeWhile fun i => !slotVerifies s mask i
  match tried.find? (slotVerifies s mask) with
  | some i =>
    let s := forEach bad (fun s i => bootRecord s 0xB023 5 4 i) s
    toStep { s with boot := { s.boot with running := i, trial := decide (r.pendingSlot = i) } } 5
  | none => bootFail { s with boot := { s.boot with running := firstSlot r, trial := decide (r.pendingSlot = firstSlot r) } }

/-- Step 8: bit n of the mask says that pair n fails its known-answer test. -/
def pairStep (s : Blk) (mask : BitVec 128) : Blk :=
  let s := { s with cip := { s.cip with pairs := BitVec.allOnes 128 } }
  let s := forEach ((List.range 128).filter mask.getLsbD) (fun s n => retirePair s (n / 8) (n % 8)) s
  if ((List.range 16).filter fun c => !(pairsIn s c).isEmpty).length < 8 then bootFail s else toStep s 9

/-- A sled in its slot is powered, and its link trains (R168 steps 3 to 6). -/
def bootSled (s : Blk) (n : Nat) : Blk :=
  if s.pin.prsntN.getLsbD n ∨ (linkOf s (spokeLink n)).phase = .up then s
  else
    let s := { s with pin := { s.pin with pwren := s.pin.pwren ||| (1#16 <<< n) } }
    trainLink (startClock (startClock s (domSpkl n)) (domSpke n)) (spokeLink n) 1

/-- Step 9: bit b of the mask says that bank b fails its compare test. -/
def bankStep (s : Blk) (mask : BitVec 128) : Blk :=
  let bad := (List.range 8).filter mask.getLsbD
  let s := forEach bad bankOut s
  if 8 ≤ bad.length then bootFail s else forEach (List.range 16) bootSled (toStep s 10)

/-- Step 12 ends: the dump blocks are erased again (R357), and step 13 brings up the tandem link. -/
def dumpStep (s : Blk) : Blk :=
  let s := toStep { s with pwr := { s.pwr with dumpUsed := false, dumpDone := false } } 13
  if s.tdm.paired ∧ (linkOf s .tandem).phase = .down then trainLink (startClock s domTdm) .tandem 1 else s

/-- The recorder starts at its ceiling; the records of a good dump image come first, then what was recorded before it ran
(R367, R394, R398). A warm start has kept it running. -/
def startRecorder (s : Blk) : Blk :=
  let s := if s.boot.warm then s
    else
      let s := if imageGood s then forEach s.pwr.imageEvents logRec s else s
      let n := s.evt.ceiling
      { s with evt := raiseCeiling { s.evt with nextSeq := n, flushed := n } }
  let s := forEach s.boot.early (fun s e => raise s e.code e.sev e.src e.payload) s
  let s := if s.pwr.image.isSome then raise s 0xE006 3 domHub [] else s
  { s with boot := { s.boot with early := [] }, pwr := { s.pwr with image := none, imageEvents := [], imageStripes := [] } }

/-- Background work goes on, unless the device is in REST. -/
def bgResume (s : Blk) : Blk := { s with pwr := { s.pwr with bgStopped := decide (s.pwr.pstate = .rest) } }

/-- The ladder has ended: every domain runs, rim and PCIe are served, the boot record is cleared of failures, and a trial is
confirmed. -/
def reachRun (s : Blk) : Blk :=
  let s := { s with
    rim := { s.rim with up := true }
    ring := { s.ring with pcieUp := true }
    pwr := { s.pwr with clocks := (s.pwr.clocks ||| runDomains ||| (0xFFFF#84 <<< 50) ||| (0xFFFF#84 <<< 2)) ||| (1#84 <<< domHub) ||| (1#84 <<< domPcie) } }
  let s := startRecorder (bgResume s)
  let r := validRec s
  let s := if r.failStep = 0 ∧ r.failCount = 0 ∧ r.altMask = 0 then s
    else writeRec s fun r => { r with failStep := 0, failCount := 0, altMask := 0 }
  let s := if s.boot.trial then confirmImage s else s
  let s := setDev { s with boot := { s.boot with step := 0, warm := false } } .run
  dispatchHeld (judgeNs s)

/-- A ladder step completes, and the next one begins. What it finds of the parts it tests is told by `mask`. -/
def bootStep (mask : BitVec 128) (s : Blk) : Blk :=
  if s.pin.porN = false ∨ s.dev ≠ .booting then s
  else
    match s.boot.step with
    | 1 => toStep { s with pin := { s.pin with fault := false } } 2
    | 2 => loaderStep s mask
    | 3 => toStep (keyStep s) 4
    | 4 => slotStep s mask
    | 5 => toStep (startClock s domHub) 6
    | 6 => toStep (forEach [74, 75, 76, 77] startClock s) 7
    | 7 => toStep (loadSubsidiaries s) 8
    | 8 => pairStep s mask
    | 9 => bankStep s mask
    | 10 => toStep s 11
    | 11 => toStep (if s.boot.warm then s else restoreMedia s mask) 12
    | 12 => dumpStep s
    | _ => reachRun s

def execBootStepComplete (mask : BitVec 128) (s : State) : Host.Outcome State Fault Refusal := lift (bootStep mask) s

/-- A ladder step fails, or passes its limit: step 1 holds FAULT_N and is repeated, step 10 is not mandatory. -/
def bootTimeout (s : Blk) : Blk :=
  if s.pin.porN = false ∨ s.dev ≠ .booting then s
  else
    match s.boot.step with
    | 1 => { s with pin := { s.pin with fault := true } }
    | 10 => toStep s 11
    | _ => bootFail s

def execBootStepTimeout (s : State) : Host.Outcome State Fault Refusal := lift bootTimeout s

/-! ### Activation (R90, R375) -/

/-- Every ACTIVE and COMMITTING command has drained. -/
def commandsDrained (s : Blk) : Bool :=
  s.xpt.sessions.vals.all fun ss => ss.tags.vals.all fun t => t.st != .active && t.st != .committing

/-- The activation ends without the new image: RUN on the old one. -/
def abandonActivation (s : Blk) (src : Source) : Blk :=
  let s := setDev (bgResume { s with boot := { s.boot with activation := none } }) .run
  dispatchHeld (answerLater s src stBusyRetry 0 [])

/-- The warm start after a failure of step 3 or 4: the slot's bit is set, and the ladder runs from step 2 on the active slot.
Sessions stay; those with held commands answer them at their next frame (R90). -/
def warmStart (s : Blk) (src : Source) : Blk :=
  let s := answerLater s src stResetAborted 0 []
  let s := writeRec s fun r => { r with slotFailed := r.slotFailed ||| (if r.pendingSlot < 2 then 2 ^ r.pendingSlot else 0) }
  let s := raise s 0xB02E 5 domHub []
  let s := { s with
    boot := { s.boot with activation := none, warm := true, step := 2 }
    rim := { s.rim with up := false }
    ring := { s.ring with pcieUp := false }
    xpt := { s.xpt with sessions := s.xpt.sessions.mapVal fun _ ss =>
      if ss.tags.vals.any (fun t => t.st == .queued) then { ss with owesReset := true } else ss } }
  setDev (stopClock s domPcie) .booting

/-- A step of the activation timeline ends. By the end of step 2 background work has stopped; a pair that the known-answer test of
step 4 has passed is in service again (R130). A pending image whose hash no longer matches at step 1 ends the activation as a
drain that is not complete does (log entry 30). -/
def activationStep (ok : Bool) (s : Blk) : Blk :=
  match s.boot.activation with
  | none => s
  | some (n, src) =>
    let next := { s with boot := { s.boot with activation := some (n + 1, src) } }
    if ok = false then (if n = 3 ∨ n = 4 then warmStart s src else abandonActivation s src)
    else
      match n with
      | 1 => { next with pwr := { next.pwr with bgStopped := true } }
      | 2 => if commandsDrained s ∧ s.med.moving.isEmpty then next else s
      | 3 => let p := (validRec s).pendingSlot
             { next with boot := { next.boot with running := if p < 2 then p else s.boot.running } }
      | 4 => { loadSubsidiaries next with cip := { s.cip with pairs := BitVec.allOnes 128 } }
      | _ =>
        let s := confirmImage (bgResume { s with boot := { s.boot with activation := none, staged := false } })
        dispatchHeld (answerLater (setDev s .run) src stOk 0 [])

def execActivationStepComplete (ok : Bool) (s : State) : Host.Outcome State Fault Refusal := lift (activationStep ok) s

/-- The drain is not complete at step 2: the activation is abandoned. -/
def drainExpired (s : Blk) : Blk :=
  match s.boot.activation with
  | some (n, src) => if n ≤ 2 then abandonActivation s src else s
  | none => s

def execActivationDrainTimeout (s : State) : Host.Outcome State Fault Refusal := lift drainExpired s

/-! ### Power failure (R356-R359, R376) -/

/-- A fall of PFAIL_N makes a dump: not in FREEWHEEL or OFF, not before step 12 has erased the dump blocks, and not while they
hold an image. -/
def dumpsOnFail (s : Blk) : Bool :=
  let asleep := s.pwr.pstate == .freewheel && !(s.pwr.waking && !s.med.ring.isEmpty)
  s.pin.porN && !asleep && decide (s.dev ≠ .recovery ∧ s.dev ≠ .kickstand) && !(decide (s.dev = .booting) && decide (s.boot.step < 13))
    && s.pwr.dump.isNone && !s.pwr.dumpUsed

/-- Step 2 to 5: admission, the rim, PCIe and the pair stop; a sleep attempt is abandoned with its job. -/
def stopForPower (s : Blk) : Blk :=
  let jobs := jobsWhere s fun k => match k with | .powerEnter _ _ _ => true | _ => false
  let s := { s with
    rim := { s.rim with up := false }
    ring := { s.ring with pcieUp := false }
    pin := { s.pin with peerAliveOut := false }
    pwr := { s.pwr with prepare := none, backoff := [] }
    hub := { s.hub with jobs := s.hub.jobs.filter fun e => !jobs.contains e.1 } }
  let s := stopClock (stopClock s domPcie) domTdm
  if s.tdm.paired then setLink { s with tdm := { s.tdm with joined := false } } .tandem { cnt := (linkOf s .tandem).cnt } else s

def pfailFall (s : Blk) : Blk :=
  let go := dumpsOnFail s
  let s := { s with pin := { s.pin with pfailN := false } }
  if go then startDump (stopForPower (raise s 0xE005 5 1 [])) true else s

def execPfailNFall (s : State) : Host.Outcome State Fault Refusal := lift pfailFall s

/-- PFAIL_N rises. During a power-fail dump the dump completes first. -/
def pfailRise (s : Blk) : Blk :=
  let s := { s with pin := { s.pin with pfailN := true } }
  if s.pwr.dump = some true ∧ s.pwr.dumpDone = false then { s with pwr := { s.pwr with pfailRose := true } } else s

def execPfailNRise (s : State) : Host.Outcome State Fault Refusal := lift pfailRise s

/-- The dump is complete: the image is good unless the pannier has failed (R382); pad hold follows a power failure. Where
PFAIL_N has risen meanwhile the device starts as after POR_N (R359), and where a cause has arisen it holds (R387). -/
def dumpComplete (s : Blk) : Blk :=
  match s.pwr.dump with
  | none => s
  | some power =>
    if s.pwr.dumpDone then s
    else
      let s := { s with pwr := { s.pwr with dumpDone := true, image := some (!s.safe.ksAll.getLsbD 7) } }
      if power = false then s
      else if s.pwr.pfailRose ∧ s.dev ≠ .kickstand then
        let t := restart s
        { t with safe := { dbg := s.safe.dbg } }
      else holdPads s

def execDumpComplete (s : State) : Host.Outcome State Fault Refusal := lift dumpComplete s

end Sys2Proof.Machine
end

