-- ==== Sys2Proof/Machine/Monitor.lean ====
section
/-! DEFINITION. Monitors and memory errors: lockstep, clocks, supplies, temperature, fault injection and the HBM scrub
(R296, R380-R383, R385, R418). -/

namespace Sys2Proof.Machine

/-- The monitors act: POR_N is high, and step 1 of the ladder, which starts them, is over (R367). -/
def monitorsOn (s : Blk) : Bool := s.pin.porN && !(decide (s.dev = .booting) && decide (s.boot.step = 1))

/-- A cause of R385 with its event. -/
def kickCause (s : Blk) (event src : Nat) (payload : Bytes) (code wher : Nat) (clockDead : Bool) : Blk :=
  enterKickstand (raise s event 7 src payload) code wher clockDead

/-- Cause 0x01: a hub pair diverges; only a hub whose clock runs compares. -/
def lockstepFn (s : Blk) : Blk :=
  if monitorsOn s ∧ clockOn s domHub then kickCause s 0xE081 domHub [] 1 0 false else s

def execLockstepDivergence (s : State) : Host.Outcome State Fault Refusal := lift lockstepFn s

/-- R381: what a clock monitor flags. A gated domain has no clock to fail; the loss of AON_RTC needs no monitor that POR_N
stops. -/
def clockFaultFn (d : Nat) (s : Blk) : Blk :=
  if d = 0 then raise (rtcLost s) 0xE088 4 0 [0#8]
  else if monitorsOn s = false ∨ clockOn s d = false then s
  else if d = domDbg then raise (stopClock { s with safe := { s.safe with dbg := false } } domDbg) 0xE088 4 domDbg [1#8]
  else if d = domSafe then kickCause s 0xE087 domSafe [] 9 0 false
  else kickCause s 0xE082 d (pl [(1, d)]) 4 d (decide (d = 1))

def execClockFault (d : Fin 84) (s : State) : Host.Outcome State Fault Refusal := lift (clockFaultFn d.val) s

/-- R381, R418: a rail leaves its window. VDD_AON takes RTC_VALID with it (R296). With POR_N low, or after a completed
power-fail dump, there is no cause; VDD_CORE is then removed, and the next start counts (R298). -/
def supplyFaultFn (rail : Nat) (s : Blk) : Blk :=
  let s := if rail = 2 then rtcLost s else s
  if s.pin.porN = false ∨ (s.pwr.dump = some true ∧ s.pwr.dumpDone) then
    if rail = 0 then { s with pwr := { s.pwr with coldStart := true } } else s
  else if monitorsOn s then kickCause s 0xE083 1 (pl [(1, rail)]) 5 rail false
  else s

def execSupplyFault (rail : Fin 9) (s : State) : Host.Outcome State Fault Refusal := lift (supplyFaultFn rail.val) s

/-- R381: the junction is over 100 °C. -/
def junctionFn (tj : BitVec 16) (s : Blk) : Blk :=
  if monitorsOn s ∧ 1600 < tj.toInt then
    kickCause { s with loops := { s.loops with tj := tj } } 0xE084 1 (pl [(2, tj.toNat)]) 6 0 false
  else s

def execJunctionOverLimit (tj : BitVec 16) (s : State) : Host.Outcome State Fault Refusal := lift (junctionFn tj) s

/-! ### Memory errors (R382) -/

/-- Structure code and number named by 0xA001 and 0xA002 (log entry 9). -/
def memStructName : MemStruct → Nat × Nat
  | .cleanPage => (0, 0) | .dirtyBucket b => (1, b) | .dirtyMap p => (2, p) | .staging k => (3, k) | .session n => (4, n)
  | .onDieCache => (5, 0) | .hubMemory => (6, 0) | .pannier => (7, 0)

def namePayload (w : MemStruct) : Bytes := pl [(1, (memStructName w).1), (4, (memStructName w).2)]

/-- A correctable error: corrected, written back and counted. -/
def correctableFn (w : MemStruct) (s : Blk) : Blk :=
  raise { s with safe := { s.safe with corrected := s.safe.corrected + 1 } } 0xA001 1 domNone (namePayload w)

def execMemoryCorrectableError (w : MemStruct) (s : State) : Host.Outcome State Fault Refusal := lift (correctableFn w) s

/-- The write has reached its medium point: every grain and record has returned STATUS OK, or its completion has been sent;
a DELETE when its record is in the pannier ring. -/
def pastMedium (x : Stage) : Bool := x.complete || (decide (x.kind ≠ 2) && wholeStage x)

/-- The staging record of a write is lost: before its medium point the write is withdrawn, past it only the record goes. -/
def stagingLost (s : Blk) (slot : Nat) : Blk :=
  match s.idx.stages.find? fun e => e.2.slot = slot ∧ e.2.retired = false ∧ e.2.mirror = false with
  | none => s
  | some e => if pastMedium e.2 then modStage s e.1 fun y => { y with grains := [], medium := true } else faultSlot s slot

/-- R382 by structure. What is fetched again or rebuilt from its journal has no other effect. -/
def uncorrectableFn (w : MemStruct) (s : Blk) : Blk :=
  let s := raise s 0xA002 5 domNone (namePayload w)
  match w with
  | .cleanPage => s
  | .dirtyBucket _ => s
  | .dirtyMap _ => s
  | .staging slot => stagingLost s slot
  | .session sn => if (sessOf s sn).isSome then evict s sn else s
  | .onDieCache => s
  | .hubMemory => kickCause s 0xE081 domHub [] 1 0 false
  | .pannier => kickCause s 0xA004 domNone [] 7 0 false

def execMemoryUncorrectableError (w : MemStruct) (s : State) : Host.Outcome State Fault Refusal := lift (uncorrectableFn w) s

/-! ### Tests for latent faults (R383, R413) -/

/-- One round of fault injection into the lockstep comparators and the monitors. -/
def injectionFn (flagged : Bool) (s : Blk) : Blk :=
  if monitorsOn s = false then s
  else if flagged then { s with safe := { s.safe with injectPass := s.safe.injectPass + 1 } }
  else kickCause s 0xE087 domSafe [] 9 0 false

def execFaultInjection (flagged : Bool) (s : State) : Host.Outcome State Fault Refusal := lift (injectionFn flagged) s

/-- A full scrub pass of the HBM ends. -/
def scrubFn (s : Blk) : Blk :=
  if s.pin.porN then raise { s with safe := { s.safe with scrubAge := some 0 } } 0xA003 1 domNone [] else s

def execHbmScrubPass (s : State) : Host.Outcome State Fault Refusal := lift scrubFn s

end Sys2Proof.Machine
end

