-- ==== Sys2Proof/Machine/Rings.lean ====
section
/-! DEFINITION. The local path (R320-R342): enabling and disabling rings, polling, the classes of entries, admission by
weighted round robin, the crank reads of a ring command, RING_ABORT, completions and their vectors, and the two resets of
the PCIe function (R309, R337, R407). -/

namespace Sys2Proof.Machine

def sqOf (s : Blk) (q : Nat) : Sq := s.ring.sqs.getD q {}
def setSq (s : Blk) (q : Nat) (x : Sq) : Blk := { s with ring := { s.ring with sqs := s.ring.sqs.set q x } }
def cqOf (s : Blk) (q : Nat) : Cq := s.ring.cqs.getD q {}
def setCq (s : Blk) (q : Nat) (x : Cq) : Blk := { s with ring := { s.ring with cqs := s.ring.cqs.set q x } }

/-- Slot of entry `n` of a ring of 2^size entries (R322). -/
def slotOfEntry (size n : Nat) : Nat := n % 2 ^ size

/-- A completion without a command slot (R324, R325, R337). -/
def bareCpl (q slot : Nat) (e : Bytes) (cid status detail : Nat) : Cpl :=
  { cid := cid, sq := q, opcode := leAt e 0 1, entryIx := slot, trailer := (status, 0, 0, detail, 0) }

/-- 0xB013: a host memory transfer or a flushing read has failed (R342). -/
def hostFault (s : Blk) (sq code : Nat) : Blk := raise s 0xB013 4 domHub (pl [(1, sq), (1, code)])

/-! ### Enabling and disabling (R337) -/

/-- The settings that R337 checks, but for the session. -/
def sqGood (s : Blk) (x : Sq) : Bool :=
  decide (x.base.toNat % 4096 = 0) && decide (4 ≤ x.size ∧ x.size ≤ 12) && decide (1 ≤ x.weight)
    && decide (1 ≤ x.burst ∧ x.burst ≤ 64) && decide (x.channel ≤ 30) && (cqOf s x.cq).enable
    && (s.cip.pages.get? x.tenant).any (fun p => decide (p.state = 1))

/-- The session of a ring (R321). -/
def ringSession (s : Blk) (q tenant : Nat) : Session := { tenant := tenant, ring := some q, lastAt := s.now }

def sqRefuse (s : Blk) (q : Nat) : Blk :=
  raise (setSq s q { sqOf s q with cfgErr := true }) 0xB012 3 domHub (pl [(1, q)])

/-- Setting ENABLE: the settings are checked, and the ring is bound to a session of its tenant. It needs a free context: a
session is evicted only for an OPEN_REQ (R60). A ring whose last disable has not drained still holds its session, and in BOOTING
and RECOVERY no session is open (R92): the enable is refused (DESIGN CHOICE, log entry 31). -/
def sqEnableFn (q : Nat) (s : Blk) : Blk :=
  let x := sqOf s q
  if x.enable then s
  else if x.running ∨ sqGood s x = false ∨ s.dev = .booting ∨ s.dev = .recovery then sqRefuse s q
  else
    match if inUse s < (ownRange s).2 then takeNumber s else none with
    | none => sqRefuse s q
    | some (sn, s) =>
      let s := { s with xpt := { s.xpt with sessions := s.xpt.sessions.set sn (ringSession s q x.tenant) } }
      setSq s q { x with enable := true, running := true, session := sn, s := 0, torn := 0, ended := false, reading := none
                         localq := [] }

def execSqEnable (q : Fin 256) (s : State) : Host.Outcome State Fault Refusal := lift (sqEnableFn q.val) s

/-- A completion of the ring still waits to be posted. -/
def owesCpl (s : Blk) (q : Nat) : Bool := s.ring.cqs.vals.any fun c => c.wait.any fun x => decide (x.sq = q)

/-- RUNNING clears, and the session is freed, once every completion of a disabled ring has been posted. -/
def sqDrained (s : Blk) (q : Nat) : Blk :=
  let x := sqOf s q
  let idle := (sessOf s x.session).all fun ss => ss.tags.vals.all fun t => decide (t.st = .idle)
  if x.running ∧ x.enable = false ∧ x.localq.isEmpty ∧ idle ∧ owesCpl s q = false then
    setSq (freeSession s x.session) q { x with running := false }
  else s

/-- What a disable and a device reset do to the commands of a ring: local-queue entries complete with RESET_ABORTED,
admitted commands end as R88 states, and COMMITTING writes go on to post their own completions. -/
def ringReset (s : Blk) (q : Nat) : Blk :=
  let x := sqOf s q
  let s := forEach x.localq (fun s e => queueCpl s q (bareCpl q e.1 e.2 (leAt e.2 2 2) stResetAborted 0)) s
  let s := setSq s q { x with localq := [], reading := none }
  forEach (List.range 32) (fun s t =>
    match (sessOf s x.session).map fun ss => (tagOf ss t).st with
    | some .queued => stopTag s x.session t stResetAborted
    | some .active => stopTag s x.session t stResetAborted
    | _ => s) s

def sqDisableFn (q : Nat) (s : Blk) : Blk :=
  if (sqOf s q).enable then sqDrained (ringReset (setSq s q { sqOf s q with enable := false }) q) q else s

def execSqDisable (q : Fin 256) (s : State) : Host.Outcome State Fault Refusal := lift (sqDisableFn q.val) s

/-- R89, R337: a device reset acts in the same way on every ring, without clearing ENABLE. -/
def resetRings (s : Blk) : Blk :=
  forEach ((s.ring.sqs.filter fun e => e.2.running).map Prod.fst) (fun s q =>
    sqDrained (modSess (ringReset s q) (sqOf s q).session fun ss => { ss with owesReset := false }) q) s

/-- A write of CQ_CTRL. One that clears ENABLE while a running SQ names the ring is ignored; SIZE is written only while the
ring is disabled; entry 0 of a newly enabled ring lies in slot 0 (R322, R336, R337). -/
def cqEnableWriteFn (q : Nat) (v : BitVec 32) (s : Blk) : Blk :=
  let x := cqOf s q
  let on := v.getLsbD 31
  if x.enable ∧ on = false ∧ s.ring.sqs.vals.any (fun y => y.running && decide (y.cq = q)) then s
  else
    let n := v.toNat
    let y := { x with
      enable := on, irqEn := v.getLsbD 30, size := if x.enable then x.size else bitsOf n 24 4
      irqCount := bitsOf n 16 8, irqDelay := bitsOf n 0 10 }
    setCq s q (if on ∧ x.enable = false then { y with tail := 0, posted := 0, unsignalled := 0 } else y)

def execCqEnableWrite (q : Fin 256) (value : BitVec 32) (s : State) : Host.Outcome State Fault Refusal :=
  lift (cqEnableWriteFn q.val value) s

/-- R332, R336: the slot the host will read next. -/
def cqHeadWriteFn (q : Nat) (v : BitVec 32) (s : Blk) : Blk := setCq s q { cqOf s q with head := v.toNat % 4096 }

def execCqHeadWrite (q : Fin 256) (value : BitVec 32) (s : State) : Host.Outcome State Fault Refusal :=
  lift (cqHeadWriteFn q.val value) s

/-! ### Polling and the classes of entries (R324, R333) -/

/-- One poll of an SQ. A tick that finds the previous read still outstanding is skipped and counted. -/
def pollSq (s : Blk) (q : Nat) (tick : Bool) : Blk :=
  let x := sqOf s q
  let room := 64 - x.localq.length
  if x.enable = false ∨ s.ring.pcieUp = false ∨ room = 0 then s
  else if x.reading.isSome then (if tick then setSq s q { x with pollLateCnt := x.pollLateCnt + 1 } else s)
  else
    let sl := slotOfEntry x.size x.s
    let n := if x.ended then 1 else min x.burst (min room (2 ^ x.size - sl))
    hostReads (setSq s q { x with reading := some n }) (x.base.toNat + 64 * sl) (64 * n)

def ringPollFn (g : Nat) (s : Blk) : Blk := forEach (List.range 16) (fun s i => pollSq s (16 * g + i) true) s

def execRingPollTick (g : Fin 16) (s : State) : Host.Outcome State Fault Refusal := lift (ringPollFn g.val) s

def execSqKick (q : Fin 256) (s : State) : Host.Outcome State Fault Refusal := lift (fun b => pollSq b q.val false) s

/-- The ninth bad read of an entry makes it malformed. -/
def malformedEntry (s : Blk) (q : Nat) (x : Sq) (e : Bytes) : Blk :=
  let sl := slotOfEntry x.size x.s
  let s := setSq s q { x with s := x.s + 1, torn := 0, ended := false, malformedCnt := x.malformedCnt + 1 }
  raise (queueCpl s q (bareCpl q sl e 0xFFFF stMalformed 0)) 0xB011 4 domHub (pl [(1, q), (2, sl)])

/-- The entries of one read in order, up to the first that is not accepted. -/
def classEntries (q : Nat) : List Bytes → Blk → Blk
  | [], s => setSq s q { sqOf s q with ended := false }
  | e :: es, s =>
    let x := sqOf s q
    if leAt e 62 2 ≠ ringPhase x.s then setSq s q { x with ended := true }
    else if entryCrcGood e then
      classEntries q es (idleExit (setSq s q { x with
        localq := x.localq ++ [(slotOfEntry x.size x.s, slice e 0 64)], s := x.s + 1, torn := 0 }))
    else if x.torn < 8 then setSq s q { x with torn := x.torn + 1, tornCnt := x.tornCnt + 1, ended := false }
    else malformedEntry s q x e

/-- A poll read returns. The first entries after a restart that ended held commands follow their RESET_ABORTED (R90). -/
def sqEntryReadFn (q : Nat) (es : List Bytes) (s : Blk) : Blk :=
  let x := sqOf s q
  match x.reading with
  | none => s
  | some n =>
    let owes := (sessOf s x.session).any (·.owesReset)
    let s := if owes then modSess (ringReset s q) x.session fun ss => { ss with owesReset := false } else s
    classEntries q (es.take n) (setSq s q { sqOf s q with reading := none })

def execSqEntryRead (q : Fin 256) (entries : List Bytes) (s : State) : Host.Outcome State Fault Refusal :=
  lift (sqEntryReadFn q.val entries) s

/-! ### Admission (R91, R325, R334) -/

/-- The reserved fields and values of an entry that R66 does not have. -/
def entryFormOk (e : Bytes) : Bool :=
  let ind := bitOf (leAt e 1 1) 1
  decide (leAt e 2 2 ≠ 0xFFFF) && (entryHead e).reservedZero
    && (if ind then decide (1 ≤ leAt e 10 2 ∧ leAt e 10 2 ≤ 256) && decide (leAt e 48 8 % 16 = 0) else decide (leAt e 10 2 = 0))

/-- The head that the checks of R66 see: the VALUE_LEN of a GET is the room in the buffer. -/
def checkedHead (op : Nat) (h : Head) : Head := if op = 0x01 then { h with valueLen := 0 } else h

/-- Causes 1 to 6 of R91 for an entry. -/
def entryCause (s : Blk) (tenant : Nat) (e : Bytes) : Nat × Nat :=
  let op := leAt e 0 1
  let d := devCause s.dev
  if d ≠ 0 then (d, if d = stStateConflict then s.dev.code else 0)
  else if isAdminOp op then (stNotPermitted, 0)
  else if isKvOp op ∧ entryFormOk e = false then (stBadRequest, 0)
  else admitCause s tenant false op (checkedHead op (entryHead e))

/-- Value bytes that a ring command reads from host memory. -/
def carriedIn (c : Cmd) : Nat := carriedBytes c.opcode c.head

/-- The command reads a fragment table. -/
def readsTable (c : Cmd) : Bool := decide (0 < c.fragCount) && (c.opcode == 0x01 || c.opcode == 0x03 || c.opcode == 0x11)

/-- The key, the table and the value of a ring command are in. -/
def fetchDone (c : Cmd) : Bool :=
  decide (c.key.length = c.head.keyLen) && (!readsTable c || c.frags.isSome) && decide (c.value.length = carriedIn c)

/-- The reads of the value, one for each contiguous range (R326). -/
def readValue (s : Blk) (slot q : Nat) (c : Cmd) : Blk :=
  forEach (hostRanges c 0 (carriedIn c)) (fun s r => crankRead s (ringChan s q) q slot r.1 r.2.2) s

/-- A command that has read everything is QUEUED whole: what FINAL is to a frame (R326). -/
def fetchNext (s : Blk) (slot : Nat) : Blk :=
  match cmdOf s slot with
  | some c =>
    if c.phase = .fetching ∧ fetchDone c then
      let s := setCmd s slot { c with phase := .queued }
      match sessOf s c.session with
      | some ss => tryDispatch (putTag s c.session c.tag { tagOf ss c.tag with gotFinal := true }) slot
      | none => s
    else s
  | none => s

/-- The crank's reads of a newly admitted command, in order: key, then table or value (R326, R338). -/
def beginFetch (s : Blk) (slot q : Nat) (c : Cmd) : Blk :=
  let s := if 0 < c.head.keyLen then crankRead s (ringChan s q) q slot c.keyAddr c.head.keyLen else s
  let s := if readsTable c then crankRead s (ringChan s q) q slot c.dataAddr (16 * c.fragCount) else readValue s slot q c
  fetchNext s slot

/-- Lowest free tag of a ring's session (R321). -/
def freeTag (ss : Session) : Option Nat := (List.range 32).find? fun t => decide ((tagOf ss t).st = .idle)

/-- An admitted entry becomes a command of the ring's session. -/
def admitEntry (s : Blk) (q sn t slot : Nat) (ss : Session) (e : Nat × Bytes) : Blk :=
  let op := leAt e.2 0 1
  let h := entryHead e.2
  let n := s.cmd.order
  let s := { s with cmd := { s.cmd with order := n + 1 } }
  let s := admitCharge s ss.tenant op (checkedHead op h)
  let ordered := bitOf (leAt e.2 1 1) 0
  let c : Cmd := { session := sn, tag := t, opcode := op, ordered := ordered, tenant := ss.tenant, head := h, order := n
                   phase := .fetching, cid := leAt e.2 2 2, entryIx := e.1, keyAddr := leAt e.2 40 8, dataAddr := leAt e.2 48 8
                   fragCount := leAt e.2 10 2, ring := some q }
  let x : TagCtx := { st := .queued, opcode := op, slot := some slot, ordered := ordered, order := n }
  let c := { c with rt := firstTag s slot c }
  beginFetch (putTag (setCmd s slot c) sn t x) slot q c

/-- One entry from the head of a local queue, with a free tag; the causes of R91 complete it at once. -/
def giveEntry (s : Blk) (q : Nat) : Option Blk :=
  let x := sqOf s q
  match x.localq, sessOf s x.session with
  | e :: rest, some ss =>
    match freeTag ss with
    | none => none
    | some t =>
      if leAt e.2 0 1 = 0x7F then none
      else
        let s := setSq s q { x with localq := rest }
        let cause := entryCause s ss.tenant e.2
        if cause.1 ≠ 0 then some (queueCpl s q (bareCpl q e.1 e.2 (leAt e.2 2 2) cause.1 cause.2))
        else
          match freeCmdSlot s with
          | none => some (queueCpl s q (bareCpl q e.1 e.2 (leAt e.2 2 2) stBusyRetry 0))
          | some slot => some (admitEntry s q x.session t slot ss e)
  | _, _ => none

def giveEntries (q : Nat) : Nat → Blk → Blk
  | 0, s => s
  | n + 1, s =>
    match giveEntry s q with
    | some s => giveEntries q n s
    | none => s

/-- One round: each SQ in ascending order gives up to WEIGHT entries. A power failure stops admission (R356), and during
ACTIVATING entries wait in their local queues (R90). -/
def ringAdmissionFn (s : Blk) : Blk :=
  if s.dev = .activating ∨ s.pwr.dump = some true then s
  else forEach s.ring.sqs.keys (fun s q => giveEntries q (sqOf s q).weight s) s

def execRingAdmission (s : State) : Host.Outcome State Fault Refusal := lift ringAdmissionFn s

/-- R328: a RING_ABORT at the head of its local queue. Its own completion follows the target's. -/
def ringAbortFn (q : Nat) (s : Blk) : Blk :=
  let x := sqOf s q
  match x.localq with
  | [] => s
  | e :: rest =>
    if leAt e.2 0 1 ≠ 0x7F ∨ s.pwr.dump = some true then s
    else
      let s := setSq s q { x with localq := rest }
      let own := fun (s : Blk) (st detail : Nat) => queueCpl s q (bareCpl q e.1 e.2 (leAt e.2 2 2) st detail)
      let d := devCause s.dev
      if d ≠ 0 then own s d (if d = stStateConflict then s.dev.code else 0)
      else if entryFormOk e.2 = false then own s stBadRequest 0
      else
        let mine := s.cmd.slots.vals.find? fun c =>
          decide (c.ring = some q ∧ c.cid = leAt e.2 12 2 ∧ c.phase ≠ .done)
        match mine with
        | some c => let r := abortTag s c.session c.tag; own r.2 r.1 0
        | none => own s stNotFound 0

def execRingAbort (q : Fin 256) (s : State) : Host.Outcome State Fault Refusal := lift (ringAbortFn q.val) s

/-! ### The crank's reads and the flushing read (R326, R327, R331) -/

/-- DETAIL of R327; 0 for data. -/
def readCode : HostRead → Nat
  | .data _ => 0 | .unsupportedRequest => 1 | .completerAbort => 2 | .timeout => 3 | .poisoned => 4

/-- The fragments of a table; none when an entry or the sum of LEN is not as R326 requires. -/
def fragsOf (b : Bytes) (valueLen : Nat) : Option (List (Nat × Nat)) :=
  let es := blocksOf 16 b
  let fs := es.map fun e => (leAt e 0 8, leAt e 8 4)
  if es.all (fun e => decide (leAt e 12 4 = 0 ∧ 1 ≤ leAt e 8 4 ∧ leAt e 8 4 ≤ 16777216))
      ∧ fs.foldl (fun a f => a + f.2) 0 = valueLen then some fs else none

/-- Bytes have arrived for a ring command: its key, then its table, then its value. -/
def fetched (s : Blk) (slot q : Nat) (c : Cmd) (b : Bytes) : Blk :=
  if c.key.length < c.head.keyLen then fetchNext (setCmd s slot { c with key := b }) slot
  else if readsTable c ∧ c.frags.isNone then
    match fragsOf b c.head.valueLen with
    | none => failCmd s slot stBadRequest 0 0
    | some fs =>
      let c := { c with frags := some fs }
      fetchNext (readValue (setCmd s slot c) slot q c) slot
  else fetchNext (setCmd s slot { c with value := c.value ++ b }) slot

/-- A read of a mailbox's bulk bytes ends (R308, R327). -/
def bulkRead (s : Blk) (n : Nat) (r : HostRead) : Blk :=
  match s.hub.exec.find? (fun e => e.2.reading && (match e.1 with | .mailbox m => m.val == n | .inBand _ => false)), readOf s 31 (mboxRef n) with
  | some (src, req), some t =>
    match r with
    | .data b =>
      if b.length ≠ t.count then s
      else
        let s := readEnded s 31 (mboxRef n) 0
        { s with hub := { s.hub with
            exec := s.hub.exec.map fun e => if e.1 = src then (src, { req with bulk := b, reading := false }) else e } }
    | _ => hubAnswer (hostFault (readEnded s 31 (mboxRef n) (readCode r)) 0xFF (readCode r)) src req stMalformed (readCode r) [] []
  | _, _ => s

/-- A crank read completes: `slot` is the device-side reference, a command slot or a mailbox. -/
def dmaReadFn (slot : Nat) (r : HostRead) (s : Blk) : Blk :=
  if 524288 ≤ slot then bulkRead s (slot - 524288) r
  else
    match cmdOf s slot with
    | none => s
    | some c =>
      match c.ring with
      | none => s
      | some q =>
        match readOf s (ringChan s q) slot with
        | none => s
        | some t =>
          let n := readCode r
          match r with
          | .data b => if b.length ≠ t.count ∨ c.phase ≠ .fetching then s else fetched (readEnded s (ringChan s q) slot 0) slot q c b
          | _ => failCmd (hostFault (readEnded s (ringChan s q) slot n) q n) slot stMalformed n 0

def execDmaReadDone (slot : Nat) (r : HostRead) (s : State) : Host.Outcome State Fault Refusal := lift (dmaReadFn slot r) s

/-- The flushing read has completed: the completion may be posted, or DONE rises. A failed one changes no status. -/
def flushingReadFn (slot : Nat) (ok : Bool) (s : Blk) : Blk :=
  if 524288 ≤ slot then
    let n := slot - 524288
    if (mboxOf s n).flushing then mboxDone (crankFlushed (if ok then s else hostFault s 0xFF 0) 31 slot) n else s
  else
    let mine := fun (x : Cpl) => decide (x.slot = some slot) && x.flushing
    match s.ring.cqs.vals.findSome? (fun c => c.wait.find? mine) with
    | none => s
    | some x =>
      let s := crankFlushed (if ok then s else hostFault s x.sq 0) (ringChan s x.sq) slot
      { s with ring := { s.ring with cqs := s.ring.cqs.mapVal fun _ c =>
          { c with wait := c.wait.map fun y => if mine y then { y with flushing := false } else y } } }

def execFlushingReadDone (slot : Nat) (ok : Bool) (s : State) : Host.Outcome State Fault Refusal := lift (flushingReadFn slot ok) s

/-! ### Completions (R330-R332) -/

/-- A CQ has room for one more entry (R332). -/
def cqRoom (x : Cq) : Bool := decide ((x.tail + 2 ^ x.size - x.head % 2 ^ x.size) % 2 ^ x.size < 2 ^ x.size - 1)

/-- A vector of a CQ is sent: nothing waits to be signalled. -/
def cqSignal (s : Blk) (q : Nat) : Blk := vector (setCq s q { cqOf s q with unsignalled := 0 }) (32 + q)

/-- The command of a posted completion is gone: its tag is free, and its slot unless a re-read still runs (R91, R146). -/
def releaseRing (s : Blk) (slot : Nat) : Blk :=
  match cmdOf s slot with
  | none => s
  | some c =>
    let s := putTag s c.session c.tag {}
    if owesReread c then s else freeSlot s slot

/-- Post the oldest waiting completion: one 64-byte write. -/
def completionPostFn (q : Nat) (s : Blk) : Blk :=
  let x := cqOf s q
  match x.wait with
  | [] => s
  | c :: rest =>
    if x.enable = false ∨ s.ring.pcieUp = false ∨ c.flushing ∨ cqRoom x = false then s
    else
      let sq := sqOf s c.sq
      let e := closeEntry (completionEntry c (slotOfEntry sq.size sq.s)) x.posted
      let s := emit s (.hostWrite (x.base.toNat + 64 * x.tail) e false)
      let s := setCq s q { x with wait := rest, tail := (x.tail + 1) % 2 ^ x.size, posted := x.posted + 1, unsignalled := x.unsignalled + 1 }
      let s := if x.irqEn ∧ max 1 x.irqCount ≤ x.unsignalled + 1 then cqSignal s q else s
      let s := match c.slot with
        | some k => releaseRing s k
        | none => s
      sqDrained s c.sq

def execCompletionPost (q : Fin 256) (s : State) : Host.Outcome State Fault Refusal := lift (completionPostFn q.val) s

/-- IRQ_DELAY has passed since the first entry not yet signalled. -/
def cqIrqDelayFn (q : Nat) (s : Blk) : Blk :=
  if (cqOf s q).irqEn ∧ 0 < (cqOf s q).unsignalled then cqSignal s q else s

def execCqIrqDelay (q : Fin 256) (s : State) : Host.Outcome State Fault Refusal := lift (cqIrqDelayFn q.val) s

/-! ### PERST_N and a function-level reset (R309, R337, R407) -/

/-- Every MB_CTRL is at its reset value; what the hub has taken runs on, and its response is discarded. -/
def resetMailboxes (s : Blk) : Blk :=
  let taken := fun (n : Nat) => (s.hub.exec ++ s.hub.later).any fun e => match e.1 with
    | .mailbox m => m.val == n
    | .inBand _ => false
  { s with hub := { s.hub with
      mbox := s.hub.mbox.mapVal fun n m => { resp := m.resp, discard := taken n }
      waiting := s.hub.waiting.filter isInBand } }

/-- The commands of a ring end as R88 states; a write past its commit point runs on, and its completion is discarded. -/
def dropRing (s : Blk) (q : Nat) : Blk :=
  let sn := (sqOf s q).session
  let s := forEach (s.ring.cqs.vals.flatMap fun c => c.wait.filterMap fun x => if x.sq = q then x.slot else none) freeSlot s
  let s := freeSession s sn
  { s with cmd := { s.cmd with slots := s.cmd.slots.mapVal fun _ c => if c.ring = some q then { c with ring := none } else c } }

/-- Every ring and channel register is at its reset value, but for those of class P. -/
def resetRingRegs (s : Blk) : Blk :=
  let s := forEach ((s.ring.sqs.filter fun e => e.2.running).map Prod.fst) dropRing s
  { s with ring := { s.ring with
      sqs := s.ring.sqs.mapVal fun _ x => { tornCnt := x.tornCnt, malformedCnt := x.malformedCnt, pollLateCnt := x.pollLateCnt }
      cqs := []
      chans := s.ring.chans.mapVal fun _ x => { bytesMoved := x.bytesMoved, transfers := x.transfers } } }

/-- The reset of the PCIe function: mailboxes, rings, channels, the plain registers and the MSI-X table. -/
def functionReset (s : State) : State :=
  let b := resetRingRegs (resetMailboxes s.toBlk)
  let b := { b with
    reg := { smbEvent := b.reg.smbEvent }
    msi := {}
    time := { b.time with setLow := 0 } }
  { s with toBlk := b, mem := s.mem.filter fun c => !(decide (0x40000 ≤ c.1) && decide (c.1 < 0x42000)) }

def execPerstN (s : State) : Host.Outcome State Fault Refusal := .next (functionReset s)
def execFunctionLevelReset (s : State) : Host.Outcome State Fault Refusal := .next (functionReset s)

end Sys2Proof.Machine
end

