-- ==== Sys2Proof/Machine/Admin.lean ====
section
/-! DEFINITION. Mailboxes and the executor's own rows (R306-R309, R311), jobs and what ends them (R313, R317, R318), and the
Iawatal commands for the device, namespaces and tenants (R314, R373-R377 for the commit job). -/

namespace Sys2Proof.Machine

/-! ### Mailboxes (R307, R308) -/

/-- GO while BUSY or DONE is 1 is ignored with 0xB001; a GO is the hub's next request in order of arrival (R311). -/
def mbGoFn (n : Fin 16) (s : Blk) : Blk :=
  let m := mboxOf s n.val
  if m.busy ∨ m.done then raise s 0xB001 3 domHub (pl [(1, n.val)])
  else if m.go then s
  else
    let s := idleExit (setMbox s n.val { m with go := true })
    { s with hub := { s.hub with waiting := s.hub.waiting ++ [.mailbox n] } }

def execMbGoWrite (n : Fin 16) (s : State) : Host.Outcome State Fault Refusal := lift (mbGoFn n) s

def mbDoneClearFn (n : Nat) (s : Blk) : Blk := setMbox s n { mboxOf s n with done := false }

def execMbDoneClear (n : Fin 16) (s : State) : Host.Outcome State Fault Refusal := lift (mbDoneClearFn n.val) s

/-- Address of a mailbox's REQUEST area in BAR 0 (R306). -/
def requestArea (n : Nat) : Nat := 0x10000 + n * 0x1000 + 0x40

/-- The hub takes the request at the head of its queue: GO clears, BUSY rises, and the request area is copied, in one
step (R308). A GO that software writes in the same cycle, `crossing`, reads 1 afterwards, and its request waits (R8). -/
def mailboxTakeFn (n : Fin 16) (crossing : Bool) (area : Bytes) (s : Blk) : Blk :=
  match s.hub.waiting with
  | src :: rest =>
    if src = .mailbox n ∧ s.hub.exec.length < 4 ∧ hubServes s ∧ ¬ s.hub.exec.any (fun e => e.1 = src) then
      let m := mboxOf s n.val
      let rest := if crossing then rest ++ [src] else rest
      let s := setMbox { s with hub := { s.hub with waiting := rest } } n.val { m with go := crossing, busy := true, progress := 0 }
      hubPull rest.length (hubTake s src (parseRequest area))
    else s
  | [] => s

def execMailboxTake (at_ : Fin 16 × Bool) (s : State) : Host.Outcome State Fault Refusal :=
  lift (mailboxTakeFn at_.1 at_.2 (memReadBytes s.mem (requestArea at_.1.val) 2016)) s

/-! ### The forms of commands -/

/-- No check of the command's own. -/
def noCheck (_ : Blk) (_ : Request) : Nat × Nat := (0, 0)

/-- The first of a list of checks that fails. -/
def checks (l : List (Bool × Nat × Nat)) : Nat × Nat := ((l.find? (·.1)).map (·.2)).getD (0, 0)

def par (r : Request) (off n : Nat) : Nat := leAt r.params off n

/-- A command's answer comes later. -/
def hubLater (s : Blk) (src : Source) (r : Request) : Blk := { s with hub := { s.hub with later := s.hub.later ++ [(src, r)] } }

/-! ### Device (0x80-0x85) -/

/-- IDENTIFY. -/
def identifyResult (s : Blk) : Bytes :=
  let map := (List.range 16).foldl (fun a n => if inService s n then a + 2 ^ n else a) 0
  slice (ascii "CLX-9416-A0") 0 16 ++ leBytes 4 s.boot.serial.toNat ++ [BitVec.ofNat 8 (if s.tdm.paired then s.tdm.side else 0xFF)]
    ++ [BitVec.ofNat 8 s.dev.code] ++ leBytes 2 map ++ [0#8, 0#8] ++ slice (slotBytes s s.boot.running) 24 16 ++ leBytes 8 s.idx.keys

def execIdentify (src : Source) (s : State) : Host.Outcome State Fault Refusal :=
  lift (adminRun 0x80 src noCheck fun s r => hubOk s src r (identifyResult s)) s

/-- JOB_STATUS: the result of an ended job is read once (R313). -/
def jobStatusFn (src : Source) (s : Blk) (r : Request) : Blk :=
  match s.hub.jobs.get? (par r 0 4) with
  | none => hubFail s src r stNotFound
  | some j =>
    let s := if j.jstate = 1 then s else { s with hub := { s.hub with jobs := s.hub.jobs.del (par r 0 4) } }
    hubOk s src r ([BitVec.ofNat 8 j.jstate, BitVec.ofNat 8
      (if j.jstate = 1 then progressNow s (16 + par r 0 4) else j.progress)] ++ leBytes 2 j.status ++ leBytes 4 j.detail)

def jobMissing (s : Blk) (r : Request) : Nat × Nat :=
  checks [((s.hub.jobs.get? (par r 0 4)).isNone, stNotFound, 0)]

def execJobStatus (src : Source) (s : State) : Host.Outcome State Fault Refusal :=
  lift (adminRun 0x81 src jobMissing (jobStatusFn src)) s

/-- A self-test job. -/
def isSelfTest : JobKind → Bool
  | .selfTest _ => true
  | _ => false

/-- JOB_CANCEL stops SELF_TEST, TENANT_RETIRE_GEN and POWER_ENTER jobs. -/
def cancellable (s : Blk) (id : Nat) : Bool :=
  match s.hub.jobs.get? id with
  | some j => j.jstate == 1 && (match j.kind with | .selfTest _ | .retireGen _ _ | .powerEnter _ _ _ => true | _ => false)
  | none => false

/-- What cancelling a running job does. -/
def cancelKind (s : Blk) (id : Nat) : JobKind → Blk
  | .selfTest _ => endJob (raise s 0xB003 2 domHub (pl [(1, 0)])) id 3 stAborted 0
  | .retireGen t g =>
    let s := if (s.med.rekey.any fun e => decide (e.1 = t ∧ e.2.1 = g)) then
        raise { s with med := { s.med with rekey := none } } 0x800D 2 domNone (pl [(2, t), (4, g), (1, 0)])
      else s
    endJob s id 3 stAborted 0
  | .powerEnter _ _ _ => endJob (cancelPower s id) id 3 stAborted 0
  | _ => s

def cancelJob (s : Blk) (id : Nat) : Blk :=
  match s.hub.jobs.get? id with
  | some j => cancelKind s id j.kind
  | none => s

def execJobCancel (src : Source) (s : State) : Host.Outcome State Fault Refusal :=
  lift (adminRun 0x82 src (fun s r => checks [(!cancellable s (par r 0 4), stNotFound, 0)])
    fun s r => hubOk (cancelJob s (par r 0 4)) src r []) s

/-- A POWER_ENTER, a FW_ACTIVATE or a DEVICE_RESET ends a self-test with ABORTED (R318). -/
def abortSelfTests (s : Blk) : Blk :=
  forEach (jobsWhere s isSelfTest) (fun s id => endJob (raise s 0xB003 2 domHub (pl [(1, 0)])) id 2 stAborted 0) s

/-- The clients' sessions, each with the client sequence processed last. -/
def clientSessions (s : Blk) : List (Nat × Nat) :=
  (s.xpt.sessions.filter fun e => e.2.ring.isNone).map fun e => (e.1, (e.2.rxNext - 1).toNat)

/-- R89: a session reset on every open session at once, and the same on every ring (R337). -/
def deviceReset (s : Blk) : Blk :=
  resetRings (forEach (clientSessions s) (fun s e => resetSession s e.1 e.2) (abortSelfTests s))

/-- The device reset is over for everyone but the command that ordered it. -/
def resetOver (s : Blk) (src : Source) : Bool :=
  let own := match src with
    | .inBand slot => (cmdOf s slot).map fun c => (c.session, c.tag)
    | .mailbox _ => none
  s.xpt.sessions.all fun e => e.2.resetting.isNone || e.2.tags.all fun t => decide (t.2.st = .idle) || decide (own = some (e.1, t.1))

def execDeviceReset (src : Source) (s : State) : Host.Outcome State Fault Refusal :=
  lift (adminRun 0x83 src noCheck fun s r => deviceReset (hubLater s src r)) s

/-- SELF_TEST: one at a time (R317). -/
def execSelfTest (src : Source) (s : State) : Host.Outcome State Fault Refusal :=
  lift (adminRun 0x84 src
    (fun s r => checks [(decide (par r 0 1 ≠ 1 ∧ par r 0 1 ≠ 2), stBadRequest, 0),
                        (!(jobsWhere s isSelfTest).isEmpty, stStateConflict, s.dev.code)])
    fun s r => startJob s src r (.selfTest (par r 0 1 = 2)) fun s _ => raise s 0xB003 2 domHub (pl [(1, 1)])) s

/-- HEALTH. -/
def healthResult (s : Blk) : Bytes :=
  let pairs := ((List.range 128).filter s.cip.pairs.getLsbD).length
  leBytes 2 s.loops.tj.toNat ++ [BitVec.ofNat 8 s.loops.step, BitVec.ofNat 8 pairs] ++ leBytes 2 s.loops.vcore
    ++ [BitVec.ofNat 8 (boolNat s.time.valid), 0#8] ++ leBytes 8 s.time.opTime ++ leBytes 4 s.time.powerCycles

def execHealth (src : Source) (s : State) : Host.Outcome State Fault Refusal :=
  lift (adminRun 0x85 src noCheck fun s r => hubOk s src r (healthResult s)) s

/-! ### Namespaces (0x88-0x8D) -/

/-- A namespace's record has changed: its state is judged and the partner is told (R279). -/
def nsChanged (s : Blk) (n : Nat) : Blk := sendNs (judgeNs s) n 0

/-- NS_CREATE: the shape of R238, MIRRORED only in a pair; then the tenant; then the namespace. 0xFFFF is the system layout
(R255). -/
def nsCreateCheck (s : Blk) (r : Request) : Nat × Nat :=
  let n := par r 0 2
  let k := par r 4 1
  let m := par r 5 1
  let shape := decide (1 ≤ k ∧ k ≤ 15 ∧ 1 ≤ m ∧ m ≤ 4 ∧ k + m ≤ 16 ∧ k + m ≤ (servingSpokes s).length)
  let form := shape && decide (n ≠ 0xFFFF ∧ par r 6 1 ≤ 1 ∧ par r 7 1 ≤ 1 ∧ par r 8 1 ≤ 1 ∧ par r 9 3 = 0)
  checks [(!form || (decide (par r 6 1 = 1) && !s.tdm.paired), stBadRequest, 0),
          (!(s.tenants.has (par r 2 2)), stNotFound, 0),
          ((nsOf s n).isSome, stStateConflict, ((nsOf s n).map (nsState s n)).getD 0)]

/-- A new namespace, with a SipHash key drawn for it (R97) and a bucket that is disabled (R291). -/
def nsCreate (s : Blk) (r : Request) : Blk :=
  let (key, s) := drawBytes s 16
  let t := par r 2 2
  let x : Namespace :=
    { tenant := t, k := par r 4 1, m := par r 5 1, mirrored := par r 6 1 = 1, homeSide := par r 7 1, ownerSide := par r 7 1
      vbr := par r 8 1 = 1, byteQuota := par r 12 8, keyQuota := par r 20 8, sipKey := key, wrappedSip := aesWrap s.cip.kek key
      exhausted := (s.cip.pages.get? t).any fun p => decide (p.state = 3)
      bucket := bucketFullAt s.now {} }
  nsChanged (setNs s (par r 0 2) x) (par r 0 2)

def execNsCreate (src : Source) (s : State) : Host.Outcome State Fault Refusal :=
  lift (adminRun 0x88 src nsCreateCheck fun s r => hubOk (nsCreate s r) src r []) s

def nsMissing (s : Blk) (r : Request) : Nat × Nat := checks [((nsOf s (par r 0 2)).isNone, stNotFound, 0)]

/-- NS_DELETE: OFFLINE at once; the job frees the keys. -/
def execNsDelete (src : Source) (s : State) : Host.Outcome State Fault Refusal :=
  lift (adminRun 0x89 src nsMissing fun s r =>
    startJob s src r (.nsDelete (par r 0 2)) fun s _ => nsChanged (modNs s (par r 0 2) fun x => { x with deleting := true }) (par r 0 2)) s

/-- NS_SET_STATE: 0x41 lets the other rules give the state; 0x46 refuses new commands at once and is answered when nothing of
the namespace is in flight (`hubPoll`). -/
def nsSetState (src : Source) (s : Blk) (r : Request) : Blk :=
  let n := par r 0 2
  let off := decide (par r 2 1 = 0x46)
  let s := nsChanged (modNs s n fun x => { x with offline := off }) n
  if off then hubLater s src r else hubOk s src r []

def execNsSetState (src : Source) (s : State) : Host.Outcome State Fault Refusal :=
  lift (adminRun 0x8A src
    (fun s r => checks [(decide (par r 2 1 ≠ 0x41 ∧ par r 2 1 ≠ 0x46), stBadRequest, 0), ((nsOf s (par r 0 2)).isNone, stNotFound, 0)])
    (nsSetState src)) s

def execNsSetQuota (src : Source) (s : State) : Host.Outcome State Fault Refusal :=
  lift (adminRun 0x8B src
    (fun s r => checks [(decide (par r 2 2 ≠ 0), stBadRequest, 0), ((nsOf s (par r 0 2)).isNone, stNotFound, 0)])
    fun s r =>
      let n := par r 0 2
      hubOk (nsChanged (modNs s n fun x => { x with byteQuota := par r 4 8, keyQuota := par r 12 8 }) n) src r []) s

/-- The lowest margin of a namespace (R261). -/
def nsMargin (s : Blk) (n : Nat) (x : Namespace) : Nat :=
  (heldMargin s n x.m).getD (x.m - (x.k + x.m - (servingSpokes s).length))

/-- NS_QUERY. -/
def nsQueryResult (s : Blk) (n : Nat) : Bytes :=
  match nsOf s n with
  | none => []
  | some x =>
    [BitVec.ofNat 8 (nsState s n x), BitVec.ofNat 8 (boolNat x.mirrored), BitVec.ofNat 8 x.homeSide, BitVec.ofNat 8 x.ownerSide,
     BitVec.ofNat 8 x.k, BitVec.ofNat 8 x.m, BitVec.ofNat 8 (nsMargin s n x), BitVec.ofNat 8 (boolNat x.vbr)]
      ++ leBytes 2 x.tenant ++ zeros 6 ++ leBytes 8 x.bytes ++ leBytes 8 x.keys

def execNsQuery (src : Source) (s : State) : Host.Outcome State Fault Refusal :=
  lift (adminRun 0x8C src nsMissing fun s r => hubOk s src r (nsQueryResult s (par r 0 2))) s

/-- NS_LIST: at most 496 entries, ascending. -/
def nsListResult (s : Blk) (first : Nat) : Bytes :=
  let l := (s.nss.filter fun e => decide (first ≤ e.1)).take 496
  leBytes 2 l.length ++ [0#8, 0#8] ++ l.flatMap fun e => leBytes 2 e.1 ++ [BitVec.ofNat 8 (nsState s e.1 e.2), 0#8]

def execNsList (src : Source) (s : State) : Host.Outcome State Fault Refusal :=
  lift (adminRun 0x8D src noCheck fun s r => hubOk s src r (nsListResult s (par r 0 2))) s

/-! ### Tenants (0x90-0x95) -/

/-- A key page has changed: HBM, flash, and the partner's copy (R132, R279). -/
def pageChanged (s : Blk) (t : Nat) (p : KeyPage) : Blk := sendPage (flashPage (setPage s t p) t) t

/-- A data key from the random generator, wrapped under the KEK (R136). -/
def newGen (s : Blk) (g : Nat) : GenSlot × Blk :=
  let (key, s) := drawBytes s 32
  ({ gen := g, wrapped := aesWrap s.cip.kek key }, s)

def tenantMissing (s : Blk) (r : Request) : Nat × Nat := checks [(!(s.tenants.has (par r 0 2)), stNotFound, 0)]

/-- TENANT_CREATE: the key page is made with generation 1. -/
def tenantCreate (s : Blk) (r : Request) : Blk :=
  let t := par r 0 2
  let (g, s) := newGen s 1
  let p : KeyPage := { owner := t, state := 1, genCur := 1, gens := [g], wrappedAccess := aesWrap s.cip.kek (slice (r.params.drop 4) 0 32) }
  let x : Tenant := { adminPermit := bitOf (par r 2 1) 0, bucket := bucketFullAt s.now {} }
  sendTenant (pageChanged { s with tenants := s.tenants.set t x } t p) t

def execTenantCreate (src : Source) (s : State) : Host.Outcome State Fault Refusal :=
  lift (adminRun 0x90 src
    (fun s r => checks [(decide (1 < par r 2 1 ∨ par r 3 1 ≠ 0), stBadRequest, 0), (s.tenants.has (par r 0 2), stStateConflict, 0)])
    fun s r => hubOk (tenantCreate s r) src r []) s

/-- TENANT_SET: the flags, and the access key unless it is all zero. -/
def tenantSet (s : Blk) (r : Request) : Blk :=
  let t := par r 0 2
  let key := slice (r.params.drop 4) 0 32
  let x := (s.tenants.get? t).getD {}
  let s := { s with tenants := s.tenants.set t { x with adminPermit := bitOf (par r 2 1) 0, disabled := bitOf (par r 2 1) 1 } }
  let s := match s.cip.pages.get? t with
    | some p => if key.all (· = 0) then s else pageChanged s t { p with wrappedAccess := aesWrap s.cip.kek key }
    | none => s
  sendTenant s t

def execTenantSet (src : Source) (s : State) : Host.Outcome State Fault Refusal :=
  lift (adminRun 0x91 src
    (fun s r => checks [(decide (3 < par r 2 1 ∨ par r 3 1 ≠ 0), stBadRequest, 0), (!(s.tenants.has (par r 0 2)), stNotFound, 0)])
    fun s r => hubOk (tenantSet s r) src r []) s

/-- TENANT_ROTATE: a new key in a free slot becomes GEN_CUR; the counters and their ceilings restart, and the page is active
again (R132, R136, R141). -/
def tenantRotate (src : Source) (s : Blk) (r : Request) : Blk :=
  let t := par r 0 2
  match s.cip.pages.get? t with
  | none => hubFail s src r stDeviceFault
  | some p =>
    let g := p.gens.foldl (fun a x => max a x.gen) p.genCur + 1
    let (slot, s) := newGen s g
    let s := { s with
      cip := { s.cip with reserving := s.cip.reserving.filter fun e => e.1 ≠ t }
      nss := s.nss.mapVal fun _ x => if x.tenant = t then { x with exhausted := false } else x }
    let s := pageChanged s t { p with state := 1, genCur := g, ctr0 := 0, ctr1 := 0, top0 := 0, top1 := 0, gens := p.gens ++ [slot] }
    hubOk (freeWaiting (judgeNs s) t) src r (leBytes 4 g)

def execTenantRotate (src : Source) (s : State) : Host.Outcome State Fault Refusal :=
  lift (adminRun 0x92 src
    (fun s r => checks [(!(s.tenants.has (par r 0 2)), stNotFound, 0),
                        ((s.cip.pages.get? (par r 0 2)).any (fun p => decide (4 ≤ p.gens.length)), stStateConflict, s.dev.code)])
    (tenantRotate src)) s

/-- TENANT_RETIRE_GEN: the sweep of R201 finds the job by itself; GEN_CUR is BAD_REQUEST. -/
def execTenantRetireGen (src : Source) (s : State) : Host.Outcome State Fault Refusal :=
  lift (adminRun 0x93 src
    (fun s r => checks [(decide (par r 2 2 ≠ 0) || (s.cip.pages.get? (par r 0 2)).any (fun p => decide (p.genCur = par r 4 4)), stBadRequest, 0),
                        (!(s.tenants.has (par r 0 2)), stNotFound, 0)])
    fun s r => startJob s src r (.retireGen (par r 0 2) (par r 4 4)) fun s _ => s) s

/-- TENANT_DELETE: the key page is free again. -/
def tenantDelete (s : Blk) (t : Nat) : Blk :=
  let s := { s with
    tenants := s.tenants.del t
    cip := { s.cip with pages := s.cip.pages.del t, cache := s.cip.cache.filter fun l => l.page ≠ t, reserving := s.cip.reserving.filter fun e => e.1 ≠ t } }
  sendTenant (flashPage s t) t

def execTenantDelete (src : Source) (s : State) : Host.Outcome State Fault Refusal :=
  lift (adminRun 0x94 src
    (fun s r => checks [(!(s.tenants.has (par r 0 2)), stNotFound, 0),
                        (s.nss.vals.any (fun x => decide (x.tenant = par r 0 2)), stStateConflict, s.dev.code)])
    fun s r => hubOk (tenantDelete s (par r 0 2)) src r []) s

/-- TENANT_QUERY. -/
def tenantQueryResult (s : Blk) (t : Nat) : Bytes :=
  let x := (s.tenants.get? t).getD {}
  let p := (s.cip.pages.get? t).getD {}
  let n := (s.nss.vals.filter fun y => decide (y.tenant = t)).length
  [BitVec.ofNat 8 p.state, BitVec.ofNat 8 p.gens.length, BitVec.ofNat 8 (boolNat x.adminPermit + 2 * boolNat x.disabled), 0#8]
    ++ leBytes 4 p.genCur ++ leBytes 8 p.ctr0 ++ leBytes 8 p.ctr1 ++ leBytes 2 n

def execTenantQuery (src : Source) (s : State) : Host.Outcome State Fault Refusal :=
  lift (adminRun 0x95 src tenantMissing fun s r => hubOk s src r (tenantQueryResult s (par r 0 2))) s

/-! ### The end of jobs (R313, R317, R374) -/

/-- Items of a self-test by their number in the mask of JOB_END: 0 hub lockstep, 1-128 cipher pairs, 129-136 CAM banks, 137
HBM, 138-153 links, 154-169 READs of a spoke, 170 patrol pass. A failed item takes the action of its own rule. -/
def testItemFailed (s : Blk) (i : Nat) : Blk :=
  let s := raise s 0xB004 5 domHub (pl [(1, i)])
  if i = 0 then lockstepFn s
  else if i ≤ 128 then (if s.cip.pairs.getLsbD (i - 1) then retirePair s ((i - 1) / 8) ((i - 1) % 8) else s)
  else if i ≤ 136 then (if (bankOf s (i - 129)).out then s else bankOut s (i - 129))
  else s

/-- DETAIL counts the failed items. -/
def selfTestEnd (s : Blk) (id failed : Nat) (extended : Bool) : Blk :=
  let items := (List.range (if extended then 171 else 170)).filter failed.testBit
  let s := raise (forEach items testItemFailed s) 0xB003 2 domHub (pl [(1, 0)])
  if items.isEmpty then endJob s id 2 stOk 0 else endJob s id 2 stDeviceFault items.length

/-- A namespace being deleted has nothing in flight: its keys and uploads are freed, and it is gone. -/
def nsDeleteEnd (s : Blk) (id n : Nat) : Blk :=
  if nsInFlight s n ≠ 0 then s
  else
    let s := purgeNs s n fun _ => false
    let s := forEach ((s.cmd.uploads.filter fun e => decide (e.2.ns = n)).map Prod.fst) freeUpload s
    let s := { s with nss := s.nss.del n, loops := { s.loops with held := s.loops.held.del (65536 + n) } }
    endJob (sendNs (judgeNs s) n 0) id 2 stOk 0

/-- B of R357 for a pool of `n` spokes: the smallest number of groups of 17 dump dies per spoke whose dies take the dump within 18 ms,
on the slowest program and the fewest bits per cell of the pool. Times in ns, multiplied by the bits per cell. -/
def dumpGroupsOf (s : Blk) (mask : Nat) : Nat :=
  let ps := ((List.range 16).filter mask.testBit).map (profOf s)
  let n := ps.length
  let programs := (16384 * n * 17 + 16 * (n - 4) - 1) / (16 * (n - 4))
  let fits := fun (b : Nat) => ps.all fun p =>
    let per := (programs + 17 * b * n - 1) / (17 * b * n)
    let t := 1000 * p.tProgMax
    let bits := max 1 p.bitsPerCell
    decide (per * (t + 15470 * bits) + t * bits ≤ 18000000 * bits)
  (((List.range 16).map (· + 1)).find? fits).getD 16

/-- The pool is laid out anew: every block of the pool but the retired ones is erased, nothing is mapped, and the blocks are
counted with the new SLC_SHARE (R189, R193, R239). -/
def formatPool (s : Blk) (mask share : Nat) : Blk :=
  let n := ((List.range 16).filter mask.testBit).length
  let m := s.med
  let blks := (m.blks.map fun e => (e.1, if e.2.st = 3 then e.2 else { st := 0, erases := e.2.erases })).filter fun e => e.2 ≠ {}
  let med : MedSt :=
    { wseq := m.wseq, wseqTop := m.wseqTop, peerWseqTop := m.peerWseqTop, blks := blks, sbandNext := m.sbandNext, bandNext := m.bandNext
      stripeNext := m.stripeNext, readNext := m.readNext, trunNext := m.trunNext, der := m.der, commits := m.commits
      halvings := m.halvings, shareChecks := m.shareChecks, gear0Bytes := m.gear0Bytes, allBytes := m.allBytes, sjPartner := m.sjPartner
      tentries := m.tentries.filter fun e => ¬ mask.testBit (e.1 / 2097152), jpage := m.jpage, anchors := m.anchors, anchorDue := m.anchorDue
      pool := BitVec.ofNat 16 mask, dumpGroups := dumpGroupsOf s mask, slcShare := share, sysK := n - 4 }
  let s := { s with med := med, idx := { s.idx with dir := [], lru := [] } }
  forEach ((List.range 16).filter mask.testBit) (fun s i =>
    let c := blockCounts s i
    modSpoke s i fun x => { x with freeBlocks := c.1, usableBlocks := c.1, slcBlocks := c.2, slcUsed := 0, patrolq := [], patrolPos := 0 }) s

/-- FW_COMMIT's job: the staging slot is verified; the boot record names it as pending (R374). -/
def commitEnd (s : Blk) (id : Nat) : Blk :=
  let n := 1 - (validRec s).activeSlot % 2
  let c := imageCheck (slotBytes s n) s.boot.vendorHash s.boot.ownerHash s.boot.secFuse
  let s := { s with boot := { s.boot with staged := false } }
  if c = 0 then
    let s := writeRec s fun r => { r with pendingSlot := n, slotFailed := r.slotFailed &&& (3 - 2 ^ n) }
    let s := { s with boot := { s.boot with verified := n :: s.boot.verified.filter (· ≠ n) } }
    endJob (raise s 0xB02D 2 domHub (pl [(1, n)])) id 2 stOk 0
  else endJob s id 2 (if c ≤ 3 then stBadRequest else stNotPermitted) c

/-- A job's work has ended. `failed` names what a self-test found; a job whose own rule is not met yet goes on. -/
def jobEndFn (id failed : Nat) (s : Blk) : Blk :=
  match (s.hub.jobs.get? id).filter (·.jstate = 1) with
  | none => s
  | some j =>
    match j.kind with
    | .selfTest ext => selfTestEnd s id failed ext
    | .nsDelete n => nsDeleteEnd s id n
    | .retireGen t g =>
      if (s.cip.pages.get? t).any (fun p => p.gens.any fun x => x.gen == g) then s else endJob s id 2 stOk 0
    | .poolFormat mask share => endJob (formatPool s mask share) id 2 stOk 0
    | .camMode _ _ left taken => if left = 0 then endJob s id 2 stOk taken else s
    | .handover => finishDrain s
    | .failback => finishDrain s
    | .powerEnter _ _ _ => s
    | .fwCommit => commitEnd s id

def execJobEnd (job failed : Nat) (s : State) : Host.Outcome State Fault Refusal := lift (jobEndFn job failed) s

/-! ### Answers that wait (R314; log entry 2) -/

/-- What a waiting command waits for has come. -/
def laterDone (s : Blk) (e : Source × Request) : Bool :=
  if e.2.opcode = 0x8A then decide (nsInFlight s (leAt e.2.params 0 2) = 0)
  else decide (e.2.opcode = 0x83) && resetOver s e.1

/-- NS_SET_STATE and DEVICE_RESET are answered once what they wait for has come. -/
def hubPoll (s : Blk) : Blk :=
  forEach s.hub.later (fun s e => if laterDone s e then answerLater s e.1 stOk 0 [] else s) s

/-- What a step does when no command is waiting (log entry 2): in-band commands that wait are taken into the executor's room. -/
def idleStep (s : Blk) : Blk :=
  let s := forEach s.links.keys (fun s i => idleLink s (if i = 16 then .tandem else spokeLink i)) (hubPoll (gateRims (idleTick s)))
  let s := hubPull s.hub.waiting.length s
  let s := if 128 ≤ s.med.sjPending.length then stripeJournalWrite s else s
  if ringHigh s then journalFlush s else s

end Sys2Proof.Machine
end

