-- ==== Sys2Proof/Machine/Manage.lean ====
section
/-! DEFINITION. The Iawatal commands for spokes, ports, policies, buckets, CAM banks, the pair, telemetry, event records,
power and firmware (R314-R316, and the rules its rows cite). -/

namespace Sys2Proof.Machine

/-! ### Spokes and the pool (0x98-0x9A) -/

def spokeMissing (_ : Blk) (r : Request) : Nat × Nat := checks [(decide (15 < par r 0 1), stNotFound, 0)]

/-- SPOKE_QUERY. -/
def spokeQueryResult (s : Blk) (n : Nat) : Bytes :=
  let x := spokeOf s n
  let f := if x.sstate = 1 ∨ x.sstate = 3 then freeFraction x else 0xFFFF
  BitVec.ofNat 8 x.sstate :: slice x.ident 0 10 ++ leBytes 4 ((x.profile.map (·.id)).getD 0) ++ leBytes 2 f ++ slice x.health 0 16

def execSpokeQuery (src : Source) (s : State) : Host.Outcome State Fault Refusal :=
  lift (adminRun 0x98 src spokeMissing fun s r => hubOk s src r (spokeQueryResult s (par r 0 1))) s

/-- The spokes of a mask whose SSTATE is not 1. -/
def notServing (s : Blk) (mask : Nat) : Nat :=
  (List.range 16).foldl (fun a n => if mask.testBit n ∧ (spokeOf s n).sstate ≠ 1 then a + 2 ^ n else a) 0

/-- POOL_FORMAT: 1 to 10 percent for the SLC buffer (R189), five spokes or more (R239), all of them in service; then no
namespace. -/
def poolFormatCheck (s : Blk) (r : Request) : Nat × Nat :=
  let mask := par r 0 2
  let n := ((List.range 16).filter mask.testBit).length
  checks [(decide (par r 2 1 < 1 ∨ 10 < par r 2 1), stBadRequest, 0),
          (decide (n < 5) || decide (notServing s mask ≠ 0), stBadRequest, notServing s mask),
          (!s.nss.isEmpty, stStateConflict, s.dev.code)]

def execPoolFormat (src : Source) (s : State) : Host.Outcome State Fault Refusal :=
  lift (adminRun 0x99 src poolFormatCheck fun s r => startJob s src r (.poolFormat (par r 0 2) (par r 2 1)) fun s _ => s) s

/-- SPOKE_REMOVE: no new operations; the sled goes when every STATUS has come, and the answer with it (R169). A slot without
power holds no spoke. -/
def spokeRemove (src : Source) (s : Blk) (r : Request) : Blk :=
  let n := par r 0 1
  let s := modSpoke (hubLater s src r) n fun x => { x with removing := some src }
  if (spokeOf s n).ops.isEmpty then removeSpoke s n true else s

def execSpokeRemove (src : Source) (s : State) : Host.Outcome State Fault Refusal :=
  lift (adminRun 0x9A src
    (fun s r => checks [(decide (15 < par r 0 1) || !s.pin.pwren.getLsbD (par r 0 1), stNotFound, 0)])
    (spokeRemove src)) s

/-! ### Ports (0xA0-0xA4) -/

def execPortMode (src : Source) (s : State) : Host.Outcome State Fault Refusal :=
  lift (adminRun 0xA0 src
    (fun _ r => checks [(!([1, 2, 4, 8].contains (par r 1 1)), stBadRequest, 0), (decide (15 < par r 0 1), stNotFound, 0)])
    fun s r => hubOk (portModeChange s (par r 0 1) (par r 1 1)) src r []) s

/-- The port or the sub-MAC that a command names does not exist in the port's mode (R11). -/
def submacMissing (s : Blk) (r : Request) : Bool := decide (15 < par r 0 1) || decide (modeOf s (par r 0 1) ≤ par r 1 1)

def submacCheck (s : Blk) (r : Request) : Nat × Nat :=
  let vlans := (List.range 8).map fun i => par r (12 + 2 * i) 2
  checks [(decide (7 < par r 2 1 ∨ 1 < par r 3 1 ∨ par r 4 2 < 1500 ∨ 9216 < par r 4 2) || vlans.any (fun v => decide (4094 < v)), stBadRequest, 0),
          (submacMissing s r, stNotFound, 0)]

/-- SUBMAC_SET (R27, R431). -/
def submacSet (s : Blk) (r : Request) : Blk :=
  let c : SubCfg :=
    { mac := slice r.params 6 6, ipv4 := slice r.params 28 4, ipv6 := slice r.params 32 16
      vlans := ((List.range 8).map fun i => par r (12 + 2 * i) 2).filter (· ≠ 0)
      untagged := par r 3 1 = 1, mtu := par r 4 2, dfltClass := par r 2 1 }
  { s with rim := { s.rim with cfg := s.rim.cfg.set (subIx (par r 0 1) (par r 1 1)) c } }

def execSubmacSet (src : Source) (s : State) : Host.Outcome State Fault Refusal :=
  lift (adminRun 0xA1 src submacCheck fun s r => hubOk (submacSet s r) src r []) s

/-- The settings of class `c` that a PFC_SET carries. -/
def pfcItem (r : Request) (c : Nat) : PfcCfg :=
  { enabled := bitOf (par r 2 1) c, xoff := par r (4 + 6 * c) 2, xon := par r (6 + 6 * c) 2, headroom := par r (8 + 6 * c) 2 }

/-- The ranges of R33. -/
def pfcRange (x : PfcCfg) : Bool := decide (16 ≤ x.xoff ∧ x.xoff ≤ 1024 ∧ x.xon + 16 ≤ x.xoff ∧ 16 ≤ x.headroom ∧ x.headroom ≤ 512)

/-- PFC_SET: the ranges of R33 for every class that it enables, and the sum of R34 over the port as it would then be. -/
def pfcCheck (s : Blk) (r : Request) : Nat × Nat :=
  let items := (List.range 8).map (pfcItem r)
  let base := subIx (par r 0 1) (par r 1 1) * 8
  let port := (portClasses s (par r 0 1)).map fun i => if base ≤ i ∧ i < base + 8 then pfcItem r (i - base) else pfcCfgOf s i
  checks [(decide (par r 3 1 ≠ 0) || !items.all (fun x => !x.enabled || pfcRange x) || (!submacMissing s r && decide (2048 < reservedKib port)), stBadRequest, 0),
          (submacMissing s r, stNotFound, 0)]

def pfcSet (s : Blk) (r : Request) : Blk :=
  let base := subIx (par r 0 1) (par r 1 1) * 8
  forEach (List.range 8) (fun s c =>
    pfcJudge { s with rim := { s.rim with pfcCfg := s.rim.pfcCfg.set (base + c) (pfcItem r c) } } (base + c)) s

def execPfcSet (src : Source) (s : State) : Host.Outcome State Fault Refusal :=
  lift (adminRun 0xA2 src pfcCheck fun s r => hubOk (pfcSet s r) src r []) s

/-- CKT_PORT: for frames received after this. -/
def execCktPort (src : Source) (s : State) : Host.Outcome State Fault Refusal :=
  lift (adminRun 0xA3 src noCheck fun s r => hubOk { s with rim := { s.rim with cktPort := par r 0 2 } } src r []) s

/-- TAKEOVER_MAP: the partner addresses that a sub-MAC adopts at a takeover (R284). -/
def takeoverMapSet (s : Blk) (r : Request) : Blk :=
  let m : TakeMap := { mac := slice r.params 4 6, ipv4 := slice r.params 12 4, ipv6 := slice r.params 16 16 }
  { s with tdm := { s.tdm with takeMap := s.tdm.takeMap.set (subIx (par r 0 1) (par r 1 1)) m } }

def execTakeoverMap (src : Source) (s : State) : Host.Outcome State Fault Refusal :=
  lift (adminRun 0xA4 src
    (fun s r => checks [(decide (par r 2 2 ≠ 0 ∨ par r 10 2 ≠ 0), stBadRequest, 0), (submacMissing s r, stNotFound, 0)])
    fun s r => hubOk (takeoverMapSet s r) src r []) s

/-! ### Policies (0xA8, 0xA9) -/

/-- Scope and range of a policy parameter: namespace scope, minimum, maximum (R316 and the rules it cites). -/
def policyRange : Nat → Option (Bool × Nat × Nat)
  | 0x01 => some (false, 0, 86400) | 0x02 => some (false, 60, 604800) | 0x03 => some (true, 1, 64)
  | 0x04 => some (true, 65536, 16777216) | 0x05 => some (false, 3072, 12288) | 0x06 => some (false, 3072, 12288)
  | 0x07 => some (false, 3072, 12288) | 0x08 => some (true, 0, 0xFF) | 0x09 => some (false, 400, 2000)
  | 0x0A => some (false, 200, 800) | 0x0B => some (false, 5, 80) | 0x0C => some (false, 50, 5000)
  | 0x0D => some (false, 1, 30) | 0x0E => some (false, 5, 500) | 0x0F => some (false, 1, 60)
  | 0x10 => some (false, 40, 400) | 0x11 => some (false, 80, 600) | 0x12 => some (false, 1, 8)
  | 0x13 => some (false, 1, 8) | 0x14 => some (false, 1, 127) | 0x15 => some (false, 1, 16)
  | 0x16 => some (false, 10000, 2000000) | 0x17 => some (false, 30, 365) | 0x18 => some (false, 7, 180)
  | 0x19 => some (true, 20, 5000) | 0x1A => some (false, 5000, 160000) | 0x1B => some (false, 60, 84)
  | 0x1C => some (false, 0, 7) | 0x1D => some (false, 680, 820) | 0x1E => some (false, 680, 820)
  | 0x1F => some (false, 0, 2) | 0x20 => some (false, 10, 10000) | 0x21 => some (false, 0, 1) | 0x22 => some (true, 0, 1)
  | _ => none

/-- A value lies in the range of its parameter: PINNED_GEAR is a gear or none (R187). -/
def policyValueOk (id v : Nat) : Bool :=
  match policyRange id with
  | none => false
  | some (_, lo, hi) =>
    decide (lo ≤ v ∧ v ≤ hi) && (id != 0x08 || decide (v ≤ 3) || v == 0xFF)

/-- The namespace that SCOPE names, when it suits the parameter and exists; device scope answers 0xFFFF_FFFF. -/
def scopeOk (s : Blk) (id scope : Nat) : Bool :=
  match policyRange id with
  | none => false
  | some (perNs, _, _) => if perNs then (nsOf s scope).isSome else decide (scope = 0xFFFFFFFF)

/-- Item `i` of a POLICY_SET: ID, reserved, SCOPE, VALUE. -/
def policyItem (r : Request) (i : Nat) : Nat × Nat × Nat × Nat :=
  (par r (4 + 16 * i) 2, par r (6 + 16 * i) 2, par r (8 + 16 * i) 4, par r (12 + 16 * i) 8)

def policyItems (r : Request) : List (Nat × Nat × Nat × Nat) := (List.range (par r 0 1)).map (policyItem r)

/-- The value that a device-scope parameter will hold when the command completes. -/
def policyAfter (s : Blk) (items : List (Nat × Nat × Nat × Nat)) (id : Nat) : Nat :=
  match items.reverse.find? fun e => e.1 = id with
  | some e => e.2.2.2
  | none => policy s id

/-- The cross-checks that a parameter takes part in (R233, R300). -/
def policyCross (f : Nat → Nat) (id : Nat) : Bool :=
  let under := fun a b => decide (f a + 512 ≤ f b)
  if id = 0x05 then under 0x05 0x06
  else if id = 0x06 then under 0x05 0x06 && under 0x06 0x07
  else if id = 0x07 then under 0x06 0x07
  else if id = 0x10 ∨ id = 0x11 then decide (f 0x10 ≤ f 0x11)
  else if id = 0x1D ∨ id = 0x1E then decide (f 0x1D ≤ f 0x1E)
  else true

def policyItemOk (s : Blk) (items : List (Nat × Nat × Nat × Nat)) (e : Nat × Nat × Nat × Nat) : Bool :=
  decide (e.2.1 = 0) && policyValueOk e.1 e.2.2.2 && scopeOk s e.1 e.2.2.1 && policyCross (policyAfter s items) e.1

/-- POLICY_SET: DETAIL is the index of the first failing item. -/
def policySetCheck (s : Blk) (r : Request) : Nat × Nat :=
  let items := policyItems r
  let bad := items.findIdx fun e => !policyItemOk s items e
  checks [(decide (par r 0 1 < 1 ∨ 16 < par r 0 1 ∨ par r 1 3 ≠ 0), stBadRequest, 0),
          (decide (bad < items.length), stBadRequest, bad)]

/-- The largest truing code that overrides (R231). -/
def topOverride (s : Blk) : Nat :=
  (s.med.tentries.vals.filter (·.overriding)).foldl (fun a e => e.code.foldl (fun b c => max b c.natAbs) a) 0

/-- Whether a loop overrides a target and a new value does not lie on the override's side of the present output, so that it
waits (R301). -/
def targetWaits (s : Blk) (id v : Nat) : Bool :=
  if id = 0x0A then s.spokes.vals.any (·.brakeOver)
  else if id = 0x14 then s.spokes.vals.any (·.truingOver) && decide (v < topOverride s)
  else if id = 0x05 then s.loops.derOver && decide (s.loops.b0now.getD 0 < v)
  else if id = 0x04 ∨ id = 0x06 ∨ id = 0x07 then s.loops.derOver
  else if id = 0x1B then s.loops.thermOver
  else if id = 0x1C then s.loops.thermOver && decide (v < s.loops.step)
  else if id = 0x1D ∨ id = 0x1E then s.loops.vcoreOver && decide (v < s.loops.vcore)
  else if id = 0x1A then s.med.rebuildOver && decide (v < 160000)
  else false

/-- Where a target that waits is kept. -/
def heldKey (id scope : Nat) : Nat := if id = 0x04 then 65536 + scope else id

/-- A policy value as recorded. -/
def policyValue (s : Blk) (id scope : Nat) : Nat :=
  match nsOf s scope with
  | none => policy s id
  | some x =>
    match id with
    | 0x03 => x.prefixLen | 0x04 => x.directMin | 0x08 => x.pinnedGear | 0x19 => x.stripeClose | 0x22 => x.soloPolicy
    | _ => policy s id

/-- Record one value. -/
def recordPolicy (s : Blk) (id scope v : Nat) : Blk :=
  match id with
  | 0x03 => modNs s scope fun x => { x with prefixLen := v }
  | 0x04 => modNs s scope fun x => { x with directMin := v }
  | 0x08 => modNs s scope fun x => { x with pinnedGear := v }
  | 0x19 => modNs s scope fun x => { x with stripeClose := v }
  | 0x22 => modNs s scope fun x => { x with soloPolicy := v }
  | _ => { s with loops := { s.loops with policy := s.loops.policy.set id v } }

/-- One item takes effect, or is recorded and waits for the end of an override; namespace records and pair policy go to the
partner (R279). -/
def applyPolicy (s : Blk) (e : Nat × Nat × Nat × Nat) : Blk :=
  let id := e.1
  let scope := e.2.2.1
  let k := heldKey id scope
  let old := policyValue s id scope
  let s := if targetWaits s id e.2.2.2 then { s with loops := { s.loops with held := s.loops.held.set k (s.loops.held.getD k old) } }
    else { s with loops := { s.loops with held := s.loops.held.del k } }
  let s := recordPolicy s id scope e.2.2.2
  if [0x03, 0x04, 0x08, 0x19, 0x22].contains id then sendNs s scope 0
  else if 0x1F ≤ id ∧ id ≤ 0x21 then sendPolicy s id
  else s

def execPolicySet (src : Source) (s : State) : Host.Outcome State Fault Refusal :=
  lift (adminRun 0xA8 src policySetCheck fun s r => hubOk (forEach (policyItems r) applyPolicy s) src r []) s

/-- POLICY_GET: a SCOPE that does not suit is BAD_REQUEST, one that names no namespace NOT_FOUND. -/
def policyGetCheck (s : Blk) (r : Request) : Nat × Nat :=
  let scope := par r 4 4
  match policyRange (par r 0 2) with
  | none => (stBadRequest, 0)
  | some (perNs, _, _) =>
    checks [(decide (par r 2 2 ≠ 0) || (decide (scope = 0xFFFFFFFF) == perNs), stBadRequest, 0),
            (perNs && (nsOf s scope).isNone, stNotFound, 0)]

def policyGetResult (s : Blk) (id scope : Nat) : Bytes :=
  match policyRange id with
  | none => []
  | some (_, lo, hi) => leBytes 8 (policyValue s id scope) ++ leBytes 8 (policyDefault id) ++ leBytes 8 lo ++ leBytes 8 hi

def execPolicyGet (src : Source) (s : State) : Host.Outcome State Fault Refusal :=
  lift (adminRun 0xA9 src policyGetCheck fun s r => hubOk s src r (policyGetResult s (par r 0 2) (par r 4 4))) s

/-! ### Buckets and CAM banks (0xAA, 0xAB) -/

/-- A bucket with new settings: one that is enabled now, or is disabled, is full; a lower DEPTH cuts TOKENS (R291). -/
def bucketWith (now : Nat) (b : Bucket) (en : Bool) (rate depth : Nat) : Bucket :=
  let x := { bucketNow now b with rate := rate, depth := depth, enabled := en }
  if en = false ∨ b.enabled = false then bucketFullAt now x
  else if (depth : Int) < x.tokens then { x with tokens := depth, frac := 0 } else x

def bucketCheck (s : Blk) (r : Request) : Nat × Nat :=
  let kind := par r 0 1
  let form := decide ((kind = 1 ∨ kind = 2) ∧ par r 1 1 ≤ 1 ∧ 1 ≤ par r 4 4 ∧ 1 ≤ par r 8 8 ∧ par r 8 8 < 549755813888)
  let there := if kind = 1 then s.tenants.has (par r 2 2) else (nsOf s (par r 2 2)).isSome
  checks [(!form, stBadRequest, 0), (!there, stNotFound, 0)]

def bucketSet (s : Blk) (r : Request) : Blk :=
  let n := par r 2 2
  let f := fun b => bucketWith s.now b (par r 1 1 = 1) (par r 4 4) (par r 8 8)
  if par r 0 1 = 1 then
    let x := (s.tenants.get? n).getD {}
    sendTenant { s with tenants := s.tenants.set n { x with bucket := f x.bucket } } n
  else sendNs (modNs s n fun x => { x with bucket := f x.bucket }) n 0

def execBucketSet (src : Source) (s : State) : Host.Outcome State Fault Refusal :=
  lift (adminRun 0xAA src bucketCheck fun s r => hubOk (bucketSet s r) src r []) s

/-- The banks of a mask that are not already in a mode. -/
def banksLeft (s : Blk) (mask : Nat) (wide : Bool) : Nat :=
  (List.range 8).foldl (fun a b => if mask.testBit b ∧ ((bankOf s b).reconf.isSome ∨ (bankOf s b).wide ≠ wide) then a + 2 ^ b else a) 0

/-- An earlier job waits for bank `b` to begin a change, so that a later command takes the bank over. -/
def takenOver (s : Blk) (b : Nat) (wide : Bool) : Bool :=
  let x := bankOf s b
  x.drain.isSome || x.reconf.any fun w => w != wide

/-- CAM_MODE: the banks named that an earlier job still waits for are taken over; each bank is then ordered (R119). -/
def camMode (mask : Nat) (wide : Bool) (s : Blk) (id : Nat) : Blk :=
  let s := camJobs s fun i k => match k with
    | .camMode m w left taken =>
      let t := (List.range 8).foldl (fun a b => if mask.testBit b ∧ left.testBit b ∧ takenOver s b w then a + 2 ^ b else a) 0
      if i = id ∨ t = 0 then none else some (m, left - t, taken + t, w)
    | _ => none
  let s := forEach ((List.range 8).filter mask.testBit) (fun s b => orderMode s b wide) s
  if (s.hub.jobs.get? id).any (fun j => j.kind == .camMode mask wide 0 0) then endJob s id 2 stOk 0 else s

def execCamMode (src : Source) (s : State) : Host.Outcome State Fault Refusal :=
  lift (adminRun 0xAB src (fun _ r => checks [(decide (1 < par r 1 1), stBadRequest, 0)])
    fun s r =>
      let wide := decide (par r 1 1 = 1)
      startJob s src r (.camMode (par r 0 1) wide (banksLeft s (par r 0 1) wide) 0) (camMode (par r 0 1) wide)) s

/-! ### The pair (0xB0-0xB3) -/

/-- TANDEM_QUERY. Of an unpaired device SIDE is 0xFF and every other field 0 (log entry 32). -/
def tandemQueryResult (s : Blk) : Bytes :=
  let t := s.tdm
  if t.paired then
    let silence := if t.double then (s.now - max t.lastHb t.lastEdge) / 1250000 else 0
    [BitVec.ofNat 8 t.side, BitVec.ofNat 8 (boolNat !t.linkSilent), BitVec.ofNat 8 (boolNat !t.pinSilent), BitVec.ofNat 8 t.peerState]
      ++ leBytes 4 silence ++ leBytes 2 (s.nss.vals.filter (·.stale)).length
  else 0xFF#8 :: zeros 9

def execTandemQuery (src : Source) (s : State) : Host.Outcome State Fault Refusal :=
  lift (adminRun 0xB0 src noCheck fun s r => hubOk s src r (tandemQueryResult s)) s

def pairedCheck (s : Blk) (_ : Request) : Nat × Nat := checks [(!s.tdm.paired, stBadRequest, 0)]

def execHandover (src : Source) (s : State) : Host.Outcome State Fault Refusal :=
  lift (adminRun 0xB1 src pairedCheck fun s r => startJob s src r .handover fun s id => startDrain s id false) s

/-- FAILBACK starts when this side's resynchronisation has ended (R289). -/
def execFailback (src : Source) (s : State) : Host.Outcome State Fault Refusal :=
  lift (adminRun 0xB2 src pairedCheck fun s r =>
    startJob s src r .failback fun s id => if s.tdm.resync.isEmpty then startDrain s id true else s) s

/-- PAIR_SECRET: kept wrapped; both keys are derived; the link goes down and retrains at once (R278). -/
def pairSecret (s : Blk) (secret : Bytes) : Blk :=
  let s := { s with
    tdm := { s.tdm with secret := aesWrap s.cip.kek secret }
    cip := { s.cip with pairKek := hmac256 secret (ascii "PKEK"), pairMac := hmac256 secret (ascii "PMAC") } }
  trainLink (tandemDown s 0) .tandem 1

def execPairSecret (src : Source) (s : State) : Host.Outcome State Fault Refusal :=
  lift (adminRun 0xB3 src pairedCheck fun s r => hubOk (pairSecret s (slice r.params 0 32)) src r []) s

/-! ### Telemetry (0xB4-0xB6) -/

def countsOf (t : Tbl Count) (base n : Nat) : Bytes := (List.range n).flatMap fun i => leBytes 8 (t.getD (base + i) 0).toNat

def countersCheck (s : Blk) (r : Request) : Nat × Nat :=
  let g := par r 0 1
  let i := par r 2 2
  let there := if g = 1 then decide (i < 128 ∧ i % 8 < modeOf s (i / 8)) else if g = 3 ∨ g = 4 then decide (i < 16) else decide (i = 0)
  checks [(decide (g < 1 ∨ 6 < g ∨ par r 1 1 ≠ 0), stBadRequest, 0), (!there, stNotFound, 0)]

/-- COUNTERS, in the order of R315. -/
def countersResult (s : Blk) (g i : Nat) : Bytes :=
  match g with
  | 1 => countsOf s.rim.cnt (i * 32) 21
  | 2 => countsOf s.xpt.cnt 0 13
  | 3 => countsOf (linkOf s (spokeLink i)).cnt 0 6
  | 4 => countsOf (spokeOf s i).cnt 0 8
  | 5 => leBytes 8 s.idx.camFull.toNat
  | _ => leBytes 8 s.evt.queueLost.toNat ++ leBytes 8 s.evt.overrun.toNat ++ leBytes 8 s.evt.droppedFull.toNat

def execCounters (src : Source) (s : State) : Host.Outcome State Fault Refusal :=
  lift (adminRun 0xB4 src countersCheck fun s r => hubOk s src r (countersResult s (par r 0 1) (par r 2 2))) s

def loopRecord (targetV output : Nat) (isOver : Bool) : Bytes :=
  leBytes 4 targetV ++ leBytes 4 output ++ leBytes 4 (boolNat isOver) ++ zeros 4

/-- LOOP_STATUS: the loops in the order of R300; TARGET is what is recorded, OUTPUT what governs now (log entry 32). -/
def loopStatusResult (s : Blk) : Bytes :=
  let f := (servingSpokes s).foldl (fun a n => min a (freeFraction (spokeOf s n))) 10000
  let code := s.med.tentries.vals.foldl (fun a e => e.code.foldl (fun b c => max b c.natAbs) a) 0
  loopRecord (policy s 0x0A) f (s.spokes.vals.any (·.brakeOver))
    ++ loopRecord (policy s 0x14) code (s.spokes.vals.any (·.truingOver))
    ++ loopRecord (policy s 0x05) (s.loops.b0now.getD (target s 0x05)) s.loops.derOver
    ++ loopRecord (policy s 0x1C) s.loops.step s.loops.thermOver
    ++ loopRecord (policy s 0x1E) s.loops.vcore s.loops.vcoreOver
    ++ loopRecord (policy s 0x1A) (if s.med.rebuildOver then 160000 else target s 0x1A) s.med.rebuildOver

def execLoopStatus (src : Source) (s : State) : Host.Outcome State Fault Refusal :=
  lift (adminRun 0xB5 src noCheck fun s r => hubOk s src r (loopStatusResult s)) s

/-- A table cell as its word of R224. -/
def llrWord (c : LlrCell) : Nat :=
  c.hard * 2 ^ 28 + ((List.range 6).foldl (fun a i => a + (BitVec.ofInt 4 (c.llr.getD i 0)).toNat * 16 ^ i) 0)

def llrTableResult (s : Blk) (n : Nat) : Bytes := (List.range 48).flatMap fun k => leBytes 4 (llrWord ((spokeOf s n).llr.getD k {}))

def execLlrTable (src : Source) (s : State) : Host.Outcome State Fault Refusal :=
  lift (adminRun 0xB6 src
    (fun _ r => checks [(decide (1 < par r 1 1), stBadRequest, 0), (decide (15 < par r 0 1), stNotFound, 0)])
    fun s r =>
      let s := if par r 1 1 = 1 then modSpoke s (par r 0 1) fun x => { x with llr := [] } else s
      hubOk s src r (llrTableResult s (par r 0 1))) s

/-! ### Event records (0xB8, 0xB9) -/

/-- The most records a source takes: a mailbox without HOSTBUF has 2,000 bytes of result (R304). -/
def recordRoom (src : Source) (r : Request) : Nat :=
  match src with
  | .mailbox _ => if r.flags = 1 then r.bufLen / 64 else min (r.bufLen / 64) 31
  | .inBand _ => r.bufLen / 64

/-- EVENT_READ (R402). -/
def eventRead (src : Source) (s : Blk) (r : Request) : Blk :=
  let l := (history s).filter fun x => decide (par r 0 8 ≤ x.seq)
  hubAnswer s src r stOk 0 [] ((l.take (min (par r 8 4) (recordRoom src r))).flatMap recBytes)

def execEventRead (src : Source) (s : State) : Host.Outcome State Fault Refusal :=
  lift (adminRun 0xB8 src noCheck (eventRead src)) s

/-- EVENT_POLICY (R401). -/
def eventPolicy (s : Blk) (r : Request) : Blk :=
  let s := { s with evt := { s.evt with overwrite := par r 0 1 = 1, keepSev := par r 1 1, minSev := par r 2 1 } }
  if par r 3 1 = 1 then eraseLog s else s

def execEventPolicy (src : Source) (s : State) : Host.Outcome State Fault Refusal :=
  lift (adminRun 0xB9 src
    (fun _ r => checks [(decide (1 < par r 0 1 ∨ par r 1 1 < 1 ∨ 7 < par r 1 1 ∨ 6 < par r 2 1 ∨ 1 < par r 3 1), stBadRequest, 0)])
    fun s r => hubOk (eventPolicy s r) src r []) s

/-! ### Power and alarm (0xBA, 0xBB) -/

/-- POWER_ENTER: its job makes the first attempt at once (R346); a self-test ends (R318). -/
def execPowerEnter (src : Source) (s : State) : Host.Outcome State Fault Refusal :=
  lift (adminRun 0xBA src
    (fun _ r => checks [(decide (par r 0 1 < 1 ∨ 3 < par r 0 1 ∨ par r 2 2 ≠ 0), stBadRequest, 0)])
    fun s r => startJob s src r (.powerEnter (par r 0 1) (par r 1 1) (par r 4 4)) fun s id => powerAttempt (abortSelfTests s) id) s

def execAlarmSet (src : Source) (s : State) : Host.Outcome State Fault Refusal :=
  lift (adminRun 0xBB src
    (fun _ r => checks [(decide (2 ^ 63 ≤ par r 0 8 ∨ 1 < par r 8 1), stBadRequest, 0)])
    fun s r => hubOk (setAlarm s (par r 0 8) (par r 8 1 = 1)) src r []) s

/-! ### Firmware (0xBC-0xBF) -/

/-- The slot that is not ACTIVE_SLOT (R373). -/
def stagingSlot (s : Blk) : Nat := 1 - (validRec s).activeSlot % 2

/-- Bytes of the flash from `off` erased in whole sectors of 4 KiB and programmed. -/
def programSectors (b : Bytes) (off : Nat) (d : Bytes) : Bytes :=
  let last := (off + d.length + 4095) / 4096 * 4096
  if d.isEmpty then b
  else
    let erased := List.replicate (last - off - d.length) 0xFF#8
    let b := b ++ List.replicate (off - b.length) 0xFF#8
    b.take off ++ d ++ erased ++ b.drop last

def setSlotBytes (s : Blk) (i : Nat) (b : Bytes) : Blk :=
  { s with boot := if i = 0 then { s.boot with slot0 := b } else { s.boot with slot1 := b } }

/-- FW_DOWNLOAD: the first one erases the slot's first sector before anything else (R373). -/
def fwDownload (s : Blk) (r : Request) : Blk :=
  let n := stagingSlot s
  let b := slotBytes s n
  let b := if s.boot.staged then b else List.replicate 4096 0xFF#8 ++ b.drop 4096
  let s := setSlotBytes s n (programSectors b (par r 0 4) (slice r.bulk 0 r.bufLen))
  { s with boot := { s.boot with staged := true, verified := s.boot.verified.filter (· ≠ n) } }

/-- Room for bulk bytes in a mailbox's REQUEST area, when they are not in host memory (R304, R306). -/
def bulkFits (src : Source) (r : Request) : Bool :=
  match src with
  | .mailbox _ => r.flags == 1 || decide (r.bufLen ≤ r.bulk.length)
  | .inBand _ => true

def execFwDownload (src : Source) (s : State) : Host.Outcome State Fault Refusal :=
  lift (adminRun 0xBC src
    (fun _ r => checks [(decide (par r 0 4 % 4096 ≠ 0 ∨ 31 * 1048576 < par r 0 4 + r.bufLen) || !bulkFits src r, stBadRequest, 0)])
    fun s r => hubOk (fwDownload s r) src r []) s

def execFwCommit (src : Source) (s : State) : Host.Outcome State Fault Refusal :=
  lift (adminRun 0xBD src noCheck fun s r => startJob s src r .fwCommit fun s _ => s) s

/-- FW_ACTIVATE: in RUN the timeline of R375 begins; in RECOVERY the device restarts with FAIL_COUNT cleared (R370). -/
def fwActivate (src : Source) (s : Blk) (r : Request) : Blk :=
  if s.dev = .recovery then restart (writeRec s fun x => { x with failCount := 0 })
  else
    let s := hubLater (abortSelfTests s) src r
    setDev { s with boot := { s.boot with activation := some (1, src) } } .activating

/-- Without a pending image FW_ACTIVATE is refused; in recovery it retries the same ladder instead. -/
def execFwActivate (src : Source) (s : State) : Host.Outcome State Fault Refusal :=
  lift (adminRun 0xBE src
    (fun s _ => checks [(decide (s.dev ≠ .recovery) && decide ((validRec s).pendingSlot > 1), stStateConflict, s.dev.code)])
    (fwActivate src)) s

/-- SSTATE of an image slot: 0 invalid, 1 staged, 2 verified, 3 active, 4 failed. -/
def slotState (s : Blk) (i : Nat) : Nat :=
  let v := validRec s
  if slotHasFailed v i then 4
  else if v.activeSlot = i then 3
  else if s.boot.verified.contains i ∨ v.pendingSlot = i then 2
  else if s.boot.staged then 1
  else 0

/-- FW_QUERY (R377). -/
def fwQueryResult (s : Blk) : Bytes :=
  let v := validRec s
  let slotPart := fun i => slice (slotBytes s i) 24 16 ++ slice (slotBytes s i) 40 4 ++ [BitVec.ofNat 8 (slotState s i)] ++ zeros 3
  [BitVec.ofNat 8 s.boot.running, BitVec.ofNat 8 v.activeSlot, BitVec.ofNat 8 v.pendingSlot, BitVec.ofNat 8 v.failStep, BitVec.ofNat 8 v.failCount]
    ++ zeros 3 ++ leBytes 4 s.boot.secFuse ++ leBytes 4 s.boot.loaderVersion ++ slotPart 0 ++ slotPart 1

def execFwQuery (src : Source) (s : State) : Host.Outcome State Fault Refusal :=
  lift (adminRun 0xBF src noCheck fun s r => hubOk s src r (fwQueryResult s)) s

end Sys2Proof.Machine
end

