-- ==== Sys2Proof/Machine/Regs.lean ====
section
/-! DEFINITION. The host register map (R404-R413), with what a read of each register returns, the SMBus target (R424, R425),
the TAP (R426) and the always-on domain's own reset (R407). -/

namespace Sys2Proof.Machine

/-- The PCIe function is reached: not while POR_N is low, and not in FREEWHEEL or OFF (R347, R411). -/
def regsUp (s : Blk) : Bool := s.pin.porN && decide (s.pwr.pstate ≠ .freewheel) && decide (s.pwr.pstate ≠ .off)

/-! ### Alerts (R410) -/

/-- A W1C write to ALERT_STATUS while the hardware sets the bits of `hw` in the same cycle: those read 1 afterwards (R8), and
the vector is sent for each that rises, or that the write clears. -/
def alertClear (v : BitVec 32) (hw : BitVec 8) (s : Blk) : Blk :=
  let old := s.reg.alertStatus
  let w := v.truncate 8
  let s := { s with reg := { s.reg with alertStatus := (old &&& ~~~w) ||| hw } }
  let go := hw &&& s.reg.alertMask &&& (~~~old ||| w)
  forEach ((List.range 8).filter go.getLsbD) (fun s n => vector s (304 + n)) s

def alertClearFn (v : BitVec 32) (hw : BitVec 8) (s : Blk) : Blk := if regsUp s then alertClear v hw s else s

def execAlertStatusClear (value : BitVec 32) (hwSet : BitVec 8) (s : State) : Host.Outcome State Fault Refusal :=
  lift (alertClearFn value hwSet) s

/-- A mask bit written from 0 to 1 while its status bit is 1 sends the vector at once. -/
def alertMask (v : BitVec 32) (s : Blk) : Blk :=
  let w : BitVec 8 := v.truncate 8
  let go := w &&& ~~~s.reg.alertMask &&& s.reg.alertStatus
  forEach ((List.range 8).filter go.getLsbD) (fun s n => vector s (304 + n)) { s with reg := { s.reg with alertMask := w } }

def alertMaskFn (v : BitVec 32) (s : Blk) : Blk := if regsUp s then alertMask v s else s

def execAlertMaskWrite (value : BitVec 32) (s : State) : Host.Outcome State Fault Refusal := lift (alertMaskFn value) s

/-! ### RTC and alarm (R296, R297, R411, R412) -/

/-- RTC_SET: one write of 8 bytes, or the low half, which is held, and then the high half. -/
def rtcSet (off : Nat) (v : BitVec 64) (size : Nat) (s : Blk) : Blk :=
  if regsUp s = false then s
  else if off = 0x1010 ∧ size = 8 then setTime s v.toNat
  else if off = 0x1010 ∧ size = 4 then { s with time := { s.time with setLow := v.truncate 32 } }
  else if off = 0x1014 ∧ size = 4 then setTime s (v.toNat % 2 ^ 32 * 2 ^ 32 + s.time.setLow.toNat)
  else s

def execRtcSetWrite (offset : Nat) (value : BitVec 64) (size : Nat) (s : State) : Host.Outcome State Fault Refusal :=
  lift (rtcSet offset value size) s

/-- RTC_SUB as read. -/
def rtcSubWord (t : TimeSt) : Nat := boolNat t.valid * 2 ^ 31 + t.sub.toNat

/-- A read of RTC_SUB latches SECONDS for the next read of RTC_SECONDS. -/
def rtcSubRead (s : Blk) : Blk :=
  if regsUp s then
    emit { s with time := { s.time with latched := s.time.seconds } } (.mmio (BitVec.ofNat 64 (rtcSubWord s.time)))
  else s

def execRtcSubRead (s : State) : Host.Outcome State Fault Refusal := lift rtcSubRead s

/-- ALARM_CTRL: ALARM_EN, and ALARM_HIT by W1C; an alarm whose time has passed fires. -/
def alarmCtrl (s : Blk) (v : Nat) : Blk :=
  let s := if v.testBit 30 then { s with time := { s.time with alarmHit := false } } else s
  setAlarm s s.time.alarm.toNat (v.testBit 31)

/-- A write of ALARM (8 bytes, or either half), or of ALARM_CTRL. -/
def alarmWrite (off : Nat) (v : BitVec 64) (size : Nat) (s : Blk) : Blk :=
  let a := s.time.alarm.toNat
  let w := v.toNat % 2 ^ 32
  if regsUp s = false then s
  else if off = 0x1020 ∧ size = 8 then setAlarm s v.toNat s.time.alarmEn
  else if off = 0x1020 ∧ size = 4 then setAlarm s (a / 2 ^ 32 * 2 ^ 32 + w) s.time.alarmEn
  else if off = 0x1024 ∧ size = 4 then setAlarm s (w * 2 ^ 32 + a % 2 ^ 32) s.time.alarmEn
  else if off = 0x1028 ∧ (size = 4 ∨ size = 8) then alarmCtrl s w
  else s

def execAlarmCtrlWrite (offset : Nat) (value : BitVec 64) (size : Nat) (s : State) : Host.Outcome State Fault Refusal :=
  lift (alarmWrite offset value size) s

/-! ### Register writes (R335-R339, R405, R408, R411) -/

/-- One half of an 8-byte register. -/
def withHalf (b : BitVec 64) (high : Bool) (v : BitVec 32) : BitVec 64 :=
  if high then BitVec.ofNat 64 (v.toNat * 2 ^ 32 + b.toNat % 2 ^ 32) else BitVec.ofNat 64 (b.toNat / 2 ^ 32 * 2 ^ 32 + v.toNat)

/-- SQ_CTRL: the fields while ENABLE is 0, then what the ENABLE bit orders (R337). -/
def sqCtrl (s : Blk) (q : Nat) (v : BitVec 32) : Blk :=
  let x := sqOf s q
  let n := v.toNat
  if x.enable then (if v.getLsbD 31 then s else sqDisableFn q s)
  else
    let s := setSq s q { x with size := bitsOf n 24 4, cq := bitsOf n 16 8, channel := bitsOf n 8 5 }
    if v.getLsbD 31 then sqEnableFn q s else s

/-- A register of an SQ's set (R335). -/
def sqWrite (s : Blk) (q off : Nat) (v : BitVec 32) : Blk :=
  let x := sqOf s q
  match off with
  | 0x00 => if x.enable then s else setSq s q { x with base := withHalf x.base false v }
  | 0x04 => if x.enable then s else setSq s q { x with base := withHalf x.base true v }
  | 0x08 => sqCtrl s q v
  | 0x0C => if x.enable then s else setSq s q { x with tenant := v.toNat % 65536 }
  | 0x10 => if x.enable then s else setSq s q { x with burst := bitsOf v.toNat 8 7, weight := bitsOf v.toNat 0 8 }
  | 0x14 => pollSq s q false
  | 0x18 => if v.getLsbD 30 then setSq s q { x with cfgErr := false } else s
  | 0x20 => if q % 16 = 0 then setSq s q { x with cadence := bitsOf v.toNat 0 15 } else s
  | _ => s

/-- A register of a CQ's set (R336). -/
def cqWrite (s : Blk) (q off : Nat) (v : BitVec 32) : Blk :=
  let x := cqOf s q
  match off with
  | 0x00 => if x.enable then s else setCq s q { x with base := withHalf x.base false v }
  | 0x04 => if x.enable then s else setCq s q { x with base := withHalf x.base true v }
  | 0x08 => cqEnableWriteFn q v s
  | 0x0C => cqHeadWriteFn q v s
  | _ => s

/-- CH_CTRL and the ERR bit of CH_STATUS (R339); clearing ERR lets the next error give its code. -/
def chanWrite (s : Blk) (c off : Nat) (v : BitVec 32) : Blk :=
  let x := chanOf s c
  match off with
  | 0x40 => setChan s c { x with eocIrq := v.getLsbD 31 }
  | 0x44 => if v.getLsbD 29 then setChan s c { x with err := false, errCode := 0 } else s
  | _ => s

/-- MB_CTRL: IRQ_EN; GO, judged against DONE as it stood; DONE by W1C (R307). -/
def mbWrite (s : Blk) (n : Nat) (v : BitVec 32) : Blk :=
  let done := v.getLsbD 29
  let s := setMbox s n { mboxOf s n with irqEn := v.getLsbD 28 }
  let s := if v.getLsbD 31 then mbGoFn (Fin.ofNat 16 n) s else s
  if done then mbDoneClearFn n s else s

/-- The mask bit of MSI-X table entry `n` is written: a pending vector is sent as its entry is unmasked (R404). -/
def vectorControl (s : Blk) (n : Nat) (v : BitVec 32) : Blk :=
  if v.getLsbD 0 then { s with msi := { s.msi with mask := s.msi.mask ||| (1#512 <<< n) } }
  else
    let pending := s.msi.pba.getLsbD n && s.msi.enable && !s.msi.fmask
    let s := { s with msi := { s.msi with mask := s.msi.mask &&& ~~~(1#512 <<< n) } }
    if pending then emit { s with msi := { s.msi with pba := s.msi.pba &&& ~~~(1#512 <<< n) } } (.msix n) else s

/-- A write of 4 bytes to a naturally aligned offset. -/
def regWrite4 (s : Blk) (off : Nat) (v : BitVec 32) : Blk :=
  if off = 0x018 then { s with reg := { s.reg with scratch := v } }
  else if off = 0x020 then alertClear v 0 s
  else if off = 0x024 then alertMask v s
  else if off = 0x028 then { s with reg := { s.reg with alertSev := v.toNat % 8 } }
  else if 0x1010 ≤ off ∧ off < 0x1018 then rtcSet off (v.zeroExtend 64) 4 s
  else if off = 0x1018 then { s with time := { s.time with trim := v.truncate 11 } }
  else if 0x1020 ≤ off ∧ off < 0x102C then alarmWrite off (v.zeroExtend 64) 4 s
  else if 0x10000 ≤ off ∧ off < 0x20000 then (if off % 0x1000 = 0 then mbWrite s ((off - 0x10000) / 0x1000) v else s)
  else if 0x20000 ≤ off ∧ off < 0x24000 then sqWrite s ((off - 0x20000) / 0x40) (off % 0x40) v
  else if 0x24000 ≤ off ∧ off < 0x28000 then cqWrite s ((off - 0x24000) / 0x40) (off % 0x40) v
  else if 0x30000 ≤ off ∧ off < 0x32000 then chanWrite s ((off - 0x30000) / 0x100) (off % 0x100) v
  else if 0x40000 ≤ off ∧ off < 0x42000 ∧ off % 16 = 12 then vectorControl s ((off - 0x40000) / 16) v
  else s

/-- A write of 8 bytes: RTC_SET and ALARM take it whole; any other pair of words takes it as two writes. -/
def regWrite8 (s : Blk) (off : Nat) (v : BitVec 64) : Blk :=
  if off = 0x1010 then rtcSet off v 8 s
  else if off = 0x1020 then alarmWrite off v 8 s
  else regWrite4 (regWrite4 s off (v.truncate 32)) (off + 4) ((v >>> 32).truncate 32)

/-- Offset `a` lies in the REQUEST area of a mailbox (R306). -/
def inRequestArea (a : Nat) : Bool := decide (0x10000 ≤ a ∧ a < 0x20000) && decide (0x40 ≤ a % 0x1000 ∧ a % 0x1000 < 0x820)

/-- Offset `a` lies in the message address or data of an MSI-X table entry (R404); the fourth word is its mask bit. -/
def inMsixTable (a : Nat) : Bool := decide (0x40000 ≤ a ∧ a < 0x42000) && decide (a % 16 < 12)

/-- The bytes of a write that fall in the memory behind the BAR: any size in a REQUEST area, naturally aligned 4 or 8 bytes in
the MSI-X table. -/
def barCells (off : Nat) (v : Bytes) : List (Nat × Byte) :=
  let aligned := (v.length = 4 ∨ v.length = 8) ∧ off % v.length = 0
  ((List.range v.length).map fun i => (off + i, v.getD i 0)).filter fun c =>
    inRequestArea c.1 || (inMsixTable c.1 && decide aligned)

def storeCells (m : List Host.Cell) (cs : List (Nat × Byte)) : List Host.Cell := cs.foldl (fun m c => memWrite m c.1 c.2) m

/-- What a write does to the registers: naturally aligned 4 and 8 bytes, any other size is ignored (R405). -/
def regWriteFn (off : Nat) (v : Bytes) (s : Blk) : Blk :=
  if regsUp s = false then s
  else if v.length = 4 ∧ off % 4 = 0 then regWrite4 s off (BitVec.ofNat 32 (leNat v))
  else if v.length = 8 ∧ off % 8 = 0 then regWrite8 s off (BitVec.ofNat 64 (leNat v))
  else s

def execRegisterWrite (offset : Nat) (value : Bytes) (s : State) : Host.Outcome State Fault Refusal :=
  .next { s with
    toBlk := regWriteFn offset value s.toBlk
    mem := if regsUp s.toBlk then storeCells s.mem (barCells offset value) else s.mem }

/-! ### What a read returns (R306, R335-R339, R396, R405, R408, R411, R413) -/

def bitIf (b : Bool) (i : Nat) : Nat := if b then 2 ^ i else 0

/-- Halves of an 8-byte register. -/
def regHalf (v : Nat) (high : Bool) : Nat := if high then v / 2 ^ 32 % 2 ^ 32 else v % 2 ^ 32

/-- BOOT_STEP: the ladder step while BOOTING, 0 in every other state. -/
def bootStepReg (s : Blk) : Nat := if s.dev = .booting then s.boot.step else 0

/-- SIDE of DEV_STATE and IDENTIFY. -/
def sideReg (s : Blk) : Nat := if s.tdm.paired then s.tdm.side else 0xFF

def globalRead (s : Blk) (off : Nat) : Nat :=
  match off with
  | 0x00 => 0x9416A000
  | 0x04 => s.boot.serial.toNat
  | 0x08 => bitIf s.pin.fault 31 + bootStepReg s * 2 ^ 16 + sideReg s * 2 ^ 8 + s.dev.code
  | 0x10 => regHalf s.evt.nextSeq false
  | 0x14 => regHalf s.evt.nextSeq true
  | 0x18 => s.reg.scratch.toNat
  | 0x20 => s.reg.alertStatus.toNat
  | 0x24 => s.reg.alertMask.toNat
  | 0x28 => s.reg.alertSev
  | _ => 0

/-- PSTATE never shows FREEWHEEL or OFF. -/
def pstateBits : PwrState → Nat
  | .idle => 1
  | .rest => 2
  | _ => 0

def powerRead (s : Blk) (off : Nat) : Nat :=
  match off with
  | 0x00 => rtcSubWord s.time
  | 0x08 => regHalf s.time.latched.toNat false
  | 0x0C => regHalf s.time.latched.toNat true
  | 0x18 => s.time.trim.toNat
  | 0x20 => regHalf s.time.alarm.toNat false
  | 0x24 => regHalf s.time.alarm.toNat true
  | 0x28 => bitIf s.time.alarmEn 31 + bitIf s.time.alarmHit 30
  | 0x30 => regHalf s.time.opTime false
  | 0x34 => regHalf s.time.opTime true
  | 0x38 => s.time.powerCycles
  | 0x3C => s.loops.tj.toNat * 2 ^ 16 + s.loops.step * 2 ^ 8 + pstateBits s.pwr.pstate
  | _ => 0

def safetyRead (s : Blk) (off : Nat) : Nat :=
  match off with
  | 0x00 => s.safe.ksWhere * 256 + s.safe.ksCode
  | 0x04 => s.safe.ksAll.toNat
  | 0x08 => regHalf s.safe.ksTime.toNat false
  | 0x0C => regHalf s.safe.ksTime.toNat true
  | 0x10 => bitIf (decide (s.dev = .kickstand)) 31 + bitIf (s.pwr.dump.isSome && !s.pwr.dumpDone) 30 + bitIf s.pwr.dumpDone 29
  | 0x14 => match s.safe.scrubAge with
    | some t => t
    | none => 0xFFFFFFFF
  | 0x18 => s.safe.injectPass.toNat
  | _ => 0

def mbCtrlRead (s : Blk) (n : Nat) : Nat :=
  let m := mboxOf s n
  bitIf m.go 31 + bitIf m.busy 30 + bitIf m.done 29 + bitIf m.irqEn 28 + (if m.busy then progressNow s n else m.progress) * 2 ^ 16

/-- Commands of a ring that are admitted and not ended (R335). -/
def inflightReg (s : Blk) (x : Sq) : Nat :=
  if x.running then ((sessOf s x.session).map fun ss => (ss.tags.vals.filter fun t => t.st != .idle).length).getD 0 else 0

def sqRead (s : Blk) (q off : Nat) : Nat :=
  let x := sqOf s q
  match off with
  | 0x00 => regHalf x.base.toNat false
  | 0x04 => regHalf x.base.toNat true
  | 0x08 => bitIf x.enable 31 + x.size * 2 ^ 24 + x.cq * 2 ^ 16 + x.channel * 2 ^ 8
  | 0x0C => x.tenant
  | 0x10 => x.burst * 2 ^ 8 + x.weight
  | 0x18 => bitIf x.running 31 + bitIf x.cfgErr 30 + inflightReg s x * 2 ^ 16 + slotOfEntry x.size x.s
  | 0x1C => if x.running then x.session else 0
  | 0x20 => if q % 16 = 0 then x.cadence else 0
  | 0x28 => regHalf x.tornCnt.toNat false
  | 0x2C => regHalf x.tornCnt.toNat true
  | 0x30 => regHalf x.malformedCnt.toNat false
  | 0x34 => regHalf x.malformedCnt.toNat true
  | 0x38 => regHalf x.pollLateCnt.toNat false
  | 0x3C => regHalf x.pollLateCnt.toNat true
  | _ => 0

def cqRead (s : Blk) (q off : Nat) : Nat :=
  let x := cqOf s q
  match off with
  | 0x00 => regHalf x.base.toNat false
  | 0x04 => regHalf x.base.toNat true
  | 0x08 => bitIf x.enable 31 + bitIf x.irqEn 30 + x.size * 2 ^ 24 + x.irqCount * 2 ^ 16 + x.irqDelay
  | 0x0C => x.head
  | 0x10 => x.tail
  | _ => 0

/-- A transfer set as its 32 bytes show it. -/
def xferRead (t : Xfer) (off : Nat) : Nat :=
  match off with
  | 0x00 => regHalf t.hostAddr false
  | 0x04 => regHalf t.hostAddr true
  | 0x08 => t.count
  | 0x0C => bitIf t.dirOut 31 + bitIf t.flush 30 + t.sq
  | 0x10 => regHalf t.localRef false
  | 0x14 => regHalf t.localRef true
  | _ => 0

/-- ACT_COUNT is live; the rest of the active set is what the last read of ACT_COUNT latched. -/
def chanRead (s : Blk) (c off : Nat) : Nat :=
  let x := chanOf s c
  if off = 0x08 then x.act.count
  else if off < 0x20 then xferRead x.latch off
  else if off < 0x40 then xferRead x.shd (off - 0x20)
  else
    match off with
    | 0x40 => bitIf x.eocIrq 31
    | 0x44 => bitIf x.busy 31 + bitIf x.shadowValid 30 + bitIf x.err 29 + x.errCode
    | 0x48 => regHalf x.bytesMoved.toNat false
    | 0x4C => regHalf x.bytesMoved.toNat true
    | 0x50 => regHalf x.transfers.toNat false
    | 0x54 => regHalf x.transfers.toNat true
    | _ => 0

/-- The word that a naturally aligned 4-byte read of a register returns; an unmapped offset or a reserved register reads 0. -/
def regRead4 (s : Blk) (off : Nat) : Nat :=
  if off < 0x1000 then globalRead s off
  else if off < 0x2000 then powerRead s (off - 0x1000)
  else if off < 0x3000 then safetyRead s (off - 0x2000)
  else if 0x10000 ≤ off ∧ off < 0x20000 then (if off % 0x1000 = 0 then mbCtrlRead s ((off - 0x10000) / 0x1000) else 0)
  else if 0x20000 ≤ off ∧ off < 0x24000 then sqRead s ((off - 0x20000) / 0x40) (off % 0x40)
  else if 0x24000 ≤ off ∧ off < 0x28000 then cqRead s ((off - 0x24000) / 0x40) (off % 0x40)
  else if 0x30000 ≤ off ∧ off < 0x32000 then chanRead s ((off - 0x30000) / 0x100) (off % 0x100)
  else if 0x40000 ≤ off ∧ off < 0x42000 then (if off % 16 = 12 then bitIf (s.msi.mask.getLsbD ((off - 0x40000) / 16)) 0 else 0)
  else if 0x42000 ≤ off ∧ off < 0x42040 then s.msi.pba.toNat / 2 ^ (8 * (off - 0x42000)) % 2 ^ 32
  else 0

/-- One byte of BAR 0: the memory behind it, a RESPONSE area, the event window, or a register. -/
def barByte (s : State) (a : Nat) : Byte :=
  if inRequestArea a ∨ inMsixTable a then memRead s.mem a
  else if 0x10000 ≤ a ∧ a < 0x20000 ∧ 0x820 ≤ a % 0x1000 then (mboxOf s.toBlk ((a - 0x10000) / 0x1000)).resp.getD (a % 0x1000 - 0x820) 0
  else if 0x1000000 ≤ a ∧ a < 0x1400000 then
    ((s.evt.buf.get? ((a - 0x1000000) / 64)).map fun r => (recBytes r).getD (a % 64) 0).getD 0
  else BitVec.ofNat 8 (regRead4 s.toBlk (a / 4 * 4) / 256 ^ (a % 4))

/-- The bytes that a read of BAR 0 returns. -/
def barRead (s : State) (off n : Nat) : Bytes := (List.range n).map fun i => barByte s (off + i)

/-! ### SMBus (R424, R425) -/

/-- FAULT_N as the pin shows it: at pad hold it keeps its level (R351). -/
def faultLow (s : Blk) : Bool := if s.pwr.padHold then s.pwr.heldFault else s.pin.fault

/-- STATUS (0x00). -/
def smbStatusByte (s : Blk) : Nat :=
  bitIf (faultLow s) 7 + bitIf s.tdm.fenceReq 6 + bitIf s.time.valid 5 + bitIf (decide (s.dev = .kickstand)) 4 + bitIf s.reg.smbEvent 3

/-- A read of STATUS clears EVENT. -/
def smbStatusFn (s : Blk) : Blk :=
  emit { s with reg := { s.reg with smbEvent := false } } (.smbus 0x00 (smbStatusByte s))

def execSmbStatus (s : State) : Host.Outcome State Fault Refusal := lift smbStatusFn s

/-- A read of one of the other codes changes nothing. -/
def smbRead (code : Nat) (v : Blk → Nat) (s : Blk) : Blk := emit s (.smbus code (v s))

def execSmbDeviceState (s : State) : Host.Outcome State Fault Refusal := lift (smbRead 0x01 fun b => b.dev.code) s
def execSmbBootStep (s : State) : Host.Outcome State Fault Refusal := lift (smbRead 0x02 bootStepReg) s
def execSmbPowerState (s : State) : Host.Outcome State Fault Refusal := lift (smbRead 0x03 fun b => b.pwr.pstate.code) s

/-- T_J, 0x8000 in FREEWHEEL. -/
def smbTemp (s : Blk) : Nat := if s.pwr.pstate = .freewheel then 0x8000 else s.loops.tj.toNat

def execSmbTemperature (s : State) : Host.Outcome State Fault Refusal := lift (smbRead 0x04 smbTemp) s
def execSmbKsCause (s : State) : Host.Outcome State Fault Refusal :=
  lift (smbRead 0x05 fun b => b.safe.ksWhere * 256 + b.safe.ksCode) s
def execSmbFailStep (s : State) : Host.Outcome State Fault Refusal :=
  lift (smbRead 0x06 fun b => (validRec b).failStep * 256 + (validRec b).failCount) s

/-! ### JTAG (R426) -/

/-- An instruction of the TAP, whose TRST_N is high: one that takes control of pins drives them only while POR_N is low, and is
BYPASS at any other time. -/
def jtagFn (pinControl : Bool) (drive : List (Nat × Bool)) (s : Blk) : Blk :=
  let acts := pinControl && !s.pin.porN
  { s with pin := { s.pin with trstN := true, bypass := !acts, scan := if acts then drive else [] } }

def execJtagInstruction (pinControl : Bool) (drive : List (Nat × Bool)) (s : State) : Host.Outcome State Fault Refusal :=
  lift (jtagFn pinControl drive) s

/-- TRST_N low holds the TAP in reset. -/
def trstLow (s : Blk) : Blk := { s with pin := { s.pin with trstN := false, bypass := true, scan := [] } }

def execTrstNLow (s : State) : Host.Outcome State Fault Refusal := lift trstLow s

/-! ### VDD_AON (R295, R296, R407) -/

/-- Every field of class AON takes its reset value; the time and its alarm restart, with RTC_VALID 0. The core has been without
its supply (log entry 33). -/
def aonApplied (s : Blk) : Blk :=
  { s with
    time := { opTime := s.time.opTime, opTicks := s.time.opTicks, powerCycles := s.time.powerCycles }
    pwr := { s.pwr with coldStart := true } }

def execVddAonApplied (s : State) : Host.Outcome State Fault Refusal := lift aonApplied s

end Sys2Proof.Machine
end

