-- ==== Sys2Proof/Machine/Dispatch.lean ====
section
/-! DEFINITION. What each command does: one arm per constructor of `Instr`, each a direct call of its meaning. -/

namespace Sys2Proof.Machine

def exec (i : Instr) (s : State) : Host.Outcome State Fault Refusal :=
  match i with
  | .receiveFrame p sub frame pcsErr => Sys2Proof.Machine.execReceiveFrame p sub frame pcsErr s
  | .pfcPauseRepeat p sub c => Sys2Proof.Machine.execPfcPauseRepeat p sub c s
  | .pfcPauseReceived p sub enable quanta => Sys2Proof.Machine.execPfcPauseReceived p sub enable quanta s
  | .pauseQuantaExpire p sub c => Sys2Proof.Machine.execPauseQuantaExpire p sub c s
  | .pfcStorm p sub c => Sys2Proof.Machine.execPfcStorm p sub c s
  | .pfcStormEnd p sub c => Sys2Proof.Machine.execPfcStormEnd p sub c s
  | .cktFrameReceive p => Sys2Proof.Machine.execCktFrameReceive p s
  | .openReq => Sys2Proof.Machine.execOpenReq s
  | .openProof => Sys2Proof.Machine.execOpenProof s
  | .halfOpenExpire sn => Sys2Proof.Machine.execHalfOpenExpire sn s
  | .data sn => Sys2Proof.Machine.execData sn s
  | .ack sn => Sys2Proof.Machine.execAck sn s
  | .nak sn => Sys2Proof.Machine.execNak sn s
  | .abort sn => Sys2Proof.Machine.execAbort sn s
  | .reset sn => Sys2Proof.Machine.execReset sn s
  | .close sn => Sys2Proof.Machine.execClose sn s
  | .closeAck sn => Sys2Proof.Machine.execCloseAck sn s
  | .responseFrameSend sn => Sys2Proof.Machine.execResponseFrameSend sn s
  | .commandDispatch slot => Sys2Proof.Machine.execCommandDispatch slot s
  | .get slot => Sys2Proof.Machine.execGet slot s
  | .getVersion slot => Sys2Proof.Machine.execGetVersion slot s
  | .put slot => Sys2Proof.Machine.execPut slot s
  | .delete slot => Sys2Proof.Machine.execDelete slot s
  | .flush slot => Sys2Proof.Machine.execFlush slot s
  | .mpBegin slot => Sys2Proof.Machine.execMpBegin slot s
  | .mpPart slot => Sys2Proof.Machine.execMpPart slot s
  | .mpCommit slot => Sys2Proof.Machine.execMpCommit slot s
  | .mpAbandon slot => Sys2Proof.Machine.execMpAbandon slot s
  | .writeReservation slot comparePass => Sys2Proof.Machine.execWriteReservation slot comparePass s
  | .uploadExpire uid => Sys2Proof.Machine.execUploadExpire uid s
  | .cellArrival cell flip disagree => Sys2Proof.Machine.execCellArrival cell flip disagree s
  | .domainClockReady d => Sys2Proof.Machine.execDomainClockReady d s
  | .inflightSearchResult slot => Sys2Proof.Machine.execInflightSearchResult slot s
  | .shadowCheck at_ => Sys2Proof.Machine.execShadowCheck at_ s
  | .indexLookup slot => Sys2Proof.Machine.execIndexLookup slot s
  | .keyRecordVerify slot => Sys2Proof.Machine.execKeyRecordVerify slot s
  | .inflightRetire ea => Sys2Proof.Machine.execInflightRetire ea s
  | .camWriteResume => Sys2Proof.Machine.execCamWriteResume s
  | .renormaliseStep => Sys2Proof.Machine.execRenormaliseStep s
  | .camSweep bank comparePass => Sys2Proof.Machine.execCamSweep bank comparePass s
  | .bankEntryMove bank => Sys2Proof.Machine.execBankEntryMove bank s
  | .camBankReconfigured bank => Sys2Proof.Machine.execCamBankReconfigured bank s
  | .bucketPageWriteback b => Sys2Proof.Machine.execBucketPageWriteback b s
  | .keyPageFetch page => Sys2Proof.Machine.execKeyPageFetch page s
  | .counterReservationDone page side => Sys2Proof.Machine.execCounterReservationDone page side s
  | .tagFailReread slot bodies => Sys2Proof.Machine.execTagFailReread slot bodies s
  | .linkTrainingAttemptEnd l => Sys2Proof.Machine.execLinkTrainingAttemptEnd l s
  | .pairMarkerTimeout l => Sys2Proof.Machine.execPairMarkerTimeout l s
  | .ident l hdr payload => Sys2Proof.Machine.execIdent l hdr payload s
  | .creditInit l hdr payload => Sys2Proof.Machine.execCreditInit l hdr payload s
  | .retryReq l hdr => Sys2Proof.Machine.execRetryReq l hdr s
  | .retryReqRepeat l => Sys2Proof.Machine.execRetryReqRepeat l s
  | .retrain at_ => Sys2Proof.Machine.execRetrain at_ s
  | .idleFlit l flit => Sys2Proof.Machine.execIdleFlit l flit s
  | .dataIn n hdr payload => Sys2Proof.Machine.execDataIn n hdr payload s
  | .status n hdr payload => Sys2Proof.Machine.execStatus n hdr payload s
  | .spkPrsntNFall n => Sys2Proof.Machine.execSpkPrsntNFall n s
  | .sledInsertDebounce n => Sys2Proof.Machine.execSledInsertDebounce n s
  | .spkPrsntNRise n => Sys2Proof.Machine.execSpkPrsntNRise n s
  | .surpriseRemoval n => Sys2Proof.Machine.execSurpriseRemoval n s
  | .slotReseat n => Sys2Proof.Machine.execSlotReseat n s
  | .spkAlertNFall n => Sys2Proof.Machine.execSpkAlertNFall n s
  | .bridgeOpTimeout n opid => Sys2Proof.Machine.execBridgeOpTimeout n opid s
  | .hardDecodeDone rd cw => Sys2Proof.Machine.execHardDecodeDone rd cw s
  | .softDecodeDone rd cw => Sys2Proof.Machine.execSoftDecodeDone rd cw s
  | .truingRead n t => Sys2Proof.Machine.execTruingRead n t s
  | .dieXorRebuild n rd => Sys2Proof.Machine.execDieXorRebuild n rd s
  | .rsRebuild n rd => Sys2Proof.Machine.execRsRebuild n rd s
  | .stripeClose st => Sys2Proof.Machine.execStripeClose st s
  | .parityBufferWait => Sys2Proof.Machine.execParityBufferWait s
  | .stripeJournalFlashWrite => Sys2Proof.Machine.execStripeJournalFlashWrite s
  | .journalFlush => Sys2Proof.Machine.execJournalFlush s
  | .checkpoint => Sys2Proof.Machine.execCheckpoint s
  | .fold n => Sys2Proof.Machine.execFold n s
  | .gcPass n => Sys2Proof.Machine.execGcPass n s
  | .sourceErase blk => Sys2Proof.Machine.execSourceErase blk s
  | .patrol n blk cw => Sys2Proof.Machine.execPatrol n blk cw s
  | .rekeySweep tenant bodies => Sys2Proof.Machine.execRekeySweep tenant bodies s
  | .derailleurHalving => Sys2Proof.Machine.execDerailleurHalving s
  | .derailleurOverride => Sys2Proof.Machine.execDerailleurOverride s
  | .rebuildBand n band => Sys2Proof.Machine.execRebuildBand n band s
  | .lostValueSweep => Sys2Proof.Machine.execLostValueSweep s
  | .metadataTagScan => Sys2Proof.Machine.execMetadataTagScan s
  | .tandemStateFlit hdr payload => Sys2Proof.Machine.execTandemStateFlit hdr payload s
  | .tandemValueFlit hdr payload => Sys2Proof.Machine.execTandemValueFlit hdr payload s
  | .held hdr payload => Sys2Proof.Machine.execHeld hdr payload s
  | .joinProof hdr payload => Sys2Proof.Machine.execJoinProof hdr payload s
  | .joinProofTimeout => Sys2Proof.Machine.execJoinProofTimeout s
  | .joinRetry => Sys2Proof.Machine.execJoinRetry s
  | .heartbeat hdr payload => Sys2Proof.Machine.execHeartbeat hdr payload s
  | .heartbeatSend => Sys2Proof.Machine.execHeartbeatSend s
  | .peerAliveOutToggle => Sys2Proof.Machine.execPeerAliveOutToggle s
  | .peerAliveInEdge => Sys2Proof.Machine.execPeerAliveInEdge s
  | .linkPathSilence => Sys2Proof.Machine.execLinkPathSilence s
  | .pinPathSilence => Sys2Proof.Machine.execPinPathSilence s
  | .takeoverTimer => Sys2Proof.Machine.execTakeoverTimer s
  | .fenceDone value pecGood => Sys2Proof.Machine.execFenceDone value pecGood s
  | .fenceWaitExpire => Sys2Proof.Machine.execFenceWaitExpire s
  | .resign hdr payload => Sys2Proof.Machine.execResign hdr payload s
  | .resynchronisation ns bodies => Sys2Proof.Machine.execResynchronisation ns bodies s
  | .handoverDrainTimeout => Sys2Proof.Machine.execHandoverDrainTimeout s
  | .rtcTick => Sys2Proof.Machine.execRtcTick s
  | .trimWindow => Sys2Proof.Machine.execTrimWindow s
  | .opTimeSave => Sys2Proof.Machine.execOpTimeSave s
  | .thermalStepRise tj => Sys2Proof.Machine.execThermalStepRise tj s
  | .thermalStepFall tj => Sys2Proof.Machine.execThermalStepFall tj s
  | .vcoreStep demand => Sys2Proof.Machine.execVcoreStep demand s
  | .mbGoWrite n => Sys2Proof.Machine.execMbGoWrite n s
  | .mbDoneClear n => Sys2Proof.Machine.execMbDoneClear n s
  | .mailboxTake at_ => Sys2Proof.Machine.execMailboxTake at_ s
  | .jobEnd job failed => Sys2Proof.Machine.execJobEnd job failed s
  | .identify src => Sys2Proof.Machine.execIdentify src s
  | .jobStatus src => Sys2Proof.Machine.execJobStatus src s
  | .jobCancel src => Sys2Proof.Machine.execJobCancel src s
  | .deviceReset src => Sys2Proof.Machine.execDeviceReset src s
  | .selfTest src => Sys2Proof.Machine.execSelfTest src s
  | .health src => Sys2Proof.Machine.execHealth src s
  | .nsCreate src => Sys2Proof.Machine.execNsCreate src s
  | .nsDelete src => Sys2Proof.Machine.execNsDelete src s
  | .nsSetState src => Sys2Proof.Machine.execNsSetState src s
  | .nsSetQuota src => Sys2Proof.Machine.execNsSetQuota src s
  | .nsQuery src => Sys2Proof.Machine.execNsQuery src s
  | .nsList src => Sys2Proof.Machine.execNsList src s
  | .tenantCreate src => Sys2Proof.Machine.execTenantCreate src s
  | .tenantSet src => Sys2Proof.Machine.execTenantSet src s
  | .tenantRotate src => Sys2Proof.Machine.execTenantRotate src s
  | .tenantRetireGen src => Sys2Proof.Machine.execTenantRetireGen src s
  | .tenantDelete src => Sys2Proof.Machine.execTenantDelete src s
  | .tenantQuery src => Sys2Proof.Machine.execTenantQuery src s
  | .spokeQuery src => Sys2Proof.Machine.execSpokeQuery src s
  | .poolFormat src => Sys2Proof.Machine.execPoolFormat src s
  | .spokeRemove src => Sys2Proof.Machine.execSpokeRemove src s
  | .portMode src => Sys2Proof.Machine.execPortMode src s
  | .submacSet src => Sys2Proof.Machine.execSubmacSet src s
  | .pfcSet src => Sys2Proof.Machine.execPfcSet src s
  | .cktPort src => Sys2Proof.Machine.execCktPort src s
  | .takeoverMap src => Sys2Proof.Machine.execTakeoverMap src s
  | .policySet src => Sys2Proof.Machine.execPolicySet src s
  | .policyGet src => Sys2Proof.Machine.execPolicyGet src s
  | .bucketSet src => Sys2Proof.Machine.execBucketSet src s
  | .camMode src => Sys2Proof.Machine.execCamMode src s
  | .tandemQuery src => Sys2Proof.Machine.execTandemQuery src s
  | .handover src => Sys2Proof.Machine.execHandover src s
  | .failback src => Sys2Proof.Machine.execFailback src s
  | .pairSecret src => Sys2Proof.Machine.execPairSecret src s
  | .counters src => Sys2Proof.Machine.execCounters src s
  | .loopStatus src => Sys2Proof.Machine.execLoopStatus src s
  | .llrTable src => Sys2Proof.Machine.execLlrTable src s
  | .eventRead src => Sys2Proof.Machine.execEventRead src s
  | .eventPolicy src => Sys2Proof.Machine.execEventPolicy src s
  | .powerEnter src => Sys2Proof.Machine.execPowerEnter src s
  | .alarmSet src => Sys2Proof.Machine.execAlarmSet src s
  | .fwDownload src => Sys2Proof.Machine.execFwDownload src s
  | .fwCommit src => Sys2Proof.Machine.execFwCommit src s
  | .fwActivate src => Sys2Proof.Machine.execFwActivate src s
  | .fwQuery src => Sys2Proof.Machine.execFwQuery src s
  | .perstN => Sys2Proof.Machine.execPerstN s
  | .functionLevelReset => Sys2Proof.Machine.execFunctionLevelReset s
  | .sqKick q => Sys2Proof.Machine.execSqKick q s
  | .sqEnable q => Sys2Proof.Machine.execSqEnable q s
  | .sqDisable q => Sys2Proof.Machine.execSqDisable q s
  | .cqEnableWrite q value => Sys2Proof.Machine.execCqEnableWrite q value s
  | .cqHeadWrite q value => Sys2Proof.Machine.execCqHeadWrite q value s
  | .ringPollTick g => Sys2Proof.Machine.execRingPollTick g s
  | .sqEntryRead q entries => Sys2Proof.Machine.execSqEntryRead q entries s
  | .ringAdmission => Sys2Proof.Machine.execRingAdmission s
  | .ringAbort q => Sys2Proof.Machine.execRingAbort q s
  | .dmaReadDone slot r => Sys2Proof.Machine.execDmaReadDone slot r s
  | .flushingReadDone slot ok => Sys2Proof.Machine.execFlushingReadDone slot ok s
  | .completionPost q => Sys2Proof.Machine.execCompletionPost q s
  | .cqIrqDelay q => Sys2Proof.Machine.execCqIrqDelay q s
  | .crankEndOfCount c => Sys2Proof.Machine.execCrankEndOfCount c s
  | .actCountRead c => Sys2Proof.Machine.execActCountRead c s
  | .idleEntry => Sys2Proof.Machine.execIdleEntry s
  | .sleepDomainQuiesced => Sys2Proof.Machine.execSleepDomainQuiesced s
  | .sleepDomainTimeout mediaFault => Sys2Proof.Machine.execSleepDomainTimeout mediaFault s
  | .powerBackoffExpire => Sys2Proof.Machine.execPowerBackoffExpire s
  | .wakeComplete badBanks absent => Sys2Proof.Machine.execWakeComplete badBanks absent s
  | .pfailNFall => Sys2Proof.Machine.execPfailNFall s
  | .dumpComplete => Sys2Proof.Machine.execDumpComplete s
  | .pfailNRise => Sys2Proof.Machine.execPfailNRise s
  | .porNFall => Sys2Proof.Machine.execPorNFall s
  | .porNRise paired side smbAddr dbgEn => Sys2Proof.Machine.execPorNRise paired side smbAddr dbgEn s
  | .bootStepComplete mask => Sys2Proof.Machine.execBootStepComplete mask s
  | .bootStepTimeout => Sys2Proof.Machine.execBootStepTimeout s
  | .activationStepComplete ok => Sys2Proof.Machine.execActivationStepComplete ok s
  | .activationDrainTimeout => Sys2Proof.Machine.execActivationDrainTimeout s
  | .lockstepDivergence => Sys2Proof.Machine.execLockstepDivergence s
  | .clockFault d => Sys2Proof.Machine.execClockFault d s
  | .supplyFault rail => Sys2Proof.Machine.execSupplyFault rail s
  | .junctionOverLimit tj => Sys2Proof.Machine.execJunctionOverLimit tj s
  | .memoryCorrectableError w => Sys2Proof.Machine.execMemoryCorrectableError w s
  | .memoryUncorrectableError w => Sys2Proof.Machine.execMemoryUncorrectableError w s
  | .faultInjection flagged => Sys2Proof.Machine.execFaultInjection flagged s
  | .hbmScrubPass => Sys2Proof.Machine.execHbmScrubPass s
  | .eventAccept => Sys2Proof.Machine.execEventAccept s
  | .eventFlushUnit programOk => Sys2Proof.Machine.execEventFlushUnit programOk s
  | .eventLossReport => Sys2Proof.Machine.execEventLossReport s
  | .alertStatusClear value hwSet => Sys2Proof.Machine.execAlertStatusClear value hwSet s
  | .alertMaskWrite value => Sys2Proof.Machine.execAlertMaskWrite value s
  | .rtcSetWrite offset value size => Sys2Proof.Machine.execRtcSetWrite offset value size s
  | .rtcSubRead => Sys2Proof.Machine.execRtcSubRead s
  | .alarmCtrlWrite offset value size => Sys2Proof.Machine.execAlarmCtrlWrite offset value size s
  | .registerWrite offset value => Sys2Proof.Machine.execRegisterWrite offset value s
  | .smbStatus => Sys2Proof.Machine.execSmbStatus s
  | .smbDeviceState => Sys2Proof.Machine.execSmbDeviceState s
  | .smbBootStep => Sys2Proof.Machine.execSmbBootStep s
  | .smbPowerState => Sys2Proof.Machine.execSmbPowerState s
  | .smbTemperature => Sys2Proof.Machine.execSmbTemperature s
  | .smbKsCause => Sys2Proof.Machine.execSmbKsCause s
  | .smbFailStep => Sys2Proof.Machine.execSmbFailStep s
  | .jtagInstruction pinControl drive => Sys2Proof.Machine.execJtagInstruction pinControl drive s
  | .flitFcrcFailure at_ => Sys2Proof.Machine.execFlitFcrcFailure at_ s
  | .vddAonApplied => Sys2Proof.Machine.execVddAonApplied s
  | .gratuitousArpRepeat => Sys2Proof.Machine.execGratuitousArpRepeat s
  | .rimLinksDown => Sys2Proof.Machine.execRimLinksDown s
  | .trstNLow => Sys2Proof.Machine.execTrstNLow s

end Sys2Proof.Machine
end

