-- ==== Sys2Proof/Safety.lean ====
section
/-! DEFINITION. What a safe run is, and the shapes of the statements about the commands: the terms the claims use. -/

namespace Sys2Proof.Machine

/-- A step answers a next state. -/
def Goes (s : State) : Prop := ∃ t, step s = .next t

/-- The invariant of the host-written memory: its canonical form. -/
def MemoryCanonical (s : State) : Prop := Memory.wf s.mem = true

/-- The command completes, and leaves exactly the block `b`: every field of the block is what `b` says, every byte of the
host-written memory and the queue of waiting commands are as before. -/
def Gives (c : Instr) (s : State) (b : Blk) : Prop := exec c s = .next { s with toBlk := b }

/-- The command completes in a state of which `P` holds, with every byte of the host-written memory and the queue of
waiting commands as before. -/
def Reaches (c : Instr) (s : State) (P : Blk → Prop) : Prop := ∃ b, exec c s = .next { s with toBlk := b } ∧ P b

/-- The hub's executor holds the request `r` of `src` with opcode `op`, and nothing stands in its way: it has not begun, it is not
held during ACTIVATING, no earlier request names what it names, its bulk bytes are in, and its class runs in this device state
(R305, R311, R312). -/
def MayBegin (op : Nat) (src : Source) (r : Request) (s : Blk) : Prop :=
  s.hub.exec.find? (fun e => e.1 = src ∧ e.2.opcode = op ∧ e.2.begun = false) = some (src, r) ∧
  ¬ (adminClass op = some 1 ∧ s.dev = .activating) ∧ mayRun s src r = true ∧ r.reading = false ∧ classCause s r = 0

/-- A job of kind `k` has started under the next JOB_ID, which is the command's answer (R313). -/
def jobStarted (s : Blk) (src : Source) (r : Request) (k : JobKind) : Blk :=
  hubOk { s with hub := { s.hub with
    jobSeq := (s.hub.jobSeq + 1) % 4294967295, jobs := s.hub.jobs.set (s.hub.jobSeq + 1) { kind := k } } }
    src r (leBytes 4 (s.hub.jobSeq + 1))

end Sys2Proof.Machine
end

