-- ==== Sys2Proof/WellFormed.lean ====
section
/-! DEFINITION. Which commands name an event that can happen: a flit carries 240 payload bytes (R155), a frame on a
wire is not empty, an Iawatal source names a command slot of R91. -/

namespace Sys2Proof

/-- A flit's payload is 240 bytes (R155). -/
def flitOk (payload : Bytes) : Bool := payload.length == 240

/-- Command slots are numbered 0 to 524,287 (R91). -/
def slotOk (slot : Nat) : Bool := decide (slot < 524288)

/-- A crank read is made for a command slot, or for mailbox n as slot 524,288 + n (R331). -/
def crankSlotOk (slot : Nat) : Bool := decide (slot < 524304)

/-- A source names a mailbox or a command slot. -/
def sourceOk : Source → Bool
  | .mailbox _ => true
  | .inBand slot => slotOk slot

/-- The check on one command. -/
def Instr.wellFormed : Instr → Bool
  | .ident _ _ p | .creditInit _ _ p | .dataIn _ _ p | .status _ _ p => flitOk p
  | .tandemStateFlit _ p | .tandemValueFlit _ p | .held _ p | .joinProof _ p | .heartbeat _ p | .resign _ p => flitOk p
  | .receiveFrame _ _ f _ => !f.isEmpty
  | .get n | .getVersion n | .put n | .delete n | .flush n | .mpBegin n | .mpPart n | .mpCommit n | .mpAbandon n => slotOk n
  | .commandDispatch n | .writeReservation n _ | .inflightSearchResult n | .shadowCheck (n, _) | .indexLookup n => slotOk n
  | .keyRecordVerify n | .tagFailReread n _ => slotOk n
  | .dmaReadDone n _ | .flushingReadDone n _ => crankSlotOk n
  | .identify src | .jobStatus src | .jobCancel src | .deviceReset src | .selfTest src | .health src
  | .nsCreate src | .nsDelete src | .nsSetState src | .nsSetQuota src | .nsQuery src | .nsList src
  | .tenantCreate src | .tenantSet src | .tenantRotate src | .tenantRetireGen src | .tenantDelete src
  | .tenantQuery src | .spokeQuery src | .poolFormat src | .spokeRemove src | .portMode src | .submacSet src
  | .pfcSet src | .cktPort src | .takeoverMap src | .policySet src | .policyGet src | .bucketSet src
  | .camMode src | .tandemQuery src | .handover src | .failback src | .pairSecret src | .counters src
  | .loopStatus src | .llrTable src | .eventRead src | .eventPolicy src | .powerEnter src | .alarmSet src
  | .fwDownload src | .fwCommit src | .fwActivate src | .fwQuery src => sourceOk src
  | .rtcSetWrite _ _ size | .alarmCtrlWrite _ _ size => size == 4 || size == 8
  | .pfcPauseRepeat _ _ _ | .pfcPauseReceived _ _ _ _ | .pauseQuantaExpire _ _ _ | .pfcStorm _ _ _
  | .pfcStormEnd _ _ _ | .cktFrameReceive _ | .openReq | .openProof | .halfOpenExpire _ | .data _ | .ack _ | .nak _
  | .abort _ | .reset _ | .close _ | .closeAck _ | .responseFrameSend _ | .uploadExpire _ | .cellArrival _ _ _
  | .domainClockReady _ | .inflightRetire _ | .camWriteResume | .renormaliseStep | .camSweep _ _ | .bankEntryMove _
  | .camBankReconfigured _ | .bucketPageWriteback _ | .keyPageFetch _ | .counterReservationDone _ _
  | .linkTrainingAttemptEnd _ | .pairMarkerTimeout _ | .retryReq _ _ | .retryReqRepeat _ | .retrain _ | .idleFlit _ _
  | .spkPrsntNFall _ | .sledInsertDebounce _ | .spkPrsntNRise _ | .surpriseRemoval _ | .slotReseat _
  | .spkAlertNFall _ | .bridgeOpTimeout _ _ | .hardDecodeDone _ _ | .softDecodeDone _ _ | .truingRead _ _
  | .dieXorRebuild _ _ | .rsRebuild _ _ | .stripeClose _ | .parityBufferWait | .stripeJournalFlashWrite
  | .journalFlush | .checkpoint | .fold _ | .gcPass _ | .sourceErase _ | .patrol _ _ _ | .rekeySweep _ _
  | .derailleurHalving | .derailleurOverride | .rebuildBand _ _ | .lostValueSweep | .metadataTagScan
  | .joinProofTimeout | .joinRetry | .heartbeatSend | .peerAliveOutToggle | .peerAliveInEdge | .linkPathSilence
  | .pinPathSilence | .takeoverTimer | .fenceDone _ _ | .fenceWaitExpire | .resynchronisation _ _
  | .handoverDrainTimeout | .rtcTick | .trimWindow | .opTimeSave | .thermalStepRise _ | .thermalStepFall _
  | .vcoreStep _ | .mbGoWrite _ | .mbDoneClear _ | .mailboxTake _ | .jobEnd _ _ | .perstN | .functionLevelReset
  | .sqKick _ | .sqEnable _ | .sqDisable _ | .cqEnableWrite _ _ | .cqHeadWrite _ _ | .ringPollTick _
  | .sqEntryRead _ _ | .ringAdmission | .ringAbort _ | .completionPost _ | .cqIrqDelay _ | .crankEndOfCount _
  | .actCountRead _ | .idleEntry | .sleepDomainQuiesced | .sleepDomainTimeout _ | .powerBackoffExpire
  | .wakeComplete _ _ | .pfailNFall | .dumpComplete | .pfailNRise | .porNFall | .porNRise _ _ _ _
  | .bootStepComplete _ | .bootStepTimeout | .activationStepComplete _ | .activationDrainTimeout
  | .lockstepDivergence | .clockFault _ | .supplyFault _ | .junctionOverLimit _ | .memoryCorrectableError _
  | .memoryUncorrectableError _ | .faultInjection _ | .hbmScrubPass | .eventAccept | .eventFlushUnit _
  | .eventLossReport | .alertStatusClear _ _ | .alertMaskWrite _ | .rtcSubRead | .registerWrite _ _ | .smbStatus
  | .smbDeviceState | .smbBootStep | .smbPowerState | .smbTemperature | .smbKsCause | .smbFailStep
  | .jtagInstruction _ _ | .flitFcrcFailure _ | .vddAonApplied | .gratuitousArpRepeat | .rimLinksDown | .trstNLow => true

end Sys2Proof
end

