-- ==== Sys2Proof/Certificates/Slice0/Obligations.lean ====
section
/-! DEFINITION. The statements for the provers, by family of the commands and by kind of state. -/

open Sys2Proof Sys2Proof.Machine

/-- A received pause (R36, R29): the frame is counted as received, and for each class whose enable bit is set and whose pause is
honoured, quanta other than 0 put the class under pause for that time and quanta 0 releases it with its held frames. A class
whose bit is clear, or that does not honour pause, keeps its pause state, and nothing outside the rim, the port's clock and the
frames that leave changes. Pause time and storms of one class of one sub-MAC (R35, R36, R39): while a class that pauses its
partner is above XON, the device sends pause with quanta 0xFFFF again and counts that frame of 64 bytes. When the quanta given
pass, the held frames leave in their order and none is held. A storm discards the held frames, counts each as PFC_STORM and no
longer honours pause, with event 0x1101, and its end restores it with 0x1102. Without that condition none of the four changes
anything. Event payloads are laid out as log entry 9 says. -/
def Obligations.PauseOfOneClassOfOneSubMac : Prop :=
  (
    ∀ (s : State) (p : Fin 16) (sub : Fin 8) (enable : BitVec 8) (quanta : List (BitVec 16)),
      (subUp s.toBlk p.val sub.val = false → Gives (.pfcPauseReceived p sub enable quanta) s s.toBlk) ∧
      (subUp s.toBlk p.val sub.val = true →
        Reaches (.pfcPauseReceived p sub enable quanta) s fun t =>
          { t with rim := s.rim, pwr := s.pwr, out := s.out } = s.toBlk ∧
          ∀ c : Fin 8,
            let i := clsIx p.val sub.val c.val
            let r := pfcOf s.toBlk i
            (enable.getLsbD c.val = false ∨ r.storm = true → pfcOf t i = r) ∧
            (enable.getLsbD c.val = true → r.storm = false → (quanta.getD c.val 0).toNat ≠ 0 →
              pfcOf t i = { r with held := true, quanta := (quanta.getD c.val 0).toNat }) ∧
            (enable.getLsbD c.val = true → r.storm = false → (quanta.getD c.val 0).toNat = 0 →
              pfcOf t i = { r with held := false, quanta := 0, heldFrames := [] })) ∧
      (subUp s.toBlk p.val sub.val = true → (∀ c : Fin 8, quanta.getD c.val 0 ≠ 0) →
        Reaches (.pfcPauseReceived p sub enable quanta) s fun t =>
          t.out = s.out ∧ t.pwr = (startClock s.toBlk (2 + p.val)).pwr ∧
          t.rim.cnt = (addRim (countRim s.toBlk (subIx p.val sub.val) 17) (subIx p.val sub.val) 18 64).rim.cnt)) ∧
  (
    ∀ (s : State) (p : Fin 16) (sub c : Fin 8),
      let i := clsIx p.val sub.val c.val
      let m := subIx p.val sub.val
      let r := pfcOf s.toBlk i
      let above := r.pausing = true ∧ (pfcCfgOf s.toBlk i).xon * 1024 < r.occ ∧ subUp s.toBlk p.val sub.val = true
      (above → Gives (.pfcPauseRepeat p sub c) s
        (emit (addRim (countRim (startClock s.toBlk (2 + p.val)) m 19) m 20 64) (.pfc p.val sub.val c.val 0xFFFF))) ∧
      (¬ above → Gives (.pfcPauseRepeat p sub c) s s.toBlk) ∧
      (r.held = true → Gives (.pauseQuantaExpire p sub c) s
        (r.heldFrames.foldl sendNow (setPfc s.toBlk i { r with held := false, quanta := 0, heldFrames := [] }))) ∧
      (r.held = false → Gives (.pauseQuantaExpire p sub c) s s.toBlk) ∧
      (r.held = true → r.storm = false → Gives (.pfcStorm p sub c) s
        (raise (setPfc (addRim s.toBlk m 16 r.heldFrames.length) i
            { r with held := false, quanta := 0, storm := true, heldFrames := [] })
          0x1101 4 (2 + p.val) [BitVec.ofNat 8 m, BitVec.ofNat 8 c.val])) ∧
      (r.held = false ∨ r.storm = true → Gives (.pfcStorm p sub c) s s.toBlk) ∧
      (r.storm = true → Gives (.pfcStormEnd p sub c) s
        (raise (setPfc s.toBlk i { r with storm := false }) 0x1102 3 (2 + p.val) [BitVec.ofNat 8 m, BitVec.ofNat 8 c.val])) ∧
      (r.storm = false → Gives (.pfcStormEnd p sub c) s s.toBlk))

/-- The first cause of R28 that applies decides. A received frame (R24, R28, R29, R30, R31, R33): the port's clock starts; the
first cause of R28 that applies counts on its one counter and drops the frame; a PFC frame is counted and its pauses are taken
(R36); a slow-path frame with room is counted as received and queued for the hub, and one over the limits of R31 counts
SLOW_OVERRUN; a CKT datagram is counted, occupies its class and waits in the port's ingress buffer; either without buffer counts
NO_BUFFER. A sub-MAC that is down takes nothing. -/
def Obligations.ReceivedFrameGoesWhereTheRulesSend : Prop :=
  (
    ∀ (s : Blk) (p sub : Nat) (f : Bytes) (pcsErr : Bool),
      let e := parseEth f
      let cfg := cfgOf s (subIx p sub)
      (pcsErr = true → judgeFrame s p sub f pcsErr = .drop 1) ∧
      (pcsErr = false → e.fcsGood = false → judgeFrame s p sub f pcsErr = .drop 2) ∧
      (pcsErr = false → e.fcsGood = true → e.len < 64 → judgeFrame s p sub f pcsErr = .drop 3) ∧
      (pcsErr = false → e.fcsGood = true → 64 ≤ e.len → cfg.mtu + (if e.tagged then 22 else 18) < e.len →
        judgeFrame s p sub f pcsErr = .drop 4)) ∧
  (
    ∀ (s : State) (p : Fin 16) (sub : Fin 8) (f : Bytes) (pcsErr : Bool),
      let s1 := startClock s.toBlk (2 + p.val)
      let i := p.val * 8 + sub.val
      let k := i * 8 + ingressClass s1 i (parseEth f)
      let times := s.rim.slowTimes.filter fun t => s.now < t.1 + 1250000000
      let room := times.length < 65536 ∧ (times.filter fun t => t.2 = p.val).length < 4096 ∧ s.rim.slowq.length < 1024
      (subUp s.toBlk p.val sub.val = false → Gives (.receiveFrame p sub f pcsErr) s s.toBlk) ∧
      (subUp s.toBlk p.val sub.val = true →
        (∀ c, judgeFrame s1 p.val sub.val f pcsErr = .drop c → Gives (.receiveFrame p sub f pcsErr) s (countRim s1 i (c - 1))) ∧
        (∀ m, judgeFrame s1 p.val sub.val f pcsErr = .pfc m → Gives (.receiveFrame p sub f pcsErr) s
          (pauseReceived (addRim (countRim s1 i 17) i 18 f.length) p.val sub.val (BitVec.ofNat 8 (beAt m 2 2))
            ((List.range 8).map fun c => BitVec.ofNat 16 (beAt m (4 + 2 * c) 2)))) ∧
        (judgeFrame s1 p.val sub.val f pcsErr = .slow → bufferFull s1 p.val k f.length = true →
          Gives (.receiveFrame p sub f pcsErr) s (countRim s1 i 13)) ∧
        (judgeFrame s1 p.val sub.val f pcsErr = .slow → bufferFull s1 p.val k f.length = false → room →
          Gives (.receiveFrame p sub f pcsErr) s (addRim (countRim { s1 with rim := { s1.rim with
            slowq := s.rim.slowq ++ [(p.val, f)], slowTimes := times ++ [(s.now, p.val)] } } i 17) i 18 f.length)) ∧
        (judgeFrame s1 p.val sub.val f pcsErr = .slow → bufferFull s1 p.val k f.length = false → ¬ room →
          Gives (.receiveFrame p sub f pcsErr) s (countRim { s1 with rim := { s1.rim with slowTimes := times } } i 14)) ∧
        (∀ e ip, judgeFrame s1 p.val sub.val f pcsErr = .ckt e ip →
          let k := i * 8 + ingressClass s1 i e
          (bufferFull s1 p.val k f.length = true → Gives (.receiveFrame p sub f pcsErr) s (countRim s1 i 13)) ∧
          (bufferFull s1 p.val k f.length = false → Reaches (.receiveFrame p sub f pcsErr) s fun t =>
            ∃ d, t.rim.ingress = s.rim.ingress ++ [d] ∧ d.size = f.length ∧ d.ecn = ip.ecn ∧ d.payload = ip.body.drop 8 ∧
              d.eg.port = p.val ∧ d.eg.sub = sub.val ∧ d.eg.dstMac = e.sa ∧ d.eg.dstIp = ip.src ∧
              (pfcOf t k).occ = (pfcOf s.toBlk k).occ + f.length))))

/-- Waiting frames of a session that consume no sequence number. An ACK (R48, R52) frees the retained frames that its release
point passes or its SACK block marks; its window was taken when it was received (R54). A half-open entry (R58) leaves at its
timeout and its number goes to the tail of the free list (R60). NAK (R51): it frees what it releases; each retained frame that
is named is sent again, in SEQ order, where the release gate lets it pass (R384); each named number that is not retained counts
as NAK_STALE. With no such frame waiting neither changes anything. -/
def Obligations.AcksNaksAndHalfOpenExpiry : Prop :=
  (
    (∀ (s : State) (sn : Nat) (f : RxFrame) (ss : Session),
      s.xpt.ctl.find? (fun f => f.hdr.session = sn ∧ f.hdr.type = 0x7) = some f → sessOf s.toBlk sn = some ss → ss.afterReset = false →
      let map := if f.hdr.sackOff = 0xFFFF then 0 else beAt f.payload f.hdr.sackOff 32
      let kept := ss.retained.filter fun r => !(seqBefore r.seq f.hdr.ack) && !(sackHas map f.hdr.ack r.seq)
      Gives (.ack sn) s { s.toBlk with xpt := { s.xpt with
        ctl := s.xpt.ctl.erase f
        sessions := s.xpt.sessions.set sn { ss with retained := kept } } }) ∧
    (∀ (s : State) (sn : Nat), s.xpt.ctl.find? (fun f => f.hdr.session = sn ∧ f.hdr.type = 0x7) = none → Gives (.ack sn) s s.toBlk) ∧
    (∀ (s : State) (sn : Nat), s.xpt.ctl.find? (fun f => f.hdr.session = sn ∧ f.hdr.type = 0x8) = none → Gives (.nak sn) s s.toBlk) ∧
    (∀ (s : State) (sn : Nat), s.xpt.half.has sn = true →
      Gives (.halfOpenExpire sn) s { s.toBlk with xpt := { s.xpt with half := s.xpt.half.del sn, freed := s.xpt.freed ++ [sn] } }) ∧
    (∀ (s : State) (sn : Nat), s.xpt.half.has sn = false → Gives (.halfOpenExpire sn) s s.toBlk)) ∧
  (
    ∀ (s : State) (sn : Nat) (f : RxFrame) (ss : Session),
      s.xpt.ctl.find? (fun f => f.hdr.session = sn ∧ f.hdr.type = 0x8) = some f → sessOf s.toBlk sn = some ss → ss.afterReset = false →
      let map := if f.hdr.sackOff = 0xFFFF then 0 else beAt f.payload f.hdr.sackOff 32
      let kept := ss.retained.filter fun r => !(seqBefore r.seq f.hdr.ack) && !(sackHas map f.hdr.ack r.seq)
      let s1 := setSess { s.toBlk with xpt := { s.xpt with ctl := s.xpt.ctl.erase f } } sn { ss with retained := kept }
      let named := nakSeqs f.hdr f.payload
      let stale := named.filter fun q => ¬ kept.any fun r => r.seq = q
      let s2 := stale.foldl (fun s _ => countXpt s 10) s1
      Gives (.nak sn) s ((kept.filter fun r => named.contains r.seq).foldl (fun s r =>
        match sessOf s sn with
        | some ss => if gatePasses s r.frame then sendResponse s sn ss r.seq r.frame else s
        | none => s) s2))

/-- ABORT in SEQ order (R83, R86): a QUEUED or ACTIVE command stops with ABORTED, its completion ahead of the notice, which says
OK; a COMMITTING one runs on and the notice says TOO_LATE; a tag with no command answers NOT_FOUND. The notice names the ABORT's
SEQ. With no ABORT next in order nothing changes. -/
def Obligations.AbortByTagState : Prop :=
  (∀ (s : State) (sn : Nat), takeSeq s.toBlk sn 0x9 = none → Gives (.abort sn) s s.toBlk) ∧
  (∀ (s : State) (sn : Nat) (f : RxFrame) (s1 : Blk) (ss : Session),
    takeSeq s.toBlk sn 0x9 = some (f, s1) → sessOf s1 sn = some ss →
    let t := (f.payload.getD 0 0).toNat % 32
    let q := f.hdr.seq.toNat
    ((tagOf ss t).st = .queued ∨ (tagOf ss t).st = .active →
      Gives (.abort sn) s (edgeAck (queueNotice (deliverDue (stopTag s1 sn t 0x0104) sn t) sn 0x01 t 0 q 0) sn)) ∧
    ((tagOf ss t).st = .committing → Gives (.abort sn) s (edgeAck (queueNotice s1 sn 0x01 t 0x0110 q 0) sn)) ∧
    ((tagOf ss t).st = .idle ∨ (tagOf ss t).st = .completing →
      Gives (.abort sn) s (edgeAck (queueNotice s1 sn 0x01 t 0x0303 q 0) sn)))

/-- RESET and CLOSE in SEQ order (R62, R88): a reset discards the retained frames, resets every tag and owes its RESET_DONE; a
CLOSE acts on every tag and closes the session, whose CLOSE_ACK leaves, and which is freed, once no started write runs and the
completions of the commands that ended have been sent. -/
def Obligations.ResetAndCloseOfASession : Prop :=
  (∀ (s : State) (sn : Nat), takeSeq s.toBlk sn 0xA = none → Gives (.reset sn) s s.toBlk) ∧
  (∀ (s : State) (sn : Nat) (f : RxFrame) (s1 : Blk) (ss : Session),
    takeSeq s.toBlk sn 0xA = some (f, s1) → sessOf s1 sn = some ss →
    Gives (.reset sn) s (edgeAck (resetCheck ((List.range 32).foldl (fun s t => resetTag s sn t)
      (setSess s1 sn { ss with retained := [], tagMap := 0, resetting := some f.hdr.seq.toNat })) sn) sn)) ∧
  (∀ (s : State) (sn : Nat), takeSeq s.toBlk sn 0xB = none → Gives (.close sn) s s.toBlk) ∧
  (∀ (s : State) (sn : Nat) (f : RxFrame) (s1 : Blk),
    takeSeq s.toBlk sn 0xB = some (f, s1) →
    Gives (.close sn) s
      (edgeAck (modSess ((List.range 32).foldl (fun s t => closeTag s sn t) s1) sn fun ss => { ss with closing := true }) sn)) ∧
  (∀ (s : State) (sn : Nat), sessOf s.toBlk sn = none → Gives (.closeAck sn) s s.toBlk) ∧
  (∀ (s : State) (sn : Nat) (ss : Session), sessOf s.toBlk sn = some ss →
    let over_ := ss.closing = true ∧ writesRun ss = false ∧ ss.respq = [] ∧ ∀ t ∈ ss.tags.vals, t.due = false
    (over_ → Gives (.closeAck sn) s (freeSession (sendControl s.toBlk sn 0xC 0xFFFF []) sn)) ∧
    (¬ over_ → Gives (.closeAck sn) s s.toBlk))

/-- The oldest waiting response frame leaves where credit, room and the release gate allow (R52, R54, R384): it takes the next
device sequence number, is retained with it and leaves the queue, and the count of frames sent rises by one; the last frame of a
response lets its tag go to IDLE once the command is whole (R80), and the notice RESET_DONE ends the wait of a session whose
held commands a failed activation ended (R90). Where they do not allow it the frame stays. With no frame left the commands that
stayed ACTIVE for room are finished (R52). -/
def Obligations.ResponseFrameLeavesInOrder : Prop :=
  (∀ (s : State) (sn : Nat), sessOf s.toBlk sn = none → Gives (.responseFrameSend sn) s s.toBlk) ∧
  (∀ (s : State) (sn : Nat) (ss : Session), sessOf s.toBlk sn = some ss → ss.respq = [] →
    Gives (.responseFrameSend sn) s (releaseHeld s.toBlk sn)) ∧
  (∀ (s : State) (sn : Nat) (ss : Session) (f : RespFrame) (rest : List RespFrame),
    sessOf s.toBlk sn = some ss → ss.respq = f :: rest →
    (maySend s.toBlk ss f.payload.length = true → gatePasses s.toBlk f = true →
      let s1 := raiseSeqTop (modSess (sendResponse s.toBlk sn ss ss.txNext f) sn fun x =>
        { x with respq := rest, afterReset := x.afterReset && !(f.notice && f.payload.getD 0 0 == 2#8), txNext := ss.txNext + 1, sentCount := x.sentCount + 1
                 retained := x.retained ++ [{ seq := ss.txNext, frame := f }] }) sn
      (f.final = false ∨ f.notice = true → Gives (.responseFrameSend sn) s s1) ∧
      (f.final = true → f.notice = false → ∀ x, sessOf s1 sn = some x →
        Gives (.responseFrameSend sn) s (settleTag (putTag s1 sn f.tag { tagOf x f.tag with sentFinal := true }) sn f.tag))) ∧
    (maySend s.toBlk ss f.payload.length = false ∨ gatePasses s.toBlk f = false → Gives (.responseFrameSend sn) s s.toBlk))

/-- A datagram that a port holds reaches the transport engine (R33, R44, R54, R55, R61): its buffer is freed; causes 1 to 5 of
its form count on their own counters; an open frame waits for the hub; a frame of no open session counts SESSION_UNKNOWN and is
answered GONE; a delivered frame of a session marked CE sets ECE, dropped or not; causes 7 to 10 count, and the last two
acknowledge; a broken seal counts; wire keys of another session are not used (R147); a frame is accepted by its session, which
takes its window at once. A port that holds none changes nothing. -/
def Obligations.DatagramIsJudgedInOrder : Prop :=
  (∀ (s : State) (p : Fin 16), s.rim.ingress.find? (fun d => d.eg.port = p.val) = none → Gives (.cktFrameReceive p) s s.toBlk) ∧
  (∀ (s : State) (p : Fin 16) (d : RxDgram),
    s.rim.ingress.find? (fun d => d.eg.port = p.val) = some d →
    let s1 := idleExit (vacate { s.toBlk with rim := { s.rim with ingress := s.rim.ingress.erase d } }
      (clsIx d.eg.port d.eg.sub d.eg.cls) d.size)
    let h := parseCkt d.payload
    let b := slice d.payload 32 h.payloadLen
    (∀ c, formOfFrame d.payload = some c → Gives (.cktFrameReceive p) s (countXpt s1 (c - 1))) ∧
    (formOfFrame d.payload = none →
      (h.type = 0x1 ∨ h.type = 0x3 → Gives (.cktFrameReceive p) s
        { s1 with xpt := { s1.xpt with opens := s1.xpt.opens ++ [{ hdr := h, payload := b, eg := d.eg, ce := d.ecn == 3 }] } }) ∧
      (h.type ≠ 0x1 → h.type ≠ 0x3 →
        (sessOf s1 h.session = none → Gives (.cktFrameReceive p) s (goneReply (countXpt s1 5) d.eg h)) ∧
        (∀ ss, sessOf s1 h.session = some ss → ss.ring = none →
          let s2 := markCe s1 h d.ecn
          (d.ecn ≠ 3 → s2 = s1) ∧
          (d.ecn = 3 → h.cookie = ss.cookie → s2 = setSess s1 h.session { ss with ece := true }) ∧
          (∀ c, sessionCause ss h = some c → c < 9 → Gives (.cktFrameReceive p) s (countXpt s2 (c - 1))) ∧
          (∀ c, sessionCause ss h = some c → 9 ≤ c →
            Gives (.cktFrameReceive p) s (sendAck (countXpt s2 (c - 1)) h.session)) ∧
          (sessionCause ss h = none → wireOwned ss h.session = false → h.type = 0x6 ∨ h.type = 0x9 →
            Gives (.cktFrameReceive p) s (isolationEvent s2 69 0xFFFF ss.tenant)) ∧
          (sessionCause ss h = none → wireOwned ss h.session = true →
            (clearPayload ss h b = none → Gives (.cktFrameReceive p) s (countXpt s2 12)) ∧
            (∀ q, clearPayload ss h b = some q → Gives (.cktFrameReceive p) s (acceptFrame s2 h.session d.eg h q)))))))

/-- Opening (R56-R58, R60): a new OPEN_REQ in RUN takes a session number, holds a half-open entry with the nonces and is
answered OPEN_CHAL; a repeated one is answered with the same challenge; with no room even by eviction it is refused BUSY_RETRY,
and in a state that refuses opens with that state's status. An OPEN_PROOF whose proof holds opens the session; one whose proof
fails loses its entry, raises 0x2001 and is refused NOT_PERMITTED, as is one of a tenant that is gone or disabled; one that
names no entry and no session is answered GONE; a repeat of a proof that opened receives the same OPEN_ACCEPT again. During
ACTIVATING both wait. Event payloads are laid out as log entry 9 says. -/
def Obligations.OpeningASession : Prop :=
  (∀ (s : State), s.dev = .activating → Gives .openReq s s.toBlk ∧ Gives .openProof s s.toBlk) ∧
  (∀ (s : State) (f : RxFrame), s.dev ≠ .activating → openCause s.dev ≠ 0 →
    let s0 := { s.toBlk with xpt := { s.xpt with opens := s.xpt.opens.erase f } }
    let sn := f.hdr.session
    (s.xpt.opens.find? (fun f => f.hdr.type = 0x1) = some f → Gives .openReq s (openReject s0 f.eg 0 (openCause s.dev) s.dev.code)) ∧
    (s.xpt.opens.find? (fun f => f.hdr.type = 0x3) = some f → s.xpt.half.has sn = true →
      Gives .openProof s (openReject (dropHalf s0 sn) f.eg sn (openCause s.dev) s.dev.code))) ∧
  (∀ (s : State) (f : RxFrame),
    s.dev = .run → s.xpt.opens.find? (fun f => f.hdr.type = 0x1) = some f →
    let s0 := { s.toBlk with xpt := { s.xpt with opens := s.xpt.opens.erase f } }
    (∀ sn n, earlierChal s0 f = some (sn, n) → Gives .openReq s (sendChal s0 f.eg sn n f.ce)) ∧
    (earlierChal s0 f = none → makeRoom (trimHalf s0) = none → Gives .openReq s (openReject s0 f.eg 0 0x0101 0)) ∧
    (∀ s1, earlierChal s0 f = none → makeRoom (trimHalf s0) = some s1 → takeNumber s1 = none → Gives .openReq s (openReject s1 f.eg 0 0x0101 0)) ∧
    (∀ s1 sn s2, earlierChal s0 f = none → makeRoom (trimHalf s0) = some s1 → takeNumber s1 = some (sn, s2) →
      let d := drawBytes s2 16
      let x : HalfOpen := { tenant := beAt f.payload 0 2, options := beAt f.payload 2 2, eg := f.eg,
                            clientInit := f.hdr.seq, credit := f.hdr.credit, clientNonce := slice f.payload 8 16,
                            deviceNonce := d.1, at_ := s2.now }
      Gives .openReq s (sendChal { d.2 with xpt := { d.2.xpt with half := d.2.xpt.half.set sn x } } f.eg sn d.1 f.ce))) ∧
  (∀ (s : State) (f : RxFrame),
    s.dev = .run → s.xpt.opens.find? (fun f => f.hdr.type = 0x3) = some f →
    let s0 := { s.toBlk with xpt := { s.xpt with opens := s.xpt.opens.erase f } }
    let sn := f.hdr.session
    (∀ x t, s0.xpt.half.get? sn = some x → s.tenants.get? x.tenant = some t → t.disabled = false →
      let key := accessKey s0 x.tenant
      (hmac256 key (proofBytes "CKT-C" sn x) = slice f.payload 0 32 →
        (x.options.testBit 1 = false ∨ t.adminPermit = true → Gives .openProof s (openSession s0 sn f x key)) ∧
        (x.options.testBit 1 = true → t.adminPermit = false →
          Gives .openProof s (openReject (dropHalf s0 sn) f.eg sn 0x0205 0))) ∧
      (hmac256 key (proofBytes "CKT-C" sn x) ≠ slice f.payload 0 32 →
        Gives .openProof s (openReject (raise (dropHalf s0 sn) 0x2001 4 69 (leBytes 2 x.tenant ++ f.eg.dstIp)) f.eg sn 0x0205 0))) ∧
    (∀ x, s0.xpt.half.get? sn = some x → (∀ t, s.tenants.get? x.tenant = some t → t.disabled = true) →
      Gives .openProof s (openReject (dropHalf s0 sn) f.eg sn 0x0205 0)) ∧
    (s0.xpt.half.get? sn = none → sessOf s0 sn = none → Gives .openProof s (goneReply (countXpt s0 5) f.eg f.hdr)) ∧
    (∀ ss, s0.xpt.half.get? sn = none → sessOf s0 sn = some ss → sameSource ss.openEg f.eg = true → ss.proof = slice f.payload 0 32 →
      Gives .openProof s (sendAccept s0 f.eg sn ss (halfOf ss) (accessKey s0 ss.tenant) f.ce)))

/-- DATA in SEQ order by the state of its tag (R64, R80-R82): a tag under refusal and a command that has ended discard and count
the frame; an IDLE tag takes it as the first frame of a command; a tag whose command has arrived whole is refused TAG_IN_USE;
another OPCODE stops the command with BAD_REQUEST; any other frame adds its bytes to the command. A session that closes takes
none, and with no DATA next in order nothing changes. -/
def Obligations.DataFrameByTagState : Prop :=
  (∀ (s : State) (sn : Nat), takeSeq s.toBlk sn 0x6 = none → Gives (.data sn) s s.toBlk) ∧
  (∀ (s : State) (sn : Nat) (f : RxFrame) (s1 : Blk) (ss : Session),
    takeSeq s.toBlk sn 0x6 = some (f, s1) → sessOf s1 sn = some ss →
    let t := f.hdr.tag
    let x := tagOf ss t
    let b := commandBytes f.hdr f.payload
    (ss.closing = true → Gives (.data sn) s (edgeAck s1 sn)) ∧
    (ss.closing = false → x.refusing = true →
      Gives (.data sn) s (edgeAck (countXpt (putTag s1 sn t { x with refusing := !f.hdr.final }) 11) sn)) ∧
    (ss.closing = false → x.refusing = false →
      (x.st = .idle → Gives (.data sn) s (edgeAck (firstFrame s1 sn t x f b) sn)) ∧
      (x.st ≠ .idle → x.gotFinal = true → Gives (.data sn) s
        (edgeAck (queueNotice (putTag s1 sn t { x with refusing := !f.hdr.final }) sn 0x03 t 0x0202 f.hdr.seq.toNat 0) sn)) ∧
      (x.st = .completing → x.gotFinal = false → Gives (.data sn) s (edgeAck (discardTail s1 sn t x f.hdr.final) sn)) ∧
      (x.st ≠ .idle → x.st ≠ .completing → x.gotFinal = false → x.opcode ≠ f.hdr.opcode → Gives (.data sn) s
        (edgeAck (stopTag (putTag s1 sn t { x with gotFinal := f.hdr.final }) sn t 0x0201) sn)) ∧
      (x.st ≠ .idle → x.st ≠ .completing → x.gotFinal = false → x.opcode = f.hdr.opcode → Gives (.data sn) s
        (edgeAck (advanceTag (putTag s1 sn t { x with buf := x.buf ++ b, gotFinal := f.hdr.final }) sn t) sn))))

/-- Dispatch (R84, R87, R90, R91, R195, R286): a command received whole that nothing holds starts and its tag is ACTIVE, and an
Iawatal command goes to the hub as a cell; one whose namespace or device no longer admits it ends with that status; one that
ordering, a held device, a braking spoke or a split link holds stays. -/
def Obligations.DispatchStartsOrHolds : Prop :=
  (∀ (s : State) (slot : Nat), cmdOf s.toBlk slot = none → Gives (.commandDispatch slot) s s.toBlk) ∧
  (∀ (s : State) (slot : Nat) (c : Cmd) (ss : Session),
    cmdOf s.toBlk slot = some c → sessOf s.toBlk c.session = some ss → c.phase = .queued → (tagOf ss c.tag).gotFinal = true →
    let held := s.dev = .activating ∨ ss.owesReset = true ∨ orderHolds ss (tagOf ss c.tag) = true ∨ brakeHolds s.toBlk c = true ∨
      splitHolds s.toBlk c = true
    (held → Gives (.commandDispatch slot) s s.toBlk) ∧
    (¬ held → (dispatchCause s.toBlk c).1 ≠ 0 → Gives (.commandDispatch slot) s
      (failCmd s.toBlk slot (dispatchCause s.toBlk c).1 (dispatchCause s.toBlk c).2 0)) ∧
    (¬ held → (dispatchCause s.toBlk c).1 = 0 →
      let s1 := putTag (setCmd s.toBlk slot { c with phase := .started }) c.session c.tag { tagOf ss c.tag with st := .active }
      (isAdminOp c.opcode = false → Gives (.commandDispatch slot) s s1) ∧
      (isAdminOp c.opcode = true → Gives (.commandDispatch slot) s (handOn s1 slot c 0xA))))

/-- The first step of the key-value commands once they are dispatched: GET and GET_VERSION go to the in-flight key table (R20,
R122), PUT and DELETE to the key index engine, where they wait for their reservation (R21, R120), each as one cell of its own
command; FLUSH completes once no command received before it in its session is still to complete, and waits until then (R87). A
slot that holds no such command is left as it is. The order of the steps inside a command is that of spec/95. -/
def Obligations.KeyValueCommandsBegin : Prop :=
  ∀ (s : State) (slot : Nat),
    (∀ c, cmdOf s.toBlk slot = some c → c.phase = .started →
      (c.opcode = 0x01 → Gives (.get slot) s
        (sendCell (setCmd s.toBlk slot { c with phase := .handed }) (cellOf { cmdRt c with next := 0x3, kind := 0x0 } []))) ∧
      (c.opcode = 0x02 → Gives (.getVersion slot) s
        (sendCell (setCmd s.toBlk slot { c with phase := .handed }) (cellOf { cmdRt c with next := 0x3, kind := 0x0 } []))) ∧
      (c.opcode = 0x03 → Gives (.put slot) s
        (sendCell (setCmd s.toBlk slot { c with phase := .handed }) (cellOf { cmdRt c with next := 0x4, kind := 0x0 } []))) ∧
      (c.opcode = 0x04 → Gives (.delete slot) s
        (sendCell (setCmd s.toBlk slot { c with phase := .handed }) (cellOf { cmdRt c with next := 0x4, kind := 0x0 } []))) ∧
      (c.opcode = 0x05 → ∀ ss, sessOf s.toBlk c.session = some ss →
        let before := ∃ t ∈ ss.tags.vals, t.order < c.order ∧ (t.st = .queued ∨ t.st = .active ∨ t.st = .committing)
        (before → Gives (.flush slot) s s.toBlk) ∧
        (¬ before → Gives (.flush slot) s (failCmd s.toBlk slot 0 0 0)))) ∧
    (cmdOf s.toBlk slot = none →
      Gives (.get slot) s s.toBlk ∧ Gives (.getVersion slot) s s.toBlk ∧ Gives (.put slot) s s.toBlk ∧
      Gives (.delete slot) s s.toBlk ∧ Gives (.flush slot) s s.toBlk)

/-- Multipart uploads (R75-R79): MP_BEGIN takes the next UPLOAD_ID, reserves the data run in gear 4, records the upload and
answers OK with the UPLOAD_ID; at a limit of R78 it answers UPLOAD_LIMIT. MP_COMMIT of a complete upload goes to its reservation
and the upload lives on; MP_ABANDON frees the upload and answers OK; an expiry frees it with event 0x3002. An unknown upload
answers UPLOAD_UNKNOWN. That a run for which the LGAs have no room answers NAMESPACE_FULL is the model's choice (log entry 46).
Event payloads are laid out as log entry 9 says. -/
def Obligations.UploadsBeginCommitAbandonExpire : Prop :=
  (∀ (s : State) (slot : Nat) (c : Cmd), cmdOf s.toBlk slot = some c → c.phase = .started →
    (c.opcode = 0x10 →
      let mine := (s.cmd.uploads.vals.filter fun u => u.tenant = c.tenant).length
      let full := 65536 ≤ s.cmd.uploads.length ∨ 1024 ≤ mine
      (full → Gives (.mpBegin slot) s (failCmd s.toBlk slot 0x0503 0 0)) ∧
      (¬ full → lgaRoom s.toBlk (grainsOf c.head.valueLen) = false → Gives (.mpBegin slot) s (failCmd s.toBlk slot 0x0501 0 0)) ∧
      (¬ full → lgaRoom s.toBlk (grainsOf c.head.valueLen) = true →
        let uid := nextUpload s.toBlk
        let r := takeLga s.toBlk c.head.ns 4 (grainsOf c.head.valueLen)
        let u : Upload := { tenant := c.tenant, ns := c.head.ns, key := c.key, total := c.head.valueLen, dataLga := r.1, lastAt := s.now }
        let s1 := setUpload r.2 uid u
        let s2 := sendUpload { s1 with cmd := { s1.cmd with uploadSeq := uid } } uid
        let s3 := setCmd s2 slot { c with head := { c.head with uploadId := uid } }
        (c.ring = none → Gives (.mpBegin slot) s (failCmd (streamBody s3 slot (beBytes 4 uid ++ zeros 4)) slot 0 0 0)) ∧
        (∀ q, c.ring = some q → Gives (.mpBegin slot) s (failCmd s3 slot 0 0 0)))) ∧
    (c.opcode = 0x12 →
      (uploadOf s.toBlk c = none → Gives (.mpCommit slot) s (failCmd s.toBlk slot 0x0304 0 0)) ∧
      (∀ u, uploadOf s.toBlk c = some u →
        let s1 := setUpload s.toBlk c.head.uploadId { u with lastAt := s.now }
        let whole := c.head.valueLen = u.total ∧
          ∀ g < grainsOf u.total, ∃ p ∈ u.parts, p.grain ≤ g ∧ g < p.grain + p.grains
        (whole → Gives (.mpCommit slot) s
          (sendCell (setCmd s1 slot { c with phase := .handed }) (cellOf { cmdRt c with next := 0x4, kind := 0x0 } []))) ∧
        (¬ whole → Gives (.mpCommit slot) s (failCmd s1 slot 0x0305 0 0)))) ∧
    (c.opcode = 0x13 →
      (uploadOf s.toBlk c ≠ none → Gives (.mpAbandon slot) s (failCmd (freeUpload s.toBlk c.head.uploadId) slot 0 0 0)) ∧
      (uploadOf s.toBlk c = none → Gives (.mpAbandon slot) s (failCmd s.toBlk slot 0x0304 0 0)))) ∧
  (∀ (s : State) (uid : Nat),
    (∀ u, s.cmd.uploads.get? uid = some u →
      Gives (.uploadExpire uid) s (raise (freeUpload s.toBlk uid) 0x3002 2 71 (leBytes 4 uid ++ leBytes 2 u.tenant))) ∧
    (s.cmd.uploads.get? uid = none → Gives (.uploadExpire uid) s s.toBlk))

/-- MP_PART (R76, R79, R94, R180): a part beyond the value, or one not a multiple of 4,096 bytes that does not end it, is
BAD_REQUEST; one beyond the byte quota, which counts each grain of the upload once, is NAMESPACE_FULL; otherwise the part takes
the next write-sequence value, wins the grains it holds and leaves every other grain to the part that holds it, the quota counts
what the upload now holds, it passes its commit point, and its grains go to the cipher cluster. An unknown upload answers
UPLOAD_UNKNOWN. -/
def Obligations.PartOfAnUploadIsStored : Prop :=
  (∀ (s : State) (slot : Nat) (c : Cmd),
    cmdOf s.toBlk slot = some c → c.phase = .started → c.opcode = 0x11 → uploadOf s.toBlk c = none →
    Gives (.mpPart slot) s (failCmd s.toBlk slot 0x0304 0 0)) ∧
  (∀ (s : State) (slot : Nat) (c : Cmd) (u : Upload) (x : Namespace),
    cmdOf s.toBlk slot = some c → c.phase = .started → c.opcode = 0x11 → uploadOf s.toBlk c = some u → nsOf s.toBlk c.head.ns = some x →
    let g := c.head.partGrain
    let len := c.head.valueLen
    let stop := 4096 * g + len
    let n := grainsOf len
    let p : Part := { grain := g, grains := n, bytes := len, order := s.med.wseq, stage := s.idx.stageSeq }
    let next := { u with parts := addPart u.parts p, lastAt := s.now }
    let bad := u.total < stop ∨ (len % 4096 ≠ 0 ∧ stop ≠ u.total)
    let over_ := x.byteQuota ≠ 0 ∧ x.byteQuota + uploadBytes u < x.bytes + uploadBytes next
    (bad → Gives (.mpPart slot) s (failCmd s.toBlk slot 0x0201 0 0)) ∧
    (¬ bad → over_ → Gives (.mpPart slot) s (failCmd s.toBlk slot 0x0501 0 0)) ∧
    (¬ bad → ¬ over_ →
      let w := takeWseq s.toBlk
      let st : Stage := { ns := c.head.ns, tenant := c.tenant, key := c.key, kind := 4, valueLen := u.total, gear := 4,
                          lga := u.dataLga + g, count := n, slot := slot, upload := c.head.uploadId,
                          digest := digestOf s.toBlk c.head.ns c.key, partGrain := g, order := w.1 }
      let a := addStage { w.2 with med := { w.2.med with commits := s.med.commits + 1 } } st
      let s1 := setUpload a.2 c.head.uploadId next
      let s2 := setNs s1 c.head.ns { x with bytes := x.bytes + uploadBytes next - uploadBytes u }
      let s3 := commitTag (modCmd s2 slot fun c => { c with stage := some a.1, gear := 4 }) slot
      Gives (.mpPart slot) s
        (sendCells s3 (plainCells { cmdRt { c with gear := 4 } with next := 0x5, version := c.head.uploadId } g c.value)))) ∧
  (∀ (ps : List Part) (p : Part), (∀ q ∈ ps, q.grain + q.grains ≤ p.grain ∨ p.grain + p.grains ≤ q.grain) → p.grains ≠ 0 →
    (∀ q ∈ ps, q.grains ≠ 0) → ps.Pairwise (fun a b => a.grain + a.grains ≤ b.grain ∨ b.grain + b.grains ≤ a.grain) →
    addPart ps p = ps ++ [p])

/-- The condition of a write (R73): 0 always, 1 the version equal to EXPECT, 2 no current value, 3 a current value.
WRITE_RESERVATION of a PUT, a DELETE or an MP_COMMIT whose upload is whole (R73, R77, R94, R105, R120, R125): without a free
entry it waits, at the tail, or at the head when it lost the entry it held. With an entry, the page and the key record of a
candidate that is still away are read. With all of them in, the condition is judged against the newest version of the key,
in-flight writes included, and a write that fails it answers VERSION_MISMATCH with that version; a DELETE of no key answers
NOT_FOUND; a full quota answers; no free slot of the four buckets answers KEY_CAPACITY with event 0x4002; otherwise the write
commits in its slot. Event payloads are laid out as log entry 9 says. -/
def Obligations.WriteReservationDecides : Prop :=
  (
    ∀ (h : Head) (cur : Nat),
      (h.cond = 0 → condHolds h cur = true) ∧ (h.cond = 1 → (condHolds h cur = true ↔ cur = h.expect)) ∧
      (h.cond = 2 → (condHolds h cur = true ↔ cur = 0)) ∧ (h.cond = 3 → (condHolds h cur = true ↔ cur ≠ 0))) ∧
  (∀ (s : State) (slot : Nat) (pass : Bool), (∀ c, cmdOf s.toBlk slot = some c → c.phase ≠ .reserving) →
    Gives (.writeReservation slot pass) s s.toBlk) ∧
  (
    ∀ (s : State) (slot : Nat) (pass : Bool) (c : Cmd),
      cmdOf s.toBlk slot = some c → c.phase = .reserving →
      (c.opcode = 0x12 → commitCause s.toBlk c ≠ 0 →
        Gives (.writeReservation slot pass) s (judgeFull (failCmd s.toBlk slot (commitCause s.toBlk c) 0 0))) ∧
      (c.opcode = 0x03 ∨ c.opcode = 0x04 ∨ (c.opcode = 0x12 ∧ commitCause s.toBlk c = 0) →
        (heldEntry s.toBlk c = none → s.idx.waiters.contains slot = false →
          Gives (.writeReservation slot pass) s
            (judgeFull (modCmd { s.toBlk with idx := { s.idx with
              waiters := if c.entry.isSome then slot :: s.idx.waiters else s.idx.waiters ++ [slot] } } slot fun c => { c with entry := none }))) ∧
        (heldEntry s.toBlk c = none → s.idx.waiters.contains slot = true → Gives (.writeReservation slot pass) s s.toBlk) ∧
        (∀ ea, heldEntry s.toBlk c = some ea → pagesAway s.toBlk (digestOf s.toBlk c.head.ns c.key) ≠ [] →
          Gives (.writeReservation slot pass) s
            (fetchPages (judgeFull (modCmd s.toBlk slot fun c => { c with entry := some ea })) (pagesAway s.toBlk (digestOf s.toBlk c.head.ns c.key)))) ∧
        (∀ ea s1 sl, heldEntry s.toBlk c = some ea → pagesAway s.toBlk (digestOf s.toBlk c.head.ns c.key) = [] →
          currentOf s.toBlk c pass = (s1, .error sl) →
          let held := judgeFull (modCmd s.toBlk slot fun c => { c with entry := some ea })
          (readingHead s.toBlk slot sl = true → Gives (.writeReservation slot pass) s held) ∧
          (readingHead s.toBlk slot sl = false → Gives (.writeReservation slot pass) s (readHead held slot (locHead sl.loc) sl))) ∧
        (∀ ea s1 f x, heldEntry s.toBlk c = some ea → pagesAway s.toBlk (digestOf s.toBlk c.head.ns c.key) = [] →
          currentOf s.toBlk c pass = (s1, .ok f) → nsOf s1 c.head.ns = some x →
          let home := homeOf (digestOf s1 c.head.ns c.key)
          let place := f.place.or (freeSlotNear s1 home)
          (condHolds c.head f.version = false →
            Gives (.writeReservation slot pass) s (judgeFull (failCmd s1 slot 0x0302 0 f.version))) ∧
          (condHolds c.head f.version = true →
            (c.opcode = 0x04 → f.version = 0 → Gives (.writeReservation slot pass) s (judgeFull (failCmd s1 slot 0x0303 0 0))) ∧
            (c.opcode ≠ 0x04 ∨ f.version ≠ 0 →
              (quotaCause s1 x c f ≠ 0 → Gives (.writeReservation slot pass) s (judgeFull (failCmd s1 slot (quotaCause s1 x c f) 0 0))) ∧
              (quotaCause s1 x c f = 0 → place = none → Gives (.writeReservation slot pass) s
                (judgeFull (failCmd (raise s1 0x4002 4 68 (leBytes 4 home)) slot 0x0502 0 0))) ∧
              (∀ b i, quotaCause s1 x c f = 0 → place = some (b, i) →
                (dirOf s1 home).pending < 4095 → s1.idx.next < 0xFFFFFF →
                Gives (.writeReservation slot pass) s (judgeFull (commitFn s1 slot ea c x f b i))))))))

/-- An in-flight search (R122, R123): a verified match of the highest RANK is served, after a repair of a word that differs from
its SHADOW; a false hit raises 0x5001 and excludes the entry, four of them at most; a miss with PENDING 0 goes to the index, an
unsettled one searches again, a settled one queues for the shadow check. The shadow check of the lookup at the head of its queue
(R123): the best candidate that verifies is served, and with none the miss is genuine and the command goes to the index. With no
word that differs from its SHADOW and a compare test that passes, the candidates are the entries whose SHADOW is the key's;
where such a word differs it is repaired with 0x5002. Event payloads are laid out as log entry 9 says. -/
def Obligations.InflightLookupsFindTheNewestWrite : Prop :=
  (
    ∀ (s : State) (slot : Nat) (c : Cmd) (excl : List Nat) (settled : Bool),
      cmdOf s.toBlk slot = some c → c.phase = .searching excl settled →
      let d := digestOf s.toBlk c.head.ns c.key
      let key := camWord d c.head.ns 0
      let best := bestOf (camMatches s.toBlk 0 key (excl.take 4))
      (∀ ea e, best = some (ea, e) →
        (verifyEntry s.toBlk ea e key c = true → entryBad s.toBlk ea e = false →
          Gives (.inflightSearchResult slot) s (serveStage s.toBlk slot ea e)) ∧
        (verifyEntry s.toBlk ea e key c = true → entryBad s.toBlk ea e = true →
          Gives (.inflightSearchResult slot) s (serveStage (repairEntries s.toBlk [ea]) slot ea e)) ∧
        (verifyEntry s.toBlk ea e key c = false → excl.length < 3 →
          Gives (.inflightSearchResult slot) s
            (modCmd (raise s.toBlk 0x5001 5 (66 + ea / 8192 / 4) (leBytes 2 ea)) slot fun c => { c with phase := .searching (excl ++ [ea]) settled }))) ∧
      (best = none →
        ((dirOf s.toBlk (homeOf d)).pending = 0 → Gives (.inflightSearchResult slot) s
          (sendCell (setCmd s.toBlk slot { c with phase := .handed }) (cellOf { cmdRt c with next := 0x4, kind := 0x0 } []))) ∧
        ((dirOf s.toBlk (homeOf d)).pending ≠ 0 → settled = false →
          Gives (.inflightSearchResult slot) s (setCmd s.toBlk slot { c with phase := .searching excl true })) ∧
        ((dirOf s.toBlk (homeOf d)).pending ≠ 0 → settled = true →
          Gives (.inflightSearchResult slot) s
            (setCmd { s.toBlk with idx := { s.idx with shadowq := s.idx.shadowq ++ [slot] } } slot { c with phase := .shadow excl s.med.wseq })))) ∧
  (
    ∀ (s : State) (slot : Nat) (pass : Bool) (c : Cmd) (excl : List Nat) (since : Nat) (rest : List Nat),
      cmdOf s.toBlk slot = some c → c.phase = .shadow excl since → s.idx.shadowq = slot :: rest →
      let d := digestOf s.toBlk c.head.ns c.key
      let key := camWord d c.head.ns 0
      let s1 := { s.toBlk with idx := { s.idx with shadowq := rest } }
      let r := shadowScan s1 c excl since pass
      let mine := s.idx.cam.filter fun p => !excl.contains p.1 && maskHit (maskOf s.toBlk 0) key p.2.shadow
      let bad := s.idx.cam.filter fun p => homeOf (wordDigest p.2.shadow) == homeOf (wordDigest key) && entryBad s.toBlk p.1 p.2
      (∀ ea e, r.2 = some (ea, e) → Gives (.shadowCheck (slot, pass)) s (serveStage r.1 slot ea e)) ∧
      (r.2 = none → Gives (.shadowCheck (slot, pass)) s (toIndex r.1 slot)) ∧
      (bad = [] → mine = [] → r = (s1, none)) ∧
      (bad = [] → pass = true → excl.length < 4 → (∀ p ∈ mine, (bankOf s.toBlk (p.1 / 8192)).out = false ∧ p.2.word = p.2.shadow) →
        ∀ ea e, bestOf mine = some (ea, e) → stageIs s.toBlk e c = true → r = (s1, some (ea, e))) ∧
      (bad ≠ [] → excl.length < 4 → (∀ p ∈ s.idx.cam, excl.contains p.1 = true ∨ maskHit (maskOf s.toBlk 0) key p.2.shadow = false ∧ entryHit s.toBlk p.1 p.2 (maskOf s.toBlk 0) key = false) →
        r = (repairEntries s1 (bad.map Prod.fst), none)))

/-- The index (R101, R108, R109): a key of no matching fingerprint is NOT_FOUND; with every page in the cache the first
candidate is taken, its pages the last used; a page that is away is read. A candidate's key record that holds the key is the
value's; one that does not raises 0x4001 and the next candidate is taken; one that could not be read or rebuilt is VALUE_LOST;
one still to come is waited for; one whose key page does not go with the tenant is not used (R134). Event payloads are laid out
as log entry 9 says. -/
def Obligations.IndexLookupOutcomes : Prop :=
  (∀ (s : State) (slot : Nat) (c : Cmd), cmdOf s.toBlk slot = some c → c.phase = .lookup →
    let d := digestOf s.toBlk c.head.ns c.key
    let pages := ((fpMatches s.toBlk d).map Prod.fst).eraseDups
    let away := pages.filter fun b => !(dirOf s.toBlk b).cached && decide ((dirOf s.toBlk b).pageLoc ≠ 0)
    (fpMatches s.toBlk d = [] → Gives (.indexLookup slot) s (failCmd s.toBlk slot 0x0303 0 0)) ∧
    (fpMatches s.toBlk d ≠ [] → away = [] →
      Gives (.indexLookup slot) s (nextCandidate (pages.foldl touchPage s.toBlk) slot (slotMatches s.toBlk c.head.ns d))) ∧
    (fpMatches s.toBlk d ≠ [] → away ≠ [] →
      Gives (.indexLookup slot) s ((away.filter fun b => !readingPage s.toBlk b).foldl (fun s b =>
        startRead s (dirOf s b).pageLoc (some { kind := 4, lga := b }) (.bucketPage b)) s.toBlk))) ∧
  (∀ (s : State) (slot : Nat) (c : Cmd) (b i : Nat) (rest : List (Nat × Nat)) (sl : BSlot),
    cmdOf s.toBlk slot = some c → c.phase = .verifying ((b, i) :: rest) → (dirOf s.toBlk b).slots.get? i = some sl →
    (∀ head p, c.headIn.get? 0 = some (some head) → clearKeyRecord s.toBlk c.tenant sl head = some p →
      (keyRecordOk c sl p = true → Gives (.keyRecordVerify slot) s (verified s.toBlk slot c b i sl head)) ∧
      (keyRecordOk c sl p = false → Gives (.keyRecordVerify slot) s
        (nextCandidate (raise s.toBlk 0x4001 4 68 (leBytes 4 b ++ leBytes 1 i)) slot rest))) ∧
    (∀ head, c.headIn.get? 0 = some (some head) → clearKeyRecord s.toBlk c.tenant sl head = none →
      (ownerOk s.toBlk c.tenant c.tenant = false → Gives (.keyRecordVerify slot) s
        (failCmd (isolationEvent s.toBlk 68 c.tenant c.tenant) slot 0x0601 0 0)) ∧
      (ownerOk s.toBlk c.tenant c.tenant = true → Gives (.keyRecordVerify slot) s (failCmd s.toBlk slot 0x0601 0 0))) ∧
    (c.headIn.get? 0 = some none →
      Gives (.keyRecordVerify slot) s (failCmd (markLost s.toBlk b i) slot 0x0403 0 sl.version)) ∧
    (c.headIn.get? 0 = none → Gives (.keyRecordVerify slot) s s.toBlk))

/-- Retirement (R121): a write that is complete, with no older live entry of its key and its bucket page in the cache, is
absorbed into the page, leaves the table, lowers PENDING of its home bucket and frees its record; where its page is away the
page is read first; one that is not complete, or that an older entry precedes, stays. -/
def Obligations.RetirementAbsorbsTheOldestWrite : Prop :=
  (∀ (s : State) (ea : Nat), s.idx.cam.get? ea = none → Gives (.inflightRetire ea) s s.toBlk) ∧
  (∀ (s : State) (ea : Nat) (e : CamEntry) (x : Stage),
    s.idx.cam.get? ea = some e → s.idx.stages.get? e.stage = some x →
    let same := s.idx.cam.filter fun p => p.1 ≠ ea ∧ wordDigest p.2.shadow = wordDigest e.shadow ∧ wordNs p.2.shadow = wordNs e.shadow
    (x.complete = false ∨ (∃ p ∈ same, p.2.rank < e.rank) → Gives (.inflightRetire ea) s s.toBlk) ∧
    (x.complete = true → (∀ p ∈ same, e.rank ≤ p.2.rank) →
      (pageReady s.toBlk x.bslot.1 = false → readingPage s.toBlk x.bslot.1 = false → Gives (.inflightRetire ea) s
        (startRead s.toBlk (dirOf s.toBlk x.bslot.1).pageLoc (some { kind := 4, lga := x.bslot.1 }) (.bucketPage x.bslot.1))) ∧
      (pageReady s.toBlk x.bslot.1 = false → readingPage s.toBlk x.bslot.1 = true → Gives (.inflightRetire ea) s s.toBlk) ∧
      (pageReady s.toBlk x.bslot.1 = true →
        let s1 := absorb s.toBlk x (!same.isEmpty)
        let s2 := { s1 with idx := { s1.idx with cam := s1.idx.cam.del ea } }
        let s3 := modDir s2 x.home fun d => { d with pending := d.pending - 1 }
        Gives (.inflightRetire ea) s
          (freeStage (modStage (judgeFull (bankEmptied s3 (ea / 8192))) e.stage fun y => { y with retired := true }) e.stage))))

/-- Free entries of the in-flight table (R117, R124, R125): the oldest waiting write takes the lowest free entry once no move is
still to come, and both edges of a full table raise 0x5004. A sweep (R124) repairs the words of its bank that differ from their
SHADOW and takes a bank whose compare test fails out of service with 0x5003. A move (R124) takes the lowest live entry of a bank
out of service to a free entry, its words rewritten from SHADOW. Event payloads are laid out as log entry 9 says. -/
def Obligations.FreeEntriesSweepsAndMoves : Prop :=
  (∀ (b : Blk),
    (freeEntry b = none → b.idx.full = false →
      judgeFull b = raise { b with idx := { b.idx with full := true, camFull := b.idx.camFull + 1 } } 0x5004 3 66 [1#8]) ∧
    (freeEntry b ≠ none → b.idx.full = true → judgeFull b = raise { b with idx := { b.idx with full := false } } 0x5004 3 66 [0#8]) ∧
    ((freeEntry b = none ↔ b.idx.full = true) → judgeFull b = b)) ∧
  (∀ (s : State), writeEntry s.toBlk = none ∨ s.idx.waiters = [] → Gives .camWriteResume s (judgeFull s.toBlk)) ∧
  (∀ (s : State) (ea w : Nat) (ws : List Nat) (c : Cmd),
    writeEntry s.toBlk = some ea → s.idx.waiters = w :: ws → cmdOf s.toBlk w = some c →
    Gives .camWriteResume s (judgeFull (setCmd { s.toBlk with idx := { s.idx with waiters := ws } } w { c with entry := some ea }))) ∧
  (∀ (s : State) (b : Fin 8) (pass : Bool),
    let bad := (s.idx.cam.filter fun p => p.1 / 8192 = b.val ∧ entryBad s.toBlk p.1 p.2).map Prod.fst
    let mend := fun (ea : Nat) (e : CamEntry) => if bad.contains ea then { e with word := e.shadow, copy := e.shadow } else e
    let mended := if bad = [] then s.toBlk else
      raise { s.toBlk with idx := { s.idx with cam := s.idx.cam.mapVal mend } } 0x5002 5 66
        (leBytes 1 bad.length ++ (bad.take 13).flatMap fun a => leBytes 2 a)
    (pass = true ∨ (bankOf s.toBlk b.val).out = true → Gives (.camSweep b pass) s mended) ∧
    (pass = false → (bankOf s.toBlk b.val).out = false → Gives (.camSweep b pass) s
      (judgeFull (raise (modBank mended b.val fun x => { x with out := true }) 0x5003 6 (66 + b.val / 4) [BitVec.ofNat 8 b.val])))) ∧
  (∀ (s : State) (b : Fin 8) (ea dest : Nat) (e : CamEntry),
    (bankOf s.toBlk b.val).out = true → s.idx.cam.find? (fun p => p.1 / 8192 = b.val) = some (ea, e) → freeEntry s.toBlk = some dest →
    let e1 := { e with word := e.shadow, copy := e.shadow }
    let s1 := { s.toBlk with idx := { s.idx with cam := (s.idx.cam.del ea).set dest e1 } }
    let move := fun (c : Cmd) => if c.entry = some ea then { c with entry := some dest } else c
    Gives (.bankEntryMove b) s
      (judgeFull (bankEmptied { s1 with cmd := { s1.cmd with slots := s1.cmd.slots.mapVal fun _ c => move c } } b.val))) ∧
  (∀ (s : State) (b : Fin 8), (bankOf s.toBlk b.val).out = false ∨ freeEntry s.toBlk = none ∨ (∀ p ∈ s.idx.cam, p.1 / 8192 ≠ b.val) →
    Gives (.bankEntryMove b) s s.toBlk)

/-- A bank whose reconfiguration ends takes its mode, with event 0x5005, the jobs that named it go on and a mode ordered
meanwhile is then ordered (R119); a bank that is not being reconfigured keeps everything. Renormalisation (R116) begins when
NEXT reaches 0xC00000, gives the entry of lowest RANK the walk's next number, and ends with NEXT after the last number given.
Event payloads are laid out as log entry 9 says. -/
def Obligations.BankModesAndRenormalisation : Prop :=
  (∀ (s : State) (b : Fin 8) (w : Bool), (bankOf s.toBlk b.val).reconf = some w →
    let s1 := judgeFull (raise (modBank s.toBlk b.val fun y => { y with wide := w, reconf := none, after := none }) 0x5005 2 (66 + b.val / 4)
      [BitVec.ofNat 8 b.val, BitVec.ofNat 8 (boolNat w)])
    let s2 := camJobs s1 fun _ k => match k with
      | .camMode mask wide left taken => if left.testBit b.val ∧ wide = w then some (mask, left - 2 ^ b.val, taken, wide) else none
      | _ => none
    ((bankOf s.toBlk b.val).after = none → Gives (.camBankReconfigured b) s s2) ∧
    (∀ v, (bankOf s.toBlk b.val).after = some v → Gives (.camBankReconfigured b) s (orderMode s2 b.val v))) ∧
  (∀ (s : State) (b : Fin 8), (bankOf s.toBlk b.val).reconf = none → Gives (.camBankReconfigured b) s s.toBlk) ∧
  (∀ (s : State), s.idx.renorm = none →
    (0xC00000 ≤ s.idx.next → Gives .renormaliseStep s { s.toBlk with idx := { s.idx with renorm := some 0 } }) ∧
    (s.idx.next < 0xC00000 → Gives .renormaliseStep s s.toBlk)) ∧
  (∀ (s : State) (i : Nat), s.idx.renorm = some i →
    let todo := s.idx.cam.filter fun p => i ≤ p.2.rank
    (todo = [] → Gives .renormaliseStep s { s.toBlk with idx := { s.idx with next := i, renorm := none, renormHeld := false } }) ∧
    (∀ ea e, (ea, e) ∈ todo → (∀ p ∈ todo, p = (ea, e) ∨ e.rank < p.2.rank) →
      let cam := s.idx.cam.set ea { e with rank := i }
      (todo.length = 1 → Gives .renormaliseStep s { s.toBlk with idx := { s.idx with
        cam := cam, next := i + 1, renorm := none, renormHeld := false } }) ∧
      (todo.length ≠ 1 → Gives .renormaliseStep s { s.toBlk with idx := { s.idx with cam := cam, renorm := some (i + 1) } })))

/-- The write-back of a bucket page (R101, R180, R23): a DIRTY page in the cache that no write of it is under way for takes a
write-sequence value, is no longer DIRTY, and its body, encrypted under the XTS keys with tweak class 1, is appended as a write
of a bucket page, a cluster woken for it; any other page stays as it is. Key pages (R132, R135): a page whose PAGE_MAC is good
and whose generations unwrap joins the on-die cache and the cells that wait for it go on; a page that is not sound comes from
its decrypted flash image when that is sound, and one that flash does not give either is lost with event 0x600A; a page no
tenant has joins the cache as a free one. A finished reservation (R140): its AES-CMAC record of the counter's TOP is in the
pannier, the flash image follows the page, the next block is reserved when the counter is near TOP already, and the waiting
cells go on; with no reservation of that counter under way nothing changes. -/
def Obligations.BucketAndKeyPagesAreKept : Prop :=
  (
    ∀ (s : State) (b : Nat),
      let d := dirOf s.toBlk b
      (d.cached = true → d.dirty = true → pageBusy s.toBlk b = false →
        let r := takeWseq s.toBlk
        let d1 := { d with pageSeq := r.1, dirty := false, spill := trueSpill r.2 b }
        let s1 := useCluster (setDir r.2 b d1)
        let body := xtsEnc s1.cip.xts1 s1.cip.xts2 1 b (bucketPage b d1) ++ zeros 16
        Gives (.bucketPageWriteback b) s
          (assign { s1 with med := { s1.med with pages := s1.med.pages.set b d.slots } } sysNs 5 hostStream
            { lga := b, kind := 4, body := body, source := some d.pageLoc })) ∧
      (d.cached = false ∨ d.dirty = false ∨ pageBusy s.toBlk b = true → Gives (.bucketPageWriteback b) s s.toBlk)) ∧
  (
    ∀ (s : State) (n : Nat),
      let s1 := useCluster s.toBlk
      (s1.cip.pages.get? n = none → Gives (.keyPageFetch n) s (pageCached s1 n {})) ∧
      (∀ p : KeyPage, s1.cip.pages.get? n = some p → pageSound s1 p = true → Gives (.keyPageFetch n) s (pageCached s1 n p)) ∧
      (∀ (p : KeyPage) (image : Bytes), s1.cip.pages.get? n = some p → pageSound s1 p = false → s1.cip.flashPages.get? n = some image →
        let q := imagePage s1 n image
        Gives (.keyPageFetch n) s (if pageSound s1 q = true then pageCached { s1 with cip := { s1.cip with pages := s1.cip.pages.set n q } } n q
          else pageLost s1 n)) ∧
      (∀ p : KeyPage, s1.cip.pages.get? n = some p → pageSound s1 p = false → s1.cip.flashPages.get? n = none →
        Gives (.keyPageFetch n) s (pageLost s1 n))) ∧
  (
    ∀ (s : State) (n : Nat) (side : Fin 2),
      (∀ top : Nat, s.cip.reserving.find? (fun e => e.1 = n ∧ e.2.1 = side.val) = some (n, side.val, top) →
        let s1 := { s.toBlk with cip := { s.cip with
          reserving := s.cip.reserving.filter fun e => ¬ (e.1 = n ∧ e.2.1 = side.val)
          ctrRecs := s.cip.ctrRecs.set (2 * n + side.val) (ctrRecord s.toBlk n side.val top) } }
        Gives (.counterReservationDone n side) s (freeWaiting (reserveBlock (flashPage s1 n) n side.val) n)) ∧
      ((∀ e ∈ s.cip.reserving, ¬ (e.1 = n ∧ e.2.1 = side.val)) → Gives (.counterReservationDone n side) s s.toBlk))

/-- A cell reaches an engine (R15-R20): a tag that fails its check raises the event of the engine's nibble at severity 6 and the
command of its slot completes with DEVICE_FAULT, a completion cell's by its response; a good tag takes the cell to the engine
its NEXT_STAGE names: the rim's egress, the transport engine, the in-flight key table, the key index, a cipher cluster, the
stripe assembler, the spoke controllers, the staging buffer, the tandem link or the device command hub. A place of the fabric
that holds no cell changes nothing. A domain woken by demand (R23): its clock runs, and the cells that waited for it flow in
their order; with none waiting nothing changes. -/
def Obligations.CellsReachTheEngineTheirTagNames : Prop :=
  (
    ∀ (s : State) (i : Nat) (flip : RouteTag) (disagree : Nat),
      (takeCell s.toBlk i = none → Gives (.cellArrival i flip disagree) s s.toBlk) ∧
      (∀ (sent : Cell) (s1 : Blk), takeCell s.toBlk i = some (sent, s1) →
        let cell := { sent with rt := sent.rt ^^^ flip }
        let r := rtOf cell.rt
        let at_ := rtOf sent.rt
        let s2 := raise s1 (stageNibble at_.next * 4096 + 0x0F1) 6 (stageDomain s1 at_) []
        (rtGood cell.rt = false →
          (at_.next = 0x1 → Gives (.cellArrival i flip disagree) s (faultDue s2 at_ sent.payload)) ∧
          (at_.next ≠ 0x1 → Gives (.cellArrival i flip disagree) s (faultSlot s2 at_.slot))) ∧
        (rtGood cell.rt = true →
          (r.next = 0x0 → Gives (.cellArrival i flip disagree) s (egressCell s1 r cell.payload)) ∧
          (r.next = 0x1 → Gives (.cellArrival i flip disagree) s (answerDue s1 r.session r.tag cell.payload)) ∧
          (r.next = 0x3 → Gives (.cellArrival i flip disagree) s (beginAt s1 r.slot fun _ => .searching [] false)) ∧
          (r.next = 0x4 → Gives (.cellArrival i flip disagree) s
            (beginAt s1 r.slot fun c => if isReadOp c.opcode then .lookup else .reserving)) ∧
          (r.next = 0x5 → Gives (.cellArrival i flip disagree) s (clusterCell s1 cell r disagree)) ∧
          (r.next = 0x6 → Gives (.cellArrival i flip disagree) s (assembleCmd s1 r.slot)) ∧
          (r.next = 0x7 → Gives (.cellArrival i flip disagree) s (grainRequest s1 r.slot r.grain)) ∧
          (r.next = 0x8 → Gives (.cellArrival i flip disagree) s (stageCell s1 r cell.payload)) ∧
          (r.next = 0x9 → Gives (.cellArrival i flip disagree) s (mirrorCmd s1 r.slot)) ∧
          (r.next = 0xA → Gives (.cellArrival i flip disagree) s (hubSubmit s1 r.slot))))) ∧
  (
    ∀ (s : State) (d : Fin 84),
      ((∀ e ∈ s.cip.gated, e.1 ≠ d.val) → Gives (.domainClockReady d) s s.toBlk) ∧
      ((∃ e ∈ s.cip.gated, e.1 = d.val) →
        let s1 := startClock { s.toBlk with cip := { s.cip with gated := s.cip.gated.filter fun e => e.1 ≠ d.val } } d.val
        Gives (.domainClockReady d) s { s1 with
          cip := { s1.cip with fabric := s1.cip.fabric ++ (s.cip.gated.filter fun e => e.1 = d.val).map Prod.snd } }))

/-- The single re-read after a failed check of a value whose response has ended (R146, R251), its extent read from the medium
and its head and part table rebuilt with it: where the rebuilt bodies verify under the rebuilt seal, the media copy is rewritten
and 0x6005 raised; where they do not, the value is marked lost with 0x6006. Either way the re-read is used up. Where the key
page is not the tenant's (R134) the re-read is used up with the isolation event and DEVICE_FAULT. A command that owes no re-read
is left as it is. Event payloads are laid out as log entry 9 says. -/
def Obligations.RereadRepairsOrMarksLost : Prop :=
  ∀ (s : State) (slot : Nat) (bodies : List Bytes),
    (cmdOf s.toBlk slot = none → Gives (.tagFailReread slot bodies) s s.toBlk) ∧
    (∀ c : Cmd, cmdOf s.toBlk slot = some c →
      (owesReread c = false → Gives (.tagFailReread slot bodies) s s.toBlk) ∧
      (owesReread c = true → ownerOk s.toBlk c.tenant c.tenant = false →
        Gives (.tagFailReread slot bodies) s (afterReread
          (failCmd (isolationEvent (setCmd s.toBlk slot { c with reread := true }) 0xFFFF c.tenant c.tenant) slot stDeviceFault 0 0) slot)) ∧
      (∀ (i : Nat) (e : Extent), owesReread c = true → ownerOk s.toBlk c.tenant c.tenant = true → failedExtent c = some (i, e) →
        c.phase = .done → c.stage = none →
        let n := headCount s.toBlk c e bodies
        let x := rebuiltExtent s.toBlk c e (bodies.take n)
        let gs := (List.range x.grains).map fun j => (stagedPart s.toBlk (x.lga + j)).getD ((bodies.drop n).getD j [])
        let c1 := { c with reread := true, extents := c.extents.set i x }
        let ok := (x.torn || tagGood s.toBlk c1 x x.keyCt gs) &&
          (List.range x.grains).all fun j =>
            ((clearGrain s.toBlk c1 { grain := x.first + j, body := gs.getD j [] }).map (checkGood c.head.ns x (x.first + j))).getD false
        let s1 := setCmd s.toBlk slot c1
        let note := leBytes 2 c.head.ns ++ leBytes 8 c.version
        (ok = true → Gives (.tagFailReread slot bodies) s
          (afterReread (raise (rewriteExtent s1 c1 x (bodies.take n) gs) 0x6005 4 0xFFFF note) slot)) ∧
        (ok = false → Gives (.tagFailReread slot bodies) s
          (afterReread (raise (markValueLost s1 c1) 0x6006 6 0xFFFF note) slot))))

/-- A flit arrives on a link (R155, R159, R161, R170). On a link that is down it is not taken. One that fails FCRC counts,
retrains the link at the eighth in a row, and else asks once for the FSEQ expected. A good flit brings its credits and FACK; one
that consumes no FSEQ is acted on; a sequence flit in order is accepted and its credit owed; one out of order is not accepted
and asks for the one expected, and from a spoke one that lies 128 or more behind is a protocol violation. -/
def Obligations.FlitsAreTakenInOrder : Prop :=
  ∀ (s : Blk) (l : Link) (h : FlitHeader) (payload : Bytes),
    let v := flitView h
    let k := linkOf s l
    let s1 := takeCommon s l v
    let k1 := linkOf s1 l
    (k.phase = .down → flitIn s l h payload = (false, s)) ∧
    (k.phase ≠ .down → flitCrc h payload ≠ v.fcrc → flitIn s l h payload = (false, badFlit l s)) ∧
    (k.phase ≠ .down → flitCrc h payload = v.fcrc →
      (consumes l v.ftype = false → flitIn s l h payload = (true, pump s1 l)) ∧
      (consumes l v.ftype = true → k.phase ≠ .up → flitIn s l h payload = (false, s1)) ∧
      (consumes l v.ftype = true → k.phase = .up → v.fseq = k.rxSeq → l ≠ .tandem →
        flitIn s l h payload = (true, pump (setLink s1 l { k1 with
          rxSeq := k1.rxSeq + 1, awaiting := false, reqCount := 0
          owedA := if v.ftype = 3 then k1.owedA + 1 else k1.owedA, owedB := if v.ftype = 3 then k1.owedB else k1.owedB + 1 }) l)) ∧
      (consumes l v.ftype = true → k.phase = .up → v.fseq = k.rxSeq → l = .tandem →
        flitIn s l h payload = (true, pump (setLink s1 l { k1 with
          rxSeq := k1.rxSeq + 1, awaiting := false, reqCount := 0
          owedA := if v.ftype ≠ 7 then k1.owedA + 1 else k1.owedA, owedB := if v.ftype ≠ 7 then k1.owedB else k1.owedB + 1 }) l)) ∧
      (consumes l v.ftype = true → k.phase = .up → v.fseq ≠ k.rxSeq →
        (k.awaiting = true → flitIn s l h payload = (false, pump s1 l)) ∧
        (k.awaiting = false → l = .tandem ∨ (v.fseq - k.rxSeq).toNat < 128 →
          flitIn s l h payload = (false, requestRetry (pump s1 l) l)) ∧
        (∀ n, l = .spoke n → k.awaiting = false → 128 ≤ (v.fseq - k.rxSeq).toNat →
          flitIn s l h payload = (false, violation (pump s1 l) n.val))))

/-- Retry and training of a link (R153, R154, R158-R160, R172, R434). An IDLE flit brings what every flit brings, and the count
of codewords corrected with it. A flit whose FCRC fails counts, with the codewords found uncorrectable, and is asked for again,
the eighth in a row retraining the link; while a retry is awaited a repeat asks again. A RETRAIN of the far side, a pair whose
marker is wrong and pair markers that stay away retrain a link that is up with event 0x9001, the last two saying so with LCODE
RETRAIN; a failed training attempt starts the next, and the third ends it with 0x9002, which takes the tandem link down, removes
a spoke that had been up and holds one that never came up unpowered. A RETRY_REQ replays from the FSEQ it names, the sixteenth
for one FSEQ retraining the link. On a link that is down none of them does anything. Event payloads are laid out as log entry 9
says. -/
def Obligations.LinkRetryAndTraining : Prop :=
  (∀ (s : State) (l : Link) (h : FlitHeader) (corrected : Nat),
    ((linkOf s.toBlk l).phase = .down → Gives (.idleFlit l (h, corrected)) s (flitIn s.toBlk l h (zeros 240)).2) ∧
    ((linkOf s.toBlk l).phase ≠ .down →
      Gives (.idleFlit l (h, corrected)) s (flitIn (countLink s.toBlk l 0 corrected) l h (zeros 240)).2)) ∧
  (∀ (s : State) (l : Link) (uncorrectable : Nat),
    let s1 := countLink s.toBlk l 1 uncorrectable
    let k := linkOf s1 l
    let s2 := countLink (setLink s1 l { k with badRun := k.badRun + 1 }) l 2 1
    ((linkOf s.toBlk l).phase = .down → Gives (.flitFcrcFailure (l, uncorrectable)) s s.toBlk) ∧
    ((linkOf s.toBlk l).phase ≠ .down →
      (k.phase = .up → 8 ≤ k.badRun + 1 → Gives (.flitFcrcFailure (l, uncorrectable)) s (retrainLink s2 l)) ∧
      (k.phase = .up → k.badRun + 1 < 8 → k.awaiting = false → Gives (.flitFcrcFailure (l, uncorrectable)) s (requestRetry s2 l)) ∧
      (k.phase = .up → k.badRun + 1 < 8 → k.awaiting = true → Gives (.flitFcrcFailure (l, uncorrectable)) s s2) ∧
      (k.phase = .training → Gives (.flitFcrcFailure (l, uncorrectable)) s s2))) ∧
  (∀ (s : State) (l : Link),
    let k := linkOf s.toBlk l
    let fin := fun (t : Blk) => if endsRest s.toBlk t then restExit t else t
    let again := fun (t : Blk) => trainLink (raise (countLink t l 5 1) 0x9001 3 (linkDom l) [BitVec.ofNat 8 (linkNo l)]) l 1
    let told := again (sendLink s.toBlk l 4 0 [])
    (k.phase = .up → k.awaiting = true → Gives (.retryReqRepeat l) s (requestRetry s.toBlk l)) ∧
    (k.phase ≠ .up ∨ k.awaiting = false → Gives (.retryReqRepeat l) s s.toBlk) ∧
    (∀ lanes,
      (markerWrong lanes = true → k.phase = .up → Gives (.retrain (l, .pair lanes)) s told) ∧
      (markerWrong lanes = false ∨ k.phase ≠ .up → Gives (.retrain (l, .pair lanes)) s s.toBlk)) ∧
    (∀ (h : FlitHeader) (s1 : Blk), flitIn s.toBlk l h (zeros 240) = (true, s1) → (flitView h).ftype = 5 →
      bitsOf (flitView h).body.toNat 56 8 = 4 →
      ((linkOf s1 l).phase = .up → Gives (.retrain (l, .flit h)) s (again s1)) ∧
      ((linkOf s1 l).phase ≠ .up → Gives (.retrain (l, .flit h)) s s1)) ∧
    (∀ (h : FlitHeader) (s1 : Blk), flitIn s.toBlk l h (zeros 240) = (false, s1) →
      Gives (.retrain (l, .flit h)) s s1 ∧ Gives (.retryReq l h) s s1) ∧
    (k.phase = .up → Gives (.pairMarkerTimeout l) s told) ∧
    (k.phase ≠ .up → Gives (.pairMarkerTimeout l) s s.toBlk) ∧
    (k.phase = .training →
      (k.attempt < 3 → Gives (.linkTrainingAttemptEnd l) s (fin (trainLink s.toBlk l (k.attempt + 1)))) ∧
      (l = .tandem → 3 ≤ k.attempt → Gives (.linkTrainingAttemptEnd l) s (fin (tandemDown (raise s.toBlk 0x9002 5 82 [16#8]) 0))) ∧
      (∀ n, l = .spoke n → 3 ≤ k.attempt →
        let s1 := raise s.toBlk 0x9002 5 (18 + n.val) [BitVec.ofNat 8 n.val]
        (k.wasUp = true → Gives (.linkTrainingAttemptEnd l) s (fin (removeSpoke s1 n.val false))) ∧
        (k.wasUp = false → Gives (.linkTrainingAttemptEnd l) s (fin (powerOff (modSpoke s1 n.val fun x => { x with sstate := 5 }) n.val))))) ∧
    (k.phase ≠ .training → Gives (.linkTrainingAttemptEnd l) s (fin s.toBlk))) ∧
  (∀ (s : State) (l : Link) (h : FlitHeader) (s1 : Blk),
    flitIn s.toBlk l h (zeros 240) = (true, s1) → (flitView h).ftype = 5 → bitsOf (flitView h).body.toNat 56 8 = 1 →
    let k := linkOf s1 l
    let q := BitVec.ofNat 8 (bitsOf (flitView h).body.toNat 48 8)
    let n := if k.rrSeq = q ∧ k.rrCount ≠ 0 then k.rrCount + 1 else 1
    let kept := if k.replay.any (fun e => e.1 = q) then k.replay.dropWhile (fun e => e.1 ≠ q) else k.replay
    let s2 := setLink s1 l { k with rrSeq := q, rrCount := n, replay := kept }
    (k.phase ≠ .up → Gives (.retryReq l h) s s2) ∧
    (k.phase = .up → n < 16 → Gives (.retryReq l h) s (replayFrom s2 l q)) ∧
    (k.phase = .up → 16 ≤ n → Gives (.retryReq l h) s (retrainLink s2 l)))

/-- Training completes (R160, R168, R275): on a link in training a spoke's IDENT is kept as its identity and answered with the
device's credits; CREDIT_INIT after it brings the link up with the partner's credits less those of what is still to be replayed,
which is sent again, every count restarting at 0; a newly seated sled is then asked for its identity. A partner of the same side
holds the tandem link down with 0xC00D. Outside training, and the second time, IDENT brings only what every flit brings, as does
CREDIT_INIT before IDENT. A good flit of the partner on a tandem link that was declared down starts its training. -/
def Obligations.IdentAndCreditsBringALinkUp : Prop :=
  (∀ (s : State) (l : Link) (h : FlitHeader) (payload : Bytes) (s1 : Blk),
    payload.length = 240 → flitIn (wakeTandem l h payload s.toBlk) l h payload = (true, s1) →
    (flitView h).ftype = 5 → bitsOf (flitView h).body.toNat 56 8 = 3 →
    let k := linkOf s1 l
    (k.phase ≠ .training ∨ k.identIn = true → Gives (.ident l h payload) s s1) ∧
    (k.phase = .training → k.identIn = false →
      (∀ n, l = .spoke n → Gives (.ident l h payload) s
        (sendLink (modSpoke (setLink s1 l { k with identIn := true }) n.val fun x => { x with ident := payload.take 10 }) l 2 0
          (zeros 8 ++ beBytes 4 1024 ++ beBytes 4 256))) ∧
      (l = .tandem →
        let s2 := setLink { s1 with tdm := { s1.tdm with
          peerSerial := payload.take 4, peerSide := beAt payload 4 1, peerNonce := slice payload 5 16 } } l { k with identIn := true }
        (beAt payload 4 1 = s1.tdm.side → Gives (.ident l h payload) s (raise (tandemDown s2 1) 0xC00D 5 82 [])) ∧
        (beAt payload 4 1 ≠ s1.tdm.side → Gives (.ident l h payload) s (sendLink s2 l 2 0 (beBytes 4 256 ++ beBytes 4 1024)))))) ∧
  (∀ (s : Blk) (l : Link) (h : FlitHeader) (payload : Bytes),
    ((linkOf s l).phase ≠ .down → wakeTandem l h payload s = s) ∧
    ((linkOf s .tandem).phase = .down → s.tdm.heldDown = 0 → s.dev = .run → flitCrc h payload = (flitView h).fcrc →
      wakeTandem .tandem h payload s = trainLink s .tandem 1)) ∧
  (∀ (s : State) (l : Link) (h : FlitHeader) (payload : Bytes) (s1 : Blk),
    payload.length = 240 → flitIn s.toBlk l h payload = (true, s1) → (flitView h).ftype = 5 → bitsOf (flitView h).body.toNat 56 8 = 2 →
    let k := linkOf s1 l
    (k.phase ≠ .training ∨ k.identIn = false → Gives (.creditInit l h payload) s s1) ∧
    (k.phase = .training → k.identIn = true →
      let used := fun (c : Nat) => (k.replay.filter fun e => creditOf e.2.ftype = c).length
      let s2 := setLink s1 l { k with
        phase := .up, creditIn := true, attempt := 0, crA := beAt payload 0 4 - used 1, crB := beAt payload 4 4 - used 2
        takenA := 0, takenB := 0, freedA := 0, freedB := 0, owedA := 0, owedB := 0, rrCount := 0 }
      ∀ s3 : Blk, (k.replay = [] → s3 = s2) → (∀ e, k.replay.head? = some e → s3 = replayFrom s2 l e.1) →
        (l = .tandem → Gives (.creditInit l h payload) s (tandemUp s3)) ∧
        (∀ n, l = .spoke n →
          let s4 := setLink s3 l { linkOf s3 l with wasUp := true }
          (k.wasUp = true ∨ (spokeOf s4 n.val).profile ≠ none → Gives (.creditInit l h payload) s (pump s4 l)) ∧
          (k.wasUp = false → (spokeOf s4 n.val).profile = none → Gives (.creditInit l h payload) s (pump (identify s4 n.val) l)))))

/-- Slots and their pins (R167-R169): a sled that is seated in an unpowered slot waits its debounce, and is powered up and
trained after it; the same pin rising ends the wait, and in a powered slot starts the removal debounce, after which a sled still
away is a surprise removal; an unpowered slot whose sled is gone leaves UNSUPPORTED and FAULT at once; a reseat powers a slot
that asks for it. A debounce whose pin or slot is no longer as it was does nothing. -/
def Obligations.SledPinsAndDebounce : Prop :=
  ∀ (s : State) (n : Fin 16),
    let x := spokeOf s.toBlk n.val
    let fin := fun (t : Blk) => if endsRest s.toBlk t then restExit t else t
    let gone := { s.toBlk with pin := { s.pin with prsntN := s.pin.prsntN ||| (1#16 <<< n.val) } }
    Gives (.spkPrsntNFall n) s (setSpoke { s.toBlk with pin := { s.pin with prsntN := s.pin.prsntN &&& ~~~(1#16 <<< n.val) } } n.val
      { x with insDebounce := !s.pin.pwren.getLsbD n.val }) ∧
    (s.pin.pwren.getLsbD n.val = true → Gives (.spkPrsntNRise n) s
      (setSpoke gone n.val { x with insDebounce := false, reseat := false, remDebounce := true })) ∧
    (s.pin.pwren.getLsbD n.val = false →
      (x.sstate ≠ 4 → x.sstate ≠ 5 → Gives (.spkPrsntNRise n) s
        (setSpoke gone n.val { x with insDebounce := false, reseat := false, remDebounce := false })) ∧
      (x.sstate = 4 ∨ x.sstate = 5 → Gives (.spkPrsntNRise n) s
        (setSpoke gone n.val { x with
          insDebounce := false, reseat := false, remDebounce := false, sstate := if x.failed.isSome then 2 else 0 }))) ∧
    (s.pin.prsntN.getLsbD n.val = false → s.pin.pwren.getLsbD n.val = false →
      (x.insDebounce = true → Gives (.sledInsertDebounce n) s (seatSled s.toBlk n.val)) ∧
      (x.reseat = true → Gives (.slotReseat n) s (seatSled s.toBlk n.val))) ∧
    (x.insDebounce = false ∨ s.pin.prsntN.getLsbD n.val = true ∨ s.pin.pwren.getLsbD n.val = true →
      Gives (.sledInsertDebounce n) s s.toBlk) ∧
    (x.reseat = false ∨ s.pin.prsntN.getLsbD n.val = true ∨ s.pin.pwren.getLsbD n.val = true → Gives (.slotReseat n) s s.toBlk) ∧
    (x.remDebounce = true → s.pin.prsntN.getLsbD n.val = true →
      Gives (.surpriseRemoval n) s (fin (removeSpoke s.toBlk n.val false))) ∧
    (x.remDebounce = false ∨ s.pin.prsntN.getLsbD n.val = false → Gives (.surpriseRemoval n) s (fin s.toBlk))

/-- Operations of a bridge (R156-R158, R162, R166, R169, R170). A falling SPK_ALERT_N asks a spoke whose link is up for its
health. An operation that does not end in time is a protocol violation. A DATA_IN flit of an outstanding read, in INDEX order
and within its length, adds its bytes; any other is a violation. A STATUS ends its operation with its result, its OPID going to
the oldest operation that waits for one; one that names no outstanding operation is a violation; the alarm form brings a health
record; the last STATUS of an orderly removal ends the removal. -/
def Obligations.BridgeOperationsEnd : Prop :=
  (∀ (s : State) (n : Fin 16),
    let s1 := { s.toBlk with pin := { s.pin with alertN := s.pin.alertN &&& ~~~(1#16 <<< n.val) } }
    ((linkOf s.toBlk (spokeLink n.val)).phase = .up →
      Gives (.spkAlertNFall n) s (issueOp s1 n.val 0x20 0 0 0 false [1#8] [] .health)) ∧
    ((linkOf s.toBlk (spokeLink n.val)).phase ≠ .up → Gives (.spkAlertNFall n) s s1)) ∧
  (∀ (s : State) (n : Fin 16) (opid : BitVec 12),
    let fin := fun (t : Blk) => if endsRest s.toBlk t then restExit t else t
    ((spokeOf s.toBlk n.val).ops.has opid.toNat = true → Gives (.bridgeOpTimeout n opid) s (fin (violation s.toBlk n.val))) ∧
    ((spokeOf s.toBlk n.val).ops.has opid.toNat = false → Gives (.bridgeOpTimeout n opid) s (fin s.toBlk))) ∧
  (∀ (s : State) (n : Fin 16) (h : FlitHeader) (payload : Bytes) (s1 : Blk),
    payload.length = 240 → flitIn s.toBlk (spokeLink n.val) h payload = (true, s1) →
    let fin := fun (t : Blk) => if endsRest s.toBlk t then restExit t else t
    let o := opView (flitView h).body
    let z := spokeOf s1 n.val
    let out := (z.ops.get? o.opid).filter (!·.unsent)
    ((flitView h).ftype = 3 →
      (∀ x, out = some x →
        let y := { x with got := x.got ++ payload.take o.len, gotFlits := x.gotFlits + 1 }
        let want := if x.op = 0x0B then 256 else 4640
        (x.op = 0x01 ∨ x.op = 0x02 ∨ x.op = 0x0B → o.index = x.gotFlits → y.got.length ≤ want →
          Gives (.dataIn n h payload) s (setSpoke s1 n.val { z with ops := z.ops.set o.opid y })) ∧
        ((x.op ≠ 0x01 ∧ x.op ≠ 0x02 ∧ x.op ≠ 0x0B) ∨ o.index ≠ x.gotFlits ∨ want < y.got.length →
          Gives (.dataIn n h payload) s (violation s1 n.val))) ∧
      (out = none → Gives (.dataIn n h payload) s (violation s1 n.val))) ∧
    ((flitView h).ftype = 4 →
      (o.op = 0xFF → o.opid = 0xFFF → Gives (.status n h payload) s (fin (healthRecord s1 n.val (payload.take 16)))) ∧
      (¬ (o.op = 0xFF ∧ o.opid = 0xFFF) →
        (∀ x, out = some x →
          let s2 := opEnded (resumeOps (setSpoke s1 n.val { z with ops := z.ops.del o.opid }) n.val) n.val x o.result payload
          let y := spokeOf s2 n.val
          (y.removing = none ∨ y.ops.vals.all (·.unsent) = false → Gives (.status n h payload) s (fin s2)) ∧
          (y.removing ≠ none → y.ops.vals.all (·.unsent) = true →
            Gives (.status n h payload) s (fin (removeSpoke s2 n.val true)))) ∧
        (out = none → Gives (.status n h payload) s (fin (violation s1 n.val))))))

/-- Decoding and rebuilding a codeword that is read (R218-R221, R226, R236, R246, R248, R270). A hard decode frees its decoder
for the codeword that waits longest; a word that R219 accepts counts its corrected bits, trues the entry above TRUE_TRIGGER,
puts a block that a host read found in need at the head of patrol, and is delivered; any other word sends the read to the soft
reads; patrol takes what its own read shows. A soft decode that is accepted delivers the codeword and trues the entry; one that
is not raises 0x8010 and starts the die-XOR rebuild. Once the other blocks of the group have been read, sixteen good spans
rebuild the codeword by XOR and any fewer start Reed-Solomon; once the members have been read, it delivers a data member, and
loses the codeword, and the stripe, where too few are left. One step of truing (R230, R231) compares the bits that the read
shows wrong against the known data: the first fail count of a reference is kept and the other side is read, where it lies within
the limit; then the reference moves towards the better count, or the next reference begins. A decode or rebuild whose reads have
not all returned, and a truing whose read has not, change nothing, and so does one named for another spoke. Event payloads are
laid out as log entry 9 says. -/
def Obligations.ReadsAreDecodedRebuiltAndTrued : Prop :=
  (
    (∀ (s : State) (rd : Nat) (cw : Bytes) (n : Fin 16), s.med.reads.get? rd = none →
      Gives (.hardDecodeDone rd cw) s s.toBlk ∧ Gives (.softDecodeDone rd cw) s s.toBlk ∧
      Gives (.dieXorRebuild n rd) s s.toBlk ∧ Gives (.rsRebuild n rd) s s.toBlk) ∧
    (∀ (s : State) (rd : Nat) (cw : Bytes) (x : ReadCtx), s.med.reads.get? rd = some x →
      let n := (placeOf s.toBlk x.pga).spoke
      let v := judgeCw s.toBlk x cw
      let bad := bitDiff x.hard cw
      let s1 := rejectCount (countSpoke s.toBlk n 0 1) n v
      (x.stage ≠ 1 ∨ x.outstanding ≠ 0 ∨ (spokeOf s.toBlk n).hardq.contains rd = true → Gives (.hardDecodeDone rd cw) s s.toBlk) ∧
      (x.stage = 1 → x.outstanding = 0 → (spokeOf s.toBlk n).hardq.contains rd = false →
        let s2 := hardFree s1 n
        (∀ k c, x.why = .patrol k c → Gives (.hardDecodeDone rd cw) s
          (patrolCheck (closeRead s2 rd x) k c (if v = 2 then some bad else none) cw)) ∧
        ((∀ k c, x.why ≠ .patrol k c) →
          (v ≠ 2 → Gives (.hardDecodeDone rd cw) s
            (enterStage (countSpoke s2 n 2 1) rd x 2 fun s x => startSoft s rd x)) ∧
          (v = 2 →
            let s3 := countHard (countSpoke s2 n 1 bad) n x.cell 37120 bad
            let s4 := if policy s3 0x10 < bad then startTruing s3 x.pga bad cw else s3
            let s5 := if policy s4 0x11 < bad ∧ isHostRead x.why then patrolFirst s4 x.pga else s4
            Gives (.hardDecodeDone rd cw) s (deliver s5 rd x (decodeCw x.pga cw).1 (decodeCw x.pga cw).2)))) ∧
      (x.stage ≠ 2 ∨ x.outstanding ≠ 0 ∨ (spokeOf s.toBlk n).softq.contains rd = true → Gives (.softDecodeDone rd cw) s s.toBlk) ∧
      (x.stage = 2 → x.outstanding = 0 → (spokeOf s.toBlk n).softq.contains rd = false →
        let s2 := softFree s1 n
        (v ≠ 2 → Gives (.softDecodeDone rd cw) s
          (enterStage (raise (countSpoke s2 n 4 1) 0x8010 4 (34 + n) (leBytes 6 x.pga)) rd x 3 fun s x => startXor s rd x)) ∧
        (v = 2 →
          let s3 := startTruing (countSoft (countSpoke s2 n 3 1) n x.cell (x.hard :: x.soft) cw) x.pga bad cw
          Gives (.softDecodeDone rd cw) s (deliver s3 rd x (decodeCw x.pga cw).1 (decodeCw x.pga cw).2)))) ∧
    (∀ (s : State) (rd : Nat) (x : ReadCtx) (sp : Fin 16), s.med.reads.get? rd = some x →
      ((placeOf s.toBlk x.pga).spoke ≠ sp.val → Gives (.dieXorRebuild sp rd) s s.toBlk ∧ Gives (.rsRebuild sp rd) s s.toBlk) ∧
      ((placeOf s.toBlk x.pga).spoke = sp.val →
      (x.stage ≠ 3 ∨ x.awaited ≠ 0 → Gives (.dieXorRebuild sp rd) s s.toBlk) ∧
      (x.stage = 3 → x.awaited = 0 →
        let got := x.spans.vals.filterMap id
        let body := got.foldl xorBytes (zeros 4146)
        let on := enterStage s.toBlk rd x 4 fun s x => startRs s rd x
        let s1 := patrolFirst s.toBlk x.pga
        (x.spans.length ≠ 16 ∨ got.length ≠ 16 → Gives (.dieXorRebuild sp rd) s on) ∧
        (x.spans.length = 16 → got.length = 16 → bodyGood s1 x.why (body.take 4112) = false → Gives (.dieXorRebuild sp rd) s on) ∧
        (x.spans.length = 16 → got.length = 16 → bodyGood s1 x.why (body.take 4112) = true →
          Gives (.dieXorRebuild sp rd) s (deliver s1 rd x (body.take 4112) (rebuiltTag s1 x.pga (body.drop 4112))))) ∧
      (x.stage ≠ 4 ∨ x.awaited ≠ 0 → Gives (.rsRebuild sp rd) s s.toBlk) ∧
      (x.stage = 4 → x.awaited = 0 →
        (stripeAt s.toBlk x.pga = none → Gives (.rsRebuild sp rd) s (loseRead s.toBlk rd x)) ∧
        (∀ b u n p y, stripeAt s.toBlk x.pga = some (b, u, n, p) → s.med.bands.get? b = some y →
          let given := (List.range (y.k + y.m)).map fun i => if i = n then none else (x.spans.getD i none).filter fun b => b.length = 4146
          (rsDecode y.k given = none → Gives (.rsRebuild sp rd) s
            (loseRead (loseStripe s.toBlk b u ((List.range (y.k + y.m)).filter fun i => (given.getD i none).isNone)) rd x)) ∧
          (∀ data, rsDecode y.k given = some data →
            let body := data.getD n []
            (n < y.k → bodyGood s.toBlk x.why (body.take 4112) = true →
              Gives (.rsRebuild sp rd) s (deliver s.toBlk rd x (body.take 4112) (rebuiltTag s.toBlk x.pga (body.drop 4112)))) ∧
            (y.k ≤ n ∨ bodyGood s.toBlk x.why (body.take 4112) = false → Gives (.rsRebuild sp rd) s (loseRead s.toBlk rd x)))))))) ∧
  (
    ∀ (s : State) (t : Nat) (n : Fin 16),
      ((∀ x, s.med.truns.get? t = some x → x.spoke ≠ n.val ∨ x.got = none) → Gives (.truingRead n t) s s.toBlk) ∧
      (∀ (x : TRun) (b : Bytes), s.med.truns.get? t = some x → x.spoke = n.val → x.got = some b →
        let fails := bitDiff b x.known
        let step : Int := policy s.toBlk 0x12
        let y := { x with got := none }
        (x.ph = 0 → (x.code.getD x.k 0 + step).natAbs ≤ x.limit → Gives (.truingRead n t) s
          (truingRead (setRun s.toBlk t { y with fm := fails, ph := 1 }) t y step)) ∧
        (x.ph = 0 → x.limit < (x.code.getD x.k 0 + step).natAbs → Gives (.truingRead n t) s
          (tryMove s.toBlk t { y with dir := -1 } fails)) ∧
        (x.ph = 1 → Gives (.truingRead n t) s (tryMove s.toBlk t { y with dir := if x.fm ≤ fails then -1 else 1 } (min x.fm fails))) ∧
        (x.ph ≠ 0 → x.ph ≠ 1 → Gives (.truingRead n t) s (tryMove s.toBlk t y fails))))

/-- Stripes, journals and checkpoints (R202, R203, R205, R227, R250, R253-R256, R258). STRIPE_CLOSE pads an open stripe to its
data grains and programs every member; a closed one, and one that is gone, stay. A grain that waits for a parity buffer goes to
its stripe as soon as there is one, oldest first, and stays while none can be opened. A stripe-journal write carries at most 128
records, oldest first, in pages on the spokes of their bands. A journal flush names the next blocks of every stream, programs
the ring's pages, and moves the whole ring to flash with the write pointer of every open block. A checkpoint writes the next
item of its rotation: the directory with the anchor blocks that are due, the map root with the truing entries, the dirty map
pages. During a dump neither of the last two writes anything. -/
def Obligations.StripesAndJournals : Prop :=
  (∀ (s : State) (st : Nat),
    (stripeOf s.toBlk st = none → Gives (.stripeClose st) s s.toBlk) ∧
    (∀ x : Stripe, stripeOf s.toBlk st = some x →
      (x.sealed = true → Gives (.stripeClose st) s s.toBlk) ∧
      (x.sealed = false →
        let s1 := setStripe s.toBlk st { x with grains := x.grains ++ List.replicate (16 * x.k - x.grains.length) {}, sealed := true }
        let s2 := (List.range (x.k + x.m)).foldl (fun s n => programMember s st n) s1
        let full := (s2.med.bands.get? x.band).any fun b => decide (bandUnits s2 b ≤ b.nextUnit)
        Gives (.stripeClose st) s (checkClosed (if full then closeBand s2 x.band else s2) st)))) ∧
  (∀ (s : State),
    (s.med.asmq = [] → s.med.pbufExhausted = false → Gives .parityBufferWait s s.toBlk) ∧
    (s.med.asmq = [] → s.med.pbufExhausted = true →
      Gives .parityBufferWait s { s.toBlk with med := { s.med with pbufExhausted := false } }) ∧
    (∀ ns gear str g rest, s.med.asmq = (ns, gear, str, g) :: rest →
      let put := fun (st : Nat) (t : Blk) => pumpAsm (rest.length + 1) (putGrain { t with med := { t.med with asmq := rest } } st g)
      (∀ st, stripeFor s.toBlk ns gear str = some st → Gives .parityBufferWait s (put st s.toBlk)) ∧
      (stripeFor s.toBlk ns gear str = none →
        (openStripe s.toBlk ns gear str = none → Gives .parityBufferWait s s.toBlk) ∧
        (∀ st s1, openStripe s.toBlk ns gear str = some (st, s1) → Gives .parityBufferWait s (put st s1)))) ∧
    (let now := s.med.sjPending.take 128
     let put := fun (t : Tbl Stripe) (e : Nat × Bytes) => match s.med.stripes.get? e.1 with
       | some x => t.set e.1 { x with grains := [] }
       | none => t.del e.1
     let s1 := { useCluster s.toBlk with med := { s.med with
       sjPending := s.med.sjPending.drop 128, sjFlash := now.foldl put s.med.sjFlash } }
     let sets := (now.map fun e => spokesOfEntry s1 e.2).eraseDups
     Gives .stripeJournalFlashWrite s (sets.foldl (fun t q =>
       writeJournal t q (entryPages t ((now.filter fun e => spokesOfEntry t e.2 = q).map Prod.snd))) s1)) ∧
    (s.pwr.dump = none →
      let s1 := s.med.named.keys.eraseDups.foldl (fun t q => nameStream t q []) s.toBlk
      let s2 := writeJournal (useCluster { s1 with med := { s1.med with jflush := s1.med.jflush + 1 } }) (journalSpokes s1)
        (journalBodies s1 s1.med.ring.length)
      Gives .journalFlush s { s2 with med := { s2.med with
        ring := [], fjournal := s2.med.fjournal ++ s2.med.ring
        wptrs := openPointers s2 ++ s2.med.named.vals.flatten.map (·, 0) } }) ∧
    (s.pwr.dump = none →
      (s.med.ckItem = 0 →
        let dir := s.idx.dir.mapVal fun _ d => { d with pending := 0, slots := [], cached := false, dirty := false }
        let s1 := s.med.anchorDue.foldl (fun t a => writeAnchor t (a / 512) (a % 512)) s.toBlk
        Gives .checkpoint s (writeCheckpoint { s1 with med := { s1.med with
          ckDir := dir, ckItem := 1, ckKeep := s1.med.fjournal.length, ckFlush := s1.med.jflush } }
          (s1.idx.dir.flatMap fun e => dirBytes e.2))) ∧
      (s.med.ckItem = 1 →
        let t : Tbl Bytes := s.med.tentries.map fun e => (e.1, truingBytes e.2)
        Gives .checkpoint s (writeCheckpoint { s.toBlk with med := { s.med with
          ckRoot := s.med.mroot, ckTruing := t, ckBands := s.med.bands, ckItem := 2 } }
          ((s.med.mroot.flatMap fun e => leBytes 8 e.2) ++ t.vals.flatten))) ∧
      (2 ≤ s.med.ckItem →
        let s1 := s.med.mdirty.foldl writeMapPage s.toBlk
        let old := (s1.med.fjournal.take s1.med.ckKeep).filter (stillNeeded s1)
        Gives .checkpoint s { s1 with med := { s1.med with
          ckItem := 0, fjournal := old ++ s1.med.fjournal.drop s1.med.ckKeep
          jfree := if old.isEmpty then s1.med.ckFlush else s1.med.jfree } })) ∧
    (s.pwr.dump ≠ none → Gives .journalFlush s s.toBlk ∧ Gives .checkpoint s s.toBlk))

/-- Folding, garbage collection and erasing (R191, R193, R194, R196, R257). Work takes the device out of IDLE. A fold above
FOLD_START moves the live grains of the oldest closed SLC-buffer block that has any not yet on the move to native blocks of the
block's gear, unless the spoke lies below GC_URGENT and GC has a victim; a GC pass moves the grains of a band queued for
relocation first, and else, under GC_START, the live grains of the victim, to the colder gear. A closed block with nothing live,
no read under way and its die in service is erased. With background work stopped, or with nothing to move or erase, nothing more
happens. -/
def Obligations.FoldGcAndErase : Prop :=
  (∀ (s : State) (n : Fin 16),
    let s0 := idleExit s.toBlk
    let first := freeFraction (spokeOf s0 n.val) < target s0 0x0A ∧ victim s0 n.val ≠ none
    let old := (s0.med.blks.filter fun e => e.2.st = 2 ∧ blkSpoke e.1 = n.val ∧ isBuffer s0 e.1 ∧ (liveIn s0 e.1).any (fun g => !moveBusy s0 g)).map Prod.fst
    let least := leastBlk s0 (fun k => (blkAt s0 k).closeOrder) old
    (s.pwr.bgStopped = true ∨ slcAbove s0 (policy s0 0x0B) = false ∨ first ∨ least = none → Gives (.fold n) s s0) ∧
    (s.pwr.bgStopped = false → slcAbove s0 (policy s0 0x0B) = true → ¬ first → ∀ k, least = some k →
      Gives (.fold n) s (moveLive s0 (liveIn s0 k) (blkAt s0 k).gear foldStream))) ∧
  (∀ (s : State) (n : Fin 16),
    let s0 := idleExit s.toBlk
    let s1 := doneRelocating s0
    let mine := fun (e : Nat × Band) => (bandLive s1 e.1).filter fun g => (pgaView g.pga).spoke = n.val
    let queued := (s1.med.bands.filter fun e => e.2.relocate).find? fun e => !(mine e).isEmpty
    (s.pwr.bgStopped = true → Gives (.gcPass n) s s0) ∧
    (s.pwr.bgStopped = false →
      (∀ e, queued = some e → Gives (.gcPass n) s (moveLive s1 (mine e) (colder e.2.gear) gcStream)) ∧
      (queued = none → policy s1 0x09 ≤ freeFraction (spokeOf s1 n.val) ∨ victim s1 n.val = none → Gives (.gcPass n) s s1) ∧
      (∀ k, queued = none → freeFraction (spokeOf s1 n.val) < policy s1 0x09 → victim s1 n.val = some k →
        Gives (.gcPass n) s (moveLive s1 (liveIn s1 k) (colder (blkAt s1 k).gear) gcStream)))) ∧
  (∀ (s : State) (k : Nat),
    let s0 := idleExit s.toBlk
    let n := k / 65536 / 512
    let d := k / 65536 % 512
    let p := profOf s0 n
    let idle := (blkAt s0 k).st = 2 ∧ blkDead s0 k = true ∧ readsBlock s0 k = false ∧ inService s0 n = true ∧ dieUsable (spokeOf s0 n) d = true
    (¬ idle → Gives (.sourceErase k) s s0) ∧
    (idle →
      let rows := (List.range (max 1 p.planes)).map fun i => rowOf p i 0 (k % 65536)
      Gives (.sourceErase k) s (issueOp (modBlk s0 k fun b => { b with st := 4 }) n 0x04 (d / 16) (d % 16) (rows.headD 0) (blkAt s0 k).slc
        ([BitVec.ofNat 8 rows.length, 0, 0, 0] ++ rows.tail.flatMap (beBytes 4)) [] (.erase k))))

/-- Patrol (R198-R200, R345): it ends REST and reads the next codeword for a hard decode: of the block at the head of the patrol
queue, or else of the pass, in block order, which the command names; the block leaves the queue, or the pass goes on, after its
last written page. With nothing programmed, or another codeword named, it does nothing more; of a codeword that another read
escalates already it takes that it needs more than a hard decode. The derailleur's periodic work (R188, R300). A halving, due
after each 2^24 commit points, halves SAMPLES and WRITES of every entry and restarts the measure of the gear 0 share. The
override, judged after each 2^20, lowers B0 by 0.5, never under 12.0, while that share is above 50 %, and with 40 % or less it
ends: its start and its end raise 0x8017 and alert bit 7. Otherwise, and before it is due, nothing changes. Event payloads are
laid out as log entry 9 says. -/
def Obligations.PatrolAndDerailleur : Prop :=
  (
    ∀ (s : State) (n : Fin 16),
      let s0 := restExit (idleExit s.toBlk)
      let x := spokeOf s0 n.val
      let ks := patrolBlocks s0 n.val
      let reads := fun (t : Blk) (k cw : Nat) =>
        let pga := blockPga t n.val (blkDie k) (k % 65536) (cw / 4) (cw % 4)
        if (escalating t pga).isSome then patrolCheck t k cw none []
        else askSpan t pga (.patrol k cw) (((liveIn t k).find? fun g => g.pga = pga).map fun g => expectOf t g.kind g.lga)
      (∀ k q, x.patrolq = k :: q →
        let done := decide (4 * (blkAt s0 k).wp ≤ x.patrolPos + 1)
        Gives (.patrol n k x.patrolPos) s (reads
          (setSpoke s0 n.val { x with patrolq := if done then q else k :: q, patrolPos := if done then 0 else x.patrolPos + 1 })
          k x.patrolPos)) ∧
      (∀ k cw, patrolNext s0 n.val ≠ some (k, cw) → Gives (.patrol n k cw) s s0) ∧
      (x.patrolq = [] → ks = [] → ∀ k cw, Gives (.patrol n k cw) s s0) ∧
      (∀ k, x.patrolq = [] → (ks.find? fun k => x.patrolDone ≤ k).or ks.head? = some k →
        let cw := if k = x.patrolDone then x.patrolPos else 0
        let done := decide (4 * (blkAt s0 k).wp ≤ cw + 1)
        Gives (.patrol n k cw) s (reads
          (setSpoke s0 n.val { x with patrolDone := if done then k + 1 else k, patrolPos := if done then 0 else cw + 1 }) k cw))) ∧
  (
    ∀ (s : State),
      let half := fun (t : Der) => { t with samples := t.samples / 2, writes := t.writes / 2 }
      let s1 := { s.toBlk with med := { s.med with shareChecks := s.med.shareChecks + 1 } }
      let b0 := s.loops.b0now.getD (target s1 0x05)
      let lower := { s1 with loops := { s.loops with b0now := some (max 3072 (b0 - 128)), derOver := true } }
      let g := s.med.gear0Bytes
      let a := s.med.allBytes
      (s.med.commits / 2 ^ 24 ≤ s.med.halvings → Gives .derailleurHalving s s.toBlk) ∧
      (s.med.halvings < s.med.commits / 2 ^ 24 → Gives .derailleurHalving s { s.toBlk with med := { s.med with
        halvings := s.med.halvings + 1, der := s.med.der.map (fun e => (e.1, half e.2)), gear0Bytes := 0, allBytes := 0 } }) ∧
      (s.med.commits / 2 ^ 20 ≤ s.med.shareChecks → Gives .derailleurOverride s s.toBlk) ∧
      (s.med.shareChecks < s.med.commits / 2 ^ 20 →
        (a < 2 * g → s.loops.derOver = false → Gives .derailleurOverride s (alert (raise lower 0x8017 3 0xFFFF [1#8]) 7)) ∧
        (2 * a < 5 * g → s.loops.derOver = true → Gives .derailleurOverride s lower) ∧
        (5 * g ≤ 2 * a → s.loops.derOver = true → Gives .derailleurOverride s
          (alert (raise { s1 with loops := { s.loops with
            held := s.loops.held.filter fun e => !(e.1 ≤ 0x07 || 65536 ≤ e.1), b0now := none, derOver := false } } 0x8017 3 0xFFFF [0#8]) 7)) ∧
        (2 * g ≤ a → s.loops.derOver = false → Gives .derailleurOverride s s1)))

/-- The re-key sweep (R136, R201): the rewrites that are on the medium are committed, then the sweep goes on. With no sweep
under way, a retirement job that runs for the tenant begins one, with event 0x800D, while the key page still holds the
generation. The next value of the tenant is rewritten where it names the generation and the sweep moves past it, or it stays
where its ciphertext is not at hand; at the end the sweep begins again while anything still names the generation, and else the
generation leaves its key page and the end is raised. With background work stopped, with no sweep to begin, or with one of
another tenant under way nothing more happens. Event payloads are laid out as log entry 9 says. -/
def Obligations.RekeySweepGoesOn : Prop :=
  ∀ (s : State) (tenant : Nat) (bodies : List Bytes),
    let s0 := idleExit s.toBlk
    let s1 := s0.idx.stages.keys.foldl rekeyApply s0
    let job := s1.hub.jobs.vals.findSome? fun j => if j.jstate = 1 then
      (match j.kind with | .retireGen t g => if t = tenant then some g else none | _ => none) else none
    let holds := fun (g : Nat) => (s1.cip.pages.get? tenant).any fun (p : KeyPage) => p.gens.any fun x => x.gen == g
    (s.pwr.bgStopped = true → Gives (.rekeySweep tenant bodies) s s0) ∧
    (s.pwr.bgStopped = false →
      (s1.med.rekey = none → job = none → Gives (.rekeySweep tenant bodies) s s1) ∧
      (∀ g, s1.med.rekey = none → job = some g → holds g = false → Gives (.rekeySweep tenant bodies) s s1) ∧
      (∀ t g cur, s1.med.rekey = some (t, g, cur) → t ≠ tenant → Gives (.rekeySweep tenant bodies) s s1) ∧
      (∀ gen cur s2,
        (s1.med.rekey = some (tenant, gen, cur) ∧ s2 = s1 ∨
         s1.med.rekey = none ∧ job = some gen ∧ holds gen = true ∧ cur = 0 ∧
           s2 = raise { s1 with med := { s1.med with rekey := some (tenant, gen, 0) } } 0x800D 2 0xFFFF
             (leBytes 2 tenant ++ leBytes 4 gen ++ [1#8])) →
        let next := (slotsFrom s2 cur).find? (fun (e : Nat × BSlot) => ((nsOf s2 e.2.ns).map (·.tenant)) == some tenant && !e.2.lost)
        (∀ pos sl s3, next = some (pos, sl) → rekeySlot s2 tenant gen pos sl bodies = some s3 →
          Gives (.rekeySweep tenant bodies) s { s3 with med := { s3.med with rekey := some (tenant, gen, pos + 1) } }) ∧
        (∀ pos sl, next = some (pos, sl) → rekeySlot s2 tenant gen pos sl bodies = none → Gives (.rekeySweep tenant bodies) s s2) ∧
        (next = none → genNamed s2 tenant gen = true →
          Gives (.rekeySweep tenant bodies) s { s2 with med := { s2.med with rekey := some (tenant, gen, 0) } }) ∧
        (next = none → genNamed s2 tenant gen = false →
          Gives (.rekeySweep tenant bodies) s (raise (dropGen { s2 with med := { s2.med with rekey := none } } tenant gen) 0x800D 2 0xFFFF
            (leBytes 2 tenant ++ leBytes 4 gen ++ [0#8])))))

/-- Rebuilding and lost data (R262, R264-R268, R270). A rebuild passes by the bands with nothing live and ends with the last
one; with no band left only the rate and the namespaces are judged again, and where the command names another band nothing is. A
band that begins opens its spoke band on every replacement that shares it; the reads of its next unit are issued once, and the
unit waits for all of them. Then it is settled: with spans that agree at every position, and no member unread that should be
there, every replacement that shares the unit is given its member's spans, and the rebuild moves to the next unit or, after the
last, to the next band. The sweep for lost values marks every value with a grain in a listed unit and keeps on the list the
units that are still named. The metadata scan rebuilds every unreadable page, lets the lookups that wait for map pages go on,
and gives each namespace back. -/
def Obligations.RebuildsAndLostData : Prop :=
  (∀ (s : State) (n : Fin 16),
    let s0 := idleExit s.toBlk
    let fin := fun (t : Blk) => if endsRest s0 t then restExit t else t
    let s1 := rebuildEnd (skipEmpty (((s0.med.rebuilds.get? n.val).map (·.todo.length)).getD 0) s0 n.val) n.val
    let next := (s1.med.rebuilds.get? n.val).bind fun r => (r.todo.head?).bind fun b => (s1.med.bands.get? b).map fun x => (r, b, x)
    (next = none → ∀ bi, Gives (.rebuildBand n bi) s (fin (judgeNs (rebuildRate s1)))) ∧
    (∀ r bi b, next = some (r, bi, b) →
      (∀ k ≠ bi, Gives (.rebuildBand n k) s (fin s1)) ∧
      let s2 := if r.sband.isNone then openRebuilt s1 n.val bi b else s1
      let u := ((s2.med.rebuilds.get? n.val).map (·.unit)).getD 0
      let ts := rebuildTargets s2 bi u
      (ts = [] → Gives (.rebuildBand n bi) s (fin s2)) ∧
      (∀ e es, ts = e :: es →
        let x := s2.med.rebuilds.getD e.1 {}
        (x.asked = false → Gives (.rebuildBand n bi) s (fin (askUnit s2 e.1 bi u b ts))) ∧
        (x.asked = true → x.awaited ≠ 0 → Gives (.rebuildBand n bi) s (fin s2)) ∧
        (x.asked = true → x.awaited = 0 →
          Gives (.rebuildBand n bi) s (fin (judgeNs (rebuildRate (rebuildUnit s2 bi u b ts x.spans)))))))) ∧
  (∀ (s : Blk) (bi u : Nat) (b : Band) (ts : List (Nat × Nat)) (spans : Tbl (Option Bytes)) (d : Nat → List Bytes),
    let seen := fun (p : Nat) => stripeSpans spans (b.k + b.m) p (stripeOut b u)
    (∀ p < 16, fullStripe b.k b.m (seen p) = some (d p) ∧ agrees (seen p) (d p) = true) →
    (∀ j < b.k + b.m, b.lost.contains j = false → (ts.any fun t => memberIn b t.1 = j) = false → ∀ p < 16, (seen p)[j]? ≠ some none) →
    let s1 := ts.foldl (fun s t => programRebuilt s bi u b t ((List.range 16).map fun p => (d p).getD (memberIn b t.1) [])) s
    let on := fun (k : Nat) (r : Rebuild) => if ts.any (fun t => t.1 = k) then { r with unit := u + 1, spans := [], awaited := 0, asked := false } else r
    let s2 := { s1 with med := { s1.med with rebuilds := s1.med.rebuilds.mapVal on } }
    rebuildUnit s bi u b ts spans = if b.nextUnit ≤ u + 1 then ts.foldl (fun s t => bandRebuilt s bi t) s2 else s2) ∧
  (∀ (s : State),
    let lost := (slotsFrom s.toBlk 0).filter fun e => e.2.lost = false ∧ valueLostAt s.toBlk e.2
    let s1 := lost.foldl (fun s e => sweepLost s e.1 e.2) s.toBlk
    let named := (liveGrains s1).filterMap fun g => (stripeAt s1 g.pga).map fun x => (x.1, x.2.1 * 16 + x.2.2.1)
    Gives .lostValueSweep s { s1 with med := { s1.med with lostUnits := s1.med.lostUnits.filter fun e => named.contains e } }) ∧
  (∀ (s : State),
    let s0 := loseMetadata s.toBlk
    let s1 := ((s0.idx.dir.filter fun e => e.2.unreadable).map Prod.fst).foldl rebuildPage s0
    let wait := s1.med.mapWait
    let s2 := (wait.map Prod.fst).eraseDups.foldl (fun t p => touchMap t p true) { s1 with med := { s1.med with mapWait := [] } }
    let s3 := wait.foldl (fun t e => readLga t e.2.1 e.2.2.1 e.2.2.2) s2
    Gives .metadataTagScan s (judgeNs { s3 with
      med := { s3.med with tagScan := false }
      nss := s3.nss.map (fun e => (e.1, { e.2 with metaOffline := false })) }))

/-- Mirrored objects (R276-R281), over a joined link. A STATE flit carries session deltas, a part of a key page, a record, a
stripe entry, a reservation, an upload record or a commit notice, and each acts on what it names; a VALUE flit adds its bytes to
the body it names, and the last one places what has become whole; HELD names the writes that the partner holds. Before the join
none of them counts, and a flit that is not taken brings no object; an object class or a part that R276 does not give is left
alone. The layouts of session deltas and records are the model's choice (log entry 12). -/
def Obligations.MirroredObjectsAreTaken : Prop :=
  (∀ (s : State) (h : FlitHeader) (payload : Bytes) (s1 : Blk),
    payload.length = 240 → flitIn s.toBlk .tandem h payload = (false, s1) →
    Gives (.tandemStateFlit h payload) s s1 ∧ Gives (.tandemValueFlit h payload) s s1 ∧ Gives (.held h payload) s s1) ∧
  (∀ (s : State) (h : FlitHeader) (payload : Bytes) (s1 : Blk),
    payload.length = 240 → flitIn s.toBlk .tandem h payload = (true, s1) →
    let v := flitView h
    let o := tdmView v.body
    (v.ftype = 0x6 → s1.tdm.joined = true →
      (o.1 = 0x01 → Gives (.tandemStateFlit h payload) s
        (((blocksOf 32 (payload.take 224)).take 7).foldl (fun s b => checkPieces (deltaIn s b) b) s1)) ∧
      (o.1 = 0x02 → Gives (.tandemStateFlit h payload) s (pageFlit s1 o.2.1 o.2.2.2 payload)) ∧
      (o.1 = 0x03 → Gives (.tandemStateFlit h payload) s (recordIn s1 payload)) ∧
      (o.1 = 0x04 → Gives (.tandemStateFlit h payload) s
        { s1 with med := { s1.med with sjPartner := s1.med.sjPartner.set o.2.1 (payload.take 136) } }) ∧
      (o.1 = 0x05 → Gives (.tandemStateFlit h payload) s (reserveIn s1 o.2.1 payload)) ∧
      (o.1 = 0x06 → Gives (.tandemStateFlit h payload) s (uploadIn s1 o.2.1 payload)) ∧
      (o.1 = 0x07 → Gives (.tandemStateFlit h payload) s (completeAll (noticeIn s1 o.2.1 payload))) ∧
      (o.1 = 0 ∨ 0x07 < o.1 → Gives (.tandemStateFlit h payload) s s1)) ∧
    (v.ftype = 0x7 → s1.tdm.joined = true → o.1 ≠ 0x10 ∨ 17 < o.2.2.2 → Gives (.tandemValueFlit h payload) s s1) ∧
    (v.ftype = 0x7 → s1.tdm.joined = true → o.1 = 0x10 → o.2.2.2 ≤ 17 →
      let b := if o.2.2.2 = 17 then payload.take 32 else payload
      let s2 := { s1 with tdm := { s1.tdm with mirrors := s1.tdm.mirrors.upd o.2.1 {} fun m =>
        { m with data := m.data.upd o.2.2.1 [] fun x => (slice x 0 (240 * o.2.2.2)) ++ b } } }
      (o.2.2.2 < 17 → Gives (.tandemValueFlit h payload) s (completeAll s2)) ∧
      (o.2.2.2 = 17 → s2.tdm.uploads.has o.2.1 = true → Gives (.tandemValueFlit h payload) s (completeAll (stagePart s2 o.2.1))) ∧
      (o.2.2.2 = 17 → s2.tdm.uploads.has o.2.1 = false → Gives (.tandemValueFlit h payload) s (completeAll (tryMirror s2 o.2.1)))) ∧
    (v.ftype = 0x8 → s1.tdm.joined = true → Gives (.held h payload) s (wakeReaders (completeAll { s1 with tdm := { s1.tdm with
        heldByPeer := s1.tdm.heldByPeer ++ (((blocksOf 8 payload).take 30).map beNat).filter (· ≠ 0) } }))) ∧
    (s1.tdm.joined = false →
      (v.ftype = 0x6 → Gives (.tandemStateFlit h payload) s s1) ∧
      (v.ftype = 0x7 → Gives (.tandemValueFlit h payload) s s1) ∧
      (v.ftype = 0x8 → Gives (.held h payload) s s1)))

/-- The paths of a pair (R278, R282, R286). A HEARTBEAT ends the silence of a joined link and brings the partner's state; the
side sends its own while it shows that it is alive, and toggles PEER_ALIVE_OUT, which it otherwise holds low; an edge of
PEER_ALIVE_IN ends the silence of the pins; each silence is judged at once. A JOIN_PROOF with the right proof joins the link and
any other fails the join, as does its timeout; a second later the side trains again. A flit that is not taken, and a JOIN_PROOF
on a joined link, change nothing more. -/
def Obligations.PairPathsAndJoining : Prop :=
  (∀ (s : State) (h : FlitHeader) (payload : Bytes) (s1 : Blk),
    payload.length = 240 → flitIn s.toBlk .tandem h payload = (false, s1) →
    Gives (.heartbeat h payload) s s1 ∧ Gives (.joinProof h payload) s s1) ∧
  (∀ (s : State) (h : FlitHeader) (payload : Bytes) (s1 : Blk),
    payload.length = 240 → flitIn s.toBlk .tandem h payload = (true, s1) → (flitView h).ftype = 5 →
    let code := bitsOf (flitView h).body.toNat 56 8
    (code = 0x10 →
      (s1.tdm.joined = true → Gives (.heartbeat h payload) s (judgeSilence { s1 with tdm := { s1.tdm with
        linkSilent := false, lastHb := s1.now, peerState := beAt payload 0 1 } })) ∧
      (s1.tdm.joined = false → Gives (.heartbeat h payload) s s1)) ∧
    (code = 0x12 → s1.tdm.joined = true ∨ (linkOf s1 .tandem).phase ≠ .up → Gives (.joinProof h payload) s s1) ∧
    (code = 0x12 → s1.tdm.joined = false → (linkOf s1 .tandem).phase = .up →
      let good := s1.tdm.secret ≠ [] ∧ payload.take 32 = joinProof s1 s1.tdm.peerSerial s1.tdm.peerSide s1.tdm.peerNonce s1.tdm.nonce
      (good → Gives (.joinProof h payload) s (pump (joinDone s1) .tandem)) ∧
      (¬ good → Gives (.joinProof h payload) s (joinFailed s1)))) ∧
  (∀ (s : State),
    let b := s.toBlk
    (showsAlive b = true → (linkOf b .tandem).phase = .up →
      Gives .heartbeatSend s (sendLink b .tandem 0x10 0 [BitVec.ofNat 8 s.dev.code])) ∧
    (showsAlive b = false ∨ (linkOf b .tandem).phase ≠ .up → Gives .heartbeatSend s b) ∧
    Gives .peerAliveOutToggle s { b with pin := { b.pin with peerAliveOut := showsAlive b && !b.pin.peerAliveOut } } ∧
    (let b1 := { b with pin := { b.pin with peerAliveIn := !b.pin.peerAliveIn } }
     (s.tdm.paired = true →
        Gives .peerAliveInEdge s (judgeSilence { b1 with tdm := { b.tdm with pinSilent := false, lastEdge := b.now } }) ∧
        Gives .linkPathSilence s (judgeSilence { b with tdm := { b.tdm with linkSilent := true } }) ∧
        Gives .pinPathSilence s (judgeSilence { b with tdm := { b.tdm with pinSilent := true } })) ∧
     (s.tdm.paired = false → Gives .peerAliveInEdge s b1 ∧ Gives .linkPathSilence s b ∧ Gives .pinPathSilence s b)) ∧
    (let waits := s.tdm.paired = true ∧ s.tdm.joined = false ∧ (linkOf b .tandem).phase = .up
     (waits → Gives .joinProofTimeout s (joinFailed b)) ∧ (¬ waits → Gives .joinProofTimeout s b)) ∧
    (let rests := s.tdm.paired = true ∧ s.tdm.heldDown = 2 ∧ (linkOf b .tandem).phase = .down
     (rests → Gives .joinRetry s (trainLink { b with tdm := { b.tdm with heldDown := 0 } } .tandem 1)) ∧
     (¬ rests → Gives .joinRetry s b)))

/-- Takeover, handover and their ends (R275, R283-R289, R386). After double silence the side asks for a fence, takes over, or
only reports, as TAKEOVER_MODE says; FENCE_DONE counts only with 0xA5, a good check byte and FENCE_REQ set; the wait for it
expires with 0xC004. A RESIGN brings over what its scope names. A resynchronisation sends the slot list, then one missing value
at a time, and ends when nothing is missing, a failback that was ordered or is automatic starting after the last. A drain past
its limit is abandoned. Event payloads are laid out as log entry 9 says. -/
def Obligations.TakeoverAndHandover : Prop :=
  (∀ (s : State),
    let b := s.toBlk
    let due := s.tdm.paired = true ∧ s.tdm.double = true ∧ showsAlive b = true ∧ s.tdm.solo = false ∧ s.tdm.fenceReq = false
    (due →
      (policy b 0x1F = 0 → Gives .takeoverTimer s (raise { b with tdm := { b.tdm with fenceReq := true } } 0xC003 5 82 [])) ∧
      (policy b 0x1F = 1 → Gives .takeoverTimer s (takeover { b with tdm := { b.tdm with solo := true } } 0)) ∧
      (2 ≤ policy b 0x1F → Gives .takeoverTimer s (raise b 0xC004 6 82 []))) ∧
    (¬ due → Gives .takeoverTimer s b) ∧
    (∀ v pec, v = 0xA5#8 ∧ pec = true ∧ s.tdm.fenceReq = true →
      Gives (.fenceDone v pec) s (takeover { b with tdm := { b.tdm with solo := true } } 0)) ∧
    (∀ v pec, ¬ (v = 0xA5#8 ∧ pec = true ∧ s.tdm.fenceReq = true) → Gives (.fenceDone v pec) s b) ∧
    (s.tdm.fenceReq = true → Gives .fenceWaitExpire s (raise { b with tdm := { b.tdm with fenceReq := false } } 0xC004 6 82 [])) ∧
    (s.tdm.fenceReq = false → Gives .fenceWaitExpire s b) ∧
    (s.tdm.arpLeft = 0 → Gives .gratuitousArpRepeat s b) ∧
    (s.tdm.arpLeft ≠ 0 → Gives .gratuitousArpRepeat s (announceAdopted { b with tdm := { b.tdm with arpLeft := s.tdm.arpLeft - 1 } })) ∧
    (s.tdm.paired = true ∧ s.dev = .kickstand → Gives .rimLinksDown s { b with rim := { b.rim with up := false } }) ∧
    (¬ (s.tdm.paired = true ∧ s.dev = .kickstand) → Gives .rimLinksDown s b) ∧
    (s.tdm.drain = none → Gives .handoverDrainTimeout s b) ∧
    (∀ job fb, s.tdm.drain = some (job, fb) → Gives .handoverDrainTimeout s
      (endJob (raise (setDev { b with tdm := { b.tdm with drain := none } } .run) 0xC00A 3 82 [0#8, if fb then 1#8 else 0#8])
        job 2 0x0301 0x04))) ∧
  (∀ (s : State) (h : FlitHeader) (payload : Bytes) (s1 : Blk),
    payload.length = 240 → flitIn s.toBlk .tandem h payload = (true, s1) → (flitView h).ftype = 5 → bitsOf (flitView h).body.toNat 56 8 = 0x11 →
    let st := beAt payload 0 1
    let scope := if beAt payload 1 1 = 0 then 0 else 1
    let s2 := alert (raise s1 0xC006 4 82 [BitVec.ofNat 8 scope]) 5
    Gives (.resign h payload) s (takeover { s2 with tdm := { s2.tdm with
      peerResigned := s2.tdm.peerResigned || decide (scope = 0), peerState := st
      solo := s2.tdm.solo || decide (scope = 0 ∧ st ≠ 2 ∧ st ≠ 3 ∧ st ≠ 4) } } scope)) ∧
  (∀ (s : State) (h : FlitHeader) (payload : Bytes) (s1 : Blk),
    payload.length = 240 → flitIn s.toBlk .tandem h payload = (false, s1) → Gives (.resign h payload) s s1) ∧
  (∀ (s : State) (n : Nat) (bodies : List Bytes), s.tdm.resync.find? (fun e => e.1 = n) = none →
    Gives (.resynchronisation n bodies) s s.toBlk) ∧
  (∀ (s : State) (n : Nat) (bodies : List Bytes) (listed : Bool), s.tdm.resync.find? (fun e => e.1 = n) = some (n, listed) →
    (pairJoined s.toBlk = false → Gives (.resynchronisation n bodies) s s.toBlk) ∧
    (pairJoined s.toBlk = true → listed = false →
      let s1 := { s.toBlk with tdm := { s.tdm with resync := s.tdm.resync.map fun e => if e.1 = n then (n, true) else e } }
      let s2 := sendNs (raise s1 0xC009 3 82 (leBytes 2 n ++ [1#8])) n 1
      Gives (.resynchronisation n bodies) s (((slotsFrom s2 0).filter fun e => e.2.ns = n).foldl (fun s e => sendListed s e.2) s2)) ∧
    (pairJoined s.toBlk = true → listed = true → bodies = [] → unheldSlots s.toBlk n ≠ [] → Gives (.resynchronisation n bodies) s s.toBlk) ∧
    (pairJoined s.toBlk = true → listed = true → unheldSlots s.toBlk n = [] →
      let s1 := { s.toBlk with tdm := { s.tdm with resync := s.tdm.resync.filter fun e => e.1 ≠ n } }
      let s2 := raise (sendNs (modNs s1 n fun x => { x with stale := false }) n 2) 0xC009 3 82 (leBytes 2 n ++ [0#8])
      let job := (jobsWhere s2 isFailback).head?
      let starts := s2.tdm.resync = [] ∧ s2.dev = .run ∧ (job ≠ none ∨ policy s2 0x21 = 1 ∧ servesOther s2 = true)
      (starts → Gives (.resynchronisation n bodies) s (startDrain s2 (job.getD 0) true)) ∧
      (¬ starts → Gives (.resynchronisation n bodies) s s2)) ∧
    (pairJoined s.toBlk = true → listed = true → bodies ≠ [] → ∀ e es, unheldSlots s.toBlk n = e :: es →
      Gives (.resynchronisation n bodies) s (sendExtent s.toBlk e.2 bodies)))

/-- Time (R294-R298). A crystal tick adds 1 to SUB, 2 or 0 where TRIM says so, carries into SECONDS and SCRUB_AGE at 32,768,
counts OP_TIME, and judges the alarm; a window's end puts the written TRIM in force; OP_TIME and POWER_CYCLES are appended to
the OPT_LOG ring of 4,096 records. Thermal stepping and the core voltage (R300, R301, R419). Above THERMAL_TARGET the step rises
up to MAX_STEP, and at 85 °C or more beyond it, to 7 at most, as an override; 2 °C below the target it falls, and the override
ends at MAX_STEP. The voltage request moves at most 5 mV at a time, CORE_VID follows it, and it stays between its limits or
moves toward them. -/
def Obligations.TimeThermalAndVoltage : Prop :=
  (
    ∀ (s : State),
      let m := s.time.trimNow.toInt
      let hit := decide (s.time.window % 1024 = 0 ∧ s.time.window / 1024 < m.natAbs)
      let d := if hit then (if 0 < m then 2 else 0) else 1
      let n := s.time.sub.toNat + d
      let s1 := { s.toBlk with time := { s.time with sub := BitVec.ofNat 15 n, window := (s.time.window + 1) % 2 ^ 20 } }
      let s2 := if 32768 ≤ n then { s1 with
        time := { s1.time with seconds := s.time.seconds + 1 }
        safe := { s.safe with scrubAge := s.safe.scrubAge.map fun a => min (a + 1) 0xFFFFFFFF } } else s1
      let op := { s2.time with opTicks := s.time.opTicks + d }
      let op2 := { s2.time with opTicks := s.time.opTicks + d - 28800, opTime := min (s.time.opTime + 1) (2 ^ 44 - 1) }
      (s.pin.porN = false → Gives .rtcTick s (judgeAlarm s2)) ∧
      (s.pin.porN = true → s.time.opTicks + d < 28800 → Gives .rtcTick s (judgeAlarm { s2 with time := op })) ∧
      (s.pin.porN = true → 28800 ≤ s.time.opTicks + d → Gives .rtcTick s (judgeAlarm { s2 with time := op2 })) ∧
      Gives .trimWindow s { s.toBlk with time := { s.time with window := 0, trimNow := s.time.trim } } ∧
      (let l := s.boot.optLog ++ [(s.time.opTime, s.time.powerCycles)]
       Gives .opTimeSave s { s.toBlk with boot := { s.boot with optLog := l.drop (l.length - 4096) } })) ∧
  (
    (∀ (s : State) (tj : BitVec 16),
      let s0 := { s.toBlk with loops := { s.loops with tj := tj } }
      let top := target s0 0x1C
      let limit : Int := 16 * (target s0 0x1B)
      let n := s.loops.step
      (n < top → limit < tj.toInt → Gives (.thermalStepRise tj) s (setStep s0 (n + 1))) ∧
      (top ≤ n → n < 7 → 1360 ≤ tj.toInt → Gives (.thermalStepRise tj) s (thermalOver (setStep s0 (n + 1)) true)) ∧
      (n < top → tj.toInt ≤ limit → Gives (.thermalStepRise tj) s s0) ∧
      (top ≤ n → (7 ≤ n ∨ tj.toInt < 1360) → Gives (.thermalStepRise tj) s s0) ∧
      (n = 0 ∨ limit - 32 < tj.toInt → Gives (.thermalStepFall tj) s s0) ∧
      (0 < n → tj.toInt ≤ limit - 32 →
        let s1 := setStep s0 (n - 1)
        Gives (.thermalStepFall tj) s (if s1.loops.step ≤ target s1 0x1C then thermalOver s1 false else s1))) ∧
    (∀ (s : State) (demand : Nat),
      let lo := target s.toBlk 0x1D
      let hi := target s.toBlk 0x1E
      let up := (demand + 4) / 5 * 5
      let goal := if hi < demand then min up 820 else max ((lo + 4) / 5 * 5) (min up (hi / 5 * 5))
      let v := s.loops.vcore
      let w := if v + 5 ≤ goal then v + 5 else if goal + 5 ≤ v then v - 5 else v
      let s1 := { s.toBlk with loops := { s.loops with vcore := w }, pin := { s.pin with vid := (w - 680) / 5 } }
      (hi < demand → hi < w → Gives (.vcoreStep demand) s (voltageOver s1 true)) ∧
      (hi < demand → w ≤ hi → Gives (.vcoreStep demand) s s1) ∧
      (demand ≤ hi → w ≤ (hi + 4) / 5 * 5 → Gives (.vcoreStep demand) s (voltageOver s1 false)) ∧
      (demand ≤ hi → (hi + 4) / 5 * 5 < w → Gives (.vcoreStep demand) s s1)))

/-- Device commands (R314, R313, R317, R318), once they may begin. IDENTIFY and HEALTH answer what they report; JOB_STATUS
reports a job and forgets one that has ended, or answers NOT_FOUND; JOB_CANCEL stops a job that may be cancelled; DEVICE_RESET
resets every session and ring and is answered later; SELF_TEST starts a job with event 0xB003. A command of R314 that the
executor does not hold, that an earlier one names the same thing with, or that waits for its bulk bytes or for ACTIVATING to
end, changes nothing yet; one whose class does not run in this device state is answered with the status of its class (R305,
R311, R312). Event payloads are laid out as log entry 9 says. -/
def Obligations.DeviceCommandsTakeEffect : Prop :=
  (∀ (s : State) (src : Source) (r : Request), ∀ p ∈ ([
    (.identify src, 0x80), (.jobStatus src, 0x81), (.jobCancel src, 0x82), (.deviceReset src, 0x83), (.selfTest src, 0x84),
    (.health src, 0x85), (.nsCreate src, 0x88), (.nsDelete src, 0x89), (.nsSetState src, 0x8A), (.nsSetQuota src, 0x8B),
    (.nsQuery src, 0x8C), (.nsList src, 0x8D), (.tenantCreate src, 0x90), (.tenantSet src, 0x91), (.tenantRotate src, 0x92),
    (.tenantRetireGen src, 0x93), (.tenantDelete src, 0x94), (.tenantQuery src, 0x95), (.spokeQuery src, 0x98),
    (.poolFormat src, 0x99), (.spokeRemove src, 0x9A), (.portMode src, 0xA0), (.submacSet src, 0xA1), (.pfcSet src, 0xA2),
    (.cktPort src, 0xA3), (.takeoverMap src, 0xA4), (.policySet src, 0xA8), (.policyGet src, 0xA9), (.bucketSet src, 0xAA),
    (.camMode src, 0xAB), (.tandemQuery src, 0xB0), (.handover src, 0xB1), (.failback src, 0xB2), (.pairSecret src, 0xB3),
    (.counters src, 0xB4), (.loopStatus src, 0xB5), (.llrTable src, 0xB6), (.eventRead src, 0xB8), (.eventPolicy src, 0xB9),
    (.powerEnter src, 0xBA), (.alarmSet src, 0xBB), (.fwDownload src, 0xBC), (.fwCommit src, 0xBD), (.fwActivate src, 0xBE),
    (.fwQuery src, 0xBF)] : List (Instr × Nat)),
    let mine := fun (e : Source × Request) => decide (e.1 = src ∧ e.2.opcode = p.2 ∧ e.2.begun = false)
    (s.hub.exec.find? mine = none → Gives p.1 s s.toBlk) ∧
    (s.hub.exec.find? mine = some (src, r) →
      (adminClass p.2 = some 1 ∧ s.dev = .activating ∨ mayRun s.toBlk src r = false ∨ r.reading = true → Gives p.1 s s.toBlk) ∧
      (¬ (adminClass p.2 = some 1 ∧ s.dev = .activating) → mayRun s.toBlk src r = true → r.reading = false →
        classCause s.toBlk r ≠ 0 →
        Gives p.1 s (hubAnswer s.toBlk src r (classCause s.toBlk r) (classDetail s.toBlk (classCause s.toBlk r)) [] [])))) ∧
  (∀ (s : State) (src : Source) (r : Request),
    let b := hubBegin s.toBlk src r
    (MayBegin 0x80 src r s.toBlk → Gives (.identify src) s (hubOk b src r (identifyResult b))) ∧
    (MayBegin 0x81 src r s.toBlk → ∀ j, s.hub.jobs.get? (leAt r.params 0 4) = some j →
      Gives (.jobStatus src) s (jobStatusFn src b r)) ∧
    (MayBegin 0x81 src r s.toBlk → s.hub.jobs.get? (leAt r.params 0 4) = none →
      Gives (.jobStatus src) s (hubAnswer s.toBlk src r stNotFound 0 [] [])) ∧
    (MayBegin 0x82 src r s.toBlk → cancellable s.toBlk (leAt r.params 0 4) = false →
      Gives (.jobCancel src) s (hubAnswer s.toBlk src r stNotFound 0 [] [])) ∧
    (MayBegin 0x82 src r s.toBlk → cancellable s.toBlk (leAt r.params 0 4) = true →
      Gives (.jobCancel src) s (hubOk (cancelJob b (leAt r.params 0 4)) src r [])) ∧
    (MayBegin 0x83 src r s.toBlk → Gives (.deviceReset src) s
      (deviceReset { b with hub := { b.hub with later := b.hub.later ++ [(src, r)] } })) ∧
    (MayBegin 0x84 src r s.toBlk → leAt r.params 0 1 = 1 ∨ leAt r.params 0 1 = 2 → jobsWhere s.toBlk isSelfTest = [] →
      jobsRunning b < 16 →
      Gives (.selfTest src) s (raise (jobStarted b src r (.selfTest (leAt r.params 0 1 = 2))) 0xB003 2 78 [1#8])) ∧
    (MayBegin 0x85 src r s.toBlk → Gives (.health src) s (hubOk b src r (healthResult b))))

/-- Namespace and tenant commands (R132, R136, R141, R238, R291, R314), once they may begin and their checks pass. A created
namespace has its settings, a drawn SipHash key and a full disabled bucket; deletion starts a job and takes it offline; state
and quota are written; a created tenant has a key page with generation 1; rotation makes the next generation current, clears the
counters and returns its number; deletion frees the key page. Each change is judged and sent to the partner. -/
def Obligations.NamespaceAndTenantCommands : Prop :=
  ∀ (s : State) (src : Source) (r : Request),
    let b := hubBegin s.toBlk src r
    let n := leAt r.params 0 2
    let ns := fun (f : Namespace → Namespace) => nsChanged (modNs b n f) n
    (MayBegin 0x88 src r s.toBlk → (nsCreateCheck s.toBlk r).1 = 0 → Gives (.nsCreate src) s (hubOk (nsCreate b r) src r [])) ∧
    ((nsOf s.toBlk n).isSome = true →
      (MayBegin 0x89 src r s.toBlk → jobsRunning b < 16 →
        let b1 := jobStarted b src r (.nsDelete n)
        Gives (.nsDelete src) s (nsChanged (modNs b1 n fun x => { x with deleting := true }) n)) ∧
      (MayBegin 0x8A src r s.toBlk → leAt r.params 2 1 = 0x41 →
        Gives (.nsSetState src) s (hubOk (ns fun x => { x with offline := false }) src r [])) ∧
      (MayBegin 0x8A src r s.toBlk → leAt r.params 2 1 = 0x46 →
        Gives (.nsSetState src) s (hubLater (ns fun x => { x with offline := true }) src r)) ∧
      (MayBegin 0x8B src r s.toBlk → leAt r.params 2 2 = 0 →
        Gives (.nsSetQuota src) s (hubOk (ns fun x => { x with byteQuota := leAt r.params 4 8, keyQuota := leAt r.params 12 8 }) src r [])) ∧
      (MayBegin 0x8C src r s.toBlk → Gives (.nsQuery src) s (hubOk b src r (nsQueryResult b n)))) ∧
    (MayBegin 0x8D src r s.toBlk → Gives (.nsList src) s (hubOk b src r (nsListResult b n))) ∧
    (MayBegin 0x90 src r s.toBlk → s.tenants.has n = false → leAt r.params 2 1 ≤ 1 → leAt r.params 3 1 = 0 →
      Gives (.tenantCreate src) s (hubOk (tenantCreate b r) src r [])) ∧
    (s.tenants.has n = true →
      (MayBegin 0x91 src r s.toBlk → leAt r.params 2 1 ≤ 3 → leAt r.params 3 1 = 0 →
        Gives (.tenantSet src) s (hubOk (tenantSet b r) src r [])) ∧
      (MayBegin 0x92 src r s.toBlk → (s.cip.pages.get? n).any (fun p => decide (4 ≤ p.gens.length)) = false →
        Gives (.tenantRotate src) s (tenantRotate src b r)) ∧
      (MayBegin 0x93 src r s.toBlk → leAt r.params 2 2 = 0 → (s.cip.pages.get? n).any (fun p => decide (p.genCur = leAt r.params 4 4)) = false →
        jobsRunning b < 16 → Gives (.tenantRetireGen src) s (jobStarted b src r (.retireGen n (leAt r.params 4 4)))) ∧
      (MayBegin 0x94 src r s.toBlk → s.nss.vals.any (fun x => decide (x.tenant = n)) = false →
        Gives (.tenantDelete src) s (hubOk (tenantDelete b n) src r [])) ∧
      (MayBegin 0x95 src r s.toBlk → Gives (.tenantQuery src) s (hubOk b src r (tenantQueryResult b n))))

/-- Commands for spokes, ports, policies, buckets and CAM banks (R11, R27, R33, R34, R119, R169, R189, R239, R291, R314-R316),
once they may begin and their checks pass: a query answers, a setting is written and answered OK, a format and a change of CAM
mode start jobs, and the removal of a spoke is answered when the sled goes. -/
def Obligations.SpokePortAndPolicyCommands : Prop :=
  ∀ (s : State) (src : Source) (r : Request),
    let b := hubBegin s.toBlk src r
    let p := leAt r.params 0 1
    let q := leAt r.params 1 1
    (MayBegin 0x98 src r s.toBlk → p ≤ 15 → Gives (.spokeQuery src) s (hubOk b src r (spokeQueryResult b p))) ∧
    (MayBegin 0x99 src r s.toBlk → (poolFormatCheck s.toBlk r).1 = 0 → jobsRunning b < 16 →
      Gives (.poolFormat src) s (jobStarted b src r (.poolFormat (leAt r.params 0 2) (leAt r.params 2 1)))) ∧
    (MayBegin 0x9A src r s.toBlk → p ≤ 15 → s.pin.pwren.getLsbD p = true →
      let b1 := modSpoke (hubLater b src r) p fun x => { x with removing := some src }
      Gives (.spokeRemove src) s (if (spokeOf b1 p).ops.isEmpty then removeSpoke b1 p true else b1)) ∧
    (MayBegin 0xA0 src r s.toBlk → p ≤ 15 → q = 1 ∨ q = 2 ∨ q = 4 ∨ q = 8 →
      Gives (.portMode src) s (hubOk (portModeChange b p q) src r [])) ∧
    (MayBegin 0xA1 src r s.toBlk → (submacCheck s.toBlk r).1 = 0 → Gives (.submacSet src) s (hubOk (submacSet b r) src r [])) ∧
    (MayBegin 0xA2 src r s.toBlk → (pfcCheck s.toBlk r).1 = 0 → Gives (.pfcSet src) s (hubOk (pfcSet b r) src r [])) ∧
    (MayBegin 0xA3 src r s.toBlk →
      Gives (.cktPort src) s (hubOk { b with rim := { b.rim with cktPort := leAt r.params 0 2 } } src r [])) ∧
    (MayBegin 0xA4 src r s.toBlk → p ≤ 15 → q < modeOf s.toBlk p → leAt r.params 2 2 = 0 → leAt r.params 10 2 = 0 →
      let m : TakeMap := { mac := slice r.params 4 6, ipv4 := slice r.params 12 4, ipv6 := slice r.params 16 16 }
      Gives (.takeoverMap src) s (hubOk { b with tdm := { b.tdm with takeMap := b.tdm.takeMap.set (p * 8 + q) m } } src r [])) ∧
    (MayBegin 0xA8 src r s.toBlk → (policySetCheck s.toBlk r).1 = 0 →
      Gives (.policySet src) s (hubOk ((policyItems r).foldl applyPolicy b) src r [])) ∧
    (MayBegin 0xA9 src r s.toBlk → (policyGetCheck s.toBlk r).1 = 0 →
      Gives (.policyGet src) s (hubOk b src r (policyGetResult b (leAt r.params 0 2) (leAt r.params 4 4)))) ∧
    (MayBegin 0xAA src r s.toBlk → (bucketCheck s.toBlk r).1 = 0 → Gives (.bucketSet src) s (hubOk (bucketSet b r) src r [])) ∧
    (MayBegin 0xAB src r s.toBlk → q ≤ 1 → jobsRunning b < 16 →
      Gives (.camMode src) s (camMode p (decide (q = 1)) (jobStarted b src r (.camMode p (decide (q = 1)) (banksLeft b p (decide (q = 1))) 0))
        (b.hub.jobSeq + 1)))

/-- Commands for the pair, telemetry, events, power and firmware (R278, R289, R297, R314, R315, R346, R370, R373-R377, R401,
R402), once they may begin and their checks pass: a query answers; handover, failback, POWER_ENTER and FW_COMMIT start their
jobs; a new pair secret retrains the link; the event policy, the alarm and the downloaded bytes are written; FW_ACTIVATE begins
the activation, or in recovery restarts the device with FAIL_COUNT cleared. -/
def Obligations.PairTelemetryAndFirmwareCommands : Prop :=
  ∀ (s : State) (src : Source) (r : Request),
    let b := hubBegin s.toBlk src r
    let p := leAt r.params 0 1
    let q := leAt r.params 1 1
    let id := b.hub.jobSeq + 1
    (MayBegin 0xB0 src r s.toBlk → Gives (.tandemQuery src) s (hubOk b src r (tandemQueryResult b))) ∧
    (s.tdm.paired = true →
      (MayBegin 0xB1 src r s.toBlk → jobsRunning b < 16 → Gives (.handover src) s (startDrain (jobStarted b src r .handover) id false)) ∧
      (MayBegin 0xB2 src r s.toBlk → jobsRunning b < 16 →
        let b1 := jobStarted b src r .failback
        Gives (.failback src) s (if b1.tdm.resync.isEmpty then startDrain b1 id true else b1)) ∧
      (MayBegin 0xB3 src r s.toBlk → Gives (.pairSecret src) s (hubOk (pairSecret b (slice r.params 0 32)) src r []))) ∧
    (MayBegin 0xB4 src r s.toBlk → (countersCheck s.toBlk r).1 = 0 →
      Gives (.counters src) s (hubOk b src r (countersResult b p (leAt r.params 2 2)))) ∧
    (MayBegin 0xB5 src r s.toBlk → Gives (.loopStatus src) s (hubOk b src r (loopStatusResult b))) ∧
    (MayBegin 0xB6 src r s.toBlk → p ≤ 15 →
      (q = 0 → Gives (.llrTable src) s (hubOk b src r (llrTableResult b p))) ∧
      (q = 1 → let b1 := modSpoke b p fun x => { x with llr := [] }
               Gives (.llrTable src) s (hubOk b1 src r (llrTableResult b1 p)))) ∧
    (MayBegin 0xB8 src r s.toBlk →
      let l := (history b).filter fun x => decide (leAt r.params 0 8 ≤ x.seq)
      Gives (.eventRead src) s (hubAnswer b src r 0 0 [] ((l.take (min (leAt r.params 8 4) (recordRoom src r))).flatMap recBytes))) ∧
    (MayBegin 0xB9 src r s.toBlk → p ≤ 1 → 1 ≤ q → q ≤ 7 → leAt r.params 2 1 ≤ 6 →
      let b1 := { b with evt := { b.evt with overwrite := p = 1, keepSev := q, minSev := leAt r.params 2 1 } }
      (leAt r.params 3 1 = 0 → Gives (.eventPolicy src) s (hubOk b1 src r [])) ∧
      (leAt r.params 3 1 = 1 → Gives (.eventPolicy src) s (hubOk (eraseLog b1) src r []))) ∧
    (MayBegin 0xBA src r s.toBlk → 1 ≤ p → p ≤ 3 → leAt r.params 2 2 = 0 → jobsRunning b < 16 →
      Gives (.powerEnter src) s (powerAttempt (abortSelfTests (jobStarted b src r (.powerEnter p q (leAt r.params 4 4)))) id)) ∧
    (MayBegin 0xBB src r s.toBlk → leAt r.params 0 8 < 2 ^ 63 → leAt r.params 8 1 ≤ 1 →
      Gives (.alarmSet src) s (hubOk (setAlarm b (leAt r.params 0 8) (leAt r.params 8 1 = 1)) src r [])) ∧
    (MayBegin 0xBC src r s.toBlk → leAt r.params 0 4 % 4096 = 0 → leAt r.params 0 4 + r.bufLen ≤ 32505856 → bulkFits src r = true →
      Gives (.fwDownload src) s (hubOk (fwDownload b r) src r [])) ∧
    (MayBegin 0xBD src r s.toBlk → jobsRunning b < 16 → Gives (.fwCommit src) s (jobStarted b src r .fwCommit)) ∧
    (MayBegin 0xBE src r s.toBlk → s.dev = .recovery ∨ (validRec s.toBlk).pendingSlot ≤ 1 → Gives (.fwActivate src) s (fwActivate src b r)) ∧
    (MayBegin 0xBF src r s.toBlk → Gives (.fwQuery src) s (hubOk b src r (fwQueryResult b)))

/-- Mailboxes and the end of jobs (R8, R307, R308, R311, R313, R317, R374). A GO on an idle mailbox queues its request; on one
that is BUSY or DONE it only raises 0xB001. DONE clears by its write. A request at the head of the queue is taken, GO clears,
BUSY rises and the request area is copied, in one step; a GO written in that same cycle reads 1 afterwards and its request waits
(R8). While the hub does not serve, holds four commands, or still executes the mailbox's last one, nothing is taken. A job that
has ended gives the result its kind fixes; one that does not run, or whose rule is not met yet, changes nothing. Event payloads
are laid out as log entry 9 says. -/
def Obligations.MailboxesAndJobs : Prop :=
  (∀ (s : State) (n : Fin 16),
    let m := mboxOf s.toBlk n.val
    (m.busy = true ∨ m.done = true → Gives (.mbGoWrite n) s (raise s.toBlk 0xB001 3 78 [BitVec.ofNat 8 n.val])) ∧
    (m.busy = false → m.done = false → m.go = true → Gives (.mbGoWrite n) s s.toBlk) ∧
    (m.busy = false → m.done = false → m.go = false →
      let s1 := idleExit (setMbox s.toBlk n.val { m with go := true })
      Gives (.mbGoWrite n) s { s1 with hub := { s1.hub with waiting := s1.hub.waiting ++ [.mailbox n] } }) ∧
    Gives (.mbDoneClear n) s { s.toBlk with hub := { s.hub with mbox := s.hub.mbox.set n.val { m with done := false } } } ∧
    (∀ rest crossing, s.hub.waiting = .mailbox n :: rest → s.hub.exec.length < 4 → hubServes s.toBlk = true →
      (s.hub.exec.any fun e => decide (e.1 = .mailbox n)) = false →
      let area := memReadBytes s.mem (0x10000 + n.val * 0x1000 + 0x40) 2016
      let rest' := if crossing then rest ++ [.mailbox n] else rest
      let s1 := { s.toBlk with hub := { s.hub with waiting := rest', mbox := s.hub.mbox.set n.val { m with go := crossing, busy := true, progress := 0 } } }
      Gives (.mailboxTake (n, crossing)) s (hubPull rest'.length (hubTake s1 (.mailbox n) (parseRequest area)))) ∧
    (∀ crossing, s.hub.waiting.head? ≠ some (.mailbox n) ∨ 4 ≤ s.hub.exec.length ∨ hubServes s.toBlk = false ∨
      (s.hub.exec.any fun e => decide (e.1 = .mailbox n)) = true → Gives (.mailboxTake (n, crossing)) s s.toBlk)) ∧
  (∀ (s : State) (id failed : Nat),
    (s.hub.jobs.get? id = none → Gives (.jobEnd id failed) s s.toBlk) ∧
    (∀ j, s.hub.jobs.get? id = some j → j.jstate ≠ 1 → Gives (.jobEnd id failed) s s.toBlk) ∧
    (∀ j, s.hub.jobs.get? id = some j → j.jstate = 1 →
      (∀ ext, j.kind = .selfTest ext → Gives (.jobEnd id failed) s (selfTestEnd s.toBlk id failed ext)) ∧
      (∀ n, j.kind = .nsDelete n → nsInFlight s.toBlk n ≠ 0 → Gives (.jobEnd id failed) s s.toBlk) ∧
      (∀ n, j.kind = .nsDelete n → nsInFlight s.toBlk n = 0 → Gives (.jobEnd id failed) s (nsDeleteEnd s.toBlk id n)) ∧
      (∀ t g, j.kind = .retireGen t g → (s.cip.pages.get? t).any (fun p => p.gens.any fun x => x.gen == g) = false →
        Gives (.jobEnd id failed) s (endJob s.toBlk id 2 0 0)) ∧
      (∀ mask share, j.kind = .poolFormat mask share → Gives (.jobEnd id failed) s (endJob (formatPool s.toBlk mask share) id 2 0 0)) ∧
      (∀ m w taken, j.kind = .camMode m w 0 taken → Gives (.jobEnd id failed) s (endJob s.toBlk id 2 0 taken)) ∧
      (j.kind = .handover ∨ j.kind = .failback → Gives (.jobEnd id failed) s (finishDrain s.toBlk)) ∧
      (j.kind = .fwCommit → Gives (.jobEnd id failed) s (commitEnd s.toBlk id))))

/-- R309, and what else a reset of the PCIe function leaves: every MB_CTRL at its reset value, a request that the hub has taken
still in its hands with its response discarded, jobs running on; every ring, every vector and the plain registers at their reset
values. -/
def Obligations.FunctionResetLeavesTheHubAtWork : Prop :=
  (∀ (s : State) (c : Instr), c = .perstN ∨ c = .functionLevelReset → ∃ t, exec c s = .next t ∧
    (∀ n, let m := mboxOf t.toBlk n
      m.go = false ∧ m.busy = false ∧ m.done = false ∧ m.irqEn = false ∧ m.progress = 0 ∧ m.resp = (mboxOf s.toBlk n).resp) ∧
    (let taken := fun (b : Blk) (n : Fin 16) => b.hub.exec.filter fun e => decide (e.1 = .mailbox n)
     ∀ n, taken t.toBlk n = taken s.toBlk n) ∧
    t.hub.later = s.hub.later ∧ t.hub.jobs = s.hub.jobs ∧
    (∀ n : Fin 16, s.hub.mbox.has n.val = true → (∃ e ∈ s.hub.exec ++ s.hub.later, e.1 = .mailbox n) → (mboxOf t.toBlk n.val).discard = true) ∧
    t.ring.cqs = [] ∧
    (∀ q, let x := sqOf s.toBlk q
      sqOf t.toBlk q = { tornCnt := x.tornCnt, malformedCnt := x.malformedCnt, pollLateCnt := x.pollLateCnt }) ∧
    t.reg = { smbEvent := s.reg.smbEvent } ∧
    (∀ a, memRead t.mem a = if 0x40000 ≤ a ∧ a < 0x42000 then 0 else memRead s.mem a)) ∧
  (∀ (b : Blk) (n : Nat) (r : Request) (head bulk : Bytes), (mboxOf b n).discard = true →
    let t := answerMbox b n r head bulk
    (mboxOf t n).resp = (mboxOf b n).resp ∧ (mboxOf t n).done = (mboxOf b n).done ∧ (mboxOf t n).busy = false)

/-- Rings begin, end and read their entries (R322-R324, R333, R336, R337). ENABLE with good settings binds the ring to a session
and it runs; otherwise, and with no free session, CFG_ERR is set with 0xB012. In BOOTING and RECOVERY, and while an earlier
disable of the ring has not drained, an enable is refused: the model's choice (log entry 31). Clearing ENABLE resets the ring's
commands, and it stops running once all are posted. A write of CQ_CTRL and of CQ_HEAD takes effect as the registers' rules say.
A poll of an enabled ring with room reads at most BURST entries of the host, in the packets of its Max Read Request; a tick that
finds one outstanding counts POLL_LATE, and a kick then does nothing. Entries that come back are classed in order. Event
payloads are laid out as log entry 9 says. -/
def Obligations.RingsAreEnabledAndPolled : Prop :=
  (∀ (s : State) (q : Fin 256),
    let x := sqOf s.toBlk q.val
    let good := x.running = false ∧ sqGood s.toBlk x = true ∧ s.dev ≠ .booting ∧ s.dev ≠ .recovery
    let refused := raise (setSq s.toBlk q.val { x with cfgErr := true }) 0xB012 3 78 [BitVec.ofNat 8 q.val]
    (x.enable = true → Gives (.sqEnable q) s s.toBlk) ∧
    (x.enable = false → ¬ good → Gives (.sqEnable q) s refused) ∧
    (x.enable = false → good → (ownRange s.toBlk).2 ≤ inUse s.toBlk ∨ takeNumber s.toBlk = none → Gives (.sqEnable q) s refused) ∧
    (∀ sn s1, x.enable = false → good → inUse s.toBlk < (ownRange s.toBlk).2 → takeNumber s.toBlk = some (sn, s1) →
      let s2 := { s1 with xpt := { s1.xpt with
        sessions := s1.xpt.sessions.set sn { tenant := x.tenant, ring := some q.val, lastAt := s1.now } } }
      Gives (.sqEnable q) s (setSq s2 q.val { x with
        enable := true, running := true, session := sn, s := 0, torn := 0, ended := false, reading := none, localq := [] })) ∧
    (x.enable = false → Gives (.sqDisable q) s s.toBlk) ∧
    (x.enable = true → Gives (.sqDisable q) s
      (sqDrained (ringReset (setSq s.toBlk q.val { x with enable := false }) q.val) q.val)) ∧
    (let y := { x with pollLateCnt := x.pollLateCnt + 1 }
     let poll := fun (b : Blk) =>
       let sl := x.s % 2 ^ x.size
       let n := if x.ended then 1 else min x.burst (min (64 - x.localq.length) (2 ^ x.size - sl))
       hostReads (setSq b q.val { x with reading := some n }) (x.base.toNat + 64 * sl) (64 * n)
     let may := x.enable = true ∧ s.ring.pcieUp = true ∧ x.localq.length < 64
     (¬ may → Gives (.sqKick q) s s.toBlk ∧ pollSq s.toBlk q.val true = s.toBlk) ∧
     (may → x.reading ≠ none → Gives (.sqKick q) s s.toBlk ∧ pollSq s.toBlk q.val true = setSq s.toBlk q.val y) ∧
     (may → x.reading = none → Gives (.sqKick q) s (poll s.toBlk) ∧ pollSq s.toBlk q.val true = poll s.toBlk)) ∧
    (∀ entries,
      (x.reading = none → Gives (.sqEntryRead q entries) s s.toBlk) ∧
      (∀ n, x.reading = some n → (sessOf s.toBlk x.session).any (·.owesReset) = false →
        Gives (.sqEntryRead q entries) s (classEntries q.val (entries.take n) (setSq s.toBlk q.val { x with reading := none }))) ∧
      (∀ n, x.reading = some n → (sessOf s.toBlk x.session).any (·.owesReset) = true →
        let s1 := modSess (ringReset s.toBlk q.val) x.session fun ss => { ss with owesReset := false }
        Gives (.sqEntryRead q entries) s
          (classEntries q.val (entries.take n) (setSq s1 q.val { sqOf s1 q.val with reading := none }))))) ∧
  (∀ (s : State) (g : Fin 16), Gives (.ringPollTick g) s ((List.range 16).foldl (fun s i => pollSq s (16 * g.val + i) true) s.toBlk)) ∧
  (∀ (s : State) (q : Fin 256) (v : BitVec 32),
    let x := cqOf s.toBlk q.val
    let keeps := x.enable = true ∧ v.getLsbD 31 = false ∧ s.ring.sqs.vals.any (fun y => y.running && decide (y.cq = q.val)) = true
    let y := { x with enable := v.getLsbD 31, irqEn := v.getLsbD 30, irqCount := v.toNat / 2 ^ 16 % 256, irqDelay := v.toNat % 1024 }
    (keeps → Gives (.cqEnableWrite q v) s s.toBlk) ∧
    (¬ keeps → x.enable = true → Gives (.cqEnableWrite q v) s (setCq s.toBlk q.val y)) ∧
    (x.enable = false → v.getLsbD 31 = false →
      Gives (.cqEnableWrite q v) s (setCq s.toBlk q.val { y with size := v.toNat / 2 ^ 24 % 16 })) ∧
    (x.enable = false → v.getLsbD 31 = true → Gives (.cqEnableWrite q v) s
      (setCq s.toBlk q.val { y with size := v.toNat / 2 ^ 24 % 16, tail := 0, posted := 0, unsignalled := 0 })) ∧
    Gives (.cqHeadWrite q v) s (setCq s.toBlk q.val { x with head := v.toNat % 4096 }))

/-- Ring commands run and complete (R325-R328, R330-R332, R334, R339-R341). A round of admission lets each ring give up to
WEIGHT entries; none is admitted during ACTIVATING or a power-fail dump. A RING_ABORT at the head of its queue acts on the
command it names and its own completion follows. A read that comes back whole adds its bytes; one that fails ends the command
with MALFORMED_ENTRY and its DETAIL; one that nothing waits for changes nothing. A completion is posted as one 64-byte write
when its ring is enabled and has room. A transfer whose count is 0 ends, and the shadow set takes its place. What a crank
transfer shows of a host access is the model's choice (log entry 31). Event payloads are laid out as log entry 9 says. -/
def Obligations.RingCommandsCompleteInOrder : Prop :=
  (∀ (s : State),
    (s.dev = .activating ∨ s.pwr.dump = some true → Gives .ringAdmission s s.toBlk) ∧
    (s.dev ≠ .activating → s.pwr.dump ≠ some true →
      Gives .ringAdmission s (s.ring.sqs.keys.foldl (fun s q => giveEntries q (sqOf s q).weight s) s.toBlk))) ∧
  (∀ (s : State) (q : Fin 256),
    let x := sqOf s.toBlk q.val
    (x.localq = [] → Gives (.ringAbort q) s s.toBlk) ∧
    (∀ e rest, x.localq = e :: rest → s.pwr.dump = some true ∨ leAt e.2 0 1 ≠ 0x7F → Gives (.ringAbort q) s s.toBlk) ∧
    (∀ e rest, x.localq = e :: rest → s.pwr.dump ≠ some true → leAt e.2 0 1 = 0x7F →
      let s1 := setSq s.toBlk q.val { x with localq := rest }
      let own := fun (s : Blk) (st detail : Nat) => queueCpl s q.val
        { cid := leAt e.2 2 2, sq := q.val, opcode := 0x7F, entryIx := e.1, trailer := (st, 0, 0, detail, 0) }
      let mine := s.cmd.slots.vals.find? fun c => decide (c.ring = some q.val ∧ c.cid = leAt e.2 12 2 ∧ c.phase ≠ .done)
      (devCause s.dev ≠ 0 → Gives (.ringAbort q) s
        (own s1 (devCause s.dev) (if devCause s.dev = 0x0301 then s.dev.code else 0))) ∧
      (devCause s.dev = 0 → entryFormOk e.2 = false → Gives (.ringAbort q) s (own s1 0x0201 0)) ∧
      (devCause s.dev = 0 → entryFormOk e.2 = true → mine = none → Gives (.ringAbort q) s (own s1 0x0303 0)) ∧
      (∀ c, devCause s.dev = 0 → entryFormOk e.2 = true → mine = some c →
        Gives (.ringAbort q) s (own (abortTag s1 c.session c.tag).2 (abortTag s1 c.session c.tag).1 0)))) ∧
  (∀ (s : State) (slot : Nat) (c : Cmd) (q : Nat) (t : Xfer),
    slot < 524288 → cmdOf s.toBlk slot = some c → c.ring = some q → readOf s.toBlk (ringChan s.toBlk q) slot = some t →
    let ended := fun (n : Nat) => readEnded s.toBlk (ringChan s.toBlk q) slot n
    let failed := fun (n : Nat) => failCmd (raise (ended n) 0xB013 4 78 [BitVec.ofNat 8 q, BitVec.ofNat 8 n]) slot 0x0206 n 0
    (∀ b, b.length = t.count → c.phase = .fetching → Gives (.dmaReadDone slot (.data b)) s (fetched (ended 0) slot q c b)) ∧
    (∀ b, b.length ≠ t.count ∨ c.phase ≠ .fetching → Gives (.dmaReadDone slot (.data b)) s s.toBlk) ∧
    Gives (.dmaReadDone slot .unsupportedRequest) s (failed 1) ∧ Gives (.dmaReadDone slot .completerAbort) s (failed 2) ∧
    Gives (.dmaReadDone slot .timeout) s (failed 3) ∧ Gives (.dmaReadDone slot .poisoned) s (failed 4)) ∧
  (∀ (s : State) (slot : Nat) (r : HostRead), slot < 524288 →
    (cmdOf s.toBlk slot = none ∨ (∀ c q, cmdOf s.toBlk slot = some c → c.ring = some q → readOf s.toBlk (ringChan s.toBlk q) slot = none) →
      Gives (.dmaReadDone slot r) s s.toBlk)) ∧
  (∀ (s : State) (n : Nat) (ok : Bool) (r : HostRead),
    Gives (.dmaReadDone (524288 + n) r) s (bulkRead s.toBlk n r) ∧
    ((mboxOf s.toBlk n).flushing = true → Gives (.flushingReadDone (524288 + n) ok) s
      (mboxDone (crankFlushed (if ok then s.toBlk else raise s.toBlk 0xB013 4 78 [0xFF#8, 0#8]) 31 (524288 + n)) n)) ∧
    ((mboxOf s.toBlk n).flushing = false → Gives (.flushingReadDone (524288 + n) ok) s s.toBlk)) ∧
  (∀ (s : State) (slot : Nat) (ok : Bool), slot < 524288 →
    (∀ c ∈ s.ring.cqs.vals, ∀ x ∈ c.wait, ¬ (x.slot = some slot ∧ x.flushing = true)) → Gives (.flushingReadDone slot ok) s s.toBlk) ∧
  (∀ (s : State) (slot : Nat) (ok : Bool) (x : Cpl),
    let mine := fun (x : Cpl) => decide (x.slot = some slot) && x.flushing
    slot < 524288 → s.ring.cqs.vals.findSome? (fun c => c.wait.find? mine) = some x →
    let s0 := if ok then s.toBlk else raise s.toBlk 0xB013 4 78 [BitVec.ofNat 8 x.sq, 0#8]
    let s1 := crankFlushed s0 (ringChan s.toBlk x.sq) slot
    let done := fun (c : Cq) => { c with wait := c.wait.map fun y => if mine y then { y with flushing := false } else y }
    Gives (.flushingReadDone slot ok) s { s1 with ring := { s1.ring with cqs := s1.ring.cqs.map fun e => (e.1, done e.2) } }) ∧
  (∀ (s : State) (q : Fin 256),
    let x := cqOf s.toBlk q.val
    (x.wait = [] → Gives (.completionPost q) s s.toBlk) ∧
    (∀ c rest, x.wait = c :: rest → x.enable = false ∨ s.ring.pcieUp = false ∨ c.flushing = true ∨ cqRoom x = false →
      Gives (.completionPost q) s s.toBlk) ∧
    (∀ c rest, x.wait = c :: rest → x.enable = true → s.ring.pcieUp = true → c.flushing = false → cqRoom x = true →
      let sq := sqOf s.toBlk c.sq
      let e := closeEntry (completionEntry c (sq.s % 2 ^ sq.size)) x.posted
      let y := { x with wait := rest, tail := (x.tail + 1) % 2 ^ x.size, posted := x.posted + 1, unsignalled := x.unsignalled + 1 }
      let s1 := setCq (emit s.toBlk (.hostWrite (x.base.toNat + 64 * x.tail) e false)) q.val y
      let s2 := if x.irqEn = true ∧ max 1 x.irqCount ≤ x.unsignalled + 1 then cqSignal s1 q.val else s1
      (c.slot = none → Gives (.completionPost q) s (sqDrained s2 c.sq)) ∧
      (∀ k, c.slot = some k → Gives (.completionPost q) s (sqDrained (releaseRing s2 k) c.sq))) ∧
    (x.irqEn = true → 0 < x.unsignalled → Gives (.cqIrqDelay q) s (vector (setCq s.toBlk q.val { x with unsignalled := 0 }) (32 + q.val))) ∧
    (x.irqEn = false ∨ x.unsignalled = 0 → Gives (.cqIrqDelay q) s s.toBlk)) ∧
  (∀ (s : State) (c : Fin 32),
    let x := chanOf s.toBlk c.val
    Gives (.actCountRead c) s (emit (setChan s.toBlk c.val { x with latch := x.act }) (.mmio (BitVec.ofNat 64 x.act.count))) ∧
    (x.transfersOf = [] → Gives (.crankEndOfCount c) s s.toBlk) ∧
    (∀ t l, x.transfersOf = t :: l →
      let ends := t.count = 0 ∧ (t.flush = false ∨ t.flushed = true)
      let s1 := setChan s.toBlk c.val { x.refill l with transfers := x.transfers + 1 }
      (¬ ends → Gives (.crankEndOfCount c) s s.toBlk) ∧
      (ends → x.eocIrq = true → Gives (.crankEndOfCount c) s (vector s1 c.val)) ∧
      (ends → x.eocIrq = false → Gives (.crankEndOfCount c) s s1)))

/-- Power states (R344-R359, R376). A quiet device in RUN gates its engines in IDLE. The domain asked in a sleep attempt stops
when it is quiesced and the next is asked; after the last the device commits, or reaches REST; a domain that is not quiesced
changes nothing, but that media engines asked for FREEWHEEL bring to flash what is not there yet. A timeout rolls the attempt
back with its reason. BACKOFF tries the oldest waiting job again. A wake ends in RUN with event 0xE003. A fall of PFAIL_N starts
a power-fail dump where one may be made; its end makes the image and holds the pads, or restarts where PFAIL_N has risen. -/
def Obligations.PowerStatesAndDumps : Prop :=
  (∀ (s : State),
    let b := s.toBlk
    let idle := s.dev = .run ∧ s.pwr.pstate = .run ∧ quiet b = true
    (idle → Gives .idleEntry s { b with pwr := { b.pwr with pstate := .idle, clocks := b.pwr.clocks &&& ~~~idleGated } }) ∧
    (¬ idle → Gives .idleEntry s b) ∧
    (s.pwr.prepare = none → Gives .sleepDomainQuiesced s b ∧ ∀ m, Gives (.sleepDomainTimeout m) s b) ∧
    (∀ job t i, s.pwr.prepare = some (job, t, i) →
      let d := (askedFor t).getD i 78
      (isQuiesced b t job d = false → ¬ (t = 3 ∧ 34 ≤ d ∧ d < 50) → Gives .sleepDomainQuiesced s b) ∧
      (isQuiesced b t job d = false → t = 3 → 34 ≤ d → d < 50 → Gives .sleepDomainQuiesced s (settleMedia b)) ∧
      (isQuiesced b t job d = true →
        let s1 := if t = 2 then b else sleepDomain b d
        (i + 1 < (askedFor t).length →
          Gives .sleepDomainQuiesced s { s1 with pwr := { s1.pwr with prepare := some (job, t, i + 1), bgStopped := s1.pwr.bgStopped || decide (34 ≤ (askedFor t).getD (i + 1) 0) } }) ∧
        ((askedFor t).length ≤ i + 1 → t = 2 → Gives .sleepDomainQuiesced s (restEnter b job)) ∧
        ((askedFor t).length ≤ i + 1 → t ≠ 2 → Gives .sleepDomainQuiesced s (sleepCommit s1 job))) ∧
      (∀ m, let reason := refusalReason b t job d m
        Gives (.sleepDomainTimeout m) s (retryPower (rollback b d reason) job d reason))) ∧
    (s.pwr.backoff = [] → Gives .powerBackoffExpire s b) ∧
    (∀ job rest, s.pwr.backoff = job :: rest →
      Gives .powerBackoffExpire s (powerAttempt { b with pwr := { b.pwr with backoff := rest } } job)) ∧
    (∀ bad absent, s.pwr.waking = false → Gives (.wakeComplete bad absent) s b) ∧
    (∀ bad absent, s.pwr.waking = true → Reaches (.wakeComplete bad absent) s fun t =>
      t.dev = .run ∧ t.pwr.pstate = .run ∧ t.pwr.waking = false ∧ t.pwr.padHold = false ∧ t.pwr.wakeSpokes = [] ∧ t.pwr.seals = [])) ∧
  (∀ (s : State),
    let b := s.toBlk
    let fallen := { b with pin := { b.pin with pfailN := false } }
    let risen := { b with pin := { b.pin with pfailN := true } }
    (dumpsOnFail b = false → Gives .pfailNFall s fallen) ∧
    (dumpsOnFail b = true → Gives .pfailNFall s (startDump (stopForPower (raise fallen 0xE005 5 1 [])) true)) ∧
    (s.pwr.dump = some true ∧ s.pwr.dumpDone = false → Gives .pfailNRise s { risen with pwr := { b.pwr with pfailRose := true } }) ∧
    (¬ (s.pwr.dump = some true ∧ s.pwr.dumpDone = false) → Gives .pfailNRise s risen) ∧
    (s.pwr.dump = none ∨ s.pwr.dumpDone = true → Gives .dumpComplete s b) ∧
    (s.pwr.dumpDone = false →
      let done := { b with pwr := { b.pwr with dumpDone := true, image := some (!s.safe.ksAll.getLsbD 7) } }
      (s.pwr.dump = some false → Gives .dumpComplete s done) ∧
      (s.pwr.dump = some true → s.pwr.pfailRose = false ∨ s.dev = .kickstand → Gives .dumpComplete s (holdPads done)) ∧
      (s.pwr.dump = some true → s.pwr.pfailRose = true → s.dev ≠ .kickstand →
        let r := restart done
        Gives .dumpComplete s { r with safe := { dbg := s.safe.dbg } })))

/-- Starts, the boot ladder and activation (R359, R362-R372, R375, R388). A fall of POR_N loses everything but flash, fuses and
the always-on domain, and empties the memory behind the BAR; its rise samples the straps and begins step 1. Each step of the
ladder that completes begins the next, with its own effect, and the last reaches RUN; a step that fails holds FAULT_N, is
skipped, or is recorded and restarts the device. The activation timeline goes on step by step, ends in RUN on the new image, or
falls back. A pending image whose hash fails at activation is the model's choice (log entry 30). -/
def Obligations.BootLadderAndActivation : Prop :=
  (∀ (s : State),
    (s.pin.porN = false → Gives .porNFall s s.toBlk) ∧
    (s.pin.porN = true → let t := coldBlk s.toBlk
      exec .porNFall s = .next { s with toBlk := { t with pin := { t.pin with porN := false } }, mem := [] }) ∧
    (∀ paired side smb dbg, s.pin.porN = true → Gives (.porNRise paired side smb dbg) s s.toBlk) ∧
    (∀ paired side smb dbg, s.pin.porN = false → Reaches (.porNRise paired side smb dbg) s fun t =>
      t.pin.porN = true ∧ t.pin.smbAddr = smb ∧ t.dev = .booting ∧ t.boot.step = 1 ∧ t.tdm.paired = paired ∧
      t.tdm.side = (if paired && side then 1 else 0) ∧ t.safe.dbg = dbg ∧
      t.pwr.clocks = 3#84 ||| (1#84 <<< 79) ||| (if dbg then 1#84 <<< 83 else 0))) ∧
  (∀ (s : State) (mask : BitVec 128), s.pin.porN = true → s.dev = .booting →
    let b := s.toBlk
    let go := fun (b : Blk) (n : Nat) => { b with boot := { b.boot with step := n } }
    let c := Instr.bootStepComplete mask
    (s.boot.step = 1 → Gives c s (go { b with pin := { b.pin with fault := false } } 2)) ∧
    (s.boot.step = 2 → Gives c s (loaderStep b mask)) ∧
    (s.boot.step = 3 → Gives c s (go (keyStep b) 4)) ∧
    (s.boot.step = 4 → Gives c s (slotStep b mask)) ∧
    (s.boot.step = 5 → Gives c s (go (startClock b 78) 6)) ∧
    (s.boot.step = 6 → Gives c s (go ([74, 75, 76, 77].foldl startClock b) 7)) ∧
    (s.boot.step = 7 → Gives c s (go (loadSubsidiaries b) 8)) ∧
    (s.boot.step = 8 → Gives c s (pairStep b mask)) ∧
    (s.boot.step = 9 → Gives c s (bankStep b mask)) ∧
    (s.boot.step = 10 → Gives c s (go b 11)) ∧
    (s.boot.step = 11 → Gives c s (go (if s.boot.warm then b else restoreMedia b mask) 12)) ∧
    (s.boot.step = 12 → Gives c s (dumpStep b)) ∧
    (13 ≤ s.boot.step → Gives c s (reachRun b)) ∧
    (s.boot.step = 1 → Gives .bootStepTimeout s { b with pin := { b.pin with fault := true } }) ∧
    (s.boot.step = 10 → Gives .bootStepTimeout s (go b 11)) ∧
    (s.boot.step ≠ 1 → s.boot.step ≠ 10 → Gives .bootStepTimeout s (bootFail b))) ∧
  (∀ (s : State) (mask : BitVec 128), s.pin.porN = false ∨ s.dev ≠ .booting →
    Gives (.bootStepComplete mask) s s.toBlk ∧ Gives .bootStepTimeout s s.toBlk) ∧
  (∀ (s : State) (n : Nat) (src : Source), s.boot.activation = some (n, src) →
    let b := s.toBlk
    let next := { b with boot := { b.boot with activation := some (n + 1, src) } }
    let p := (validRec b).pendingSlot
    let ok := Instr.activationStepComplete true
    (n = 1 → Gives ok s { next with pwr := { b.pwr with bgStopped := true } }) ∧
    (n = 2 → commandsDrained b = true → s.med.moving.isEmpty = true → Gives ok s next) ∧
    (n = 2 → commandsDrained b = false ∨ s.med.moving.isEmpty = false → Gives ok s b) ∧
    (n = 3 → Gives ok s { next with boot := { next.boot with running := if p < 2 then p else s.boot.running } }) ∧
    (n = 4 → Gives ok s { loadSubsidiaries next with cip := { b.cip with pairs := BitVec.allOnes 128 } }) ∧
    (5 ≤ n → Gives ok s (dispatchHeld (answerLater (setDev
      (confirmImage (bgResume { b with boot := { b.boot with activation := none, staged := false } })) .run) src 0 0 []))) ∧
    (n = 3 ∨ n = 4 → Gives (.activationStepComplete false) s (warmStart b src)) ∧
    (n ≠ 3 → n ≠ 4 → Gives (.activationStepComplete false) s (abandonActivation b src)) ∧
    (n ≤ 2 → Gives .activationDrainTimeout s (abandonActivation b src)) ∧
    (2 < n → Gives .activationDrainTimeout s b)) ∧
  (∀ (s : State) (ok : Bool), s.boot.activation = none →
    Gives (.activationStepComplete ok) s s.toBlk ∧ Gives .activationDrainTimeout s s.toBlk)

/-- The monitors and the memory errors (R296, R380-R383, R385, R418). While the monitors run, a divergence, a domain whose clock
fails, a rail out of its window and a junction over 100 °C each raise their event at severity 7 and enter the kickstand with
their code and place; the debug domain's clock stops alone, and the loss of the crystal or of VDD_AON restarts the time. A
memory error is counted or handled by the structure that holds the word. A round of fault injection counts, or is a fault of the
monitors. The layout of event payloads, and that a completed dump answers a supply loss by a cold start, are the model's choices
(log entries 9 and 33). -/
def Obligations.MonitorsAndMemoryErrors : Prop :=
  (∀ (s : State),
    let b := s.toBlk
    let on := b.pin.porN = true ∧ ¬ (b.dev = .booting ∧ b.boot.step = 1)
    let kick := fun (s : Blk) (event src : Nat) (payload : Bytes) (code wher : Nat) (dead : Bool) =>
      enterKickstand (raise s event 7 src payload) code wher dead
    let lost := fun (x : Blk) => { x with time := { x.time with valid := false, seconds := 0, sub := 0 } }
    let dumped := b.pin.porN = false ∨ (b.pwr.dump = some true ∧ b.pwr.dumpDone = true)
    (on → clockOn b 78 = true → Gives .lockstepDivergence s (kick b 0xE081 78 [] 1 0 false)) ∧
    (¬ on ∨ clockOn b 78 = false → Gives .lockstepDivergence s b) ∧
    Gives (.clockFault 0) s (raise (lost b) 0xE088 4 0 [0]) ∧
    (∀ d : Fin 84, d ≠ 0 →
      (¬ on ∨ clockOn b d.val = false → Gives (.clockFault d) s b) ∧
      (on → clockOn b d.val = true →
        (d = 83 → Gives (.clockFault d) s (raise (stopClock { b with safe := { b.safe with dbg := false } } 83) 0xE088 4 83 [1])) ∧
        (d = 79 → Gives (.clockFault d) s (kick b 0xE087 79 [] 9 0 false)) ∧
        (d ≠ 83 → d ≠ 79 → Gives (.clockFault d) s (kick b 0xE082 d.val [BitVec.ofNat 8 d.val] 4 d.val (decide (d = 1)))))) ∧
    (∀ r : Fin 9,
      let x := if r = 2 then lost b else b
      (dumped → r = 0 → Gives (.supplyFault r) s { b with pwr := { b.pwr with coldStart := true } }) ∧
      (dumped → r ≠ 0 → Gives (.supplyFault r) s x) ∧
      (¬ dumped → on → Gives (.supplyFault r) s (kick x 0xE083 1 [BitVec.ofNat 8 r.val] 5 r.val false)) ∧
      (¬ dumped → ¬ on → Gives (.supplyFault r) s x)) ∧
    (∀ tj : BitVec 16,
      let x := { b with loops := { b.loops with tj := tj } }
      (on → 1600 < tj.toInt → Gives (.junctionOverLimit tj) s (kick x 0xE084 1 (leBytes 2 tj.toNat) 6 0 false)) ∧
      (¬ on ∨ tj.toInt ≤ 1600 → Gives (.junctionOverLimit tj) s b)) ∧
    (¬ on → ∀ flagged, Gives (.faultInjection flagged) s b) ∧
    (on → Gives (.faultInjection true) s { b with safe := { b.safe with injectPass := b.safe.injectPass + 1 } } ∧
      Gives (.faultInjection false) s (kick b 0xE087 79 [] 9 0 false)) ∧
    (b.pin.porN = true → Gives .hbmScrubPass s (raise { b with safe := { b.safe with scrubAge := some 0 } } 0xA003 1 0xFFFF [])) ∧
    (b.pin.porN = false → Gives .hbmScrubPass s b)) ∧
  (∀ (s : State) (w : MemStruct),
    let b := s.toBlk
    let x := raise b 0xA002 5 0xFFFF (namePayload w)
    Gives (.memoryCorrectableError w) s
      (raise { b with safe := { b.safe with corrected := b.safe.corrected + 1 } } 0xA001 1 0xFFFF (namePayload w)) ∧
    (w = .cleanPage ∨ w = .onDieCache ∨ (∃ n, w = .dirtyBucket n ∨ w = .dirtyMap n) → Gives (.memoryUncorrectableError w) s x) ∧
    (∀ k, w = .staging k →
      let rec? := b.idx.stages.find? fun e => e.2.slot = k ∧ e.2.retired = false ∧ e.2.mirror = false
      (rec? = none → Gives (.memoryUncorrectableError w) s x) ∧
      (∀ e, rec? = some e → pastMedium e.2 = false → Gives (.memoryUncorrectableError w) s (faultSlot x k)) ∧
      (∀ e, rec? = some e → pastMedium e.2 = true →
        Gives (.memoryUncorrectableError w) s (modStage x e.1 fun y => { y with grains := [], medium := true }))) ∧
    (∀ n, w = .session n → (sessOf b n).isSome = true → Gives (.memoryUncorrectableError w) s (evict x n)) ∧
    (∀ n, w = .session n → sessOf b n = none → Gives (.memoryUncorrectableError w) s x) ∧
    (w = .hubMemory → Gives (.memoryUncorrectableError w) s (enterKickstand (raise x 0xE081 7 78 []) 1 0 false)) ∧
    (w = .pannier → Gives (.memoryUncorrectableError w) s (enterKickstand (raise x 0xA004 7 0xFFFF []) 7 0 false)))

/-- The event recorder (R394-R400, R403, R410, R425, R433). A running recorder takes the oldest waiting event; below MIN_SEV it
is neither numbered nor stored, otherwise it takes the next number and its slot, and one of severity 6 or 7 asks for a flush and
sets EVENT, and one of ALERT_SEV sets bit 4 of ALERT_STATUS. A unit that programs moves at most 256 records to the log; one that
fails raises 0xD004. A loss is reported by 0xD001 while a loss counter has risen, once in a second. Event payloads are laid out
as log entry 9 says. -/
def Obligations.EventsAreNumberedFlushedAndCounted : Prop :=
  ∀ (s : State),
    let b := s.toBlk
    let running := b.evt.nextSeq ≠ 0 ∧ b.pwr.pstate ≠ .freewheel
    (b.evt.inq = [] ∨ ¬ running → Gives .eventAccept s b) ∧
    (∀ e rest, b.evt.inq = e :: rest → running →
      let x := { b with evt := { b.evt with inq := rest } }
      (e.sev < b.evt.minSev → e.sev < 7 → Gives .eventAccept s x) ∧
      (b.evt.minSev ≤ e.sev ∨ 7 ≤ e.sev → Reaches .eventAccept s fun t =>
        t.evt.inq = rest ∧ t.evt.nextSeq = b.evt.nextSeq + 1 ∧
        t.evt.buf = b.evt.buf.set (b.evt.nextSeq % 65536) (recordOf x e b.evt.nextSeq) ∧
        t.evt.log = b.evt.log ∧ t.evt.flushed = b.evt.flushed ∧
        t.evt.flushTo = (if 6 ≤ e.sev then b.evt.nextSeq else b.evt.flushTo) ∧
        t.reg.smbEvent = (decide (6 ≤ e.sev) || b.reg.smbEvent) ∧
        t.reg.alertStatus = (if b.reg.alertSev ≤ e.sev then b.reg.alertStatus ||| 16#8 else b.reg.alertStatus))) ∧
    (let u := nextUnitRecs b
     (u = [] ∨ b.pwr.dump ≠ none → ∀ ok, Gives (.eventFlushUnit ok) s b) ∧
     (u ≠ [] → b.pwr.dump = none →
       Gives (.eventFlushUnit false) s (raise b 0xD004 4 80 []) ∧
       (let x := flushRecs b u
        Gives (.eventFlushUnit true) s
          (if (unflushed x).length < 16384 then { x with evt := { x.evt with flushing := false } } else x)))) ∧
    (let sum := b.evt.queueLost.toNat + b.evt.overrun.toNat + b.evt.droppedFull.toNat
     let recent := b.evt.lossAt.any fun t => decide (b.now < t + second)
     (sum = b.evt.lossSeen ∨ recent = true → Gives .eventLossReport s b) ∧
     (sum ≠ b.evt.lossSeen → recent = false → Gives .eventLossReport s
       (raise { b with evt := { b.evt with lossSeen := sum, lossAt := some b.now } } 0xD001 4 80
         (leBytes 8 b.evt.queueLost.toNat ++ (leBytes 8 b.evt.overrun.toNat ++ leBytes 8 b.evt.droppedFull.toNat)))))

/-- Writes of the register map (R8, R295, R296, R306, R404, R405, R408, R410, R411, R413). While the map is reached,
ALERT_STATUS clears by ones save the bits the hardware sets in that cycle, and each bit that rises or that a write would have
cleared sends its vector under the mask; a mask bit rising over a set bit sends it at once. While MSI-X is enabled, a vector
whose table entry or function is masked is pending, and one whose entry is unmasked is sent (what MSI-X does beyond R404 is the
model's choice, log entry 40). The registers take their fields; a REQUEST area takes bytes of any size, and every byte of memory
outside it and outside the MSI-X addresses and data keeps its value; another size changes no register. -/
def Obligations.RegisterMapWrites : Prop :=
  (∀ (s : State),
    let b := s.toBlk
    let on := b.pin.porN = true ∧ b.pwr.pstate ≠ .freewheel ∧ b.pwr.pstate ≠ .off
    let old := b.reg.alertStatus
    (¬ on → ∀ v hw, Gives (.alertStatusClear v hw) s b ∧ Gives (.alertMaskWrite v) s b ∧ Gives .rtcSubRead s b) ∧
    (on →
      (∀ (v : BitVec 32) (hw : BitVec 8),
        let w : BitVec 8 := v.truncate 8
        let sent := (List.range 8).filter fun n => hw.getLsbD n && b.reg.alertMask.getLsbD n && (!old.getLsbD n || w.getLsbD n)
        Gives (.alertStatusClear v hw) s (sent.foldl (fun b n => vector b (304 + n))
          { b with reg := { b.reg with alertStatus := (old &&& ~~~w) ||| hw } })) ∧
      (∀ v : BitVec 32,
        let w : BitVec 8 := v.truncate 8
        let sent := (List.range 8).filter fun n => w.getLsbD n && !b.reg.alertMask.getLsbD n && old.getLsbD n
        Gives (.alertMaskWrite v) s (sent.foldl (fun b n => vector b (304 + n)) { b with reg := { b.reg with alertMask := w } })) ∧
      Gives .rtcSubRead s (emit { b with time := { b.time with latched := b.time.seconds } }
        (.mmio (BitVec.ofNat 64 ((if b.time.valid then 2 ^ 31 else 0) + b.time.sub.toNat)))))) ∧
  (∀ (s : State) (off : Nat) (value : Bytes), ∃ t, exec (.registerWrite off value) s = .next t ∧ t.pending = s.pending ∧
    (regsUp s.toBlk = false → t = s) ∧
    (regsUp s.toBlk = true →
      (value.length = 4 → off % 4 = 0 → t.toBlk = regWrite4 s.toBlk off (BitVec.ofNat 32 (leNat value))) ∧
      (value.length = 8 → off % 8 = 0 → t.toBlk = regWrite8 s.toBlk off (BitVec.ofNat 64 (leNat value))) ∧
      (¬ (value.length = 4 ∧ off % 4 = 0) → ¬ (value.length = 8 ∧ off % 8 = 0) → t.toBlk = s.toBlk) ∧
      (∀ a, off ≤ a → a < off + value.length → inRequestArea a = true → memRead t.mem a = value.getD (a - off) 0) ∧
      (∀ a, off ≤ a → a < off + value.length → inMsixTable a = true → (value.length = 4 ∨ value.length = 8) → off % value.length = 0 →
        memRead t.mem a = value.getD (a - off) 0) ∧
      (∀ a, a < off ∨ off + value.length ≤ a ∨ (inRequestArea a = false ∧ inMsixTable a = false) → memRead t.mem a = memRead s.mem a))) ∧
  (∀ (b : Blk) (v : BitVec 32),
    regWrite4 b 0x018 v = { b with reg := { b.reg with scratch := v } } ∧
    regWrite4 b 0x020 v = alertClear v 0 b ∧ regWrite4 b 0x024 v = alertMask v b ∧
    regWrite4 b 0x028 v = { b with reg := { b.reg with alertSev := v.toNat % 8 } } ∧
    regWrite4 b 0x1018 v = { b with time := { b.time with trim := v.truncate 11 } } ∧
    (∀ off, off < 0x018 ∨ (0x02C ≤ off ∧ off < 0x1010) ∨ (0x102C ≤ off ∧ off < 0x10000) ∨ (0x32000 ≤ off ∧ off < 0x40000) ∨ 0x42000 ≤ off → regWrite4 b off v = b) ∧
    (∀ n : Fin 512,
      let masked := b.msi.mask.getLsbD n.val || b.msi.fmask
      (b.msi.enable = false → vector b n.val = b) ∧
      (b.msi.enable = true → masked = true → vector b n.val = { b with msi := { b.msi with pba := b.msi.pba ||| (1#512 <<< n.val) } }) ∧
      (b.msi.enable = true → masked = false → vector b n.val = emit b (.msix n.val)) ∧
      (v.getLsbD 0 = true → regWrite4 b (0x4000C + n.val * 16) v = { b with msi := { b.msi with mask := b.msi.mask ||| (1#512 <<< n.val) } }) ∧
      (v.getLsbD 0 = false →
        let open_ := { b with msi := { b.msi with mask := b.msi.mask &&& ~~~(1#512 <<< n.val) } }
        let sent := b.msi.pba.getLsbD n.val = true ∧ b.msi.enable = true ∧ b.msi.fmask = false
        (¬ sent → regWrite4 b (0x4000C + n.val * 16) v = open_) ∧
        (sent → regWrite4 b (0x4000C + n.val * 16) v =
          emit { open_ with msi := { open_.msi with pba := b.msi.pba &&& ~~~(1#512 <<< n.val) } } (.msix n.val)))))

/-- The time and the alarm are written (R412; R296, R297). RTC_SET takes both counts by one write of 8 bytes; a 4-byte write to
its low half is held and applies nothing, and one to its high half applies both, with the low half last written. ALARM and
ALARM_CTRL are written by register or by ALARM_SET, each write at once and whole, so that the later governs; a time or alarm at
or past the compare value fires it. Other offsets and sizes, and a map that is not reached, change nothing. -/
def Obligations.TimeIsSetAndTheAlarmWritten : Prop :=
  (∀ (s : State),
    let b := s.toBlk
    let on := b.pin.porN = true ∧ b.pwr.pstate ≠ .freewheel ∧ b.pwr.pstate ≠ .off
    let a := b.time.alarm.toNat
    (¬ on → ∀ off w size, Gives (.rtcSetWrite off w size) s b ∧ Gives (.alarmCtrlWrite off w size) s b) ∧
    (on →
      (∀ v, Gives (.rtcSetWrite 0x1010 v 8) s (setTime b v.toNat) ∧
        Gives (.rtcSetWrite 0x1010 v 4) s { b with time := { b.time with setLow := v.truncate 32 } } ∧
        Gives (.rtcSetWrite 0x1014 v 4) s (setTime b (v.toNat % 2 ^ 32 * 2 ^ 32 + b.time.setLow.toNat)) ∧
        Gives (.alarmCtrlWrite 0x1020 v 8) s (setAlarm b v.toNat b.time.alarmEn) ∧
        Gives (.alarmCtrlWrite 0x1020 v 4) s (setAlarm b (a / 2 ^ 32 * 2 ^ 32 + v.toNat % 2 ^ 32) b.time.alarmEn) ∧
        Gives (.alarmCtrlWrite 0x1024 v 4) s (setAlarm b (v.toNat % 2 ^ 32 * 2 ^ 32 + a % 2 ^ 32) b.time.alarmEn) ∧
        Gives (.alarmCtrlWrite 0x1028 v 4) s
          (if v.getLsbD 30 then setAlarm { b with time := { b.time with alarmHit := false } } b.time.alarm.toNat (v.getLsbD 31)
           else setAlarm b b.time.alarm.toNat (v.getLsbD 31))) ∧
      (∀ (off size : Nat) (v : BitVec 64), ¬ (off = 0x1010 ∧ (size = 8 ∨ size = 4)) → ¬ (off = 0x1014 ∧ size = 4) →
        Gives (.rtcSetWrite off v size) s b) ∧
      (∀ (off size : Nat) (v : BitVec 64), ¬ (off = 0x1020 ∧ (size = 8 ∨ size = 4)) → ¬ (off = 0x1024 ∧ size = 4) →
        ¬ (off = 0x1028 ∧ (size = 4 ∨ size = 8)) → Gives (.alarmCtrlWrite off v size) s b))) ∧
  (∀ (s : State) (src : Source) (r : Request), MayBegin 0xBB src r s.toBlk → leAt r.params 0 8 < 2 ^ 63 → leAt r.params 8 1 ≤ 1 →
    Gives (.alarmSet src) s (hubOk (setAlarm (hubBegin s.toBlk src r) (leAt r.params 0 8) (leAt r.params 8 1 = 1)) src r [])) ∧
  (∀ (s : State) (v : Nat),
    let b := s.toBlk
    let x := { b with time := { b.time with seconds := BitVec.ofNat 48 (v / 32768), sub := BitVec.ofNat 15 v, valid := true } }
    let y := if v / 32768 % 2 ^ 48 + 1 < b.time.seconds.toNat then raise x 0xE041 3 0 [] else x
    let z := fun (b : Blk) => if b.time.alarmEn = true ∧ b.time.alarm.toNat ≤ b.time.seconds.toNat * 2 ^ 15 + b.time.sub.toNat then
        (let w := raise { b with time := { b.time with alarmEn := false, alarmHit := true } } 0xE042 2 0 []
         if w.pwr.pstate = .freewheel ∧ w.pwr.waking = false then startWake w else restExit w) else b
    setTime b v = z y ∧ ∀ en, setAlarm b v en = z { b with time := { b.time with alarm := BitVec.ofNat 63 v, alarmEn := en } })

/-- The sideband (R92, R295, R296, R407, R424-R426). Each SMBus read answers its code with its value, in every state, and
changes nothing else but that a read of STATUS clears EVENT. A TAP instruction that takes control of pins drives them only while
POR_N is low and is BYPASS at any other time; TRST_N low resets the TAP. VDD_AON applied gives the always-on fields their reset
values. That VDD_AON applied counts as VDD_CORE removed is the model's choice (log entry 33). -/
def Obligations.SidebandTellsAndTestAccess : Prop :=
  ∀ (s : State),
    let b := s.toBlk
    let bit := fun (c : Bool) (n : Nat) => if c then 2 ^ n else 0
    let fault := if b.pwr.padHold then b.pwr.heldFault else b.pin.fault
    Gives .smbStatus s (emit { b with reg := { b.reg with smbEvent := false } } (.smbus 0
      (bit fault 7 + bit b.tdm.fenceReq 6 + bit b.time.valid 5 + bit (decide (b.dev = .kickstand)) 4 + bit b.reg.smbEvent 3))) ∧
    Gives .smbDeviceState s (emit b (.smbus 1 b.dev.code)) ∧
    Gives .smbBootStep s (emit b (.smbus 2 (if b.dev = .booting then b.boot.step else 0))) ∧
    Gives .smbPowerState s (emit b (.smbus 3 b.pwr.pstate.code)) ∧
    Gives .smbTemperature s (emit b (.smbus 4 (if b.pwr.pstate = .freewheel then 0x8000 else b.loops.tj.toNat))) ∧
    Gives .smbKsCause s (emit b (.smbus 5 (b.safe.ksWhere * 256 + b.safe.ksCode))) ∧
    Gives .smbFailStep s (emit b (.smbus 6 ((validRec b).failStep * 256 + (validRec b).failCount))) ∧
    (∀ drive, b.pin.porN = false →
      Gives (.jtagInstruction true drive) s { b with pin := { b.pin with trstN := true, bypass := false, scan := drive } }) ∧
    (∀ control drive, control = false ∨ b.pin.porN = true →
      Gives (.jtagInstruction control drive) s { b with pin := { b.pin with trstN := true, bypass := true, scan := [] } }) ∧
    Gives .trstNLow s { b with pin := { b.pin with trstN := false, bypass := true, scan := [] } } ∧
    Reaches .vddAonApplied s fun t =>
      t.time.valid = false ∧ t.time.seconds = 0 ∧ t.time.sub = 0 ∧ t.time.trim = 0 ∧ t.time.alarm = 0 ∧ t.time.alarmEn = false ∧
      t.time.alarmHit = false ∧ t.time.opTime = b.time.opTime ∧ t.time.powerCycles = b.time.powerCycles ∧
      { t with time := b.time, pwr := b.pwr } = b ∧ t.pwr = { b.pwr with coldStart := true }

/-- The fence and the board's alert pin (R425). EVENT is set when an event of severity 6 or 7 is accepted, and a read of STATUS
clears it. ALERT_N is low while FENCE_REQ, KICKSTAND or EVENT is 1, and keeps its level at pad hold (R351). FENCE_REQ clears at
takeover and when the wait for the fence expires; a FENCE_DONE written while it is 0, or with another value than 0xA5, is
ignored. -/
def Obligations.FenceAndAlertPin : Prop :=
  ∀ (s : State),
    let b := s.toBlk
    (∀ e rest, b.evt.inq = e :: rest → b.evt.nextSeq ≠ 0 → b.pwr.pstate ≠ .freewheel → (6 ≤ e.sev ∧ b.evt.minSev ≤ e.sev ∨ e.sev = 7) →
      Reaches .eventAccept s fun t => t.reg.smbEvent = true) ∧
    Reaches .smbStatus s (fun t => t.reg.smbEvent = false) ∧
    (b.pwr.padHold = false →
      (alertLow b = true ↔ b.tdm.fenceReq = true ∨ b.dev = .kickstand ∨ b.reg.smbEvent = true)) ∧
    (b.pwr.padHold = true → alertLow b = b.pwr.heldAlert) ∧
    (∀ scope, (takeover b scope).tdm.fenceReq = false) ∧
    Reaches .fenceWaitExpire s (fun t => t.tdm.fenceReq = false) ∧
    (∀ v pec, b.tdm.fenceReq = false ∨ v ≠ 0xA5#8 → Gives (.fenceDone v pec) s b)

/-- The queue (the model's own, log entry 2): with a command at the front, a step is that command's effect on the state with the
queue's rest; with none waiting it is one fabric cycle, which changes the block alone. -/
def Obligations.StepRunsTheFrontCommand : Prop :=
  (∀ (c : Instr) (rest : List Instr) (s : State), step { s with pending := c :: rest } = exec c { s with pending := rest }) ∧
  (∀ s : State, s.pending = [] → step s = .next { s with toBlk := idleStep s.toBlk })

/-- Every command has an effect in every state: none is refused, and the one fault is a flit whose payload is not 240 bytes
(R155). The fault is the model's way to say that no such flit exists. -/
def Obligations.EveryCommandCompletes : Prop :=
  ∀ (c : Instr) (s : State),
    (∀ r, exec c s ≠ .refused r) ∧
    ((∃ f, exec c s = .fault f) ↔
      ∃ h p, p.length ≠ 240 ∧ (c = .tandemStateFlit h p ∨ c = .tandemValueFlit h p ∨ c = .held h p ∨ c = .joinProof h p ∨
        c = .heartbeat h p ∨ c = .resign h p ∨ (∃ l, c = .ident l h p ∨ c = .creditInit l h p) ∨ (∃ n, c = .dataIn n h p ∨ c = .status n h p))) ∧
    (∀ f, exec c s = .fault f → f = .noSuchFlit) ∧
    (c.wellFormed = true → ∃ t, exec c s = .next t)

/-- What the host has written to the BAR memory and what waits in the queue (the frame of every command): no command changes the
queue; only a register write, POR_N, PERST_N and a function-level reset change a byte of memory, the last two only the MSI-X
table. The rules are R306, R404, R405 and R407; the queue is the model's own (log entry 2). -/
def Obligations.MemoryChangesOnlyByTheHostAndResets : Prop :=
  ∀ (c : Instr) (s t : State), exec c s = .next t →
    t.pending = s.pending ∧
    ((∃ off v, c = .registerWrite off v) ∨ c = .porNFall ∨ c = .perstN ∨ c = .functionLevelReset ∨ t.mem = s.mem) ∧
    (c = .porNFall → s.pin.porN = true → t.mem = []) ∧
    (c = .porNFall → s.pin.porN = false → t.mem = s.mem) ∧
    ((∃ off v, c = .registerWrite off v) → regsUp s.toBlk = false → t.mem = s.mem) ∧
    (c = .perstN ∨ c = .functionLevelReset → ∀ a, a < 0x40000 ∨ 0x42000 ≤ a → memRead t.mem a = memRead s.mem a)

/-- What the memory behind the BAR can influence: only the copying of a mailbox's request. Two states that differ in that memory
and in the queue alone go to the same block under every other command, with the same outcome. The rules are R306 and R308. -/
def Obligations.OnlyAMailboxTakeReadsTheRequestMemory : Prop :=
  ∀ (c : Instr) (s s' : State), s.toBlk = s'.toBlk → (∀ n crossing, c ≠ .mailboxTake (n, crossing)) →
    (∀ t, exec c s = .next t → ∃ t', exec c s' = .next t' ∧ t'.toBlk = t.toBlk ∧ t'.pending = s'.pending) ∧
    (∀ f, exec c s = .fault f → exec c s' = .fault f)

/-- The invariant of the host-written memory holds at reset, where nothing is listed and nothing waits; and the registers read
after reset what their tables give (R335, R396, R404, R405, R408, R410, R411, R413). -/
def Obligations.ResetReadsAsTheTablesSay : Prop :=
  MemoryCanonical State.reset ∧ State.reset.pending = [] ∧
  (let rd := regRead4 State.reset.toBlk
   rd 0x000 = 0x9416A000 ∧ rd 0x008 = 0x0001FF01 ∧ rd 0x010 = 0 ∧ rd 0x014 = 0 ∧ rd 0x018 = 0 ∧ rd 0x020 = 0 ∧ rd 0x024 = 0 ∧ rd 0x028 = 6 ∧
   rd 0x1000 = 0 ∧ rd 0x1008 = 0 ∧ rd 0x1010 = 0 ∧ rd 0x1018 = 0 ∧ rd 0x1020 = 0 ∧ rd 0x1028 = 0 ∧ rd 0x1030 = 0 ∧ rd 0x1038 = 0 ∧ rd 0x103C = 0 ∧
   rd 0x2000 = 0 ∧ rd 0x2004 = 0 ∧ rd 0x2008 = 0 ∧ rd 0x2010 = 0 ∧ rd 0x2014 = 0xFFFFFFFF ∧ rd 0x2018 = 0 ∧
   (∀ n : Fin 16, rd (0x10000 + n.val * 0x1000) = 0) ∧
   (∀ q : Fin 256, rd (0x20000 + q.val * 0x40 + 8) = 0 ∧ rd (0x20000 + q.val * 0x40 + 0x10) = 0x801 ∧ rd (0x20000 + q.val * 0x40 + 0x18) = 0 ∧
     rd (0x20000 + q.val * 0x40 + 0x20) = (if q.val % 16 = 0 then 20 else 0)) ∧
   (∀ q : Fin 256, rd (0x24000 + q.val * 0x40 + 8) = 0x10000 ∧ rd (0x24000 + q.val * 0x40 + 0xC) = 0 ∧ rd (0x24000 + q.val * 0x40 + 0x10) = 0))

/-- Every step keeps the canonical form of the host-written memory: addresses strictly rising, no byte listed that reads 0
anyway. The list is the model's form of what R306 and R404 describe (log entry 38). -/
def Obligations.EveryStepKeepsMemoryCanonical : Prop :=
  ∀ s t : State, MemoryCanonical s → step s = .next t → MemoryCanonical t
end

