-- ==== Sys2Proof/Laws/Codes.lean ====
section
/-! SUPPORT. Codewords: what is encoded satisfies every check and decodes to what was encoded (R215-R217), and the small facts on
bytes, blocks and whitening it rests on. -/

namespace Sys2Proof.Machine

/-! ### Bytes and blocks -/

theorem chunks_append {n : Nat} (hn : 0 < n) (b : Bytes) : ∀ (q : Nat) (a : Bytes) (k : Nat), a.length = q * n →
    chunks n (q + k) (a ++ b) = chunks n q a ++ chunks n k b := by
  intro q
  induction q with
  | zero => intro a k h; have : a = [] := by simpa using h
            subst this; cases k <;> simp [chunks]
  | succ q ih =>
    intro a k h
    have hl : n ≤ a.length := by rw [h]; exact Nat.le_mul_of_pos_left _ (by omega)
    have ha : a ≠ [] := by intro e; subst e; simp at hl; omega
    have h2 : (a.drop n).length = q * n := by simp [h, Nat.add_mul]
    rw [show q + 1 + k = (q + k) + 1 from by omega]
    have e1 : (a ++ b).isEmpty = false := by simp [ha]
    have e2 : a.isEmpty = false := by simp [ha]
    simp only [chunks, e1, e2, List.take_append_of_le_length hl, List.drop_append_of_le_length hl, ih _ k h2]
    rfl

theorem leBytes_length : ∀ n v, (leBytes n v).length = n
  | 0, _ => rfl
  | n + 1, v => by simp [leBytes, leBytes_length n]

theorem leNat_leBytes : ∀ n v, leNat (leBytes n v) = v % 256 ^ n
  | 0, v => by simp [leBytes, leNat, Nat.mod_one]
  | n + 1, v => by
    have e : v % 256 ^ (n + 1) = v % 256 + 256 * (v / 256 % 256 ^ n) := by rw [Nat.pow_succ', Nat.mod_mul]
    rw [e, leBytes, leNat, leNat_leBytes n, BitVec.toNat_ofNat]

theorem chunks_empty (n k : Nat) : chunks n k [] = [] := by cases k <;> rfl

theorem blocksOf_whole {n : Nat} (hn : 0 < n) (a : Bytes) (q : Nat) (h : a.length = q * n) : blocksOf n a = chunks n q a := by
  have := chunks_append hn [] q a 1 h
  rw [List.append_nil, chunks_empty, List.append_nil] at this
  rw [blocksOf, h, Nat.mul_div_cancel _ hn, this]

theorem blocksOf_append {n : Nat} (hn : 0 < n) (a b : Bytes) (p q : Nat) (ha : a.length = p * n) (hb : b.length = q * n) :
    blocksOf n (a ++ b) = blocksOf n a ++ blocksOf n b := by
  rw [blocksOf_whole hn a p ha, blocksOf_whole hn b q hb, blocksOf_whole hn (a ++ b) (p + q) (by simp [ha, hb, Nat.add_mul]),
    chunks_append hn b p a q ha]

theorem blocksOf_flatMap {α : Type} {n : Nat} (hn : 0 < n) (f : α → Bytes) (hf : ∀ x, (f x).length = n) :
    ∀ l : List α, blocksOf n (l.flatMap f) = l.map f
  | [] => by simp [blocksOf, chunks]
  | x :: l => by
    have hl : (l.flatMap f).length = l.length * n := by simp [List.length_flatMap, hf]
    rw [List.flatMap_cons, blocksOf_append hn _ _ 1 l.length (by simp [hf]) hl, blocksOf_flatMap hn f hf l, List.map_cons,
      blocksOf_whole hn _ 1 (by simp [hf])]
    have e : f x ≠ [] := by intro e; have := hf x; rw [e] at this; simp at this; omega
    simp [chunks, e, List.take_of_length_le (Nat.le_of_eq (hf x))]

theorem blocksOf_length {n : Nat} (hn : 0 < n) : ∀ (q : Nat) (a : Bytes), a.length = q * n → (blocksOf n a).length = q := by
  intro q a h
  rw [blocksOf_whole hn a q h]
  induction q generalizing a with
  | zero => rfl
  | succ q ih =>
    have e : a ≠ [] := by intro e; subst e; simp [Nat.add_mul] at h; omega
    simp only [chunks, List.isEmpty_iff, e, if_false, List.length_cons]
    rw [ih _ (by simp [h, Nat.add_mul])]

/-! ### Whitening (R216) -/

theorem whiten_step (b : Bytes) : ∀ (l : Bytes) (r : BitVec 23),
    b.foldl (fun (acc : Bytes × BitVec 23) x => let w := whitenByte acc.2; ((x ^^^ w.1) :: acc.1, w.2)) (l, r) =
      ((b.foldl (fun (acc : Bytes × BitVec 23) x => let w := whitenByte acc.2; ((x ^^^ w.1) :: acc.1, w.2)) ([], r)).1 ++ l,
       (b.foldl (fun (acc : Bytes × BitVec 23) x => let w := whitenByte acc.2; ((x ^^^ w.1) :: acc.1, w.2)) ([], r)).2) := by
  induction b with
  | nil => simp
  | cons x b ih => intro l r; simp only [List.foldl_cons]; rw [ih, ih [_]]; simp

/-- The whitening of a byte string from that register on. -/
def whitened : BitVec 23 → Bytes → Bytes
  | _, [] => []
  | r, x :: b => (x ^^^ (whitenByte r).1) :: whitened (whitenByte r).2 b

theorem whiten_eq (pga : Nat) (b : Bytes) : whiten pga b = whitened (whitenSeed pga) b := by
  unfold whiten
  generalize whitenSeed pga = r
  induction b generalizing r with
  | nil => rfl
  | cons x b ih => simp only [List.foldl_cons, whitened]; rw [whiten_step, List.reverse_append, ih]; rfl

theorem whitened_twice (b : Bytes) : ∀ r, whitened r (whitened r b) = b := by
  induction b with
  | nil => intro r; rfl
  | cons x b ih => intro r; simp [whitened, ih]

theorem whitened_length (b : Bytes) : ∀ r, (whitened r b).length = b.length := by
  induction b with
  | nil => intro r; rfl
  | cons x b ih => intro r; simp [whitened, ih]

/-- Whitening twice gives the bytes back. -/
@[simp] theorem whiten_whiten (pga : Nat) (b : Bytes) : whiten pga (whiten pga b) = b := by simp [whiten_eq, whitened_twice]

@[simp] theorem whiten_length (pga : Nat) (b : Bytes) : (whiten pga b).length = b.length := by simp [whiten_eq, whitened_length]

/-! ### The code (R217) -/

theorem slice_length (b : Bytes) (o n : Nat) : (slice b o n).length = n := by simp [slice]

theorem slice_whole (b : Bytes) (n : Nat) (h : b.length = n) : slice b 0 n = b := by simp [slice, ← h]

/-- The parity columns of the information columns. -/
def parityCols (cols : List (BitVec 256)) : List (BitVec 256) :=
  let ss := (List.range 15).map (ldpcRow cols)
  let p0 := ss.foldl (· ^^^ ·) 0
  (List.range 14).foldl (fun (acc : List (BitVec 256)) r =>
    let own := ss.getD r 0 ^^^ (if r = 0 then p0.rotateRight 1 else if r = 7 then p0 else 0)
    acc ++ [own ^^^ (if r = 0 then 0 else acc.getD r 0)]) [p0]

theorem ldpcParity_eq (info : Bytes) : ldpcParity info = (parityCols (ldpcCols info)).flatMap fun x => leBytes 32 x.toNat := rfl

/-- A list that grows by one word a step: the word of step r covers the word before it, but for step 0. -/
theorem grow_spec (f : Nat → BitVec 256) (p : BitVec 256) (n : Nat) :
    let l := (List.range n).foldl (fun (acc : List (BitVec 256)) r => acc ++ [f r ^^^ (if r = 0 then 0 else acc.getD r 0)]) [p]
    l.length = n + 1 ∧ l.getD 0 0 = p ∧ ∀ r < n, l.getD (r + 1) 0 = f r ^^^ (if r = 0 then 0 else l.getD r 0) := by
  induction n with
  | zero => simp
  | succ n ih =>
    obtain ⟨h1, h2, h3⟩ := ih
    simp only [List.range_succ, List.foldl_append, List.foldl_cons, List.foldl_nil] at *
    generalize (List.range n).foldl _ [p] = l at *
    have old : ∀ r ≤ n, ∀ x, (l ++ [x]).getD r 0 = l.getD r 0 := by
      intro r hr x
      rw [List.getD_append _ _ _ _ (by omega)]
    refine ⟨by simp [h1], by rw [old 0 (by omega), h2], fun r hr => ?_⟩
    rw [old r (by omega)]
    by_cases e : r = n
    · subst e
      rw [List.getD_append_right _ _ _ _ (by omega)]
      simp [h1]
    · rw [old (r + 1) (by omega), h3 r (by omega)]

/-- The parity columns satisfy every row of checks. -/
theorem parityCols_solve (cols : List (BitVec 256)) :
    (parityCols cols).length = 15 ∧ ∀ r < 15, ldpcRow cols r ^^^ ldpcParityRow (parityCols cols) r = 0 := by
  let ss := (List.range 15).map (ldpcRow cols)
  let p0 := ss.foldl (· ^^^ ·) 0
  let f := fun r => ss.getD r 0 ^^^ (if r = 0 then p0.rotateRight 1 else if r = 7 then p0 else 0)
  have hl : (List.range 14).foldl (fun (acc : List (BitVec 256)) r => acc ++ [f r ^^^ (if r = 0 then 0 else acc.getD r 0)]) [p0] =
    parityCols cols := rfl
  obtain ⟨h1, h2, h3⟩ := grow_spec f p0 14
  rw [hl] at h1 h2 h3
  generalize parityCols cols = l at *
  have hs : ∀ r < 15, ss.getD r 0 = ldpcRow cols r := by
    intro r hr
    simp [ss, List.getD_eq_getElem?_getD, hr]
  have hp : p0 = (List.range 15).foldl (fun a r => a ^^^ ldpcRow cols r) 0 := by simp only [p0, ss, List.foldl_map]
  have hf : ∀ r < 14, f r = ldpcRow cols r ^^^ (if r = 0 then p0.rotateRight 1 else if r = 7 then p0 else 0) := by
    intro r hr; simp only [f, hs r (by omega)]
  generalize ldpcRow cols = s at *
  refine ⟨h1, fun r hr => ?_⟩
  by_cases e : r = 14
  · subst e
    have q : ∀ n, n + 1 ≤ 14 → l.getD (n + 1) 0 = (List.range (n + 1)).foldl (fun a r => a ^^^ f r) 0 := by
      intro n
      induction n with
      | zero => intro _; rw [h3 0 (by omega)]; simp
      | succ n ih => intro hn; rw [h3 (n + 1) (by omega), List.range_succ, List.foldl_append, ih (by omega)]; simp [BitVec.xor_comm]
    have g : ∀ n ≤ 14, (List.range n).foldl (fun a r => a ^^^ f r) 0 =
        (List.range n).foldl (fun a r => a ^^^ s r) 0 ^^^ (if 0 < n then p0.rotateRight 1 else 0) ^^^ (if 7 < n then p0 else 0) := by
      intro n
      induction n with
      | zero => simp
      | succ n ih =>
        intro hn
        rw [List.range_succ, List.foldl_append, ih (by omega), List.foldl_append]
        simp only [List.foldl_cons, List.foldl_nil, hf n (by omega)]
        generalize p0.rotateRight 1 = a
        generalize (List.range n).foldl (fun a r => a ^^^ s r) 0 = x
        rcases n with _ | n
        · simp [BitVec.xor_assoc]
        · by_cases h7 : n + 1 = 7
          · simp [h7]; ac_rfl
          · by_cases h8 : 7 < n + 1 
            · simp [h7, h8, show 7 < n + 1 + 1 from by omega]; ac_rfl
            · simp [h7, h8, show ¬ 7 < n + 1 + 1 from by omega]; ac_rfl
    rw [List.range_succ, List.foldl_append] at hp
    simp only [List.foldl_cons, List.foldl_nil] at hp
    have q14 := q 13 (by omega)
    rw [g 14 (by omega)] at q14
    have r14 : ldpcParityRow l 14 = p0.rotateRight 1 ^^^ l.getD (13 + 1) 0 := by simp [ldpcParityRow, ← h2]
    rw [r14, q14, hp]
    simp only [show 0 < 14 from by decide, show 7 < 14 from by decide, if_true]
    generalize BitVec.rotateRight _ 1 = a
    generalize (List.range 14).foldl _ _ = x
    rw [show s 14 ^^^ (a ^^^ (x ^^^ a ^^^ (x ^^^ s 14))) = (s 14 ^^^ s 14) ^^^ (a ^^^ a) ^^^ (x ^^^ x) from by ac_rfl]
    simp
  · have hr' : r < 14 := by omega
    have := h3 r hr'
    rw [hf r hr'] at this
    simp only [ldpcParityRow, h2, show 1 + r = r + 1 from by omega, this, show r ≤ 13 from by omega, if_true, e, or_false]
    generalize p0.rotateRight 1 = a
    generalize l.getD r 0 = y
    rcases r with _ | r
    · simp
    · simp only [Nat.add_eq_zero_iff, one_ne_zero, and_false, if_false, show 1 ≤ r + 1 from by omega, if_true]
      generalize (if r + 1 = 7 then p0 else 0) = b
      rw [show s (r + 1) ^^^ (b ^^^ (s (r + 1) ^^^ b ^^^ y) ^^^ y) = (s (r + 1) ^^^ s (r + 1)) ^^^ (b ^^^ b) ^^^ (y ^^^ y) from by ac_rfl]
      simp

theorem ldpcCols_append (a b : Bytes) (p q : Nat) (ha : a.length = p * 32) (hb : b.length = q * 32) :
    ldpcCols (a ++ b) = ldpcCols a ++ ldpcCols b := by
  simp [ldpcCols, blocksOf_append (by decide : 0 < 32) a b p q ha hb]

theorem ldpcCols_parity (info : Bytes) : ldpcCols (ldpcParity info) = parityCols (ldpcCols info) := by
  have hf : ∀ x : BitVec 256, (leBytes 32 x.toNat).length = 32 := fun x => leBytes_length 32 _
  have e := blocksOf_flatMap (n := 32) (by decide) (fun x : BitVec 256 => leBytes 32 x.toNat) hf (parityCols (ldpcCols info))
  rw [ldpcParity_eq, ldpcCols, e, List.map_map]
  conv_rhs => rw [← List.map_id (parityCols (ldpcCols info))]
  refine List.map_congr_left fun x _ => ?_
  rw [Function.comp, leNat_leBytes, id]
  exact BitVec.eq_of_toNat_eq (by rw [BitVec.toNat_ofNat, show (256 : Nat) ^ 32 = 2 ^ 256 from by norm_num, Nat.mod_mod, Nat.mod_eq_of_lt x.isLt])

/-- The parity of any information satisfies every check (R217). -/
theorem ldpcValid_encode (info : Bytes) (h : info.length = 4160) : ldpcValid (info ++ ldpcParity info) = true := by
  obtain ⟨h1, h2⟩ := parityCols_solve (ldpcCols info)
  have hc : (ldpcCols info).length = 130 := by simp [ldpcCols, blocksOf_length (by decide : 0 < 32) 130 info h]
  have hp : (ldpcParity info).length = 15 * 32 := by simp [ldpcParity_eq, List.length_flatMap, leBytes_length, h1]
  simp only [ldpcValid, ldpcCols_append info _ 130 15 h hp, ldpcCols_parity, List.all_eq_true, List.mem_range, beq_iff_eq]
  intro r hr
  rw [List.drop_left' hc]
  have : ldpcRow (ldpcCols info ++ parityCols (ldpcCols info)) r = ldpcRow (ldpcCols info) r := by
    simp only [ldpcRow, List.take_left' hc, List.take_of_length_le (Nat.le_of_eq hc)]
  rw [this]
  exact h2 r hr

/-- A codeword as encoded is one that decodes to its body and its tag. -/
theorem decodeCw_encodeCw (pga : Nat) (body tag : Bytes) (hb : body.length = 4112) (ht : tag.length = 48) :
    decodeCw pga (encodeCw pga body tag) = (body, tag) ∧ (encodeCw pga body tag).length = 4640 ∧
    ldpcValid (encodeCw pga body tag) = true := by
  have hl : (whiten pga (body ++ tag)).length = 4160 := by simp [hb, ht]
  simp only [encodeCw, decodeCw, slice_whole _ _ hb, slice_whole _ _ ht]
  refine ⟨?_, ?_, ldpcValid_encode _ hl⟩
  · rw [List.take_left' hl, whiten_whiten, List.take_left' hb, List.drop_left' hb]
  · have := (parityCols_solve (ldpcCols (whiten pga (body ++ tag)))).1
    simp [ldpcParity_eq, List.length_flatMap, leBytes_length, this, hb, ht]

end Sys2Proof.Machine
end

