-- ==== Sys2Proof/Laws/State.lean ====
section
/-! SUPPORT. Every named update of the block, field by field: what it leaves as it was. An update's own field is said in
`Laws/Ops.lean`. -/

namespace Sys2Proof.Machine

variable (s : Blk)

/-! `emit` changes `out`. -/

@[simp] theorem emit_now (o : Output) : (emit s o).now = s.now := rfl
@[simp] theorem emit_drawn (o : Output) : (emit s o).drawn = s.drawn := rfl
@[simp] theorem emit_dev (o : Output) : (emit s o).dev = s.dev := rfl
@[simp] theorem emit_evt (o : Output) : (emit s o).evt = s.evt := rfl
@[simp] theorem emit_rim (o : Output) : (emit s o).rim = s.rim := rfl
@[simp] theorem emit_xpt (o : Output) : (emit s o).xpt = s.xpt := rfl
@[simp] theorem emit_cmd (o : Output) : (emit s o).cmd = s.cmd := rfl
@[simp] theorem emit_nss (o : Output) : (emit s o).nss = s.nss := rfl
@[simp] theorem emit_tenants (o : Output) : (emit s o).tenants = s.tenants := rfl
@[simp] theorem emit_idx (o : Output) : (emit s o).idx = s.idx := rfl
@[simp] theorem emit_cip (o : Output) : (emit s o).cip = s.cip := rfl
@[simp] theorem emit_links (o : Output) : (emit s o).links = s.links := rfl
@[simp] theorem emit_spokes (o : Output) : (emit s o).spokes = s.spokes := rfl
@[simp] theorem emit_med (o : Output) : (emit s o).med = s.med := rfl
@[simp] theorem emit_tdm (o : Output) : (emit s o).tdm = s.tdm := rfl
@[simp] theorem emit_time (o : Output) : (emit s o).time = s.time := rfl
@[simp] theorem emit_loops (o : Output) : (emit s o).loops = s.loops := rfl
@[simp] theorem emit_hub (o : Output) : (emit s o).hub = s.hub := rfl
@[simp] theorem emit_ring (o : Output) : (emit s o).ring = s.ring := rfl
@[simp] theorem emit_pwr (o : Output) : (emit s o).pwr = s.pwr := rfl
@[simp] theorem emit_boot (o : Output) : (emit s o).boot = s.boot := rfl
@[simp] theorem emit_safe (o : Output) : (emit s o).safe = s.safe := rfl
@[simp] theorem emit_reg (o : Output) : (emit s o).reg = s.reg := rfl
@[simp] theorem emit_msi (o : Output) : (emit s o).msi = s.msi := rfl
@[simp] theorem emit_pin (o : Output) : (emit s o).pin = s.pin := rfl

/-! `raise` changes `evt`. -/

@[simp] theorem raise_now (c v r : Nat) (p : Bytes) : (raise s c v r p).now = s.now := by simp only [raise]; split <;> rfl
@[simp] theorem raise_drawn (c v r : Nat) (p : Bytes) : (raise s c v r p).drawn = s.drawn := by simp only [raise]; split <;> rfl
@[simp] theorem raise_dev (c v r : Nat) (p : Bytes) : (raise s c v r p).dev = s.dev := by simp only [raise]; split <;> rfl
@[simp] theorem raise_rim (c v r : Nat) (p : Bytes) : (raise s c v r p).rim = s.rim := by simp only [raise]; split <;> rfl
@[simp] theorem raise_xpt (c v r : Nat) (p : Bytes) : (raise s c v r p).xpt = s.xpt := by simp only [raise]; split <;> rfl
@[simp] theorem raise_cmd (c v r : Nat) (p : Bytes) : (raise s c v r p).cmd = s.cmd := by simp only [raise]; split <;> rfl
@[simp] theorem raise_nss (c v r : Nat) (p : Bytes) : (raise s c v r p).nss = s.nss := by simp only [raise]; split <;> rfl
@[simp] theorem raise_tenants (c v r : Nat) (p : Bytes) : (raise s c v r p).tenants = s.tenants := by simp only [raise]; split <;> rfl
@[simp] theorem raise_idx (c v r : Nat) (p : Bytes) : (raise s c v r p).idx = s.idx := by simp only [raise]; split <;> rfl
@[simp] theorem raise_cip (c v r : Nat) (p : Bytes) : (raise s c v r p).cip = s.cip := by simp only [raise]; split <;> rfl
@[simp] theorem raise_links (c v r : Nat) (p : Bytes) : (raise s c v r p).links = s.links := by simp only [raise]; split <;> rfl
@[simp] theorem raise_spokes (c v r : Nat) (p : Bytes) : (raise s c v r p).spokes = s.spokes := by simp only [raise]; split <;> rfl
@[simp] theorem raise_med (c v r : Nat) (p : Bytes) : (raise s c v r p).med = s.med := by simp only [raise]; split <;> rfl
@[simp] theorem raise_tdm (c v r : Nat) (p : Bytes) : (raise s c v r p).tdm = s.tdm := by simp only [raise]; split <;> rfl
@[simp] theorem raise_time (c v r : Nat) (p : Bytes) : (raise s c v r p).time = s.time := by simp only [raise]; split <;> rfl
@[simp] theorem raise_loops (c v r : Nat) (p : Bytes) : (raise s c v r p).loops = s.loops := by simp only [raise]; split <;> rfl
@[simp] theorem raise_hub (c v r : Nat) (p : Bytes) : (raise s c v r p).hub = s.hub := by simp only [raise]; split <;> rfl
@[simp] theorem raise_ring (c v r : Nat) (p : Bytes) : (raise s c v r p).ring = s.ring := by simp only [raise]; split <;> rfl
@[simp] theorem raise_pwr (c v r : Nat) (p : Bytes) : (raise s c v r p).pwr = s.pwr := by simp only [raise]; split <;> rfl
@[simp] theorem raise_boot (c v r : Nat) (p : Bytes) : (raise s c v r p).boot = s.boot := by simp only [raise]; split <;> rfl
@[simp] theorem raise_safe (c v r : Nat) (p : Bytes) : (raise s c v r p).safe = s.safe := by simp only [raise]; split <;> rfl
@[simp] theorem raise_reg (c v r : Nat) (p : Bytes) : (raise s c v r p).reg = s.reg := by simp only [raise]; split <;> rfl
@[simp] theorem raise_msi (c v r : Nat) (p : Bytes) : (raise s c v r p).msi = s.msi := by simp only [raise]; split <;> rfl
@[simp] theorem raise_pin (c v r : Nat) (p : Bytes) : (raise s c v r p).pin = s.pin := by simp only [raise]; split <;> rfl
@[simp] theorem raise_out (c v r : Nat) (p : Bytes) : (raise s c v r p).out = s.out := by simp only [raise]; split <;> rfl

/-! `vector` changes `msi` and `out`. -/

@[simp] theorem vector_now (n : Nat) : (vector s n).now = s.now := by simp only [vector]; (repeat' first | rfl | split)
@[simp] theorem vector_drawn (n : Nat) : (vector s n).drawn = s.drawn := by simp only [vector]; (repeat' first | rfl | split)
@[simp] theorem vector_dev (n : Nat) : (vector s n).dev = s.dev := by simp only [vector]; (repeat' first | rfl | split)
@[simp] theorem vector_evt (n : Nat) : (vector s n).evt = s.evt := by simp only [vector]; (repeat' first | rfl | split)
@[simp] theorem vector_rim (n : Nat) : (vector s n).rim = s.rim := by simp only [vector]; (repeat' first | rfl | split)
@[simp] theorem vector_xpt (n : Nat) : (vector s n).xpt = s.xpt := by simp only [vector]; (repeat' first | rfl | split)
@[simp] theorem vector_cmd (n : Nat) : (vector s n).cmd = s.cmd := by simp only [vector]; (repeat' first | rfl | split)
@[simp] theorem vector_nss (n : Nat) : (vector s n).nss = s.nss := by simp only [vector]; (repeat' first | rfl | split)
@[simp] theorem vector_tenants (n : Nat) : (vector s n).tenants = s.tenants := by simp only [vector]; (repeat' first | rfl | split)
@[simp] theorem vector_idx (n : Nat) : (vector s n).idx = s.idx := by simp only [vector]; (repeat' first | rfl | split)
@[simp] theorem vector_cip (n : Nat) : (vector s n).cip = s.cip := by simp only [vector]; (repeat' first | rfl | split)
@[simp] theorem vector_links (n : Nat) : (vector s n).links = s.links := by simp only [vector]; (repeat' first | rfl | split)
@[simp] theorem vector_spokes (n : Nat) : (vector s n).spokes = s.spokes := by simp only [vector]; (repeat' first | rfl | split)
@[simp] theorem vector_med (n : Nat) : (vector s n).med = s.med := by simp only [vector]; (repeat' first | rfl | split)
@[simp] theorem vector_tdm (n : Nat) : (vector s n).tdm = s.tdm := by simp only [vector]; (repeat' first | rfl | split)
@[simp] theorem vector_time (n : Nat) : (vector s n).time = s.time := by simp only [vector]; (repeat' first | rfl | split)
@[simp] theorem vector_loops (n : Nat) : (vector s n).loops = s.loops := by simp only [vector]; (repeat' first | rfl | split)
@[simp] theorem vector_hub (n : Nat) : (vector s n).hub = s.hub := by simp only [vector]; (repeat' first | rfl | split)
@[simp] theorem vector_ring (n : Nat) : (vector s n).ring = s.ring := by simp only [vector]; (repeat' first | rfl | split)
@[simp] theorem vector_pwr (n : Nat) : (vector s n).pwr = s.pwr := by simp only [vector]; (repeat' first | rfl | split)
@[simp] theorem vector_boot (n : Nat) : (vector s n).boot = s.boot := by simp only [vector]; (repeat' first | rfl | split)
@[simp] theorem vector_safe (n : Nat) : (vector s n).safe = s.safe := by simp only [vector]; (repeat' first | rfl | split)
@[simp] theorem vector_reg (n : Nat) : (vector s n).reg = s.reg := by simp only [vector]; (repeat' first | rfl | split)
@[simp] theorem vector_pin (n : Nat) : (vector s n).pin = s.pin := by simp only [vector]; (repeat' first | rfl | split)

/-! `alert` changes `reg` and `msi` and `out`. -/

@[simp] theorem alert_now (n : Nat) : (alert s n).now = s.now := by simp only [alert]; split <;> simp
@[simp] theorem alert_drawn (n : Nat) : (alert s n).drawn = s.drawn := by simp only [alert]; split <;> simp
@[simp] theorem alert_dev (n : Nat) : (alert s n).dev = s.dev := by simp only [alert]; split <;> simp
@[simp] theorem alert_evt (n : Nat) : (alert s n).evt = s.evt := by simp only [alert]; split <;> simp
@[simp] theorem alert_rim (n : Nat) : (alert s n).rim = s.rim := by simp only [alert]; split <;> simp
@[simp] theorem alert_xpt (n : Nat) : (alert s n).xpt = s.xpt := by simp only [alert]; split <;> simp
@[simp] theorem alert_cmd (n : Nat) : (alert s n).cmd = s.cmd := by simp only [alert]; split <;> simp
@[simp] theorem alert_nss (n : Nat) : (alert s n).nss = s.nss := by simp only [alert]; split <;> simp
@[simp] theorem alert_tenants (n : Nat) : (alert s n).tenants = s.tenants := by simp only [alert]; split <;> simp
@[simp] theorem alert_idx (n : Nat) : (alert s n).idx = s.idx := by simp only [alert]; split <;> simp
@[simp] theorem alert_cip (n : Nat) : (alert s n).cip = s.cip := by simp only [alert]; split <;> simp
@[simp] theorem alert_links (n : Nat) : (alert s n).links = s.links := by simp only [alert]; split <;> simp
@[simp] theorem alert_spokes (n : Nat) : (alert s n).spokes = s.spokes := by simp only [alert]; split <;> simp
@[simp] theorem alert_med (n : Nat) : (alert s n).med = s.med := by simp only [alert]; split <;> simp
@[simp] theorem alert_tdm (n : Nat) : (alert s n).tdm = s.tdm := by simp only [alert]; split <;> simp
@[simp] theorem alert_time (n : Nat) : (alert s n).time = s.time := by simp only [alert]; split <;> simp
@[simp] theorem alert_loops (n : Nat) : (alert s n).loops = s.loops := by simp only [alert]; split <;> simp
@[simp] theorem alert_hub (n : Nat) : (alert s n).hub = s.hub := by simp only [alert]; split <;> simp
@[simp] theorem alert_ring (n : Nat) : (alert s n).ring = s.ring := by simp only [alert]; split <;> simp
@[simp] theorem alert_pwr (n : Nat) : (alert s n).pwr = s.pwr := by simp only [alert]; split <;> simp
@[simp] theorem alert_boot (n : Nat) : (alert s n).boot = s.boot := by simp only [alert]; split <;> simp
@[simp] theorem alert_safe (n : Nat) : (alert s n).safe = s.safe := by simp only [alert]; split <;> simp
@[simp] theorem alert_pin (n : Nat) : (alert s n).pin = s.pin := by simp only [alert]; split <;> simp

/-! `setDev` changes `dev` and `reg` and `msi` and `out`. -/

@[simp] theorem setDev_now (d : DevState) : (setDev s d).now = s.now := by simp only [setDev]; split <;> simp
@[simp] theorem setDev_drawn (d : DevState) : (setDev s d).drawn = s.drawn := by simp only [setDev]; split <;> simp
@[simp] theorem setDev_evt (d : DevState) : (setDev s d).evt = s.evt := by simp only [setDev]; split <;> simp
@[simp] theorem setDev_rim (d : DevState) : (setDev s d).rim = s.rim := by simp only [setDev]; split <;> simp
@[simp] theorem setDev_xpt (d : DevState) : (setDev s d).xpt = s.xpt := by simp only [setDev]; split <;> simp
@[simp] theorem setDev_cmd (d : DevState) : (setDev s d).cmd = s.cmd := by simp only [setDev]; split <;> simp
@[simp] theorem setDev_nss (d : DevState) : (setDev s d).nss = s.nss := by simp only [setDev]; split <;> simp
@[simp] theorem setDev_tenants (d : DevState) : (setDev s d).tenants = s.tenants := by simp only [setDev]; split <;> simp
@[simp] theorem setDev_idx (d : DevState) : (setDev s d).idx = s.idx := by simp only [setDev]; split <;> simp
@[simp] theorem setDev_cip (d : DevState) : (setDev s d).cip = s.cip := by simp only [setDev]; split <;> simp
@[simp] theorem setDev_links (d : DevState) : (setDev s d).links = s.links := by simp only [setDev]; split <;> simp
@[simp] theorem setDev_spokes (d : DevState) : (setDev s d).spokes = s.spokes := by simp only [setDev]; split <;> simp
@[simp] theorem setDev_med (d : DevState) : (setDev s d).med = s.med := by simp only [setDev]; split <;> simp
@[simp] theorem setDev_tdm (d : DevState) : (setDev s d).tdm = s.tdm := by simp only [setDev]; split <;> simp
@[simp] theorem setDev_time (d : DevState) : (setDev s d).time = s.time := by simp only [setDev]; split <;> simp
@[simp] theorem setDev_loops (d : DevState) : (setDev s d).loops = s.loops := by simp only [setDev]; split <;> simp
@[simp] theorem setDev_hub (d : DevState) : (setDev s d).hub = s.hub := by simp only [setDev]; split <;> simp
@[simp] theorem setDev_ring (d : DevState) : (setDev s d).ring = s.ring := by simp only [setDev]; split <;> simp
@[simp] theorem setDev_pwr (d : DevState) : (setDev s d).pwr = s.pwr := by simp only [setDev]; split <;> simp
@[simp] theorem setDev_boot (d : DevState) : (setDev s d).boot = s.boot := by simp only [setDev]; split <;> simp
@[simp] theorem setDev_safe (d : DevState) : (setDev s d).safe = s.safe := by simp only [setDev]; split <;> simp
@[simp] theorem setDev_pin (d : DevState) : (setDev s d).pin = s.pin := by simp only [setDev]; split <;> simp

/-! `drawBytes` changes `drawn`. -/

@[simp] theorem drawBytes_now (n : Nat) : ((drawBytes s n).2).now = s.now := rfl
@[simp] theorem drawBytes_dev (n : Nat) : ((drawBytes s n).2).dev = s.dev := rfl
@[simp] theorem drawBytes_evt (n : Nat) : ((drawBytes s n).2).evt = s.evt := rfl
@[simp] theorem drawBytes_rim (n : Nat) : ((drawBytes s n).2).rim = s.rim := rfl
@[simp] theorem drawBytes_xpt (n : Nat) : ((drawBytes s n).2).xpt = s.xpt := rfl
@[simp] theorem drawBytes_cmd (n : Nat) : ((drawBytes s n).2).cmd = s.cmd := rfl
@[simp] theorem drawBytes_nss (n : Nat) : ((drawBytes s n).2).nss = s.nss := rfl
@[simp] theorem drawBytes_tenants (n : Nat) : ((drawBytes s n).2).tenants = s.tenants := rfl
@[simp] theorem drawBytes_idx (n : Nat) : ((drawBytes s n).2).idx = s.idx := rfl
@[simp] theorem drawBytes_cip (n : Nat) : ((drawBytes s n).2).cip = s.cip := rfl
@[simp] theorem drawBytes_links (n : Nat) : ((drawBytes s n).2).links = s.links := rfl
@[simp] theorem drawBytes_spokes (n : Nat) : ((drawBytes s n).2).spokes = s.spokes := rfl
@[simp] theorem drawBytes_med (n : Nat) : ((drawBytes s n).2).med = s.med := rfl
@[simp] theorem drawBytes_tdm (n : Nat) : ((drawBytes s n).2).tdm = s.tdm := rfl
@[simp] theorem drawBytes_time (n : Nat) : ((drawBytes s n).2).time = s.time := rfl
@[simp] theorem drawBytes_loops (n : Nat) : ((drawBytes s n).2).loops = s.loops := rfl
@[simp] theorem drawBytes_hub (n : Nat) : ((drawBytes s n).2).hub = s.hub := rfl
@[simp] theorem drawBytes_ring (n : Nat) : ((drawBytes s n).2).ring = s.ring := rfl
@[simp] theorem drawBytes_pwr (n : Nat) : ((drawBytes s n).2).pwr = s.pwr := rfl
@[simp] theorem drawBytes_boot (n : Nat) : ((drawBytes s n).2).boot = s.boot := rfl
@[simp] theorem drawBytes_safe (n : Nat) : ((drawBytes s n).2).safe = s.safe := rfl
@[simp] theorem drawBytes_reg (n : Nat) : ((drawBytes s n).2).reg = s.reg := rfl
@[simp] theorem drawBytes_msi (n : Nat) : ((drawBytes s n).2).msi = s.msi := rfl
@[simp] theorem drawBytes_pin (n : Nat) : ((drawBytes s n).2).pin = s.pin := rfl
@[simp] theorem drawBytes_out (n : Nat) : ((drawBytes s n).2).out = s.out := rfl

/-! `startClock` changes `pwr`. -/

@[simp] theorem startClock_now (d : Nat) : (startClock s d).now = s.now := rfl
@[simp] theorem startClock_drawn (d : Nat) : (startClock s d).drawn = s.drawn := rfl
@[simp] theorem startClock_dev (d : Nat) : (startClock s d).dev = s.dev := rfl
@[simp] theorem startClock_evt (d : Nat) : (startClock s d).evt = s.evt := rfl
@[simp] theorem startClock_rim (d : Nat) : (startClock s d).rim = s.rim := rfl
@[simp] theorem startClock_xpt (d : Nat) : (startClock s d).xpt = s.xpt := rfl
@[simp] theorem startClock_cmd (d : Nat) : (startClock s d).cmd = s.cmd := rfl
@[simp] theorem startClock_nss (d : Nat) : (startClock s d).nss = s.nss := rfl
@[simp] theorem startClock_tenants (d : Nat) : (startClock s d).tenants = s.tenants := rfl
@[simp] theorem startClock_idx (d : Nat) : (startClock s d).idx = s.idx := rfl
@[simp] theorem startClock_cip (d : Nat) : (startClock s d).cip = s.cip := rfl
@[simp] theorem startClock_links (d : Nat) : (startClock s d).links = s.links := rfl
@[simp] theorem startClock_spokes (d : Nat) : (startClock s d).spokes = s.spokes := rfl
@[simp] theorem startClock_med (d : Nat) : (startClock s d).med = s.med := rfl
@[simp] theorem startClock_tdm (d : Nat) : (startClock s d).tdm = s.tdm := rfl
@[simp] theorem startClock_time (d : Nat) : (startClock s d).time = s.time := rfl
@[simp] theorem startClock_loops (d : Nat) : (startClock s d).loops = s.loops := rfl
@[simp] theorem startClock_hub (d : Nat) : (startClock s d).hub = s.hub := rfl
@[simp] theorem startClock_ring (d : Nat) : (startClock s d).ring = s.ring := rfl
@[simp] theorem startClock_boot (d : Nat) : (startClock s d).boot = s.boot := rfl
@[simp] theorem startClock_safe (d : Nat) : (startClock s d).safe = s.safe := rfl
@[simp] theorem startClock_reg (d : Nat) : (startClock s d).reg = s.reg := rfl
@[simp] theorem startClock_msi (d : Nat) : (startClock s d).msi = s.msi := rfl
@[simp] theorem startClock_pin (d : Nat) : (startClock s d).pin = s.pin := rfl
@[simp] theorem startClock_out (d : Nat) : (startClock s d).out = s.out := rfl

/-! `stopClock` changes `pwr`. -/

@[simp] theorem stopClock_now (d : Nat) : (stopClock s d).now = s.now := rfl
@[simp] theorem stopClock_drawn (d : Nat) : (stopClock s d).drawn = s.drawn := rfl
@[simp] theorem stopClock_dev (d : Nat) : (stopClock s d).dev = s.dev := rfl
@[simp] theorem stopClock_evt (d : Nat) : (stopClock s d).evt = s.evt := rfl
@[simp] theorem stopClock_rim (d : Nat) : (stopClock s d).rim = s.rim := rfl
@[simp] theorem stopClock_xpt (d : Nat) : (stopClock s d).xpt = s.xpt := rfl
@[simp] theorem stopClock_cmd (d : Nat) : (stopClock s d).cmd = s.cmd := rfl
@[simp] theorem stopClock_nss (d : Nat) : (stopClock s d).nss = s.nss := rfl
@[simp] theorem stopClock_tenants (d : Nat) : (stopClock s d).tenants = s.tenants := rfl
@[simp] theorem stopClock_idx (d : Nat) : (stopClock s d).idx = s.idx := rfl
@[simp] theorem stopClock_cip (d : Nat) : (stopClock s d).cip = s.cip := rfl
@[simp] theorem stopClock_links (d : Nat) : (stopClock s d).links = s.links := rfl
@[simp] theorem stopClock_spokes (d : Nat) : (stopClock s d).spokes = s.spokes := rfl
@[simp] theorem stopClock_med (d : Nat) : (stopClock s d).med = s.med := rfl
@[simp] theorem stopClock_tdm (d : Nat) : (stopClock s d).tdm = s.tdm := rfl
@[simp] theorem stopClock_time (d : Nat) : (stopClock s d).time = s.time := rfl
@[simp] theorem stopClock_loops (d : Nat) : (stopClock s d).loops = s.loops := rfl
@[simp] theorem stopClock_hub (d : Nat) : (stopClock s d).hub = s.hub := rfl
@[simp] theorem stopClock_ring (d : Nat) : (stopClock s d).ring = s.ring := rfl
@[simp] theorem stopClock_boot (d : Nat) : (stopClock s d).boot = s.boot := rfl
@[simp] theorem stopClock_safe (d : Nat) : (stopClock s d).safe = s.safe := rfl
@[simp] theorem stopClock_reg (d : Nat) : (stopClock s d).reg = s.reg := rfl
@[simp] theorem stopClock_msi (d : Nat) : (stopClock s d).msi = s.msi := rfl
@[simp] theorem stopClock_pin (d : Nat) : (stopClock s d).pin = s.pin := rfl
@[simp] theorem stopClock_out (d : Nat) : (stopClock s d).out = s.out := rfl

/-! `idleExit` changes `pwr`. -/

@[simp] theorem idleExit_now : (idleExit s).now = s.now := by simp only [idleExit]; split <;> rfl
@[simp] theorem idleExit_drawn : (idleExit s).drawn = s.drawn := by simp only [idleExit]; split <;> rfl
@[simp] theorem idleExit_dev : (idleExit s).dev = s.dev := by simp only [idleExit]; split <;> rfl
@[simp] theorem idleExit_evt : (idleExit s).evt = s.evt := by simp only [idleExit]; split <;> rfl
@[simp] theorem idleExit_rim : (idleExit s).rim = s.rim := by simp only [idleExit]; split <;> rfl
@[simp] theorem idleExit_xpt : (idleExit s).xpt = s.xpt := by simp only [idleExit]; split <;> rfl
@[simp] theorem idleExit_cmd : (idleExit s).cmd = s.cmd := by simp only [idleExit]; split <;> rfl
@[simp] theorem idleExit_nss : (idleExit s).nss = s.nss := by simp only [idleExit]; split <;> rfl
@[simp] theorem idleExit_tenants : (idleExit s).tenants = s.tenants := by simp only [idleExit]; split <;> rfl
@[simp] theorem idleExit_idx : (idleExit s).idx = s.idx := by simp only [idleExit]; split <;> rfl
@[simp] theorem idleExit_cip : (idleExit s).cip = s.cip := by simp only [idleExit]; split <;> rfl
@[simp] theorem idleExit_links : (idleExit s).links = s.links := by simp only [idleExit]; split <;> rfl
@[simp] theorem idleExit_spokes : (idleExit s).spokes = s.spokes := by simp only [idleExit]; split <;> rfl
@[simp] theorem idleExit_med : (idleExit s).med = s.med := by simp only [idleExit]; split <;> rfl
@[simp] theorem idleExit_tdm : (idleExit s).tdm = s.tdm := by simp only [idleExit]; split <;> rfl
@[simp] theorem idleExit_time : (idleExit s).time = s.time := by simp only [idleExit]; split <;> rfl
@[simp] theorem idleExit_loops : (idleExit s).loops = s.loops := by simp only [idleExit]; split <;> rfl
@[simp] theorem idleExit_hub : (idleExit s).hub = s.hub := by simp only [idleExit]; split <;> rfl
@[simp] theorem idleExit_ring : (idleExit s).ring = s.ring := by simp only [idleExit]; split <;> rfl
@[simp] theorem idleExit_boot : (idleExit s).boot = s.boot := by simp only [idleExit]; split <;> rfl
@[simp] theorem idleExit_safe : (idleExit s).safe = s.safe := by simp only [idleExit]; split <;> rfl
@[simp] theorem idleExit_reg : (idleExit s).reg = s.reg := by simp only [idleExit]; split <;> rfl
@[simp] theorem idleExit_msi : (idleExit s).msi = s.msi := by simp only [idleExit]; split <;> rfl
@[simp] theorem idleExit_pin : (idleExit s).pin = s.pin := by simp only [idleExit]; split <;> rfl
@[simp] theorem idleExit_out : (idleExit s).out = s.out := by simp only [idleExit]; split <;> rfl

/-! `setSpoke` changes `spokes`. -/

@[simp] theorem setSpoke_now (n : Nat) (x : SpokeSt) : (setSpoke s n x).now = s.now := rfl
@[simp] theorem setSpoke_drawn (n : Nat) (x : SpokeSt) : (setSpoke s n x).drawn = s.drawn := rfl
@[simp] theorem setSpoke_dev (n : Nat) (x : SpokeSt) : (setSpoke s n x).dev = s.dev := rfl
@[simp] theorem setSpoke_evt (n : Nat) (x : SpokeSt) : (setSpoke s n x).evt = s.evt := rfl
@[simp] theorem setSpoke_rim (n : Nat) (x : SpokeSt) : (setSpoke s n x).rim = s.rim := rfl
@[simp] theorem setSpoke_xpt (n : Nat) (x : SpokeSt) : (setSpoke s n x).xpt = s.xpt := rfl
@[simp] theorem setSpoke_cmd (n : Nat) (x : SpokeSt) : (setSpoke s n x).cmd = s.cmd := rfl
@[simp] theorem setSpoke_nss (n : Nat) (x : SpokeSt) : (setSpoke s n x).nss = s.nss := rfl
@[simp] theorem setSpoke_tenants (n : Nat) (x : SpokeSt) : (setSpoke s n x).tenants = s.tenants := rfl
@[simp] theorem setSpoke_idx (n : Nat) (x : SpokeSt) : (setSpoke s n x).idx = s.idx := rfl
@[simp] theorem setSpoke_cip (n : Nat) (x : SpokeSt) : (setSpoke s n x).cip = s.cip := rfl
@[simp] theorem setSpoke_links (n : Nat) (x : SpokeSt) : (setSpoke s n x).links = s.links := rfl
@[simp] theorem setSpoke_med (n : Nat) (x : SpokeSt) : (setSpoke s n x).med = s.med := rfl
@[simp] theorem setSpoke_tdm (n : Nat) (x : SpokeSt) : (setSpoke s n x).tdm = s.tdm := rfl
@[simp] theorem setSpoke_time (n : Nat) (x : SpokeSt) : (setSpoke s n x).time = s.time := rfl
@[simp] theorem setSpoke_loops (n : Nat) (x : SpokeSt) : (setSpoke s n x).loops = s.loops := rfl
@[simp] theorem setSpoke_hub (n : Nat) (x : SpokeSt) : (setSpoke s n x).hub = s.hub := rfl
@[simp] theorem setSpoke_ring (n : Nat) (x : SpokeSt) : (setSpoke s n x).ring = s.ring := rfl
@[simp] theorem setSpoke_pwr (n : Nat) (x : SpokeSt) : (setSpoke s n x).pwr = s.pwr := rfl
@[simp] theorem setSpoke_boot (n : Nat) (x : SpokeSt) : (setSpoke s n x).boot = s.boot := rfl
@[simp] theorem setSpoke_safe (n : Nat) (x : SpokeSt) : (setSpoke s n x).safe = s.safe := rfl
@[simp] theorem setSpoke_reg (n : Nat) (x : SpokeSt) : (setSpoke s n x).reg = s.reg := rfl
@[simp] theorem setSpoke_msi (n : Nat) (x : SpokeSt) : (setSpoke s n x).msi = s.msi := rfl
@[simp] theorem setSpoke_pin (n : Nat) (x : SpokeSt) : (setSpoke s n x).pin = s.pin := rfl
@[simp] theorem setSpoke_out (n : Nat) (x : SpokeSt) : (setSpoke s n x).out = s.out := rfl

/-! `modSpoke` changes `spokes`. -/

@[simp] theorem modSpoke_now (n : Nat) (f : SpokeSt → SpokeSt) : (modSpoke s n f).now = s.now := rfl
@[simp] theorem modSpoke_drawn (n : Nat) (f : SpokeSt → SpokeSt) : (modSpoke s n f).drawn = s.drawn := rfl
@[simp] theorem modSpoke_dev (n : Nat) (f : SpokeSt → SpokeSt) : (modSpoke s n f).dev = s.dev := rfl
@[simp] theorem modSpoke_evt (n : Nat) (f : SpokeSt → SpokeSt) : (modSpoke s n f).evt = s.evt := rfl
@[simp] theorem modSpoke_rim (n : Nat) (f : SpokeSt → SpokeSt) : (modSpoke s n f).rim = s.rim := rfl
@[simp] theorem modSpoke_xpt (n : Nat) (f : SpokeSt → SpokeSt) : (modSpoke s n f).xpt = s.xpt := rfl
@[simp] theorem modSpoke_cmd (n : Nat) (f : SpokeSt → SpokeSt) : (modSpoke s n f).cmd = s.cmd := rfl
@[simp] theorem modSpoke_nss (n : Nat) (f : SpokeSt → SpokeSt) : (modSpoke s n f).nss = s.nss := rfl
@[simp] theorem modSpoke_tenants (n : Nat) (f : SpokeSt → SpokeSt) : (modSpoke s n f).tenants = s.tenants := rfl
@[simp] theorem modSpoke_idx (n : Nat) (f : SpokeSt → SpokeSt) : (modSpoke s n f).idx = s.idx := rfl
@[simp] theorem modSpoke_cip (n : Nat) (f : SpokeSt → SpokeSt) : (modSpoke s n f).cip = s.cip := rfl
@[simp] theorem modSpoke_links (n : Nat) (f : SpokeSt → SpokeSt) : (modSpoke s n f).links = s.links := rfl
@[simp] theorem modSpoke_med (n : Nat) (f : SpokeSt → SpokeSt) : (modSpoke s n f).med = s.med := rfl
@[simp] theorem modSpoke_tdm (n : Nat) (f : SpokeSt → SpokeSt) : (modSpoke s n f).tdm = s.tdm := rfl
@[simp] theorem modSpoke_time (n : Nat) (f : SpokeSt → SpokeSt) : (modSpoke s n f).time = s.time := rfl
@[simp] theorem modSpoke_loops (n : Nat) (f : SpokeSt → SpokeSt) : (modSpoke s n f).loops = s.loops := rfl
@[simp] theorem modSpoke_hub (n : Nat) (f : SpokeSt → SpokeSt) : (modSpoke s n f).hub = s.hub := rfl
@[simp] theorem modSpoke_ring (n : Nat) (f : SpokeSt → SpokeSt) : (modSpoke s n f).ring = s.ring := rfl
@[simp] theorem modSpoke_pwr (n : Nat) (f : SpokeSt → SpokeSt) : (modSpoke s n f).pwr = s.pwr := rfl
@[simp] theorem modSpoke_boot (n : Nat) (f : SpokeSt → SpokeSt) : (modSpoke s n f).boot = s.boot := rfl
@[simp] theorem modSpoke_safe (n : Nat) (f : SpokeSt → SpokeSt) : (modSpoke s n f).safe = s.safe := rfl
@[simp] theorem modSpoke_reg (n : Nat) (f : SpokeSt → SpokeSt) : (modSpoke s n f).reg = s.reg := rfl
@[simp] theorem modSpoke_msi (n : Nat) (f : SpokeSt → SpokeSt) : (modSpoke s n f).msi = s.msi := rfl
@[simp] theorem modSpoke_pin (n : Nat) (f : SpokeSt → SpokeSt) : (modSpoke s n f).pin = s.pin := rfl
@[simp] theorem modSpoke_out (n : Nat) (f : SpokeSt → SpokeSt) : (modSpoke s n f).out = s.out := rfl

/-! `setLink` changes `links`. -/

@[simp] theorem setLink_now (l : Link) (x : LinkSt) : (setLink s l x).now = s.now := rfl
@[simp] theorem setLink_drawn (l : Link) (x : LinkSt) : (setLink s l x).drawn = s.drawn := rfl
@[simp] theorem setLink_dev (l : Link) (x : LinkSt) : (setLink s l x).dev = s.dev := rfl
@[simp] theorem setLink_evt (l : Link) (x : LinkSt) : (setLink s l x).evt = s.evt := rfl
@[simp] theorem setLink_rim (l : Link) (x : LinkSt) : (setLink s l x).rim = s.rim := rfl
@[simp] theorem setLink_xpt (l : Link) (x : LinkSt) : (setLink s l x).xpt = s.xpt := rfl
@[simp] theorem setLink_cmd (l : Link) (x : LinkSt) : (setLink s l x).cmd = s.cmd := rfl
@[simp] theorem setLink_nss (l : Link) (x : LinkSt) : (setLink s l x).nss = s.nss := rfl
@[simp] theorem setLink_tenants (l : Link) (x : LinkSt) : (setLink s l x).tenants = s.tenants := rfl
@[simp] theorem setLink_idx (l : Link) (x : LinkSt) : (setLink s l x).idx = s.idx := rfl
@[simp] theorem setLink_cip (l : Link) (x : LinkSt) : (setLink s l x).cip = s.cip := rfl
@[simp] theorem setLink_spokes (l : Link) (x : LinkSt) : (setLink s l x).spokes = s.spokes := rfl
@[simp] theorem setLink_med (l : Link) (x : LinkSt) : (setLink s l x).med = s.med := rfl
@[simp] theorem setLink_tdm (l : Link) (x : LinkSt) : (setLink s l x).tdm = s.tdm := rfl
@[simp] theorem setLink_time (l : Link) (x : LinkSt) : (setLink s l x).time = s.time := rfl
@[simp] theorem setLink_loops (l : Link) (x : LinkSt) : (setLink s l x).loops = s.loops := rfl
@[simp] theorem setLink_hub (l : Link) (x : LinkSt) : (setLink s l x).hub = s.hub := rfl
@[simp] theorem setLink_ring (l : Link) (x : LinkSt) : (setLink s l x).ring = s.ring := rfl
@[simp] theorem setLink_pwr (l : Link) (x : LinkSt) : (setLink s l x).pwr = s.pwr := rfl
@[simp] theorem setLink_boot (l : Link) (x : LinkSt) : (setLink s l x).boot = s.boot := rfl
@[simp] theorem setLink_safe (l : Link) (x : LinkSt) : (setLink s l x).safe = s.safe := rfl
@[simp] theorem setLink_reg (l : Link) (x : LinkSt) : (setLink s l x).reg = s.reg := rfl
@[simp] theorem setLink_msi (l : Link) (x : LinkSt) : (setLink s l x).msi = s.msi := rfl
@[simp] theorem setLink_pin (l : Link) (x : LinkSt) : (setLink s l x).pin = s.pin := rfl
@[simp] theorem setLink_out (l : Link) (x : LinkSt) : (setLink s l x).out = s.out := rfl

/-! `setNs` changes `nss`. -/

@[simp] theorem setNs_now (n : Nat) (x : Namespace) : (setNs s n x).now = s.now := rfl
@[simp] theorem setNs_drawn (n : Nat) (x : Namespace) : (setNs s n x).drawn = s.drawn := rfl
@[simp] theorem setNs_dev (n : Nat) (x : Namespace) : (setNs s n x).dev = s.dev := rfl
@[simp] theorem setNs_evt (n : Nat) (x : Namespace) : (setNs s n x).evt = s.evt := rfl
@[simp] theorem setNs_rim (n : Nat) (x : Namespace) : (setNs s n x).rim = s.rim := rfl
@[simp] theorem setNs_xpt (n : Nat) (x : Namespace) : (setNs s n x).xpt = s.xpt := rfl
@[simp] theorem setNs_cmd (n : Nat) (x : Namespace) : (setNs s n x).cmd = s.cmd := rfl
@[simp] theorem setNs_tenants (n : Nat) (x : Namespace) : (setNs s n x).tenants = s.tenants := rfl
@[simp] theorem setNs_idx (n : Nat) (x : Namespace) : (setNs s n x).idx = s.idx := rfl
@[simp] theorem setNs_cip (n : Nat) (x : Namespace) : (setNs s n x).cip = s.cip := rfl
@[simp] theorem setNs_links (n : Nat) (x : Namespace) : (setNs s n x).links = s.links := rfl
@[simp] theorem setNs_spokes (n : Nat) (x : Namespace) : (setNs s n x).spokes = s.spokes := rfl
@[simp] theorem setNs_med (n : Nat) (x : Namespace) : (setNs s n x).med = s.med := rfl
@[simp] theorem setNs_tdm (n : Nat) (x : Namespace) : (setNs s n x).tdm = s.tdm := rfl
@[simp] theorem setNs_time (n : Nat) (x : Namespace) : (setNs s n x).time = s.time := rfl
@[simp] theorem setNs_loops (n : Nat) (x : Namespace) : (setNs s n x).loops = s.loops := rfl
@[simp] theorem setNs_hub (n : Nat) (x : Namespace) : (setNs s n x).hub = s.hub := rfl
@[simp] theorem setNs_ring (n : Nat) (x : Namespace) : (setNs s n x).ring = s.ring := rfl
@[simp] theorem setNs_pwr (n : Nat) (x : Namespace) : (setNs s n x).pwr = s.pwr := rfl
@[simp] theorem setNs_boot (n : Nat) (x : Namespace) : (setNs s n x).boot = s.boot := rfl
@[simp] theorem setNs_safe (n : Nat) (x : Namespace) : (setNs s n x).safe = s.safe := rfl
@[simp] theorem setNs_reg (n : Nat) (x : Namespace) : (setNs s n x).reg = s.reg := rfl
@[simp] theorem setNs_msi (n : Nat) (x : Namespace) : (setNs s n x).msi = s.msi := rfl
@[simp] theorem setNs_pin (n : Nat) (x : Namespace) : (setNs s n x).pin = s.pin := rfl
@[simp] theorem setNs_out (n : Nat) (x : Namespace) : (setNs s n x).out = s.out := rfl

/-! `modNs` changes `nss`. -/

@[simp] theorem modNs_now (n : Nat) (f : Namespace → Namespace) : (modNs s n f).now = s.now := by simp only [modNs]; split <;> rfl
@[simp] theorem modNs_drawn (n : Nat) (f : Namespace → Namespace) : (modNs s n f).drawn = s.drawn := by simp only [modNs]; split <;> rfl
@[simp] theorem modNs_dev (n : Nat) (f : Namespace → Namespace) : (modNs s n f).dev = s.dev := by simp only [modNs]; split <;> rfl
@[simp] theorem modNs_evt (n : Nat) (f : Namespace → Namespace) : (modNs s n f).evt = s.evt := by simp only [modNs]; split <;> rfl
@[simp] theorem modNs_rim (n : Nat) (f : Namespace → Namespace) : (modNs s n f).rim = s.rim := by simp only [modNs]; split <;> rfl
@[simp] theorem modNs_xpt (n : Nat) (f : Namespace → Namespace) : (modNs s n f).xpt = s.xpt := by simp only [modNs]; split <;> rfl
@[simp] theorem modNs_cmd (n : Nat) (f : Namespace → Namespace) : (modNs s n f).cmd = s.cmd := by simp only [modNs]; split <;> rfl
@[simp] theorem modNs_tenants (n : Nat) (f : Namespace → Namespace) : (modNs s n f).tenants = s.tenants := by simp only [modNs]; split <;> rfl
@[simp] theorem modNs_idx (n : Nat) (f : Namespace → Namespace) : (modNs s n f).idx = s.idx := by simp only [modNs]; split <;> rfl
@[simp] theorem modNs_cip (n : Nat) (f : Namespace → Namespace) : (modNs s n f).cip = s.cip := by simp only [modNs]; split <;> rfl
@[simp] theorem modNs_links (n : Nat) (f : Namespace → Namespace) : (modNs s n f).links = s.links := by simp only [modNs]; split <;> rfl
@[simp] theorem modNs_spokes (n : Nat) (f : Namespace → Namespace) : (modNs s n f).spokes = s.spokes := by simp only [modNs]; split <;> rfl
@[simp] theorem modNs_med (n : Nat) (f : Namespace → Namespace) : (modNs s n f).med = s.med := by simp only [modNs]; split <;> rfl
@[simp] theorem modNs_tdm (n : Nat) (f : Namespace → Namespace) : (modNs s n f).tdm = s.tdm := by simp only [modNs]; split <;> rfl
@[simp] theorem modNs_time (n : Nat) (f : Namespace → Namespace) : (modNs s n f).time = s.time := by simp only [modNs]; split <;> rfl
@[simp] theorem modNs_loops (n : Nat) (f : Namespace → Namespace) : (modNs s n f).loops = s.loops := by simp only [modNs]; split <;> rfl
@[simp] theorem modNs_hub (n : Nat) (f : Namespace → Namespace) : (modNs s n f).hub = s.hub := by simp only [modNs]; split <;> rfl
@[simp] theorem modNs_ring (n : Nat) (f : Namespace → Namespace) : (modNs s n f).ring = s.ring := by simp only [modNs]; split <;> rfl
@[simp] theorem modNs_pwr (n : Nat) (f : Namespace → Namespace) : (modNs s n f).pwr = s.pwr := by simp only [modNs]; split <;> rfl
@[simp] theorem modNs_boot (n : Nat) (f : Namespace → Namespace) : (modNs s n f).boot = s.boot := by simp only [modNs]; split <;> rfl
@[simp] theorem modNs_safe (n : Nat) (f : Namespace → Namespace) : (modNs s n f).safe = s.safe := by simp only [modNs]; split <;> rfl
@[simp] theorem modNs_reg (n : Nat) (f : Namespace → Namespace) : (modNs s n f).reg = s.reg := by simp only [modNs]; split <;> rfl
@[simp] theorem modNs_msi (n : Nat) (f : Namespace → Namespace) : (modNs s n f).msi = s.msi := by simp only [modNs]; split <;> rfl
@[simp] theorem modNs_pin (n : Nat) (f : Namespace → Namespace) : (modNs s n f).pin = s.pin := by simp only [modNs]; split <;> rfl
@[simp] theorem modNs_out (n : Nat) (f : Namespace → Namespace) : (modNs s n f).out = s.out := by simp only [modNs]; split <;> rfl

/-! `setSess` changes `xpt`. -/

@[simp] theorem setSess_now (n : Nat) (x : Session) : (setSess s n x).now = s.now := rfl
@[simp] theorem setSess_drawn (n : Nat) (x : Session) : (setSess s n x).drawn = s.drawn := rfl
@[simp] theorem setSess_dev (n : Nat) (x : Session) : (setSess s n x).dev = s.dev := rfl
@[simp] theorem setSess_evt (n : Nat) (x : Session) : (setSess s n x).evt = s.evt := rfl
@[simp] theorem setSess_rim (n : Nat) (x : Session) : (setSess s n x).rim = s.rim := rfl
@[simp] theorem setSess_cmd (n : Nat) (x : Session) : (setSess s n x).cmd = s.cmd := rfl
@[simp] theorem setSess_nss (n : Nat) (x : Session) : (setSess s n x).nss = s.nss := rfl
@[simp] theorem setSess_tenants (n : Nat) (x : Session) : (setSess s n x).tenants = s.tenants := rfl
@[simp] theorem setSess_idx (n : Nat) (x : Session) : (setSess s n x).idx = s.idx := rfl
@[simp] theorem setSess_cip (n : Nat) (x : Session) : (setSess s n x).cip = s.cip := rfl
@[simp] theorem setSess_links (n : Nat) (x : Session) : (setSess s n x).links = s.links := rfl
@[simp] theorem setSess_spokes (n : Nat) (x : Session) : (setSess s n x).spokes = s.spokes := rfl
@[simp] theorem setSess_med (n : Nat) (x : Session) : (setSess s n x).med = s.med := rfl
@[simp] theorem setSess_tdm (n : Nat) (x : Session) : (setSess s n x).tdm = s.tdm := rfl
@[simp] theorem setSess_time (n : Nat) (x : Session) : (setSess s n x).time = s.time := rfl
@[simp] theorem setSess_loops (n : Nat) (x : Session) : (setSess s n x).loops = s.loops := rfl
@[simp] theorem setSess_hub (n : Nat) (x : Session) : (setSess s n x).hub = s.hub := rfl
@[simp] theorem setSess_ring (n : Nat) (x : Session) : (setSess s n x).ring = s.ring := rfl
@[simp] theorem setSess_pwr (n : Nat) (x : Session) : (setSess s n x).pwr = s.pwr := rfl
@[simp] theorem setSess_boot (n : Nat) (x : Session) : (setSess s n x).boot = s.boot := rfl
@[simp] theorem setSess_safe (n : Nat) (x : Session) : (setSess s n x).safe = s.safe := rfl
@[simp] theorem setSess_reg (n : Nat) (x : Session) : (setSess s n x).reg = s.reg := rfl
@[simp] theorem setSess_msi (n : Nat) (x : Session) : (setSess s n x).msi = s.msi := rfl
@[simp] theorem setSess_pin (n : Nat) (x : Session) : (setSess s n x).pin = s.pin := rfl
@[simp] theorem setSess_out (n : Nat) (x : Session) : (setSess s n x).out = s.out := rfl

/-! `modSess` changes `xpt`. -/

@[simp] theorem modSess_now (n : Nat) (f : Session → Session) : (modSess s n f).now = s.now := by simp only [modSess]; split <;> rfl
@[simp] theorem modSess_drawn (n : Nat) (f : Session → Session) : (modSess s n f).drawn = s.drawn := by simp only [modSess]; split <;> rfl
@[simp] theorem modSess_dev (n : Nat) (f : Session → Session) : (modSess s n f).dev = s.dev := by simp only [modSess]; split <;> rfl
@[simp] theorem modSess_evt (n : Nat) (f : Session → Session) : (modSess s n f).evt = s.evt := by simp only [modSess]; split <;> rfl
@[simp] theorem modSess_rim (n : Nat) (f : Session → Session) : (modSess s n f).rim = s.rim := by simp only [modSess]; split <;> rfl
@[simp] theorem modSess_cmd (n : Nat) (f : Session → Session) : (modSess s n f).cmd = s.cmd := by simp only [modSess]; split <;> rfl
@[simp] theorem modSess_nss (n : Nat) (f : Session → Session) : (modSess s n f).nss = s.nss := by simp only [modSess]; split <;> rfl
@[simp] theorem modSess_tenants (n : Nat) (f : Session → Session) : (modSess s n f).tenants = s.tenants := by simp only [modSess]; split <;> rfl
@[simp] theorem modSess_idx (n : Nat) (f : Session → Session) : (modSess s n f).idx = s.idx := by simp only [modSess]; split <;> rfl
@[simp] theorem modSess_cip (n : Nat) (f : Session → Session) : (modSess s n f).cip = s.cip := by simp only [modSess]; split <;> rfl
@[simp] theorem modSess_links (n : Nat) (f : Session → Session) : (modSess s n f).links = s.links := by simp only [modSess]; split <;> rfl
@[simp] theorem modSess_spokes (n : Nat) (f : Session → Session) : (modSess s n f).spokes = s.spokes := by simp only [modSess]; split <;> rfl
@[simp] theorem modSess_med (n : Nat) (f : Session → Session) : (modSess s n f).med = s.med := by simp only [modSess]; split <;> rfl
@[simp] theorem modSess_tdm (n : Nat) (f : Session → Session) : (modSess s n f).tdm = s.tdm := by simp only [modSess]; split <;> rfl
@[simp] theorem modSess_time (n : Nat) (f : Session → Session) : (modSess s n f).time = s.time := by simp only [modSess]; split <;> rfl
@[simp] theorem modSess_loops (n : Nat) (f : Session → Session) : (modSess s n f).loops = s.loops := by simp only [modSess]; split <;> rfl
@[simp] theorem modSess_hub (n : Nat) (f : Session → Session) : (modSess s n f).hub = s.hub := by simp only [modSess]; split <;> rfl
@[simp] theorem modSess_ring (n : Nat) (f : Session → Session) : (modSess s n f).ring = s.ring := by simp only [modSess]; split <;> rfl
@[simp] theorem modSess_pwr (n : Nat) (f : Session → Session) : (modSess s n f).pwr = s.pwr := by simp only [modSess]; split <;> rfl
@[simp] theorem modSess_boot (n : Nat) (f : Session → Session) : (modSess s n f).boot = s.boot := by simp only [modSess]; split <;> rfl
@[simp] theorem modSess_safe (n : Nat) (f : Session → Session) : (modSess s n f).safe = s.safe := by simp only [modSess]; split <;> rfl
@[simp] theorem modSess_reg (n : Nat) (f : Session → Session) : (modSess s n f).reg = s.reg := by simp only [modSess]; split <;> rfl
@[simp] theorem modSess_msi (n : Nat) (f : Session → Session) : (modSess s n f).msi = s.msi := by simp only [modSess]; split <;> rfl
@[simp] theorem modSess_pin (n : Nat) (f : Session → Session) : (modSess s n f).pin = s.pin := by simp only [modSess]; split <;> rfl
@[simp] theorem modSess_out (n : Nat) (f : Session → Session) : (modSess s n f).out = s.out := by simp only [modSess]; split <;> rfl

/-! `setCmd` changes `cmd`. -/

@[simp] theorem setCmd_now (n : Nat) (x : Cmd) : (setCmd s n x).now = s.now := rfl
@[simp] theorem setCmd_drawn (n : Nat) (x : Cmd) : (setCmd s n x).drawn = s.drawn := rfl
@[simp] theorem setCmd_dev (n : Nat) (x : Cmd) : (setCmd s n x).dev = s.dev := rfl
@[simp] theorem setCmd_evt (n : Nat) (x : Cmd) : (setCmd s n x).evt = s.evt := rfl
@[simp] theorem setCmd_rim (n : Nat) (x : Cmd) : (setCmd s n x).rim = s.rim := rfl
@[simp] theorem setCmd_xpt (n : Nat) (x : Cmd) : (setCmd s n x).xpt = s.xpt := rfl
@[simp] theorem setCmd_nss (n : Nat) (x : Cmd) : (setCmd s n x).nss = s.nss := rfl
@[simp] theorem setCmd_tenants (n : Nat) (x : Cmd) : (setCmd s n x).tenants = s.tenants := rfl
@[simp] theorem setCmd_idx (n : Nat) (x : Cmd) : (setCmd s n x).idx = s.idx := rfl
@[simp] theorem setCmd_cip (n : Nat) (x : Cmd) : (setCmd s n x).cip = s.cip := rfl
@[simp] theorem setCmd_links (n : Nat) (x : Cmd) : (setCmd s n x).links = s.links := rfl
@[simp] theorem setCmd_spokes (n : Nat) (x : Cmd) : (setCmd s n x).spokes = s.spokes := rfl
@[simp] theorem setCmd_med (n : Nat) (x : Cmd) : (setCmd s n x).med = s.med := rfl
@[simp] theorem setCmd_tdm (n : Nat) (x : Cmd) : (setCmd s n x).tdm = s.tdm := rfl
@[simp] theorem setCmd_time (n : Nat) (x : Cmd) : (setCmd s n x).time = s.time := rfl
@[simp] theorem setCmd_loops (n : Nat) (x : Cmd) : (setCmd s n x).loops = s.loops := rfl
@[simp] theorem setCmd_hub (n : Nat) (x : Cmd) : (setCmd s n x).hub = s.hub := rfl
@[simp] theorem setCmd_ring (n : Nat) (x : Cmd) : (setCmd s n x).ring = s.ring := rfl
@[simp] theorem setCmd_pwr (n : Nat) (x : Cmd) : (setCmd s n x).pwr = s.pwr := rfl
@[simp] theorem setCmd_boot (n : Nat) (x : Cmd) : (setCmd s n x).boot = s.boot := rfl
@[simp] theorem setCmd_safe (n : Nat) (x : Cmd) : (setCmd s n x).safe = s.safe := rfl
@[simp] theorem setCmd_reg (n : Nat) (x : Cmd) : (setCmd s n x).reg = s.reg := rfl
@[simp] theorem setCmd_msi (n : Nat) (x : Cmd) : (setCmd s n x).msi = s.msi := rfl
@[simp] theorem setCmd_pin (n : Nat) (x : Cmd) : (setCmd s n x).pin = s.pin := rfl
@[simp] theorem setCmd_out (n : Nat) (x : Cmd) : (setCmd s n x).out = s.out := rfl

/-! `modCmd` changes `cmd`. -/

@[simp] theorem modCmd_now (n : Nat) (f : Cmd → Cmd) : (modCmd s n f).now = s.now := by simp only [modCmd]; split <;> rfl
@[simp] theorem modCmd_drawn (n : Nat) (f : Cmd → Cmd) : (modCmd s n f).drawn = s.drawn := by simp only [modCmd]; split <;> rfl
@[simp] theorem modCmd_dev (n : Nat) (f : Cmd → Cmd) : (modCmd s n f).dev = s.dev := by simp only [modCmd]; split <;> rfl
@[simp] theorem modCmd_evt (n : Nat) (f : Cmd → Cmd) : (modCmd s n f).evt = s.evt := by simp only [modCmd]; split <;> rfl
@[simp] theorem modCmd_rim (n : Nat) (f : Cmd → Cmd) : (modCmd s n f).rim = s.rim := by simp only [modCmd]; split <;> rfl
@[simp] theorem modCmd_xpt (n : Nat) (f : Cmd → Cmd) : (modCmd s n f).xpt = s.xpt := by simp only [modCmd]; split <;> rfl
@[simp] theorem modCmd_nss (n : Nat) (f : Cmd → Cmd) : (modCmd s n f).nss = s.nss := by simp only [modCmd]; split <;> rfl
@[simp] theorem modCmd_tenants (n : Nat) (f : Cmd → Cmd) : (modCmd s n f).tenants = s.tenants := by simp only [modCmd]; split <;> rfl
@[simp] theorem modCmd_idx (n : Nat) (f : Cmd → Cmd) : (modCmd s n f).idx = s.idx := by simp only [modCmd]; split <;> rfl
@[simp] theorem modCmd_cip (n : Nat) (f : Cmd → Cmd) : (modCmd s n f).cip = s.cip := by simp only [modCmd]; split <;> rfl
@[simp] theorem modCmd_links (n : Nat) (f : Cmd → Cmd) : (modCmd s n f).links = s.links := by simp only [modCmd]; split <;> rfl
@[simp] theorem modCmd_spokes (n : Nat) (f : Cmd → Cmd) : (modCmd s n f).spokes = s.spokes := by simp only [modCmd]; split <;> rfl
@[simp] theorem modCmd_med (n : Nat) (f : Cmd → Cmd) : (modCmd s n f).med = s.med := by simp only [modCmd]; split <;> rfl
@[simp] theorem modCmd_tdm (n : Nat) (f : Cmd → Cmd) : (modCmd s n f).tdm = s.tdm := by simp only [modCmd]; split <;> rfl
@[simp] theorem modCmd_time (n : Nat) (f : Cmd → Cmd) : (modCmd s n f).time = s.time := by simp only [modCmd]; split <;> rfl
@[simp] theorem modCmd_loops (n : Nat) (f : Cmd → Cmd) : (modCmd s n f).loops = s.loops := by simp only [modCmd]; split <;> rfl
@[simp] theorem modCmd_hub (n : Nat) (f : Cmd → Cmd) : (modCmd s n f).hub = s.hub := by simp only [modCmd]; split <;> rfl
@[simp] theorem modCmd_ring (n : Nat) (f : Cmd → Cmd) : (modCmd s n f).ring = s.ring := by simp only [modCmd]; split <;> rfl
@[simp] theorem modCmd_pwr (n : Nat) (f : Cmd → Cmd) : (modCmd s n f).pwr = s.pwr := by simp only [modCmd]; split <;> rfl
@[simp] theorem modCmd_boot (n : Nat) (f : Cmd → Cmd) : (modCmd s n f).boot = s.boot := by simp only [modCmd]; split <;> rfl
@[simp] theorem modCmd_safe (n : Nat) (f : Cmd → Cmd) : (modCmd s n f).safe = s.safe := by simp only [modCmd]; split <;> rfl
@[simp] theorem modCmd_reg (n : Nat) (f : Cmd → Cmd) : (modCmd s n f).reg = s.reg := by simp only [modCmd]; split <;> rfl
@[simp] theorem modCmd_msi (n : Nat) (f : Cmd → Cmd) : (modCmd s n f).msi = s.msi := by simp only [modCmd]; split <;> rfl
@[simp] theorem modCmd_pin (n : Nat) (f : Cmd → Cmd) : (modCmd s n f).pin = s.pin := by simp only [modCmd]; split <;> rfl
@[simp] theorem modCmd_out (n : Nat) (f : Cmd → Cmd) : (modCmd s n f).out = s.out := by simp only [modCmd]; split <;> rfl

/-! `countXpt` changes `xpt`. -/

@[simp] theorem countXpt_now (k : Nat) : (countXpt s k).now = s.now := rfl
@[simp] theorem countXpt_drawn (k : Nat) : (countXpt s k).drawn = s.drawn := rfl
@[simp] theorem countXpt_dev (k : Nat) : (countXpt s k).dev = s.dev := rfl
@[simp] theorem countXpt_evt (k : Nat) : (countXpt s k).evt = s.evt := rfl
@[simp] theorem countXpt_rim (k : Nat) : (countXpt s k).rim = s.rim := rfl
@[simp] theorem countXpt_cmd (k : Nat) : (countXpt s k).cmd = s.cmd := rfl
@[simp] theorem countXpt_nss (k : Nat) : (countXpt s k).nss = s.nss := rfl
@[simp] theorem countXpt_tenants (k : Nat) : (countXpt s k).tenants = s.tenants := rfl
@[simp] theorem countXpt_idx (k : Nat) : (countXpt s k).idx = s.idx := rfl
@[simp] theorem countXpt_cip (k : Nat) : (countXpt s k).cip = s.cip := rfl
@[simp] theorem countXpt_links (k : Nat) : (countXpt s k).links = s.links := rfl
@[simp] theorem countXpt_spokes (k : Nat) : (countXpt s k).spokes = s.spokes := rfl
@[simp] theorem countXpt_med (k : Nat) : (countXpt s k).med = s.med := rfl
@[simp] theorem countXpt_tdm (k : Nat) : (countXpt s k).tdm = s.tdm := rfl
@[simp] theorem countXpt_time (k : Nat) : (countXpt s k).time = s.time := rfl
@[simp] theorem countXpt_loops (k : Nat) : (countXpt s k).loops = s.loops := rfl
@[simp] theorem countXpt_hub (k : Nat) : (countXpt s k).hub = s.hub := rfl
@[simp] theorem countXpt_ring (k : Nat) : (countXpt s k).ring = s.ring := rfl
@[simp] theorem countXpt_pwr (k : Nat) : (countXpt s k).pwr = s.pwr := rfl
@[simp] theorem countXpt_boot (k : Nat) : (countXpt s k).boot = s.boot := rfl
@[simp] theorem countXpt_safe (k : Nat) : (countXpt s k).safe = s.safe := rfl
@[simp] theorem countXpt_reg (k : Nat) : (countXpt s k).reg = s.reg := rfl
@[simp] theorem countXpt_msi (k : Nat) : (countXpt s k).msi = s.msi := rfl
@[simp] theorem countXpt_pin (k : Nat) : (countXpt s k).pin = s.pin := rfl
@[simp] theorem countXpt_out (k : Nat) : (countXpt s k).out = s.out := rfl

/-! `countRim` changes `rim`. -/

@[simp] theorem countRim_now (i k : Nat) : (countRim s i k).now = s.now := rfl
@[simp] theorem countRim_drawn (i k : Nat) : (countRim s i k).drawn = s.drawn := rfl
@[simp] theorem countRim_dev (i k : Nat) : (countRim s i k).dev = s.dev := rfl
@[simp] theorem countRim_evt (i k : Nat) : (countRim s i k).evt = s.evt := rfl
@[simp] theorem countRim_xpt (i k : Nat) : (countRim s i k).xpt = s.xpt := rfl
@[simp] theorem countRim_cmd (i k : Nat) : (countRim s i k).cmd = s.cmd := rfl
@[simp] theorem countRim_nss (i k : Nat) : (countRim s i k).nss = s.nss := rfl
@[simp] theorem countRim_tenants (i k : Nat) : (countRim s i k).tenants = s.tenants := rfl
@[simp] theorem countRim_idx (i k : Nat) : (countRim s i k).idx = s.idx := rfl
@[simp] theorem countRim_cip (i k : Nat) : (countRim s i k).cip = s.cip := rfl
@[simp] theorem countRim_links (i k : Nat) : (countRim s i k).links = s.links := rfl
@[simp] theorem countRim_spokes (i k : Nat) : (countRim s i k).spokes = s.spokes := rfl
@[simp] theorem countRim_med (i k : Nat) : (countRim s i k).med = s.med := rfl
@[simp] theorem countRim_tdm (i k : Nat) : (countRim s i k).tdm = s.tdm := rfl
@[simp] theorem countRim_time (i k : Nat) : (countRim s i k).time = s.time := rfl
@[simp] theorem countRim_loops (i k : Nat) : (countRim s i k).loops = s.loops := rfl
@[simp] theorem countRim_hub (i k : Nat) : (countRim s i k).hub = s.hub := rfl
@[simp] theorem countRim_ring (i k : Nat) : (countRim s i k).ring = s.ring := rfl
@[simp] theorem countRim_pwr (i k : Nat) : (countRim s i k).pwr = s.pwr := rfl
@[simp] theorem countRim_boot (i k : Nat) : (countRim s i k).boot = s.boot := rfl
@[simp] theorem countRim_safe (i k : Nat) : (countRim s i k).safe = s.safe := rfl
@[simp] theorem countRim_reg (i k : Nat) : (countRim s i k).reg = s.reg := rfl
@[simp] theorem countRim_msi (i k : Nat) : (countRim s i k).msi = s.msi := rfl
@[simp] theorem countRim_pin (i k : Nat) : (countRim s i k).pin = s.pin := rfl
@[simp] theorem countRim_out (i k : Nat) : (countRim s i k).out = s.out := rfl

/-! `addRim` changes `rim`. -/

@[simp] theorem addRim_now (i k n : Nat) : (addRim s i k n).now = s.now := rfl
@[simp] theorem addRim_drawn (i k n : Nat) : (addRim s i k n).drawn = s.drawn := rfl
@[simp] theorem addRim_dev (i k n : Nat) : (addRim s i k n).dev = s.dev := rfl
@[simp] theorem addRim_evt (i k n : Nat) : (addRim s i k n).evt = s.evt := rfl
@[simp] theorem addRim_xpt (i k n : Nat) : (addRim s i k n).xpt = s.xpt := rfl
@[simp] theorem addRim_cmd (i k n : Nat) : (addRim s i k n).cmd = s.cmd := rfl
@[simp] theorem addRim_nss (i k n : Nat) : (addRim s i k n).nss = s.nss := rfl
@[simp] theorem addRim_tenants (i k n : Nat) : (addRim s i k n).tenants = s.tenants := rfl
@[simp] theorem addRim_idx (i k n : Nat) : (addRim s i k n).idx = s.idx := rfl
@[simp] theorem addRim_cip (i k n : Nat) : (addRim s i k n).cip = s.cip := rfl
@[simp] theorem addRim_links (i k n : Nat) : (addRim s i k n).links = s.links := rfl
@[simp] theorem addRim_spokes (i k n : Nat) : (addRim s i k n).spokes = s.spokes := rfl
@[simp] theorem addRim_med (i k n : Nat) : (addRim s i k n).med = s.med := rfl
@[simp] theorem addRim_tdm (i k n : Nat) : (addRim s i k n).tdm = s.tdm := rfl
@[simp] theorem addRim_time (i k n : Nat) : (addRim s i k n).time = s.time := rfl
@[simp] theorem addRim_loops (i k n : Nat) : (addRim s i k n).loops = s.loops := rfl
@[simp] theorem addRim_hub (i k n : Nat) : (addRim s i k n).hub = s.hub := rfl
@[simp] theorem addRim_ring (i k n : Nat) : (addRim s i k n).ring = s.ring := rfl
@[simp] theorem addRim_pwr (i k n : Nat) : (addRim s i k n).pwr = s.pwr := rfl
@[simp] theorem addRim_boot (i k n : Nat) : (addRim s i k n).boot = s.boot := rfl
@[simp] theorem addRim_safe (i k n : Nat) : (addRim s i k n).safe = s.safe := rfl
@[simp] theorem addRim_reg (i k n : Nat) : (addRim s i k n).reg = s.reg := rfl
@[simp] theorem addRim_msi (i k n : Nat) : (addRim s i k n).msi = s.msi := rfl
@[simp] theorem addRim_pin (i k n : Nat) : (addRim s i k n).pin = s.pin := rfl
@[simp] theorem addRim_out (i k n : Nat) : (addRim s i k n).out = s.out := rfl

/-! `setPfc` changes `rim`. -/

@[simp] theorem setPfc_now (i : Nat) (x : PfcRun) : (setPfc s i x).now = s.now := rfl
@[simp] theorem setPfc_drawn (i : Nat) (x : PfcRun) : (setPfc s i x).drawn = s.drawn := rfl
@[simp] theorem setPfc_dev (i : Nat) (x : PfcRun) : (setPfc s i x).dev = s.dev := rfl
@[simp] theorem setPfc_evt (i : Nat) (x : PfcRun) : (setPfc s i x).evt = s.evt := rfl
@[simp] theorem setPfc_xpt (i : Nat) (x : PfcRun) : (setPfc s i x).xpt = s.xpt := rfl
@[simp] theorem setPfc_cmd (i : Nat) (x : PfcRun) : (setPfc s i x).cmd = s.cmd := rfl
@[simp] theorem setPfc_nss (i : Nat) (x : PfcRun) : (setPfc s i x).nss = s.nss := rfl
@[simp] theorem setPfc_tenants (i : Nat) (x : PfcRun) : (setPfc s i x).tenants = s.tenants := rfl
@[simp] theorem setPfc_idx (i : Nat) (x : PfcRun) : (setPfc s i x).idx = s.idx := rfl
@[simp] theorem setPfc_cip (i : Nat) (x : PfcRun) : (setPfc s i x).cip = s.cip := rfl
@[simp] theorem setPfc_links (i : Nat) (x : PfcRun) : (setPfc s i x).links = s.links := rfl
@[simp] theorem setPfc_spokes (i : Nat) (x : PfcRun) : (setPfc s i x).spokes = s.spokes := rfl
@[simp] theorem setPfc_med (i : Nat) (x : PfcRun) : (setPfc s i x).med = s.med := rfl
@[simp] theorem setPfc_tdm (i : Nat) (x : PfcRun) : (setPfc s i x).tdm = s.tdm := rfl
@[simp] theorem setPfc_time (i : Nat) (x : PfcRun) : (setPfc s i x).time = s.time := rfl
@[simp] theorem setPfc_loops (i : Nat) (x : PfcRun) : (setPfc s i x).loops = s.loops := rfl
@[simp] theorem setPfc_hub (i : Nat) (x : PfcRun) : (setPfc s i x).hub = s.hub := rfl
@[simp] theorem setPfc_ring (i : Nat) (x : PfcRun) : (setPfc s i x).ring = s.ring := rfl
@[simp] theorem setPfc_pwr (i : Nat) (x : PfcRun) : (setPfc s i x).pwr = s.pwr := rfl
@[simp] theorem setPfc_boot (i : Nat) (x : PfcRun) : (setPfc s i x).boot = s.boot := rfl
@[simp] theorem setPfc_safe (i : Nat) (x : PfcRun) : (setPfc s i x).safe = s.safe := rfl
@[simp] theorem setPfc_reg (i : Nat) (x : PfcRun) : (setPfc s i x).reg = s.reg := rfl
@[simp] theorem setPfc_msi (i : Nat) (x : PfcRun) : (setPfc s i x).msi = s.msi := rfl
@[simp] theorem setPfc_pin (i : Nat) (x : PfcRun) : (setPfc s i x).pin = s.pin := rfl
@[simp] theorem setPfc_out (i : Nat) (x : PfcRun) : (setPfc s i x).out = s.out := rfl

/-! `takeWseq` changes `med`. -/

@[simp] theorem takeWseq_now : ((takeWseq s).2).now = s.now := rfl
@[simp] theorem takeWseq_drawn : ((takeWseq s).2).drawn = s.drawn := rfl
@[simp] theorem takeWseq_dev : ((takeWseq s).2).dev = s.dev := rfl
@[simp] theorem takeWseq_evt : ((takeWseq s).2).evt = s.evt := rfl
@[simp] theorem takeWseq_rim : ((takeWseq s).2).rim = s.rim := rfl
@[simp] theorem takeWseq_xpt : ((takeWseq s).2).xpt = s.xpt := rfl
@[simp] theorem takeWseq_cmd : ((takeWseq s).2).cmd = s.cmd := rfl
@[simp] theorem takeWseq_nss : ((takeWseq s).2).nss = s.nss := rfl
@[simp] theorem takeWseq_tenants : ((takeWseq s).2).tenants = s.tenants := rfl
@[simp] theorem takeWseq_idx : ((takeWseq s).2).idx = s.idx := rfl
@[simp] theorem takeWseq_cip : ((takeWseq s).2).cip = s.cip := rfl
@[simp] theorem takeWseq_links : ((takeWseq s).2).links = s.links := rfl
@[simp] theorem takeWseq_spokes : ((takeWseq s).2).spokes = s.spokes := rfl
@[simp] theorem takeWseq_tdm : ((takeWseq s).2).tdm = s.tdm := rfl
@[simp] theorem takeWseq_time : ((takeWseq s).2).time = s.time := rfl
@[simp] theorem takeWseq_loops : ((takeWseq s).2).loops = s.loops := rfl
@[simp] theorem takeWseq_hub : ((takeWseq s).2).hub = s.hub := rfl
@[simp] theorem takeWseq_ring : ((takeWseq s).2).ring = s.ring := rfl
@[simp] theorem takeWseq_pwr : ((takeWseq s).2).pwr = s.pwr := rfl
@[simp] theorem takeWseq_boot : ((takeWseq s).2).boot = s.boot := rfl
@[simp] theorem takeWseq_safe : ((takeWseq s).2).safe = s.safe := rfl
@[simp] theorem takeWseq_reg : ((takeWseq s).2).reg = s.reg := rfl
@[simp] theorem takeWseq_msi : ((takeWseq s).2).msi = s.msi := rfl
@[simp] theorem takeWseq_pin : ((takeWseq s).2).pin = s.pin := rfl
@[simp] theorem takeWseq_out : ((takeWseq s).2).out = s.out := rfl

/-! `journal` changes `med`. -/

@[simp] theorem journal_now (r : JRec) : (journal s r).now = s.now := rfl
@[simp] theorem journal_drawn (r : JRec) : (journal s r).drawn = s.drawn := rfl
@[simp] theorem journal_dev (r : JRec) : (journal s r).dev = s.dev := rfl
@[simp] theorem journal_evt (r : JRec) : (journal s r).evt = s.evt := rfl
@[simp] theorem journal_rim (r : JRec) : (journal s r).rim = s.rim := rfl
@[simp] theorem journal_xpt (r : JRec) : (journal s r).xpt = s.xpt := rfl
@[simp] theorem journal_cmd (r : JRec) : (journal s r).cmd = s.cmd := rfl
@[simp] theorem journal_nss (r : JRec) : (journal s r).nss = s.nss := rfl
@[simp] theorem journal_tenants (r : JRec) : (journal s r).tenants = s.tenants := rfl
@[simp] theorem journal_idx (r : JRec) : (journal s r).idx = s.idx := rfl
@[simp] theorem journal_cip (r : JRec) : (journal s r).cip = s.cip := rfl
@[simp] theorem journal_links (r : JRec) : (journal s r).links = s.links := rfl
@[simp] theorem journal_spokes (r : JRec) : (journal s r).spokes = s.spokes := rfl
@[simp] theorem journal_tdm (r : JRec) : (journal s r).tdm = s.tdm := rfl
@[simp] theorem journal_time (r : JRec) : (journal s r).time = s.time := rfl
@[simp] theorem journal_loops (r : JRec) : (journal s r).loops = s.loops := rfl
@[simp] theorem journal_hub (r : JRec) : (journal s r).hub = s.hub := rfl
@[simp] theorem journal_ring (r : JRec) : (journal s r).ring = s.ring := rfl
@[simp] theorem journal_pwr (r : JRec) : (journal s r).pwr = s.pwr := rfl
@[simp] theorem journal_boot (r : JRec) : (journal s r).boot = s.boot := rfl
@[simp] theorem journal_safe (r : JRec) : (journal s r).safe = s.safe := rfl
@[simp] theorem journal_reg (r : JRec) : (journal s r).reg = s.reg := rfl
@[simp] theorem journal_msi (r : JRec) : (journal s r).msi = s.msi := rfl
@[simp] theorem journal_pin (r : JRec) : (journal s r).pin = s.pin := rfl
@[simp] theorem journal_out (r : JRec) : (journal s r).out = s.out := rfl

/-! `endOverride` changes `loops`. -/

@[simp] theorem endOverride_now (ids : List Nat) : (endOverride s ids).now = s.now := rfl
@[simp] theorem endOverride_drawn (ids : List Nat) : (endOverride s ids).drawn = s.drawn := rfl
@[simp] theorem endOverride_dev (ids : List Nat) : (endOverride s ids).dev = s.dev := rfl
@[simp] theorem endOverride_evt (ids : List Nat) : (endOverride s ids).evt = s.evt := rfl
@[simp] theorem endOverride_rim (ids : List Nat) : (endOverride s ids).rim = s.rim := rfl
@[simp] theorem endOverride_xpt (ids : List Nat) : (endOverride s ids).xpt = s.xpt := rfl
@[simp] theorem endOverride_cmd (ids : List Nat) : (endOverride s ids).cmd = s.cmd := rfl
@[simp] theorem endOverride_nss (ids : List Nat) : (endOverride s ids).nss = s.nss := rfl
@[simp] theorem endOverride_tenants (ids : List Nat) : (endOverride s ids).tenants = s.tenants := rfl
@[simp] theorem endOverride_idx (ids : List Nat) : (endOverride s ids).idx = s.idx := rfl
@[simp] theorem endOverride_cip (ids : List Nat) : (endOverride s ids).cip = s.cip := rfl
@[simp] theorem endOverride_links (ids : List Nat) : (endOverride s ids).links = s.links := rfl
@[simp] theorem endOverride_spokes (ids : List Nat) : (endOverride s ids).spokes = s.spokes := rfl
@[simp] theorem endOverride_med (ids : List Nat) : (endOverride s ids).med = s.med := rfl
@[simp] theorem endOverride_tdm (ids : List Nat) : (endOverride s ids).tdm = s.tdm := rfl
@[simp] theorem endOverride_time (ids : List Nat) : (endOverride s ids).time = s.time := rfl
@[simp] theorem endOverride_hub (ids : List Nat) : (endOverride s ids).hub = s.hub := rfl
@[simp] theorem endOverride_ring (ids : List Nat) : (endOverride s ids).ring = s.ring := rfl
@[simp] theorem endOverride_pwr (ids : List Nat) : (endOverride s ids).pwr = s.pwr := rfl
@[simp] theorem endOverride_boot (ids : List Nat) : (endOverride s ids).boot = s.boot := rfl
@[simp] theorem endOverride_safe (ids : List Nat) : (endOverride s ids).safe = s.safe := rfl
@[simp] theorem endOverride_reg (ids : List Nat) : (endOverride s ids).reg = s.reg := rfl
@[simp] theorem endOverride_msi (ids : List Nat) : (endOverride s ids).msi = s.msi := rfl
@[simp] theorem endOverride_pin (ids : List Nat) : (endOverride s ids).pin = s.pin := rfl
@[simp] theorem endOverride_out (ids : List Nat) : (endOverride s ids).out = s.out := rfl

end Sys2Proof.Machine
end

