-- ==== Sys2Proof/Laws/Ops.lean ====
section
/-! SUPPORT. What the named operations do to what they change: tables, single fields, and the canonical byte memory. -/

namespace Sys2Proof.Machine

/-! ### Tables -/

@[simp] theorem Tbl.get?_set_self {α : Type} (t : Tbl α) (k : Nat) (a : α) : (t.set k a).get? k = some a := by
  induction t with
  | nil => simp [Tbl.set, Tbl.get?]
  | cons x xs ih =>
    obtain ⟨i, b⟩ := x
    simp only [Tbl.set]
    split
    · simp [Tbl.get?]
    · split
      · simp [Tbl.get?]
      · simp_all [Tbl.get?]

theorem Tbl.get?_set_ne {α : Type} (t : Tbl α) (k j : Nat) (a : α) (h : j ≠ k) : (t.set k a).get? j = t.get? j := by
  induction t with
  | nil => simp [Tbl.set, Tbl.get?, Ne.symm h]
  | cons x xs ih =>
    obtain ⟨i, b⟩ := x
    simp only [Tbl.set]
    split
    · subst_vars; simp [Tbl.get?, Ne.symm h]
    · split
      · simp [Tbl.get?, Ne.symm h]
      · simp [Tbl.get?, ih]

theorem Tbl.mem_of_get? {α : Type} {t : Tbl α} {k : Nat} {a : α} (h : t.get? k = some a) : (k, a) ∈ t := by
  induction t with
  | nil => simp [Tbl.get?] at h
  | cons x xs ih =>
    obtain ⟨i, b⟩ := x
    simp only [Tbl.get?] at h
    split at h
    · subst_vars; cases h; simp
    · exact List.mem_cons_of_mem _ (ih h)

theorem Tbl.get?_mapVal {α : Type} (t : Tbl α) (f : Nat → α → α) (k : Nat) : (t.mapVal f).get? k = (t.get? k).map (f k) := by
  induction t with
  | nil => rfl
  | cons x xs ih =>
    obtain ⟨i, b⟩ := x
    simp only [Tbl.mapVal, List.map_cons, Tbl.get?] at ih ⊢
    split
    · subst_vars; rfl
    · exact ih

@[simp] theorem Tbl.getD_set_self {α : Type} (t : Tbl α) (k : Nat) (a d : α) : (t.set k a).getD k d = a := by simp [Tbl.getD]

theorem Tbl.getD_set_ne {α : Type} (t : Tbl α) (k j : Nat) (a d : α) (h : j ≠ k) : (t.set k a).getD j d = t.getD j d := by
  simp [Tbl.getD, Tbl.get?_set_ne _ _ _ _ h]

theorem Tbl.get?_del_self {α : Type} (t : Tbl α) (k : Nat) : (t.del k).get? k = none := by
  induction t with
  | nil => rfl
  | cons x xs ih =>
    unfold Tbl.del at *
    by_cases h : x.1 = k
    · rw [List.filter_cons_of_neg (by simp [h])]; exact ih
    · rw [List.filter_cons_of_pos (by simp [h])]; simp only [Tbl.get?, ih]; rw [if_neg h]

theorem Tbl.get?_del_ne {α : Type} (t : Tbl α) (k j : Nat) (h : j ≠ k) : (t.del k).get? j = t.get? j := by
  induction t with
  | nil => rfl
  | cons x xs ih =>
    unfold Tbl.del at *
    by_cases g : x.1 = k
    · rw [List.filter_cons_of_neg (by simp [g]), ih]; simp only [Tbl.get?]; rw [if_neg (by rw [g]; exact fun e => h e.symm)]
    · rw [List.filter_cons_of_pos (by simp [g])]; simp only [Tbl.get?, ih]

/-! ### The field an update changes -/

@[simp] theorem emit_out (s : Blk) (o : Output) : (emit s o).out = s.out ++ [o] := rfl

/-- Everything `raise` can do: the event waits in its place, or a full queue counts it as lost. -/
theorem raise_evt (s : Blk) (code sev src : Nat) (p : Bytes) :
    (s.evt.inq.length < 256 ∧ (raise s code sev src p).evt = { s.evt with
      inq := evInsert { code := code, sev := sev, src := src, payload := p.take 28, at_ := s.now } s.evt.inq }) ∨
    (256 ≤ s.evt.inq.length ∧ (raise s code sev src p).evt = { s.evt with queueLost := s.evt.queueLost + 1 }) := by
  by_cases h : s.evt.inq.length < 256
  · exact .inl ⟨h, by simp only [raise, h, if_true]⟩
  · exact .inr ⟨Nat.le_of_not_lt h, by simp only [raise, h, if_false]⟩

@[simp] theorem alert_reg (s : Blk) (n : Nat) : (alert s n).reg = { s.reg with alertStatus := s.reg.alertStatus ||| (1#8 <<< n) } := by
  simp only [alert]; split <;> simp

/-- Everything `vector` can do: with MSI-X off nothing is sent; a masked vector is pending, another one is sent. -/
theorem vector_cases (s : Blk) (n : Nat) :
    (s.msi.enable = false ∧ vector s n = s) ∨
    (s.msi.enable = true ∧ (s.msi.mask.getLsbD n || s.msi.fmask) = true ∧
      vector s n = { s with msi := { s.msi with pba := s.msi.pba ||| (1#512 <<< n) } }) ∨
    (s.msi.enable = true ∧ (s.msi.mask.getLsbD n || s.msi.fmask) = false ∧ vector s n = emit s (.msix n)) := by
  cases he : s.msi.enable
  · exact .inl ⟨rfl, by rw [vector, if_pos he]⟩
  · cases h : (s.msi.mask.getLsbD n || s.msi.fmask)
    · exact .inr (.inr ⟨rfl, rfl, by rw [vector, if_neg (by simp [he]), if_neg (by simp [h])]⟩)
    · exact .inr (.inl ⟨rfl, rfl, by rw [vector, if_neg (by simp [he]), if_pos h]⟩)

@[simp] theorem setDev_dev (s : Blk) (d : DevState) : (setDev s d).dev = d := by
  simp only [setDev]; split
  · assumption
  · simp

@[simp] theorem spokeOf_setSpoke_self (s : Blk) (n : Nat) (x : SpokeSt) : spokeOf (setSpoke s n x) n = x := by simp [spokeOf, setSpoke]
theorem spokeOf_setSpoke_ne (s : Blk) (n m : Nat) (x : SpokeSt) (h : m ≠ n) : spokeOf (setSpoke s n x) m = spokeOf s m := by
  simp [spokeOf, setSpoke, Tbl.getD_set_ne _ _ _ _ _ h]
@[simp] theorem linkOf_setLink_self (s : Blk) (l : Link) (x : LinkSt) : linkOf (setLink s l x) l = x := by simp [linkOf, setLink]
theorem linkOf_setLink_ne (s : Blk) (l m : Link) (x : LinkSt) (h : linkNo m ≠ linkNo l) : linkOf (setLink s l x) m = linkOf s m := by
  simp [linkOf, setLink, Tbl.getD_set_ne _ _ _ _ _ h]
@[simp] theorem nsOf_setNs_self (s : Blk) (n : Nat) (x : Namespace) : nsOf (setNs s n x) n = some x := by simp [nsOf, setNs]
theorem nsOf_setNs_ne (s : Blk) (n m : Nat) (x : Namespace) (h : m ≠ n) : nsOf (setNs s n x) m = nsOf s m := by
  simp [nsOf, setNs, Tbl.get?_set_ne _ _ _ _ h]
@[simp] theorem sessOf_setSess_self (s : Blk) (n : Nat) (x : Session) : sessOf (setSess s n x) n = some x := by simp [sessOf, setSess]
theorem sessOf_setSess_ne (s : Blk) (n m : Nat) (x : Session) (h : m ≠ n) : sessOf (setSess s n x) m = sessOf s m := by
  simp [sessOf, setSess, Tbl.get?_set_ne _ _ _ _ h]
@[simp] theorem cmdOf_setCmd_self (s : Blk) (n : Nat) (x : Cmd) : cmdOf (setCmd s n x) n = some x := by simp [cmdOf, setCmd]
theorem cmdOf_setCmd_ne (s : Blk) (n m : Nat) (x : Cmd) (h : m ≠ n) : cmdOf (setCmd s n x) m = cmdOf s m := by
  simp [cmdOf, setCmd, Tbl.get?_set_ne _ _ _ _ h]
@[simp] theorem pfcOf_setPfc_self (s : Blk) (i : Nat) (x : PfcRun) : pfcOf (setPfc s i x) i = x := by simp [pfcOf, setPfc]
theorem pfcOf_setPfc_ne (s : Blk) (i j : Nat) (x : PfcRun) (h : j ≠ i) : pfcOf (setPfc s i x) j = pfcOf s j := by
  simp [pfcOf, setPfc, Tbl.getD_set_ne _ _ _ _ _ h]

/-- What a list of steps keeps, each step keeping it. -/
theorem forEach_keep {α β : Type} (p : Blk → β) (l : List α) (f : Blk → α → Blk) (h : ∀ s a, p (f s a) = p s) (s : Blk) : p (forEach l f s) = p s := by
  induction l generalizing s with
  | nil => rfl
  | cons x xs ih => exact (ih _).trans (h _ _)

/-! ### The canonical byte memory -/

theorem memRead_keep (m : List Host.Cell) (f : Host.Cell → Bool) (a : Nat) (h : ∀ c, c.1 = a → f c = true) :
    memRead (m.filter f) a = memRead m a := by
  induction m with
  | nil => rfl
  | cons c m ih =>
    by_cases g : f c = true
    · rw [List.filter_cons_of_pos g]; simp only [memRead, ih]
    · rw [List.filter_cons_of_neg (by simpa using g), ih]; simp only [memRead]
      rw [if_neg (fun e => g (h c e))]

theorem memRead_erase_same (m : List Host.Cell) (a : Nat) : memRead (memErase m a) a = 0 := by
  induction m with
  | nil => rfl
  | cons c m ih =>
    unfold memErase at *
    by_cases g : c.1 = a
    · rw [List.filter_cons_of_neg (by simp [g])]; exact ih
    · rw [List.filter_cons_of_pos (by simp [g])]; simp only [memRead, ih]; rw [if_neg g]

theorem memRead_erase_other (m : List Host.Cell) (a c : Nat) (h : c ≠ a) : memRead (memErase m a) c = memRead m c :=
  memRead_keep m _ c (fun x e => by simp [e, h])

theorem memRead_insert_other (m : List Host.Cell) (a c : Nat) (b : Byte) (h : c ≠ a) : memRead (memInsert m a b) c = memRead m c := by
  induction m with
  | nil => simp [memInsert, memRead, Ne.symm h]
  | cons x m ih =>
    simp only [memInsert]; split
    · simp [memRead, Ne.symm h]
    · simp only [memRead, ih]

theorem memRead_insert_same (m : List Host.Cell) (a : Nat) (b : Byte) : memRead (memInsert (memErase m a) a b) a = b := by
  induction m with
  | nil => simp [memErase, memInsert, memRead]
  | cons x m ih =>
    unfold memErase at *
    by_cases g : x.1 = a
    · rw [List.filter_cons_of_neg (by simp [g])]; exact ih
    · rw [List.filter_cons_of_pos (by simp [g])]; simp only [memInsert]; split
      · simp [memRead]
      · simp only [memRead, ih]; rw [if_neg g]

/-- A read after a write: the byte written there, and every other byte as it was. -/
theorem memRead_memWrite (m : List Host.Cell) (a c : Nat) (b : Byte) : memRead (memWrite m a b) c = if c = a then b else memRead m c := by
  unfold memWrite
  by_cases hb : b = 0
  · rw [if_pos hb]; by_cases h : c = a
    · rw [h, memRead_erase_same, if_pos rfl, hb]
    · rw [if_neg h, memRead_erase_other _ _ _ h]
  · rw [if_neg hb]; by_cases h : c = a
    · rw [h, if_pos rfl, memRead_insert_same]
    · rw [if_neg h, memRead_insert_other _ _ _ _ h, memRead_erase_other _ _ _ h]

/-- Every operation of the memory keeps its canonical form. -/
theorem wf_filter (m : List Host.Cell) (f : Host.Cell → Bool) (h : Memory.wf m = true) : Memory.wf (m.filter f) = true := by
  simp only [Memory.wf, Bool.and_eq_true, decide_eq_true_eq] at *
  refine ⟨h.1.filter f, ?_⟩
  rw [List.all_eq_true] at *
  exact fun x hx => h.2 x ((List.mem_filter.1 hx).1)

theorem memInsert_mem (m : List Host.Cell) (a : Nat) (b : Byte) (x : Host.Cell) : x ∈ memInsert m a b → x = (a, b) ∨ x ∈ m := by
  induction m with
  | nil => simp [memInsert]
  | cons c m ih =>
    simp only [memInsert]; split
    · simp
    · simp only [List.mem_cons]; rintro (h | h)
      · exact .inr (.inl h)
      · rcases ih h with h | h
        · exact .inl h
        · exact .inr (.inr h)

theorem wf_insert (m : List Host.Cell) (a : Nat) (b : Byte) (hb : b ≠ 0) (h : Memory.wf m = true) (hn : ∀ c ∈ m, c.1 ≠ a) : Memory.wf (memInsert m a b) = true := by
  simp only [Memory.wf, Bool.and_eq_true, decide_eq_true_eq, List.all_eq_true] at *
  refine ⟨?_, fun x hx => ?_⟩
  · obtain ⟨h, -⟩ := h
    induction m with
    | nil => simp [memInsert]
    | cons c m ih =>
      rw [List.pairwise_cons] at h
      simp only [memInsert]; split
      · rename_i g
        refine List.pairwise_cons.2 ⟨fun x hx => ?_, List.pairwise_cons.2 h⟩
        rcases List.mem_cons.1 hx with rfl | hx
        · exact g
        · exact Nat.lt_trans g (h.1 x hx)
      · rename_i g
        refine List.pairwise_cons.2 ⟨fun x hx => ?_, ih (fun c hc => hn c (List.mem_cons_of_mem _ hc)) h.2⟩
        rcases memInsert_mem _ _ _ _ hx with rfl | hx
        · have := hn c List.mem_cons_self; simp only; omega
        · exact h.1 x hx
  · rcases memInsert_mem _ _ _ _ hx with rfl | hx
    · simpa using hb
    · exact h.2 x hx

theorem wf_write (m : List Host.Cell) (a : Nat) (b : Byte) (h : Memory.wf m = true) : Memory.wf (memWrite m a b) = true := by
  unfold memWrite; split
  · exact wf_filter _ _ h
  · rename_i hb
    exact wf_insert _ _ _ hb (wf_filter _ _ h) (fun c hc => by simpa using (List.mem_filter.1 hc).2)

theorem wf_writeBytes (bs : Bytes) (m : List Host.Cell) (a : Nat) (h : Memory.wf m = true) : Memory.wf (memWriteBytes m a bs) = true := by
  induction bs generalizing m a with
  | nil => exact h
  | cons b bs ih => exact ih _ _ (wf_write _ _ _ h)

end Sys2Proof.Machine
end

