-- ==== Sys2Proof/Laws/Step.lean ====
section
/-! SUPPORT. What a command can do, and the lemmas that give its outcome from the function it lifts. -/

namespace Sys2Proof.Machine

theorem gives_of {c : Instr} {s : State} {f : Blk → Blk} {b : Blk} (h : exec c s = lift f s) (hb : f s.toBlk = b) :
    Gives c s b := by rw [Gives, h, lift, hb]

theorem reaches_of {c : Instr} {s : State} {f : Blk → Blk} {P : Blk → Prop} (h : exec c s = lift f s) (hb : P (f s.toBlk)) :
    Reaches c s P := ⟨f s.toBlk, h, hb⟩

theorem gives_flit {c : Instr} {s : State} {p : Bytes} {f : Blk → Blk} {b : Blk} (h : exec c s = liftFlit p f s) (hl : p.length = 240) (hb : f s.toBlk = b) :
    Gives c s b := by rw [Gives, h, liftFlit, if_pos hl, lift, hb]

theorem liftFlit_cases (p : Bytes) (f : Blk → Blk) (s : State) :
    (p.length = 240 ∧ liftFlit p f s = .next { s with toBlk := f s.toBlk }) ∨ (p.length ≠ 240 ∧ liftFlit p f s = .fault .noSuchFlit) := by
  by_cases h : p.length = 240
  · exact .inl ⟨h, if_pos h⟩
  · exact .inr ⟨h, if_neg h⟩

/-- Everything `exec` can do, by the shape of the command's meaning: a function of the block, the same for a flit of the right
length, or one of the five that touch the host-written memory. -/
theorem exec_cases (c : Instr) :
    (∃ f : Blk → Blk, (∀ s' : State, exec c s' = lift f s')) ∨
    (∃ h p, (c = .tandemStateFlit h p ∨ c = .tandemValueFlit h p ∨ c = .held h p ∨ c = .joinProof h p ∨
        c = .heartbeat h p ∨ c = .resign h p ∨ (∃ l, c = .ident l h p ∨ c = .creditInit l h p) ∨ (∃ n, c = .dataIn n h p ∨ c = .status n h p)) ∧
      ∃ f : Blk → Blk, ∀ s' : State, exec c s' = liftFlit p f s') ∨
    (∃ off v, c = .registerWrite off v) ∨ c = .porNFall ∨ c = .perstN ∨ c = .functionLevelReset ∨ (∃ x, c = .mailboxTake x) := by
  cases c
  case registerWrite off v => exact .inr (.inr (.inl ⟨_, _, rfl⟩))
  case porNFall => exact .inr (.inr (.inr (.inl rfl)))
  case perstN => exact .inr (.inr (.inr (.inr (.inl rfl))))
  case functionLevelReset => exact .inr (.inr (.inr (.inr (.inr (.inl rfl)))))
  case mailboxTake n => exact .inr (.inr (.inr (.inr (.inr (.inr ⟨_, rfl⟩)))))
  case tandemStateFlit h p => exact .inr (.inl ⟨h, p, by simp, _, fun _ => rfl⟩)
  case tandemValueFlit h p => exact .inr (.inl ⟨h, p, by simp, _, fun _ => rfl⟩)
  case held h p => exact .inr (.inl ⟨h, p, by simp, _, fun _ => rfl⟩)
  case joinProof h p => exact .inr (.inl ⟨h, p, by simp, _, fun _ => rfl⟩)
  case heartbeat h p => exact .inr (.inl ⟨h, p, by simp, _, fun _ => rfl⟩)
  case resign h p => exact .inr (.inl ⟨h, p, by simp, _, fun _ => rfl⟩)
  case ident l h p => exact .inr (.inl ⟨h, p, by simp, _, fun _ => rfl⟩)
  case creditInit l h p => exact .inr (.inl ⟨h, p, by simp, _, fun _ => rfl⟩)
  case dataIn l h p => exact .inr (.inl ⟨h, p, by simp, _, fun _ => rfl⟩)
  case status l h p => exact .inr (.inl ⟨h, p, by simp, _, fun _ => rfl⟩)
  all_goals exact .inl ⟨_, fun s' => by rw [exec]; rfl⟩

theorem memRead_store_none (cs : List (Nat × Byte)) (m : List Host.Cell) (a : Nat) (h : ∀ c ∈ cs, c.1 ≠ a) : memRead (storeCells m cs) a = memRead m a := by
  unfold storeCells
  induction cs generalizing m with
  | nil => rfl
  | cons c cs ih => rw [List.foldl_cons, ih _ (fun x hx => h x (List.mem_cons_of_mem _ hx)), memRead_memWrite, if_neg (Ne.symm (h c List.mem_cons_self))]

theorem memRead_store (cs : List (Nat × Byte)) (m : List Host.Cell) (a : Nat) (b : Byte) (hu : ∀ c ∈ cs, c.1 = a → c.2 = b) (he : ∃ c ∈ cs, c.1 = a) :
    memRead (storeCells m cs) a = b := by
  induction cs generalizing m with
  | nil => obtain ⟨_, h, _⟩ := he; cases h
  | cons c cs ih =>
    have hs : storeCells m (c :: cs) = storeCells (memWrite m c.1 c.2) cs := rfl
    rw [hs]
    by_cases h : ∃ x ∈ cs, x.1 = a
    · exact ih _ (fun x hx => hu x (List.mem_cons_of_mem _ hx)) h
    · rw [memRead_store_none _ _ _ (fun x hx e => h ⟨x, hx, e⟩), memRead_memWrite]
      obtain ⟨x, hx, e⟩ := he
      rcases List.mem_cons.1 hx with rfl | hx
      · rw [if_pos e.symm]; exact hu x List.mem_cons_self e
      · exact absurd ⟨x, hx, e⟩ h

theorem barCells_mem (off : Nat) (v : Bytes) (c : Nat × Byte) : c ∈ barCells off v ↔ (∃ i, i < v.length ∧ c = (off + i, v.getD i 0)) ∧
    (inRequestArea c.1 = true ∨ (inMsixTable c.1 = true ∧ (v.length = 4 ∨ v.length = 8) ∧ off % v.length = 0)) := by
  simp only [barCells, List.mem_filter, List.mem_map, List.mem_range, Bool.or_eq_true, Bool.and_eq_true, decide_eq_true_eq]
  constructor
  · rintro ⟨⟨i, h, rfl⟩, g⟩; exact ⟨⟨i, h, rfl⟩, g⟩
  · rintro ⟨⟨i, h, rfl⟩, g⟩; exact ⟨⟨i, h, rfl⟩, g⟩

theorem wf_store (cs : List (Nat × Byte)) (m : List Host.Cell) (h : Memory.wf m = true) : Memory.wf (storeCells m cs) = true := by
  unfold storeCells; induction cs generalizing m with
  | nil => exact h
  | cons c cs ih => exact ih _ (wf_write _ _ _ h)

/-! ### Families -/

/-- An Iawatal command whose request may begin, and whose own checks pass, takes its effect. -/
theorem gives_admin {c : Instr} {s : State} {op : Nat} {src : Source} {chk : Blk → Request → Nat × Nat} {f : Blk → Request → Blk} {r : Request} {b : Blk}
    (h : exec c s = lift (adminRun op src chk f) s) (m : MayBegin op src r s.toBlk) (hc : (chk s.toBlk r).1 = 0) (hb : f (hubBegin s.toBlk src r) r = b) :
    Gives c s b := by
  obtain ⟨h1, h2, h3, h4, h5⟩ := m
  refine gives_of h ?_
  simp only [adminRun, h1]
  rw [if_neg h2, if_neg (by rw [h3, h4]; simp), if_neg (by rw [h5]; simp), if_neg (by rw [hc]; simp)]
  exact hb

theorem checks_none {l : List (Bool × Nat × Nat)} (h : ∀ x ∈ l, x.1 = false) : (checks l).1 = 0 := by
  have : l.find? (·.1) = none := by
    rw [List.find?_eq_none]; intro x hx; rw [h x hx]; simp
  simp [checks, this]

theorem startJob_of_room {s : Blk} {src : Source} {r : Request} {k : JobKind} {f : Blk → Nat → Blk} (h : jobsRunning s < 16) :
    startJob s src r k f = f (jobStarted s src r k) (s.hub.jobSeq + 1) := by
  exact if_neg (Nat.not_le.2 h)

theorem withRest_eq {f : Blk → Blk} {s x : Blk} (h : f s = x) : withRest f s = if endsRest s x then restExit x else x := by simp only [withRest, h]

theorem wakeTandem_up {s : Blk} {l : Link} {h : FlitHeader} {p : Bytes} (hp : (linkOf s l).phase ≠ .down) : wakeTandem l h p s = s := by
  simp [wakeTandem, hp]

theorem onFlit_eq {s s1 : Blk} {l : Link} {h : FlitHeader} {p : Bytes} {ft lc : Nat} {f : Blk → FlitView → Blk} (h1 : flitIn s l h p = (true, s1))
    (h2 : (flitView h).ftype = ft) (h3 : ft ≠ 5 ∨ bitsOf (flitView h).body.toNat 56 8 = lc) : onFlit l h p ft lc f s = f s1 (flitView h) := by
  simp only [onFlit, h1]; exact if_pos ⟨trivial, h2, h3⟩

theorem takeOpen_some {s : Blk} {ty : Nat} {g : Blk → RxFrame → Blk} {f : RxFrame} (hd : s.dev = .run) (ho : s.xpt.opens.find? (fun f => f.hdr.type = ty) = some f) :
    takeOpen ty g s = g { s with xpt := { s.xpt with opens := s.xpt.opens.erase f } } f := by
  simp only [takeOpen, hd, ho]; simp

theorem startedCmd_of {s : Blk} {slot op : Nat} {c : Cmd} (h1 : cmdOf s slot = some c) (h2 : c.phase = .started) (h3 : c.opcode = op) :
    startedCmd s slot op = some c := by simp [startedCmd, h1, Option.filter, h2, h3]

theorem pfcOf_sendNow (s : Blk) (f : TxFrame) (j : Nat) : pfcOf (sendNow s f) j = pfcOf s j := by
  simp only [sendNow]; split <;> simp [pfcOf, emit, addRim, countRim, countSent, portUngate, startClock]

theorem pfcOf_foldl_sendNow (l : List TxFrame) (s : Blk) (j : Nat) : pfcOf (l.foldl sendNow s) j = pfcOf s j := by
  induction l generalizing s with
  | nil => rfl
  | cons x xs ih => simp [ih, pfcOf_sendNow]

theorem pfcOf_release (s : Blk) (i j : Nat) : pfcOf (pfcRelease s i) j =
    if j = i then { pfcOf s i with held := false, quanta := 0, heldFrames := [] } else pfcOf s j := by
  simp only [pfcRelease, forEach, pfcOf_foldl_sendNow]
  split
  · subst_vars; exact pfcOf_setPfc_self ..
  · exact pfcOf_setPfc_ne _ _ _ _ ‹_›

theorem sendLine_pwr (s : Blk) (l : Link) (h : FlitHeader) (p : Bytes) : (sendLine s l h p).pwr = s.pwr := by
  simp only [sendLine]; split <;> simp [emit]

theorem trainLink_pwr (s : Blk) (l : Link) (a : Nat) : (trainLink s l a).pwr = (startClock s (linkDom l)).pwr := by
  cases l <;> simp [trainLink, sendIdent, drawBytes, sendLink, sendLine_pwr]

end Sys2Proof.Machine
end

