-- ==== Sys2Proof/Tests/Slice0.lean ====
section
/-! SUPPORT. The model's own tests: the check on commands refuses what is ill formed, known answers of the numeric rules, and one
state for every hypothesis of the statements. Expected results come from the manual or are worked by hand. -/

namespace Sys2Proof.Tests

open Sys2Proof Sys2Proof.Machine

/-- The block after reset. -/
def r0 : Blk := State.reset.toBlk

/-! ### Rim -/

/-- Class 7 of sub-MAC 0 of port 15, whose pause state is `x`, with the rim links up. -/
def pfcBlk (x : PfcRun) : Blk := setPfc { r0 with rim := { r0.rim with up := true } } (clsIx 15 0 7) x

theorem wit_PauseOfOneClassOfOneSubMac :
    let run := pfcBlk { pausing := true, held := true, quanta := 1, heldFrames := [{}] }
    let storm := pfcBlk { storm := true }
    let q : List (BitVec 16) := [0, 0, 0, 0, 0, 0, 0, 0xFFFF]
    (subUp run 15 0 = true ∧ (0x80#8).getLsbD 7 = true ∧ (pfcOf run (clsIx 15 0 7)).storm = false ∧ (q.getD 7 0).toNat ≠ 0 ∧
      (([] : List (BitVec 16)).getD 7 0).toNat = 0 ∧ (0x7F#8).getLsbD 7 = false) ∧
    ((pfcOf run (clsIx 15 0 7)).pausing = true ∧ (pfcOf run (clsIx 15 0 7)).held = true) ∧
    (subUp storm 15 0 = true ∧ (pfcOf storm (clsIx 15 0 7)).storm = true ∧ (pfcOf storm (clsIx 15 0 7)).pausing = false ∧
      (pfcOf storm (clsIx 15 0 7)).held = false) ∧
    subUp r0 15 0 = false ∧ (∀ c : Fin 8, (List.replicate 8 (1#16)).getD c.val 0 ≠ 0) := by decide +kernel

/-- XON of that class is 96 KiB: 98,304 bytes are not above it, and one byte more is. -/
theorem wit_Pause_above :
    let i := clsIx 15 0 7
    let at_ := fun (n : Nat) => let b := pfcBlk { pausing := true, occ := n }
            { b with rim := { b.rim with pfcCfg := [(i, { enabled := true, xon := 96 })] } }
    (∀ n ∈ [98304, 98305], (pfcOf (at_ n) i).pausing = true ∧ subUp (at_ n) 15 0 = true) ∧
    ¬ (pfcCfgOf (at_ 98304) i).xon * 1024 < (pfcOf (at_ 98304) i).occ ∧ (pfcCfgOf (at_ 98305) i).xon * 1024 < (pfcOf (at_ 98305) i).occ := by
  decide +kernel

/-- A frame to the factory address of sub-MAC 0 of port 15 with a good frame check sequence. -/
def frameOf (etype : Nat) (l3 : Bytes) : Bytes :=
  let b := (cfgOf r0 120).mac ++ [2#8, 0, 0, 0, 0, 1#8] ++ beBytes 2 etype ++ l3 ++ zeros (46 - l3.length)
  b ++ leBytes 4 (crc32Fcs b).toNat

/-- A UDP datagram without a checksum to 10.0.0.1, 48 bytes in a frame of 64 with the check sequence. The IPv4 header words are 4500,
0030, 0000, 0000, 4011, 0A00, 0002, 0A00 and 0001, which add up to 9944; the complement is 66BB. -/
def udpTo1 : Bytes :=
  beBytes 4 0x45000030 ++ beBytes 4 0x00000000 ++ beBytes 4 0x401166BB ++ [10#8, 0, 0, 2#8] ++ [10#8, 0, 0, 1#8] ++
    beBytes 2 46220 ++ beBytes 2 46220 ++ beBytes 2 28 ++ beBytes 2 0 ++ zeros 20

/-- The rim up, with 10.0.0.1 as the address of sub-MAC 0 of port 15. -/
def rimBlk : Blk := { r0 with rim := { r0.rim with
  up := true, cfg := [(120, { cfgOf r0 120 with ipv4 := [10#8, 0, 0, 1#8] })] } }

def verdictIs (v : RxVerdict) (n : Nat) : Bool :=
  match v with
  | .drop c => c == n
  | .slow => n == 100
  | .ckt _ _ => n == 101
  | .pfc _ => n == 102

/-- A PFC frame: to the MAC control address, EtherType 0x8808, opcode 0x0101, class 0 for one quantum. -/
def pfcFrame : Bytes :=
  let b := [1#8, 0x80#8, 0xC2#8, 0, 0, 1#8] ++ [2#8, 0, 0, 0, 0, 1#8] ++ beBytes 2 0x8808 ++ beBytes 2 0x0101 ++ beBytes 2 1 ++ beBytes 2 1 ++ zeros 40
  b ++ leBytes 4 (crc32Fcs b).toNat

theorem wit_ReceivedFrameGoesWhereTheRulesSend :
    let arp := frameOf 0x0806 []
    let ckt := frameOf 0x0800 udpTo1
    let full := setPfc rimBlk (clsIx 15 0 0) { occ := 2097152 }
    let busy := { rimBlk with rim := { rimBlk.rim with slowq := List.replicate 1024 (0, []) } }
    (parseEth arp).fcsGood = true ∧ (parseEth arp).len = 64 ∧ (parseEth (arp.take 62 ++ [1#8])).fcsGood = false ∧
    (parseEth (List.replicate 4 0 ++ leBytes 4 (crc32Fcs (List.replicate 4 0)).toNat)).fcsGood = true ∧
    subUp r0 15 0 = false ∧ subUp rimBlk 15 0 = true ∧
    verdictIs (judgeFrame rimBlk 15 0 arp true) 1 = true ∧
    verdictIs (judgeFrame rimBlk 15 0 pfcFrame false) 102 = true ∧
    verdictIs (judgeFrame rimBlk 15 0 arp false) 100 = true ∧ bufferFull rimBlk 15 (clsIx 15 0 0) 64 = false ∧
    bufferFull full 15 (clsIx 15 0 0) 64 = true ∧ rimBlk.rim.slowq.length < 1024 ∧ ¬ busy.rim.slowq.length < 1024 ∧
    verdictIs (judgeFrame rimBlk 15 0 ckt false) 101 = true := by decide +kernel

/-- Cause 4 begins one byte above MTU + 18. -/
theorem wit_Received_oversize :
    let b := zeros 15
    let f := b ++ leBytes 4 (crc32Fcs b).toNat
    let small := { r0 with rim := { r0.rim with cfg := [(0, { cfgOf r0 0 with mtu := 46 })] } }
    let g := (zeros 61) ++ leBytes 4 (crc32Fcs (zeros 61)).toNat
    (parseEth f).fcsGood = true ∧ (parseEth f).len < 64 ∧ (parseEth g).fcsGood = true ∧
    (cfgOf small 0).mtu + (if (parseEth g).tagged then 22 else 18) < (parseEth g).len := by decide +kernel

/-! ### Transport -/

/-- A CKT frame of that type on session 5 as the rim hands it on. -/
def rx (type : Nat) (payload : Bytes := []) : RxFrame := { hdr := { type := type, session := 5, seq := 100 }, payload := payload }

/-- A block whose session 5 is `ss`. -/
def sessBlk (ss : Session) : Blk := setSess r0 5 ss

theorem wit_AcksNaksAndHalfOpenExpiry :
    let b := { sessBlk { retained := [{ seq := 1 }] } with xpt := { (sessBlk { retained := [{ seq := 1 }] }).xpt with
      ctl := [rx 0x7, rx 0x8 (zeros 8)], half := [(5, {})] } }
    b.xpt.ctl.find? (fun f => f.hdr.session = 5 ∧ f.hdr.type = 0x7) = some (rx 0x7) ∧
    b.xpt.ctl.find? (fun f => f.hdr.session = 5 ∧ f.hdr.type = 0x8) = some (rx 0x8 (zeros 8)) ∧
    (sessOf b 5).map (·.afterReset) = some false ∧ b.xpt.half.has 5 = true ∧ r0.xpt.half.has 5 = false ∧ r0.xpt.ctl = [] := by decide +kernel

/-- Session 5 with the frame of that type next in order, and with tag 31 in that state. -/
def ordered (type : Nat) (payload : Bytes) (x : TagCtx) : Blk :=
  sessBlk { rxNext := 100, edge := 356, store := [rx type payload], tags := [(31, x)] }

theorem wit_AbortByTagState : ∀ st ∈ [TagState.idle, .queued, .active, .committing, .completing],
    let r := takeSeq (ordered 0x9 [31#8, 0, 0, 0] { st := st }) 5 0x9
    r.isSome = true ∧ (r.bind fun p => (sessOf p.2 5).map fun ss => (tagOf ss ((p.1.payload.getD 0 0).toNat % 32)).st) = some st ∧
    takeSeq r0 5 0x9 = none := by
  decide +kernel

theorem wit_ResetAndCloseOfASession :
    (takeSeq (ordered 0xA [] {}) 5 0xA).isSome = true ∧ ((takeSeq (ordered 0xA [] {}) 5 0xA).bind fun p => sessOf p.2 5).isSome = true ∧
    (takeSeq (ordered 0xB [] {}) 5 0xB).isSome = true ∧
    takeSeq r0 5 0xA = none ∧ takeSeq r0 5 0xB = none ∧ sessOf r0 5 = none ∧
    writesRun { closing := true } = false ∧ ({ closing := true } : Session).respq = [] ∧ (∀ t ∈ ({ closing := true } : Session).tags.vals, t.due = false) ∧
    ({ closing := true, respq := [{}] } : Session).respq ≠ [] ∧
    writesRun { closing := true, tags := [(31, { st := .committing, opcode := 0x03 })] } = true := by decide +kernel

theorem wit_ResponseFrameLeavesInOrder :
    let f : RespFrame := { opcode := 0x01, payload := zeros 16 }
    let ss : Session := { respq := [f], peerCredit := 1, txNext := 7, peerAck := 7 }
    let b := sessBlk ss
    let shut := { b with safe := { b.safe with gate := true } }
    sessOf b 5 = some ss ∧ f.final = false ∧ maySend b ss 16 = true ∧ gatePasses b f = true ∧
    maySend b { ss with peerCredit := 0 } 16 = false ∧ gatePasses shut f = false ∧ sessOf r0 5 = none ∧ ({} : Session).respq = [] ∧
    ({ f with final := true } : RespFrame).notice = false ∧
    (sessOf (raiseSeqTop (modSess (sendResponse b 5 ss ss.txNext f) 5 fun x => { x with respq := [], txNext := ss.txNext + 1 }) 5) 5).isSome = true := by
  decide +kernel

/-- A datagram of one CKT frame, held by port 0. -/
def dgram (h : CktHdr) (payload : Bytes) : RxDgram := { size := 64, payload := buildCkt h payload }

/-- A port that holds a datagram, session 5 being `ss`. -/
def ingressBlk (ss : Session) (d : RxDgram) : Blk := { sessBlk ss with rim := { r0.rim with up := true, ingress := [d] } }

theorem wit_DatagramIsJudgedInOrder :
    let ss : Session := { edge := 256 }
    let data : CktHdr := { type := 0x6, session := 5 }
    let sealed : Session := { ss with sealed := true }
    let open_ := buildCkt { type := 0x1 } (zeros 24)
    let none_ := fun (h : CktHdr) => formOfFrame (buildCkt h [1#8]) = none
    (ingressBlk ss (dgram data [1#8])).rim.ingress.find? (fun d => d.eg.port = 0) = some (dgram data [1#8]) ∧
    formOfFrame [] = some 1 ∧ formOfFrame open_ = none ∧ (parseCkt open_).type = 0x1 ∧
    (none_ data ∧ none_ { data with session := 6 } ∧ none_ { data with sealed := true }) ∧
    (sessOf (sessBlk ss) 5 = some ss ∧ sessOf (sessBlk ss) 6 = none ∧ ss.ring = none) ∧
    sessionCause ss { data with cookie := 1 } = some 7 ∧ sessionCause ss { data with sealed := true } = some 8 ∧
    sessionCause ss { data with seq := 0xFFFFFFFF } = some 9 ∧ sessionCause ss { data with seq := 256 } = some 10 ∧
    sessionCause ss data = none ∧ clearPayload ss data [1#8] = some [1#8] ∧
    sessionCause sealed { data with sealed := true } = none ∧ clearPayload sealed { data with sealed := true } [1#8] = none ∧
    r0.rim.ingress = [] ∧ wireOwned sealed 5 = false ∧ wireOwned { sealed with keyOwner := 5 } 5 = true ∧ wireOwned ss 5 = true ∧
    sessionCause { sealed with keyOwner := 5 } { data with sealed := true } = none ∧
    clearPayload { sealed with keyOwner := 5 } { data with sealed := true } [1#8] = none ∧
    (dgram data [1#8]).ecn ≠ 3 ∧ { dgram data [1#8] with ecn := 3 }.ecn = 3 ∧ data.cookie = ss.cookie := by
  decide +kernel

theorem wit_OpeningASession :
    let req := rx 0x1 (zeros 24)
    let prf := rx 0x3 (zeros 32)
    let b := { r0 with dev := .run, xpt := { r0.xpt with opens := [req, prf] }, tenants := [(0, {})] }
    let again := { b with xpt := { b.xpt with half := [(5, { clientNonce := zeros 16 })] } }
    b.dev = .run ∧ b.xpt.opens.find? (fun f => f.hdr.type = 0x1) = some req ∧ b.xpt.opens.find? (fun f => f.hdr.type = 0x3) = some prf ∧
    earlierChal b req = none ∧ (earlierChal again req).isSome = true ∧ (makeRoom (trimHalf b)).isSome = true ∧
    ((makeRoom (trimHalf b)).bind takeNumber).isSome = true ∧
    (again.xpt.half.get? 5).isSome = true ∧ (again.tenants.get? 0).map (·.disabled) = some false ∧ b.xpt.half.get? 5 = none ∧
    { b with dev := .activating }.dev = .activating ∧ openCause .kickstand ≠ 0 ∧ openCause .run = 0 ∧
    (makeRoom { b with xpt := { b.xpt with fresh := 2097152 } }).isSome = true ∧
    (takeNumber { b with xpt := { b.xpt with fresh := 2097152 } }).isNone = true ∧
    ({} : HalfOpen).options.testBit 1 = false ∧ (again.tenants.get? 1).isNone = true ∧ sessOf b 5 = none ∧
    sameSource ({} : Session).openEg prf.eg = true ∧ ({ proof := zeros 32 } : Session).proof = slice prf.payload 0 32 := by decide +kernel

/-- The proof of a half-open entry, worked with the empty key of a tenant without a key page, and one bit away from it. -/
theorem wit_OpeningASession_proof :
    let p := hmac256 [] (proofBytes "CKT-C" 5 {})
    accessKey r0 0 = [] ∧ p = slice p 0 32 ∧ p ≠ slice ((p.headD 0 ^^^ 1#8) :: p.tail) 0 32 ∧
    ({ options := 2 } : HalfOpen).options.testBit 1 = true ∧ ({} : HalfOpen).options.testBit 1 = false := by decide +kernel

/-- A device in RUN with `n` sessions of rings. -/
def ringsBlk (n : Nat) : Blk := { r0 with dev := .run, xpt := { r0.xpt with sessions := List.replicate n (5, { ring := some 0 }) } }

theorem ringsBlk_inUse (n : Nat) : inUse (ringsBlk n) = n := by
  have h1 : ownRange (ringsBlk n) = (0, 2097152) := rfl
  have h2 : (ringsBlk n).xpt.half.keys = [] := rfl
  have h3 : (ringsBlk n).xpt.sessions.keys = List.replicate n 5 := by simp [ringsBlk, Tbl.keys]
  simp [inUse, h1, h2, h3]

/-- With 2,097,152 sessions of rings and none idle there is no room, even by eviction. -/
theorem wit_OpeningASession_full :
    makeRoom (trimHalf (ringsBlk 2097152)) = none := by
  have h3 : ∀ n, evictVictim (ringsBlk n) = none := by
    intro n
    have h1 : ownRange (ringsBlk n) = (0, 2097152) := rfl
    have : ((ringsBlk n).xpt.sessions.filter fun p => decide (0 ≤ p.1 ∧ p.1 < 0 + 2097152 ∧ evictable (ringsBlk n) p.2 = true)) = [] := by
      rw [List.filter_eq_nil_iff]
      intro p hp
      rw [(List.mem_replicate.1 hp).2]
      simp [evictable]
    simp only [evictVictim, h1, this]; rfl
  have h4 : ∀ n, trimHalf (ringsBlk n) = ringsBlk n := fun _ => rfl
  rw [h4]; unfold makeRoom; rw [ringsBlk_inUse, h3]
  exact if_neg (Nat.lt_irrefl _)

theorem wit_DataFrameByTagState :
    ∀ x ∈ [({ refusing := true } : TagCtx), {}, { st := .queued, gotFinal := true }, { st := .completing },
           { st := .active, opcode := 0x02 }, { st := .queued, opcode := 0x00 }],
    let b := sessBlk { rxNext := 100, edge := 356, store := [rx 0x6 [1#8]], tags := [(0, x)] }
    (takeSeq b 5 0x6).isSome = true ∧
    ((takeSeq b 5 0x6).bind fun p => (sessOf p.2 5).map fun ss => (ss.closing, tagOf ss p.1.hdr.tag)) = some (false, x) ∧
    takeSeq r0 5 0x6 = none ∧ ({ closing := true } : Session).closing = true := by
  decide +kernel

/-- A command of that opcode in slot 9, of tag 31 of session 5, over namespace 1. -/
def cmdBlk (op : Nat) (ph : Phase) (b : Blk := r0) : Blk :=
  { b with
    dev := .run
    nss := [(1, {})]
    xpt := { b.xpt with sessions := [(5, { tags := [(31, { st := .queued, gotFinal := true, order := 7 })] })] }
    cmd := { b.cmd with slots := [(9, { session := 5, tag := 31, opcode := op, head := { ns := 1 }, order := 7, phase := ph })] } }

theorem wit_DispatchStartsOrHolds :
    let b := cmdBlk 0x01 .queued
    let adm := cmdBlk 0x80 .queued
    (cmdOf b 9).isSome = true ∧ ((sessOf b 5).map fun ss => (ss.owesReset, (tagOf ss 31).gotFinal)) = some (false, true) ∧
    ((sessOf b 5).map fun ss => orderHolds ss (tagOf ss 31)) = some false ∧
    ((cmdOf b 9).map (brakeHolds b)) = some false ∧ ((cmdOf b 9).map (splitHolds b)) = some false ∧
    ((cmdOf b 9).map fun c => (dispatchCause b c).1) = some 0 ∧
    ((cmdOf b 9).map fun c => (dispatchCause { b with nss := [] } c).1) = some 0x0301 ∧
    { b with dev := .activating }.dev = .activating ∧ isAdminOp 0x80 = true ∧ isAdminOp 0x01 = false ∧ (cmdOf adm 9).isSome = true := by
  decide +kernel

theorem wit_KeyValueCommandsBegin : ∀ op ∈ [0x01, 0x02, 0x03, 0x04, 0x05],
    let b := cmdBlk op .started
    (cmdOf b 9).map (fun c => (c.phase, c.opcode)) = some (.started, op) ∧ cmdOf r0 9 = none ∧
    ((sessOf b 5).map fun ss => ss.tags.vals.any fun t => notDone t && decide (t.order < 7)) = some false ∧
    ((sessOf b 5).map fun ss => ss.tags.vals.any fun t => notDone t && decide (t.order < 8)) = some true := by decide +kernel


/-! ### Uploads and writes -/

/-- A started command of that opcode beside upload 3 of its tenant, namespace and key. -/
def upBlk (op : Nat) (h : Head) (u : Upload) : Blk :=
  let b := cmdBlk op .started
  { b with cmd := { b.cmd with
    uploads := [(3, u)], slots := [(9, { session := 5, tag := 31, opcode := op, head := h, phase := .started })] } }

theorem wit_UploadsBeginCommitAbandonExpire :
    let h : Head := { ns := 1, uploadId := 3, valueLen := 4096 }
    let full : Upload := { ns := 1, total := 4096, parts := [{ grains := 1, bytes := 4096 }] }
    let b := upBlk 0x12 h full
    let c : Cmd := { session := 5, tag := 31, opcode := 0x12, head := h, phase := .started }
    cmdOf b 9 = some c ∧ c.ring = none ∧ b.cmd.uploads.length < 65536 ∧
    (b.cmd.uploads.vals.filter fun u => u.tenant = c.tenant).length < 1024 ∧
    1024 ≤ ((List.replicate 1024 full).filter fun u => u.tenant = 0).length ∧
    uploadOf b c = some full ∧ full.tenant = c.tenant ∧ full.ns = 1 ∧ full.key = c.key ∧ commitCause b c = 0 ∧
    commitCause (upBlk 0x12 h { full with parts := [] }) c ≠ 0 ∧ uploadOf b { c with head := { h with uploadId := 4 } } = none ∧
    (cmdOf (upBlk 0x10 h full) 9).map (·.opcode) = some 0x10 ∧ (cmdOf (upBlk 0x13 h full) 9).map (·.opcode) = some 0x13 ∧
    b.cmd.uploads.get? 3 = some full ∧ r0.cmd.uploads.get? 3 = none ∧
    lgaRoom b (grainsOf 4096) = true ∧ lgaRoom b (grainsOf (2 ^ 60)) = false ∧
    (∀ g < grainsOf full.total, ∃ p ∈ full.parts, p.grain ≤ g ∧ g < p.grain + p.grains) := by decide +kernel

/-- A part of 4,096 bytes ends a value of 8,192 at grain 1; from grain 2 it is beyond the value. -/
theorem wit_PartOfAnUploadIsStored :
    let h : Head := { ns := 1, uploadId := 3, valueLen := 4096, partGrain := 1 }
    let u : Upload := { ns := 1, total := 8192 }
    let b := upBlk 0x11 h u
    let c : Cmd := { session := 5, tag := 31, opcode := 0x11, head := h, phase := .started }
    cmdOf b 9 = some c ∧ uploadOf b c = some u ∧ nsOf b 1 = some {} ∧
    4096 * h.partGrain + h.valueLen ≤ u.total ∧ u.total < 4096 * 2 + h.valueLen ∧ h.valueLen % 4096 = 0 ∧
    (4095 % 4096 ≠ 0 ∧ 4096 * 1 + 4095 ≠ u.total) ∧ ({} : Namespace).byteQuota = 0 ∧
    4095 + uploadBytes u < 0 + uploadBytes { u with parts := addPart u.parts { grain := 1, grains := 1, bytes := 4096 } } ∧
    uploadOf b { c with head := { h with uploadId := 4 } } = none ∧
    ([{ grain := 0, grains := 1 }] : List Part).Pairwise (fun a b => a.grain + a.grains ≤ b.grain ∨ b.grain + b.grains ≤ a.grain) ∧
    addPart [{ grain := 0, grains := 1 }] { grain := 1, grains := 1 } = [{ grain := 0, grains := 1 }, { grain := 1, grains := 1 }] := by
  decide +kernel

/-- Every bank out of service: no entry is free. -/
def noEntry (b : Blk) : Blk := { b with idx := { b.idx with banks := (List.range 8).map fun i => (i, { out := true }) } }

/-- Version and slot that a lookup found; none while a key record is still to be read. -/
def foundOf (r : Blk × Except BSlot Found) : Option (Nat × Option (Nat × Nat)) :=
  match r.2 with
  | .ok f => some (f.version, f.place)
  | .error _ => none

/-- The home bucket of the key holds it in slot 0 with version 7; its key record cannot be read, or is still away. -/
def heldBlk (hin : Tbl (Option Bytes)) : Blk :=
  let b := cmdBlk 0x03 .reserving
  let d := digestOf b 1 []
  { b with
    cmd := { b.cmd with slots := [(9, { session := 5, tag := 31, opcode := 0x03, head := { ns := 1 }, order := 7, phase := .reserving, headIn := hin })] }
    idx := { b.idx with dir := [(homeOf d, { cached := true, fp := [(0, fingerprint d)], slots := [(0, { ns := 1, digest := d, version := 7 })] })] } }

theorem wit_WriteReservationDecides :
    let h : Head := { ns := 1, cond := 1, expect := 7 }
    let c : Cmd := { session := 5, tag := 31, opcode := 0x03, head := { ns := 1 }, order := 7, phase := .reserving }
    let ch : Cmd := { c with headIn := [(0, none)] }
    let b := cmdBlk 0x03 .reserving
    let d := digestOf b 1 []
    let held := heldBlk [(0, none)]
    let full := { b with idx := { b.idx with dir := (List.range 4).map fun j =>
      ((homeOf d + j) % 2 ^ 30, { cached := true, fp := (List.range 40).map fun i => (i, fingerprint d ^^^ 1) }) } }
    let away := { b with idx := { b.idx with dir := [(homeOf d, { pageLoc := 64, fp := [(0, fingerprint d)] })] } }
    condHolds h 7 = true ∧ condHolds h 6 = false ∧ condHolds { h with cond := 2 } 0 = true ∧ condHolds { h with cond := 3 } 0 = false ∧
    cmdOf b 9 = some c ∧ cmdOf held 9 = some ch ∧ nsOf b 1 = some {} ∧ heldEntry (noEntry b) c = none ∧
    (noEntry b).idx.waiters.contains 9 = false ∧ { b.idx with waiters := [9] }.waiters.contains 9 = true ∧
    heldEntry { b with idx := { b.idx with waiters := [9] } } c = none ∧ heldEntry b c = some 0 ∧ pagesAway b d = [] ∧
    pagesAway held d = [] ∧ pagesAway away d ≠ [] ∧
    foundOf (currentOf b c true) = some (0, none) ∧ foundOf (currentOf held ch true) = some (7, some (homeOf d, 0)) ∧
    foundOf (currentOf (heldBlk []) c true) = none ∧ readingHead b 9 {} = false ∧
    quotaCause b {} c {} = 0 ∧ quotaCause b { keyQuota := 1, keys := 1 } c {} ≠ 0 ∧
    freeSlotNear b (homeOf d) = some (homeOf d, 0) ∧ freeSlotNear full (homeOf d) = none ∧
    foundOf (currentOf full c true) = some (0, none) ∧
    (dirOf b (homeOf d)).pending < 4095 ∧ b.idx.next < 0xFFFFFF := by decide +kernel

/-! ### The in-flight table and the index -/

/-- A GET of the empty key of namespace 1 in that phase, entry 8191 (the last of bank 0) holding a write of the same key. -/
def hitBlk (ph : Phase) (e : CamEntry) (x : Stage) : Blk :=
  let b := cmdBlk 0x01 ph
  { b with idx := { b.idx with
    cam := [(8191, e)], stages := [(2, x)], shadowq := [9]
    dir := [(homeOf (digestOf b 1 []), { pending := 1, cached := true })] } }

/-- The word of that key. -/
def keyWord : BitVec 160 := camWord (digestOf (cmdBlk 0x01 .queued) 1 []) 1 0

def goodEntry : CamEntry := { word := keyWord, copy := keyWord, shadow := keyWord, rank := 5, stage := 2 }

theorem wit_InflightLookupsFindTheNewestWrite :
    let b := hitBlk (.searching [] false) goodEntry { ns := 1 }
    let wide := { b with idx := { b.idx with banks := [(0, { wide := true })], cam := [(8191, { goodEntry with copy := 0 })] } }
    let c : Cmd := { session := 5, tag := 31, opcode := 0x01, head := { ns := 1 }, order := 7, phase := .searching [] false }
    cmdOf b 9 = some c ∧ digestOf b 1 [] = digestOf (cmdBlk 0x01 .queued) 1 [] ∧
    bestOf (camMatches b 0 keyWord []) = some (8191, goodEntry) ∧ verifyEntry b 8191 goodEntry keyWord c = true ∧
    entryBad b 8191 goodEntry = false ∧
    (bestOf (camMatches wide 0 keyWord [])).isSome = true ∧ verifyEntry wide 8191 { goodEntry with copy := 0 } keyWord c = true ∧
    entryBad wide 8191 { goodEntry with copy := 0 } = true ∧
    verifyEntry (hitBlk (.searching [] false) goodEntry { ns := 1, key := [1#8] }) 8191 goodEntry keyWord c = false ∧
    bestOf (camMatches b 0 keyWord [8191]) = none ∧ (dirOf b (homeOf (digestOf b 1 []))).pending ≠ 0 ∧
    ([] : List Nat).length < 3 ∧
    (dirOf r0 (homeOf (digestOf b 1 []))).pending = 0 := by decide +kernel

theorem wit_Inflight_shadow :
    let b := hitBlk (.shadow [] 9) goodEntry { ns := 1 }
    let c : Cmd := { session := 5, tag := 31, opcode := 0x01, head := { ns := 1 }, order := 7, phase := .shadow [] 9 }
    let d := digestOf b 1 []
    let apart := hitBlk (.shadow [] 9) { goodEntry with word := 1, copy := 1, shadow := camWord d 2 0 } {}
    let mine := fun (b : Blk) => b.idx.cam.filter fun p => !([] : List Nat).contains p.1 && maskHit (maskOf b 0) keyWord p.2.shadow
    let bad := fun (b : Blk) => b.idx.cam.filter fun p => homeOf (wordDigest p.2.shadow) == homeOf (wordDigest keyWord) && entryBad b p.1 p.2
    cmdOf b 9 = some c ∧ b.idx.shadowq = [9] ∧ bad b = [] ∧ mine b = [(8191, goodEntry)] ∧ (bankOf b 0).out = false ∧
    bestOf (mine b) = some (8191, goodEntry) ∧ stageIs b goodEntry c = true ∧ (shadowScan b c [] 9 true).2 = some (8191, goodEntry) ∧
    (bad apart).map Prod.fst = [8191] ∧ mine apart = [] ∧
    (∀ p ∈ apart.idx.cam, entryHit apart p.1 p.2 (maskOf apart 0) keyWord = false) ∧
    bad { b with idx := { b.idx with cam := [] } } = [] ∧ mine { b with idx := { b.idx with cam := [] } } = [] := by decide +kernel

/-- The bucket of that key holds its slot 39, with that page state. -/
def pageBlk (ph : Phase) (cached : Bool) (hin : Tbl (Option Bytes)) : Blk :=
  let b := cmdBlk 0x01 ph
  let d := digestOf b 1 []
  { b with
    cmd := { b.cmd with slots := [(9, { session := 5, tag := 31, opcode := 0x01, head := { ns := 1 }, phase := ph, headIn := hin })] }
    idx := { b.idx with dir := [(homeOf d, { cached := cached, pageLoc := 64, fp := [(39, fingerprint d)], slots := [(39, { ns := 1, digest := d })] })] } }

theorem wit_IndexLookupOutcomes :
    let d := digestOf (cmdBlk 0x01 .queued) 1 []
    let b := pageBlk .lookup true []
    let off := pageBlk .lookup false []
    let v := pageBlk (.verifying [(homeOf d, 39)]) true [(0, some (zeros 64))]
    fpMatches (cmdBlk 0x01 .lookup) d = [] ∧ (cmdOf b 9).map (·.phase) = some .lookup ∧
    fpMatches b d = [(homeOf d, 39)] ∧ (dirOf b (homeOf d)).cached = true ∧ slotMatches b 1 d = [(homeOf d, 39)] ∧
    fpMatches off d ≠ [] ∧ (dirOf off (homeOf d)).cached = false ∧ (dirOf off (homeOf d)).pageLoc ≠ 0 ∧
    (cmdOf v 9).map (·.phase) = some (.verifying [(homeOf d, 39)]) ∧ ((dirOf v (homeOf d)).slots.get? 39).isSome = true ∧
    ((cmdOf v 9).bind fun c => c.headIn.get? 0) = some (some (zeros 64)) ∧
    ((pageBlk (.verifying [(homeOf d, 39)]) true []).cmd.slots.vals.map fun c => c.headIn.get? 0) = [none] ∧
    ownerOk r0 0 0 = false ∧ clearKeyRecord r0 0 {} (zeros 64) = none ∧ keyRecordOk { head := { ns := 1 } } {} (leBytes 2 1 ++ zeros 30) = true ∧ keyRecordOk { head := { ns := 1 } } {} (zeros 32) = false ∧
    Tbl.get? ([(0, none)] : Tbl (Option Bytes)) 0 = some none := by decide +kernel

/-- The key record that an all-zero head body deciphers to under the empty data key. -/
def recOf0 : Bytes := ctrXor [] (slice (zeros 4160) 0 12) 0 (slice (zeros 4160) 48 (keyRecLen 0))

/-- A block whose tenant 0 has that data key at hand. -/
def keyBlk : Blk := { r0 with cip := { r0.cip with pages := [(0, { state := 1, gens := [{ gen := 0, wrapped := List.replicate 8 0xA6#8 }] })] } }

/-- A command over the key of that record holds; one over another namespace does not. -/
theorem wit_IndexLookup_keyRecord :
    let sl : BSlot := { version := leAt recOf0 8 8 }
    let c : Cmd := { head := { ns := leAt recOf0 0 2 }, key := slice recOf0 32 (leAt recOf0 2 2) }
    ownerOk keyBlk 0 0 = true ∧ dataKey keyBlk 0 1 = none ∧ clearKeyRecord keyBlk 0 sl (zeros 4160) = some recOf0 ∧ keyRecordOk c sl recOf0 = true ∧
    keyRecordOk { c with head := { ns := leAt recOf0 0 2 + 1 } } sl recOf0 = false := by
  have hk : dataKey keyBlk 0 0 = some [] := by decide +kernel
  have hg : leAt (zeros 4160) 12 4 = 0 := by decide +kernel
  have hl : ∀ (b : Bytes) (o n : Nat), (slice b o n).length = n := by
    intro b o n
    simp only [slice, List.length_append, List.length_take, List.length_drop, List.length_replicate]
    omega
  refine ⟨by decide +kernel, by decide +kernel, ?_, ?_, ?_⟩
  · simp only [clearKeyRecord, hg, hk]
    rfl
  · simp [keyRecordOk, hl]
  · simp [keyRecordOk]


/-- Entry 8191 holds a complete write whose bucket slot is slot 39 of its home bucket, an older write of the same key in entry 0 or
not. -/
def retireBlk (older complete : Bool) : Blk :=
  let b := hitBlk .lookup goodEntry { ns := 1, complete := complete }
  if older then { b with idx := { b.idx with cam := [(0, { goodEntry with rank := 4, stage := 3 })] ++ b.idx.cam } } else b

theorem wit_RetirementAbsorbsTheOldestWrite :
    let b := retireBlk false true
    let same := fun (b : Blk) => b.idx.cam.filter fun p => p.1 ≠ 8191 ∧ wordDigest p.2.shadow = wordDigest goodEntry.shadow ∧
      wordNs p.2.shadow = wordNs goodEntry.shadow
    b.idx.cam.get? 8191 = some goodEntry ∧ (b.idx.stages.get? 2).map (·.complete) = some true ∧ same b = [] ∧
    ((b.idx.stages.get? 2).map fun x => pageReady b x.bslot.1) = some true ∧
    ((retireBlk false false).idx.stages.get? 2).map (·.complete) = some false ∧
    ((same (retireBlk true true)).map (·.2.rank)) = [4] ∧ r0.idx.cam.get? 8191 = none ∧
    (let away := { b with idx := { b.idx with dir := [(0, { pageLoc := 64 })] } }
     pageReady away 0 = false ∧ readingPage away 0 = false ∧
     readingPage { away with med := { away.med with reads := [(0, { why := .bucketPage 0 })] } } 0 = true) := by decide +kernel

theorem wit_FreeEntriesSweepsAndMoves :
    let b := cmdBlk 0x03 .reserving
    let held := { b with idx := { b.idx with waiters := [9] } }
    let full := { b with idx := { b.idx with full := true } }
    let bad := { b with idx := { b.idx with banks := [(7, { out := true })], cam := [(65535, { word := 1 })] } }
    (noEntry r0).idx.full = false ∧ writeEntry (noEntry r0) = none ∧ writeEntry held = some 0 ∧ r0.idx.waiters = [] ∧
    freeEntry (noEntry r0) = none ∧ freeEntry held = some 0 ∧ held.idx.waiters = [9] ∧ (cmdOf held 9).isSome = true ∧
    held.idx.full = false ∧ freeEntry full = some 0 ∧ full.idx.waiters = [] ∧ full.idx.full = true ∧
    (r0.idx.cam.filter fun p => p.1 / 8192 = 7 ∧ entryBad r0 p.1 p.2).map Prod.fst = [] ∧ (bankOf r0 7).out = false ∧
    (bad.idx.cam.filter fun p => p.1 / 8192 = 7 ∧ entryBad bad p.1 p.2).map Prod.fst = [65535] ∧ (bankOf bad 7).out = true ∧
    bad.idx.cam.find? (fun p => p.1 / 8192 = 7) = some (65535, { word := 1 }) ∧ freeEntry bad = some 0 := by decide +kernel

/-- Renormalisation begins at exactly 0xC00000. -/
theorem wit_BankModesAndRenormalisation :
    let b := { r0 with idx := { r0.idx with banks := [(7, { reconf := some true })] } }
    let one := { r0 with idx := { r0.idx with renorm := some 1, cam := [(3, { rank := 0 }), (5, { rank := 9 })] } }
    let two := { r0 with idx := { r0.idx with renorm := some 0, cam := [(3, { rank := 8 }), (5, { rank := 7 })] } }
    (bankOf b 7).reconf = some true ∧ (bankOf b 7).after = none ∧ b.hub.jobs = [] ∧ (bankOf r0 7).reconf = none ∧
    (bankOf { b with idx := { b.idx with banks := [(7, { reconf := some true, after := some false })] } } 7).after = some false ∧
    r0.idx.renorm = none ∧ r0.idx.next < 0xC00000 ∧ 0xC00000 ≤ { r0.idx with next := 0xC00000 }.next ∧
    (one.idx.cam.filter fun p => 1 ≤ p.2.rank) = [(5, { rank := 9 })] ∧
    (two.idx.cam.filter fun p => 0 ≤ p.2.rank) = [(3, { rank := 8 }), (5, { rank := 7 })] := by decide +kernel

theorem wit_BucketAndKeyPagesAreKept_pages :
    let b := { r0 with idx := { r0.idx with dir := [(2 ^ 30 - 1, { cached := true, dirty := true })] } }
    (dirOf b (2 ^ 30 - 1)).cached = true ∧ (dirOf b (2 ^ 30 - 1)).dirty = true ∧ pageBusy b (2 ^ 30 - 1) = false ∧
    (dirOf b 0).cached = false ∧
    ([(65535, 1, 8)] : List (Nat × Nat × Nat)).find? (fun e => e.1 = 65535 ∧ e.2.1 = 1) = some (65535, 1, 8) ∧ r0.cip.reserving = [] ∧
    (useCluster r0).cip.pages.get? 65535 = none := by
  decide +kernel

/-- Under a check that does not read the check value itself, some page is good and some page is not. -/
theorem good_and_bad_page (f : KeyPage → Bytes) (e : ∀ m, f { mac := m } = f {}) : ∃ p q : KeyPage, p.mac = f p ∧ q.mac ≠ f q := by
  refine ⟨{ mac := f {} }, { mac := 0#8 :: f {} }, (e _).symm, fun h => ?_⟩
  simpa using congrArg List.length (h.trans (e _))

/-- The bytes the PAGE_MAC covers do not hold it, so both kinds of page exist. -/
theorem wit_BucketAndKeyPagesAreKept_macs : ∃ p q : KeyPage, p.mac = pageMac r0 p ∧ q.mac ≠ pageMac r0 q :=
  good_and_bad_page (pageMac r0) fun m => by simp only [pageMac, keyPageBytes]

/-- Page 65535 in HBM and on flash: its PAGE_MAC decides whether it is sound. -/
theorem wit_BucketAndKeyPagesAreKept_sound : ∃ p q : KeyPage, ∀ x ∈ [p, q],
    let b := useCluster { r0 with cip := { r0.cip with pages := [(65535, x)], flashPages := [(65535, zeros 4096)] } }
    b.cip.pages.get? 65535 = some x ∧ b.cip.flashPages.get? 65535 = some (zeros 4096) ∧ (pageSound b x = true ↔ x = p) := by
  refine ⟨{ mac := pageMac r0 {} }, { mac := 0#8 :: pageMac r0 {} }, ?_⟩
  have e : ∀ x m, pageMac (useCluster { r0 with cip := { r0.cip with pages := [(65535, x)], flashPages := [(65535, zeros 4096)] } }) { mac := m } = pageMac r0 {} :=
    fun _ _ => rfl
  intro x hx
  simp only [List.mem_cons, List.not_mem_nil, or_false] at hx
  rcases hx with rfl | rfl
  · exact ⟨rfl, rfl, by simp [pageSound, e]⟩
  · exact ⟨rfl, rfl, by simp [pageSound, e]⟩

/-! ### Cells and re-reads -/

/-- A tag to that engine with a good RT_CRC. -/
def tagTo (next : Nat) : RouteTag := rtPack { rtOf 0 with next := next, slot := 524287 }

theorem wit_CellsReachTheEngineTheirTagNames : ∀ next ∈ [0x0, 0x1, 0x3, 0x4, 0x5, 0x6, 0x7, 0x8, 0x9, 0xA],
    let b := { r0 with cip := { r0.cip with fabric := [{ rt := tagTo next }], gated := [(83, { rt := tagTo next })] } }
    (takeCell b 0).map (fun p => p.1.rt) = some (tagTo next) ∧ rtGood (tagTo next) = true ∧ (rtOf (tagTo next)).next = next ∧
    (takeCell r0 0).isNone = true ∧ rtGood (tagTo next ^^^ 1) = false ∧ (∀ e ∈ r0.cip.gated, e.1 ≠ 83) ∧ (∃ e ∈ b.cip.gated, e.1 = 83) := by decide +kernel

/-- A finished command that owes its re-read of the extent `x` of a deleted value; tenant 0 has the empty data key. -/
def rereadBlk (x : Extent) : Blk × Cmd :=
  let c : Cmd := { phase := .done, tagFail := some 0, extents := [x] }
  ({ keyBlk with cmd := { r0.cmd with slots := [(9, c)] } }, c)

theorem wit_RereadRepairsOrMarksLost :
    let x : Extent := { failed := true, grains := 1 }
    let b := (rereadBlk x).1
    let c := (rereadBlk x).2
    cmdOf b 9 = some c ∧ c.phase = .done ∧ owesReread c = true ∧ owesReread {} = false ∧ failedExtent c = some (0, x) ∧ c.stage = none ∧
    ownerOk b 0 0 = true ∧ ownerOk r0 0 0 = false ∧ cmdOf r0 9 = none ∧ headCount b c x [zeros 4160] = 1 ∧
    rebuiltExtent b c x [zeros 4160] = x ∧ x.torn = false := by decide +kernel

/-- Of an extent without grains the seal alone decides: both outcomes occur. -/
theorem wit_Reread_seal :
    let b := (rereadBlk {}).1
    let aad := extentAad 0 0 1 0 0 []
    tagGood b {} { tagv := gcmTag [] [] aad [] } [] [] = true ∧ tagGood b {} { tagv := 0#8 :: gcmTag [] [] aad [] } [] [] = false := by
  intro b aad
  have hk : dataKey b 0 0 = some [] := by decide +kernel
  refine ⟨?_, ?_⟩
  · simp [tagGood, hk, aad]
  · simp only [tagGood, hk]
    refine beq_eq_false_iff_ne.2 fun h => ?_
    simpa [aad] using congrArg List.length h

/-! ### Links and bridges -/

/-- A block whose link of slot 15 is `k`. -/
def linkBlk (k : LinkSt) : Blk := setLink r0 (.spoke 15) k

/-- A flit with an empty payload and its FCRC. -/
def flitOf (ftype : Nat) (fseq : BitVec 8) (body : BitVec 64) : FlitHeader := flitHeader ftype fseq 0xFF 0 0 body (zeros 240)

set_option maxRecDepth 100000 in
/-- FSEQ 127 ahead of the one expected is asked for again; 128 is a violation. -/
theorem wit_FlitsAreTakenInOrder :
    let h := flitOf 3 5 0
    let up : LinkSt := { phase := .up, rxSeq := 5 }
    (linkOf r0 (.spoke 15)).phase = .down ∧ (linkOf (linkBlk up) (.spoke 15)).phase = .up ∧ flitCrc h (zeros 240) = (flitView h).fcrc ∧
    flitCrc (h ^^^ 1) (zeros 240) ≠ (flitView (h ^^^ 1)).fcrc ∧ (flitView h).ftype = 3 ∧ (flitView h).fseq = up.rxSeq ∧
    consumes (.spoke 15) 3 = true ∧ consumes (.spoke 15) 5 = false ∧ consumes .tandem 7 = true ∧
    (linkOf (linkBlk { up with phase := .training }) (.spoke 15)).phase ≠ .up ∧ up.awaiting = false ∧
    (5#8 - (5 - 127)).toNat < 128 ∧ 128 ≤ (5#8 - (5 - 128)).toNat := by decide +kernel

set_option maxRecDepth 100000 in
theorem wit_LinkRetryAndTraining :
    let up : LinkSt := { phase := .up, badRun := 6 }
    let h := flitOf 5 0 (linkBody 1 200)
    let r := flitIn (linkBlk up) (.spoke 15) h (zeros 240)
    (linkOf r0 (.spoke 15)).phase = .down ∧ (linkOf (linkBlk up) (.spoke 15)).phase = .up ∧ up.badRun + 1 < 8 ∧
    8 ≤ { up with badRun := 7 }.badRun + 1 ∧ up.awaiting = false ∧ { up with awaiting := true }.awaiting = true ∧
    (linkOf (linkBlk { phase := .training, attempt := 2 }) (.spoke 15)).attempt < 3 ∧
    3 ≤ (linkOf (linkBlk { phase := .training, attempt := 3 }) (.spoke 15)).attempt ∧ up.wasUp = false ∧
    r.1 = true ∧ (flitView h).ftype = 5 ∧ bitsOf (flitView h).body.toNat 56 8 = 1 ∧ (linkOf r.2 (.spoke 15)).phase = .up ∧
    bitsOf (flitView h).body.toNat 48 8 = 200 := by decide +kernel

set_option maxRecDepth 100000 in
theorem wit_IdentAndCreditsBringALinkUp :
    let id := flitOf 5 0 (linkBody 3 0)
    let cr := flitOf 5 0 (linkBody 2 0)
    let t := linkBlk { phase := .training, attempt := 1 }
    let u := linkBlk { phase := .training, attempt := 1, identIn := true }
    let pair := setLink { r0 with tdm := { r0.tdm with side := 1 } } .tandem { phase := .training, attempt := 1 }
    (zeros 240).length = 240 ∧ (linkOf t (.spoke 15)).phase ≠ .down ∧ (flitIn t (.spoke 15) id (zeros 240)).1 = true ∧
    (flitView id).ftype = 5 ∧ bitsOf (flitView id).body.toNat 56 8 = 3 ∧
    (linkOf (flitIn t (.spoke 15) id (zeros 240)).2 (.spoke 15)).phase = .training ∧
    (linkOf (flitIn t (.spoke 15) id (zeros 240)).2 (.spoke 15)).identIn = false ∧
    (flitIn u (.spoke 15) cr (zeros 240)).1 = true ∧ bitsOf (flitView cr).body.toNat 56 8 = 2 ∧
    (linkOf (flitIn u (.spoke 15) cr (zeros 240)).2 (.spoke 15)).identIn = true ∧
    (linkOf (flitIn u (.spoke 15) cr (zeros 240)).2 (.spoke 15)).replay = [] ∧
    (spokeOf (flitIn u (.spoke 15) cr (zeros 240)).2 15).profile = none ∧
    (flitIn pair .tandem id (zeros 240)).1 = true ∧ beAt (zeros 240) 4 1 ≠ (flitIn pair .tandem id (zeros 240)).2.tdm.side ∧
    beAt (zeros 240) 4 1 = 0 := by decide +kernel

theorem wit_SledPinsAndDebounce :
    let off := { r0 with pin := { r0.pin with prsntN := 0x7FFF, pwren := 0 } }
    let on := { r0 with pin := { r0.pin with prsntN := 0x8000, pwren := 0x8000 } }
    off.pin.pwren.getLsbD 15 = false ∧ off.pin.prsntN.getLsbD 15 = false ∧ on.pin.pwren.getLsbD 15 = true ∧
    on.pin.prsntN.getLsbD 15 = true ∧ (spokeOf off 15).sstate ≠ 4 ∧ (spokeOf off 15).sstate ≠ 5 ∧
    (spokeOf off 15).insDebounce = false ∧ (spokeOf off 15).reseat = false ∧ (spokeOf off 15).remDebounce = false ∧
    (spokeOf (setSpoke off 15 { insDebounce := true, reseat := true, remDebounce := true }) 15).insDebounce = true := by decide +kernel

/-- The result byte, opcode and OPID of a STATUS body (R157). -/
def statusBody (op opid result : Nat) : BitVec 64 := BitVec.ofNat 64 (op * 2 ^ 56 + opid * 2 ^ 44 + result * 2 ^ 19)

set_option maxRecDepth 100000 in
theorem wit_BridgeOperationsEnd :
    let b := setSpoke (linkBlk { phase := .up }) 15 { ops := [(4095, { op := 0x0B })] }
    let data := flitOf 3 0 (dataBody 0x0B 4095 0 240 false)
    let late := flitOf 3 0 (dataBody 0x0B 4095 1 240 false)
    let stat := flitOf 4 0 (statusBody 0x0B 4095 0)
    let lost := flitOf 4 0 (statusBody 0x0B 4094 0)
    let alarm := flitOf 4 0 (statusBody 0xFF 0xFFF 0)
    let inn := fun h => flitIn b (spokeLink 15) h (zeros 240)
    let o := fun h => opView (flitView h).body
    (linkOf b (spokeLink 15)).phase = .up ∧ (linkOf r0 (spokeLink 15)).phase ≠ .up ∧ (spokeOf b 15).ops.has 4095 = true ∧
    (spokeOf b 15).ops.has 4094 = false ∧ (inn data).1 = true ∧ (flitView data).ftype = 3 ∧ (o data).opid = 4095 ∧
    (spokeOf (inn data).2 15).ops.get? 4095 = some { op := 0x0B } ∧ (o data).index = 0 ∧ (o late).index = 1 ∧
    ((zeros 240).take (o data).len).length ≤ 256 ∧
    (inn stat).1 = true ∧ (flitView stat).ftype = 4 ∧ (o stat).opid = 4095 ∧ (o stat).op ≠ 0xFF ∧ (o stat).result = 0 ∧
    (spokeOf (inn stat).2 15).ops.get? 4095 = some { op := 0x0B } ∧
    (spokeOf (opEnded (setSpoke (inn stat).2 15 {}) 15 { op := 0x0B } 0 (zeros 240)) 15).removing = none ∧
    (o lost).opid = 4094 ∧ (inn alarm).1 = true ∧ (o alarm).op = 0xFF ∧ (o alarm).opid = 0xFFF := by decide +kernel

set_option maxRecDepth 100000 in
/-- A RETRAIN flit, a right and a wrong pair, the sixteenth RETRY_REQ for one FSEQ, and a retry awaited. -/
theorem wit_LinkRetryAndTraining_retrain :
    let h := flitOf 5 0 (linkBody 4 0)
    let r := flitOf 5 0 (linkBody 1 200)
    let at_ := fun (k : LinkSt) (h : FlitHeader) => flitIn (linkBlk k) (.spoke 15) h (zeros 240)
    let st := fun (k : LinkSt) (h : FlitHeader) => linkOf (at_ k h).2 (.spoke 15)
    let up : LinkSt := { phase := .up, rrSeq := 200, rrCount := 15, awaiting := true }
    markerWrong ((symbolsOf5 pairMarker).map fun x => [x]) = false ∧ markerWrong [] = true ∧
    (at_ up h).1 = true ∧ (flitView h).ftype = 5 ∧ bitsOf (flitView h).body.toNat 56 8 = 4 ∧ (st up h).phase = .up ∧
    (at_ { phase := .training } h).1 = true ∧ (st { phase := .training } h).phase ≠ .up ∧
    (at_ {} h).1 = false ∧ (at_ up r).1 = true ∧ (st up r).rrSeq = 200#8 ∧ 16 ≤ (st up r).rrCount + 1 ∧ (st up r).phase = .up ∧
    (st { phase := .training } r).phase ≠ .up ∧ (linkOf (linkBlk up) (.spoke 15)).awaiting = true := by decide +kernel

set_option maxRecDepth 100000 in
/-- IDENT for the second time, of a partner of the same side, and of one whose link was declared down; CREDIT_INIT with a flit still to be
replayed, on a link that had been up and with a sled that is known. -/
theorem wit_IdentAndCreditsBringALinkUp_more :
    let id := flitOf 5 0 (linkBody 3 0)
    let cr := flitOf 5 0 (linkBody 2 0)
    let t : LinkSt := { phase := .training, identIn := true, wasUp := true, replay := [(0, { ftype := 1 })] }
    let same := setLink r0 .tandem { phase := .training }
    let run := { r0 with dev := .run }
    let k := linkOf (flitIn (linkBlk t) (.spoke 15) cr (zeros 240)).2 (.spoke 15)
    (linkOf (flitIn (linkBlk t) (.spoke 15) id (zeros 240)).2 (.spoke 15)).identIn = true ∧
    (flitIn same .tandem id (zeros 240)).1 = true ∧ (linkOf (flitIn same .tandem id (zeros 240)).2 .tandem).identIn = false ∧
    beAt (zeros 240) 4 1 = (flitIn same .tandem id (zeros 240)).2.tdm.side ∧
    (linkOf run .tandem).phase = .down ∧ run.tdm.heldDown = 0 ∧ run.dev = .run ∧ flitCrc id (zeros 240) = (flitView id).fcrc ∧
    (linkOf same .tandem).phase ≠ .down ∧ (flitIn (linkBlk t) (.spoke 15) cr (zeros 240)).1 = true ∧
    k.replay.head? = some (0#8, ({ ftype := 1 } : Flit)) ∧ k.wasUp = true ∧ k.identIn = true ∧ k.phase = .training ∧
    (spokeOf (setSpoke r0 15 { profile := some {} }) 15).profile ≠ none := by decide +kernel

theorem wit_SledPinsAndDebounce_more :
    (spokeOf (setSpoke r0 15 { sstate := 4 }) 15).sstate = 4 ∧ (spokeOf (setSpoke r0 15 { sstate := 5 }) 15).sstate = 5 := by decide +kernel

set_option maxRecDepth 100000 in
/-- An operation that was never sent, a DATA_IN beyond the length, and the last STATUS of an orderly removal. -/
theorem wit_BridgeOperationsEnd_more :
    let b := setSpoke (linkBlk { phase := .up }) 15 { ops := [(4095, { op := 0x0B, got := zeros 16 }), (4094, { op := 0x0B, unsent := true })] }
    let data := flitOf 3 0 (dataBody 0x0B 4095 0 240 false)
    let long := flitOf 3 0 (dataBody 0x0B 4095 0 241 false)
    let out := fun (n : Nat) => ((spokeOf (flitIn b (spokeLink 15) data (zeros 240)).2 15).ops.get? n).filter (!·.unsent)
    let gone := setSpoke r0 15 { removing := some (.mailbox 15), ops := [(1, { unsent := true })] }
    let y := spokeOf (opEnded (resumeOps gone 15) 15 { op := 0x0B } 0 (zeros 240)) 15
    out 4095 = some { op := 0x0B, got := zeros 16 } ∧ out 4094 = none ∧
    (zeros 16 ++ (zeros 240).take (opView (flitView data).body).len).length ≤ 256 ∧ (opView (flitView data).body).len = 240 ∧
    ¬ (zeros 17 ++ (zeros 240).take (opView (flitView long).body).len).length ≤ 256 ∧
    y.removing ≠ none ∧ y.ops.vals.all (·.unsent) = true ∧
    (spokeOf (setSpoke gone 15 { ops := [(1, {})] }) 15).ops.vals.all (·.unsent) = false := by decide +kernel


/-! ### Media -/

/-- One band of k = 1 and m = 1, unit 0 written: its members are spoke bands 1 and 2 on slots 14 and 15, every block number 5. -/
def bandBlk : Blk :=
  let sb := fun n => ({ spoke := n, dies := (List.range 17).map (16 * ·), blocks := List.replicate 17 5, units := 16 } : SBand)
  { r0 with
    spokes := [(14, { sstate := 1, profile := some { pagesPerBlock := 16, blocksPerPlane := 100 } }), (15, { sstate := 1, profile := some { pagesPerBlock := 16, blocksPerPlane := 100 } })]
    med := { r0.med with
      sbands := [(1, sb 14), (2, sb 15)]
      bands := [(7, { ns := 1, k := 1, m := 1, members := [(14, some 1), (15, some 2)], nextUnit := 1 })]
      blks := [(blkKey 14 0 5, { sband := 1, st := 2 }), (blkKey 15 0 5, { sband := 2, st := 2 })] } }

/-- The first codeword of member 0. -/
def pga0 : Nat := ((bandBlk.med.sbands.get? 1).map fun sb => unitPga bandBlk sb 0 0).getD 0

theorem wit_ReadsAreDecodedRebuiltAndTrued :
    let x : ReadCtx := { pga := pga0, stage := 3 }
    let b := { bandBlk with med := { bandBlk.med with reads := [(4, x)], truns := [(2, { code := [0], limit := 100 })] } }
    b.med.reads.get? 4 = some x ∧ x.outstanding = 0 ∧ judgeCw b { x with stage := 1 } [] ≠ 2 ∧
    (spokeOf b (placeOf b x.pga).spoke).softq.contains 4 = false ∧ sbandAt r0 (placeOf r0 x.pga) = none ∧
    ((sbandAt b (placeOf b x.pga)).map fun e => (e.1, e.2.acc)) = some (1, []) ∧
    (List.replicate 16 (some [1#8])).all (·.isSome) = true ∧ ([] : List (Option Bytes)).length ≠ 16 ∧
    stripeAt r0 x.pga = none ∧ stripeAt b x.pga = some (7, 0, 0, 0) ∧ (b.med.bands.get? 7).isSome = true ∧
    rsDecode 1 [none, none] = none ∧ (rsDecode 1 [none, some [1#8]]).isSome = true ∧
    (b.med.truns.get? 2).map (·.ph) = some 0 ∧ (0 + (policy b 0x12 : Int)).natAbs ≤ 100 := by decide +kernel

theorem wit_StripesAndJournals :
    let x : Stripe := { band := 7 }
    let b := { r0 with med := { r0.med with stripes := [(4, x)], asmq := [(1, 2, 3, {})], pbufExhausted := true } }
    let full := { b with med := { b.med with pbufs := 4096 } }
    stripeOf b 4 = some x ∧ x.sealed = false ∧ stripeOf { r0 with med := { r0.med with stripes := [(4, { x with sealed := true })] } } 4 ≠ none ∧
    r0.med.asmq = [] ∧ r0.med.pbufExhausted = false ∧ b.med.pbufExhausted = true ∧ b.med.asmq = [(1, 2, 3, {})] ∧
    stripeFor b 1 2 3 = none ∧ openStripe full 1 2 3 = none ∧ r0.pwr.dump = none ∧ r0.med.ckItem = 0 := by decide +kernel

/-- Spokes in service give a grain of gear 2 a stripe. -/
theorem wit_StripesAndJournals_open :
    let b := { bandBlk with
      med := { bandBlk.med with asmq := [(1, 2, hostStream, {})] }
      nss := [(1, { k := 1, m := 1 })] }
    let b1 := { b with med := { b.med with bands := [(7, { ns := 1, gear := 2, slc := true, k := 1, m := 1, members := [(14, some 1), (15, some 2)] })] } }
    stripeFor b1 1 2 hostStream = none ∧ ((openStripe b1 1 2 hostStream).map Prod.fst) = some 0 := by decide +kernel

theorem wit_FoldGcAndErase :
    let stop := { r0 with pwr := { r0.pwr with bgStopped := true } }
    let k := blkKey 15 0 5
    let s0 := idleExit bandBlk
    r0.pwr.bgStopped = false ∧ stop.pwr.bgStopped = true ∧ slcFill (idleExit r0) ≤ policy (idleExit r0) 0x0B ∧
    policy r0 0x0B < slcFill { r0 with spokes := [(0, { slcBlocks := 100, slcUsed := 100 })] } ∧
    leastBlk r0 (fun k => (blkAt r0 k).closeOrder) [k] = some k ∧
    policy r0 0x09 ≤ freeFraction {} ∧ freeFraction { usableBlocks := 100, freeBlocks := 0 } < policy r0 0x09 ∧
    (doneRelocating s0).med.bands.filter (fun e => e.2.relocate) = [] ∧ victim (doneRelocating s0) 14 = some (blkKey 14 0 5) ∧
    (blkAt s0 k).st = 2 ∧ blkDead s0 k = true ∧ readsBlock s0 k = false ∧ inService s0 15 = true ∧
    dieUsable (spokeOf s0 15) (k / 65536 % 512) = true ∧ k / 65536 / 512 = 15 ∧ (blkAt s0 (k + 1)).st ≠ 2 := by decide +kernel

/-- A bucket page in the band, on the slot of the pass: it is moved while the band is queued for relocation. -/
theorem wit_FoldGcAndErase_move :
    let b := { bandBlk with
      idx := { bandBlk.idx with dir := [(3, { pageLoc := pga0 })] }
      med := { bandBlk.med with bands := bandBlk.med.bands.map fun e => (e.1, { e.2 with relocate := true }) } }
    let s1 := doneRelocating (idleExit b)
    let mine := (s1.med.bands.filter fun e => e.2.relocate).flatMap fun e => (bandLive s1 e.1).filter fun g => (pgaView g.pga).spoke = 14
    mine.map (·.pga) = [pga0] ∧ (liveIn s1 (blkKey 14 0 5)).length = 1 := by decide +kernel

theorem wit_PatrolAndDerailleur :
    let k := blkKey 15 0 5
    let b := { bandBlk with
      spokes := [(15, { sstate := 1, patrolq := [k], patrolPos := 3 })]
      med := { bandBlk.med with blks := [(k, { sband := 2, st := 2, wp := 4 })], gear0Bytes := 51, allBytes := 100 } }
    let s0 := restExit (idleExit b)
    let free := setSpoke s0 15 { sstate := 1 }
    (spokeOf s0 15).patrolq = [k] ∧ (spokeOf free 15).patrolq = [] ∧ (patrolBlocks free 15)[0]? = some k ∧
    0 < (patrolBlocks free 15).length ∧ patrolBlocks (restExit (idleExit r0)) 15 = [] ∧
    b.med.allBytes < 2 * b.med.gear0Bytes ∧ b.loops.derOver = false ∧ 2 * b.med.allBytes < 5 * b.med.gear0Bytes ∧
    5 * 40 ≤ 2 * 100 ∧ 2 * 50 ≤ 100 := by decide +kernel

/-- A tag that is all zeros but its CRC. -/
def goodTag : Bytes := zeros 44 ++ leBytes 4 (crc32c (zeros 44)).toNat

/-- A codeword of zeros is accepted where nothing is expected of its tag, and rejected where it should be of namespace 1; a word of
another length has not converged. -/
theorem wit_ReadsAreDecoded_judged (b : Blk) :
    judgeCw b {} (encodeCw 0 (zeros 4112) goodTag) = 2 ∧ judgeCw b { expect := some { ns := 1 } } (encodeCw 0 (zeros 4112) goodTag) = 1 ∧
    judgeCw b {} [] = 0 := by
  obtain ⟨h1, h2, h3⟩ := decodeCw_encodeCw 0 (zeros 4112) goodTag List.length_replicate (by decide +kernel)
  have c : gtagCrcGood goodTag = true := by decide +kernel
  have h : (gtagOf goodTag).ns = 0 := by decide +kernel
  simp [judgeCw, h1, h2, h3, c, tagExpected, bodyGood, h]

theorem wit_ReadsAreDecoded_stages :
    let at_ := fun (st : Nat) (why : ReadFor) => { r0 with med := { r0.med with reads := [(4, { stage := st, why := why })] } }
    let busy := setSpoke r0 15 { hardq := [4], softq := [4] }
    (∀ st ∈ [1, 2, 3, 4], ((at_ st .dropped).med.reads.get? 4).map (fun x => (x.stage, x.outstanding, x.awaited)) = some (st, 0, 0)) ∧
    (spokeOf r0 15).hardq.contains 4 = false ∧ (spokeOf r0 15).softq.contains 4 = false ∧
    (spokeOf busy 15).hardq.contains 4 = true ∧ (spokeOf busy 15).softq.contains 4 = true ∧
    ({ outstanding := 1, awaited := 1 } : ReadCtx).outstanding ≠ 0 ∧ ({ why := .patrol 7 3 } : ReadCtx).why = .patrol 7 3 ∧
    isHostRead ({} : ReadCtx).why = true := by decide +kernel

set_option maxRecDepth 100000 in
/-- Spans of 16 blocks that add up to a body, and, for a bucket page, to none; a data member and a parity member of a stripe. -/
theorem wit_ReadsAreRebuilt :
    let spans := fun (b : Bytes) => (List.range 16).map fun i => (i, some b)
    let x : ReadCtx := { pga := pga0, stage := 3, spans := spans [] }
    let sp := (Tbl.vals x.spans).filterMap id |>.foldl xorBytes (zeros 4146)
    let given := fun (n : Nat) (t : Tbl (Option Bytes)) => (List.range 2).map fun i => if i = n then none else (t.getD i none).filter fun b => b.length = 4146
    x.spans.length = 16 ∧ ((Tbl.vals x.spans).filterMap id).length = 16 ∧ bodyGood r0 (.bucketPage 3) (sp.take 4112) = false ∧
    bodyGood r0 .dropped (sp.take 4112) = true ∧ ((Tbl.vals [(0, (none : Option Bytes))]).filterMap id).length ≠ 16 ∧
    given 0 [(1, some (zeros 4146))] = [none, some (zeros 4146)] ∧ given 0 [] = [none, none] ∧
    rsDecode 1 [none, some (zeros 4146)] = some [zeros 4146] ∧ rsDecode 1 [none, none] = none ∧
    (stripeAt bandBlk pga0).map (fun x => x.2.2.1) = some 0 ∧
    (stripeAt bandBlk (((bandBlk.med.sbands.get? 2).map fun sb => unitPga bandBlk sb 0 0).getD 0)).map (fun x => x.2.2.1) = some 1 := by
  decide +kernel

theorem wit_ReadsAreTrued :
    let run := fun (ph : Nat) => { r0 with med := { r0.med with truns := [(2, { code := [0], ph := ph, limit := 8, got := some [1#8], known := [3#8] })] } }
    (∀ ph ∈ [0, 1, 2], ((run ph).med.truns.get? 2).map (fun x => (x.ph, x.got)) = some (ph, some [1#8])) ∧
    bitDiff [1#8] [3#8] = 1 ∧ policy r0 0x12 = 2 ∧ (([6] : List Int).getD 0 0 + (policy r0 0x12 : Int)).natAbs ≤ 8 ∧
    8 < (([7] : List Int).getD 0 0 + (policy r0 0x12 : Int)).natAbs ∧ r0.med.truns.get? 2 = none ∧ ({} : TRun).got = none ∧ ({} : TRun).spoke ≠ 15 ∧
    (placeOf bandBlk pga0).spoke = 14 := by decide +kernel

theorem wit_StripesAndJournals_more :
    { r0.med with ckItem := 1 }.ckItem = 1 ∧ 2 ≤ { r0.med with ckItem := 2 }.ckItem ∧ { r0.pwr with dump := some true }.dump ≠ none ∧
    (∀ e ∈ [(4, ({} : Stripe))], { r0 with med := { r0.med with stripes := [e] } }.med.stripes.get? 4 = some {}) := by decide +kernel

/-- A closed block of the SLC buffer that holds the bucket page of bucket 3, on a spoke whose buffer is above FOLD_START. -/
theorem wit_FoldGcAndErase_fold :
    let b := { bandBlk with
      spokes := bandBlk.spokes.map fun e => (e.1, { e.2 with slcBlocks := 100, slcUsed := 100, usableBlocks := 100, freeBlocks := 50 })
      idx := { bandBlk.idx with dir := [(3, { pageLoc := pga0 })] }
      med := { bandBlk.med with slcShare := 10 } }
    let s0 := idleExit b
    let old := (s0.med.blks.filter fun e => e.2.st = 2 ∧ blkSpoke e.1 = 14 ∧ isBuffer s0 e.1 ∧ (liveIn s0 e.1).any (fun g => !moveBusy s0 g)).map Prod.fst
    slcAbove s0 (policy s0 0x0B) = true ∧ slcAbove (idleExit r0) (policy (idleExit r0) 0x0B) = false ∧
    leastBlk s0 (fun k => (blkAt s0 k).closeOrder) old = some (blkKey 14 0 5) ∧ ¬ freeFraction (spokeOf s0 14) < target s0 0x0A ∧
    freeFraction { usableBlocks := 100, freeBlocks := 0 } < target s0 0x0A ∧
    ((doneRelocating s0).med.bands.filter fun e => e.2.relocate).find? (fun _ => true) = none := by decide +kernel

/-- A codeword that another read escalates; a pass that has gone past the last block; the counts of commit points at their bounds. -/
theorem wit_PatrolAndDerailleur_more :
    let k := blkKey 15 0 5
    let b := { bandBlk with
      spokes := [(15, { sstate := 1, patrolDone := k + 1, patrolPos := 3 })]
      med := { bandBlk.med with blks := [(k, { sband := 2, st := 2, wp := 4 })], reads := [(4, { pga := pga0, stage := 2 })], commits := 2 ^ 24, halvings := 0, shareChecks := 16 } }
    let s0 := restExit (idleExit b)
    (escalating b pga0).isSome = true ∧ (escalating bandBlk pga0).isNone = true ∧
    ((patrolBlocks s0 15).find? fun j => (spokeOf s0 15).patrolDone ≤ j).or (patrolBlocks s0 15).head? = some k ∧ patrolNext s0 15 ≠ some (k, 1) ∧
    b.med.halvings < b.med.commits / 2 ^ 24 ∧ b.med.commits / 2 ^ 20 ≤ b.med.shareChecks ∧
    { b.med with shareChecks := 15 }.shareChecks < b.med.commits / 2 ^ 20 ∧ b.med.commits / 2 ^ 24 ≤ { b.med with halvings := 1 }.halvings := by
  decide +kernel


theorem wit_RekeySweepGoesOn :
    let sl : BSlot := { ns := 1, loc := 1 }
    let page := { r0.idx with dir := [(0, { cached := true, fp := [(39, 1)], slots := [(39, sl)] })] }
    let b := { r0 with nss := [(1, {})], idx := page, med := { r0.med with rekey := some (0, 1, 39) } }
    let next := fun (s0 : Blk) (cur : Nat) =>
      (slotsFrom s0 cur).find? (fun (e : Nat × BSlot) => ((nsOf s0 e.2.ns).map (·.tenant)) == some 0 && !e.2.lost)
    let head := zeros 64
    b.pwr.bgStopped = false ∧ b.idx.stages = [] ∧ b.med.rekey = some (0, 1, 39) ∧ next (idleExit b) 39 = some (39, sl) ∧
    (rekeySlot (idleExit b) 0 1 39 sl [head]).isSome = true ∧ (rekeySlot (idleExit b) 0 1 39 sl []).isNone = true ∧
    next (idleExit b) 40 = none ∧ genNamed (idleExit b) 0 1 = false ∧
    genNamed { b with cmd := { b.cmd with uploads := [(1, { parts := [{ sealv := zeros 12 ++ leBytes 4 1 }] })] } } 0 1 = true := by
  decide +kernel

set_option maxRecDepth 100000 in
/-- Member 0 of the band is present and member 1 is being rebuilt. -/
theorem wit_RebuildsAndLostData :
    let b := { bandBlk with
      med := { bandBlk.med with rebuilds := [(15, { todo := [7], sband := some 2 })], tagScan := true }
      idx := { bandBlk.idx with dir := [(3, { pageLoc := pga0 })] } }
    let spans : Tbl (Option Bytes) := (List.range 16).map fun p => (p, some (zeros 4146))
    let out := ((b.med.bands.get? 7).map fun x => stripeOut x 0).getD [9]
    let seen := stripeSpans spans 2 15 out
    (idleExit r0).med.rebuilds.get? 15 = none ∧ (b.med.rebuilds.get? 15).map (fun r => (r.todo, r.sband, r.unit)) = some ([7], some 2, 0) ∧
    ((b.med.bands.get? 7).map fun x => (x.lost, x.lostAt, memberIn x 15)) = some ([], [], 1) ∧ out = [] ∧
    (bandLive (idleExit b) 7).isEmpty = false ∧ rebuildTargets (idleExit b) 7 0 = [(15, 2)] ∧ rebuildTargets (idleExit b) 7 1 = [] ∧
    b.med.tagScan = true ∧ ((fullStripe 1 1 seen).map fun d => agrees seen d) = some true ∧ seen.map (·.isSome) = [true, false] := by
  decide +kernel

/-- The rebuild before its reads are issued, while one is awaited, and with all of them there; with none under way nothing is next. -/
theorem wit_RebuildsAndLostData_reads :
    let at_ := fun (x : Rebuild) => idleExit { bandBlk with
      med := { bandBlk.med with rebuilds := [(15, x)] }, idx := { bandBlk.idx with dir := [(3, { pageLoc := pga0 })] } }
    let s1 := fun (x : Rebuild) => rebuildEnd (skipEmpty ((((at_ x).med.rebuilds.get? 15).map (·.todo.length)).getD 0) (at_ x) 15) 15
    let next := fun (x : Rebuild) => (((s1 x).med.rebuilds.get? 15).bind fun r => (r.todo.head?).bind fun b => ((s1 x).med.bands.get? b).map fun y => (r, b, y.k))
    let x : Rebuild := { todo := [7], sband := some 2 }
    (∀ y ∈ [x, { x with asked := true, awaited := 1 }, { x with asked := true }], next y = some (y, 7, 1)) ∧ next {} = none ∧
    (r0.med.rebuilds.get? 15).isNone = true := by decide +kernel

theorem wit_RekeySweepGoesOn_job :
    let b := { r0 with
      hub := { r0.hub with jobs := [(1, { kind := .retireGen 0 1 })] }
      cip := { r0.cip with pages := [(0, { gens := [{ gen := 1 }] })] } }
    let s0 := idleExit b
    let s1 := s0.idx.stages.keys.foldl rekeyApply s0
    s1.med.rekey = none ∧ (s1.hub.jobs.get? 1).map (fun j => (j.jstate, j.kind)) = some (1, .retireGen 0 1) ∧
    (s1.cip.pages.get? 0).any (fun p => p.gens.any fun x => x.gen == 1) = true ∧
    (s1.cip.pages.get? 0).any (fun p => p.gens.any fun x => x.gen == 2) = false ∧
    { r0.med with rekey := some (1, 1, 0) }.rekey = some (1, 1, 0) := by decide +kernel

/-! ### The pair -/

/-- Paired, the tandem link up and joined or not. -/
def pairBlk (joined : Bool) : Blk :=
  let b := setLink { r0 with dev := .run, tdm := { r0.tdm with paired := true, joined := joined } } .tandem { phase := .up }
  b

set_option maxRecDepth 100000 in
theorem wit_MirroredObjectsAreTaken :
    ∀ e ∈ [(0x6, 0x07, 0), (0x7, 0x10, 17), (0x8, 0x20, 0)],
      let h := flitOf e.1 0 (tdmBody e.2.1 9 0 e.2.2)
      let r := flitIn (pairBlk true) .tandem h (zeros 240)
      let away := flitIn (pairBlk false) .tandem h (zeros 240)
      r.1 = true ∧ (flitView h).ftype = e.1 ∧ tdmView (flitView h).body = (e.2.1, 9, 0, e.2.2) ∧ r.2.tdm.joined = true ∧
      away.1 = true ∧ away.2.tdm.joined = false ∧ r.2.tdm.uploads.has 9 = false := by decide +kernel

set_option maxRecDepth 100000 in
theorem wit_PairPathsAndJoining :
    let hb := flitOf 5 0 (linkBody 0x10 0)
    let jp := flitOf 5 0 (linkBody 0x12 0)
    let b := pairBlk false
    (flitIn (pairBlk true) .tandem hb (zeros 240)).1 = true ∧ (flitIn (pairBlk true) .tandem hb (zeros 240)).2.tdm.joined = true ∧
    bitsOf (flitView hb).body.toNat 56 8 = 0x10 ∧ (flitIn b .tandem jp (zeros 240)).1 = true ∧
    bitsOf (flitView jp).body.toNat 56 8 = 0x12 ∧ (linkOf (flitIn b .tandem jp (zeros 240)).2 .tandem).phase = .up ∧
    (flitIn b .tandem jp (zeros 240)).2.tdm.secret = [] ∧ showsAlive b = true ∧ showsAlive r0 = false ∧ (linkOf b .tandem).phase = .up ∧
    r0.tdm.paired = false ∧ b.tdm.paired = true ∧ b.tdm.joined = false ∧
    { b.tdm with heldDown := 2 }.heldDown = 2 ∧ (linkOf r0 .tandem).phase = .down := by decide +kernel

/-- A secret of the pair and the proof worked with it. -/
theorem wit_PairPathsAndJoining_proof :
    let b := { pairBlk false with tdm := { (pairBlk false).tdm with secret := [1#8] } }
    b.tdm.secret ≠ [] ∧ ∃ p : Bytes, p.take 32 = (joinProof b b.tdm.peerSerial b.tdm.peerSide b.tdm.peerNonce b.tdm.nonce).take 32 :=
  ⟨by decide, _, rfl⟩

set_option maxRecDepth 100000 in
theorem wit_TakeoverAndHandover :
    let b := { pairBlk true with tdm := { (pairBlk true).tdm with double := true } }
    let rs := flitOf 5 0 (linkBody 0x11 0)
    let sync := { pairBlk true with tdm := { (pairBlk true).tdm with resync := [(1, false), (2, true)], drain := some (3, false), arpLeft := 1 } }
    b.tdm.paired = true ∧ b.tdm.double = true ∧ showsAlive b = true ∧ b.tdm.solo = false ∧ b.tdm.fenceReq = false ∧ r0.tdm.double = false ∧
    (policy b 0x1F = 0 ∨ policy b 0x1F = 1 ∨ 2 ≤ policy b 0x1F) ∧ r0.tdm.arpLeft = 0 ∧ sync.tdm.arpLeft ≠ 0 ∧ r0.tdm.drain = none ∧
    (flitIn b .tandem rs (zeros 240)).1 = true ∧ bitsOf (flitView rs).body.toNat 56 8 = 0x11 ∧ (flitView rs).ftype = 5 ∧
    sync.tdm.resync.find? (fun e => e.1 = 1) = some (1, false) ∧ sync.tdm.resync.find? (fun e => e.1 = 2) = some (2, true) ∧
    pairJoined sync = true ∧ pairJoined r0 = false := by decide +kernel

set_option maxRecDepth 100000 in
/-- A flit on a link that is down, an object class and a part that the rule does not give, a part of an upload, and HELD. -/
theorem wit_MirroredObjectsAreTaken_more :
    let down := setLink (pairBlk true) .tandem {}
    let up := { pairBlk true with tdm := { (pairBlk true).tdm with uploads := [(9, {})] } }
    let tdm := fun (b : Blk) (ty cls m : Nat) => flitIn b .tandem (flitOf ty 0 (tdmBody cls 9 0 m)) (zeros 240)
    (∀ ty ∈ [0x5, 0x6, 0x7, 0x8], (tdm down ty 0x10 0).1 = false) ∧
    (∀ c ∈ [0x00, 0x01, 0x02, 0x03, 0x04, 0x05, 0x06, 0x08], (tdm (pairBlk true) 0x6 c 0).1 = true ∧ (tdmView (flitView (flitOf 0x6 0 (tdmBody c 9 0 0))).body).1 = c) ∧
    (tdm up 0x7 0x10 17).2.tdm.uploads.has 9 = true ∧ (tdmView (flitView (flitOf 0x7 0 (tdmBody 0x10 9 0 18))).body).2.2.2 = 18 ∧
    (tdmView (flitView (flitOf 0x7 0 (tdmBody 0x11 9 0 0))).body).1 = 0x11 := by decide +kernel

set_option maxRecDepth 100000 in
theorem wit_PairPathsAndJoining_more :
    let jp := flitOf 5 0 (linkBody 0x12 0)
    let hb := flitOf 5 0 (linkBody 0x10 0)
    (flitIn (pairBlk true) .tandem jp (zeros 240)).2.tdm.joined = true ∧
    (linkOf (flitIn (setLink r0 .tandem { phase := .training }) .tandem jp (zeros 240)).2 .tandem).phase ≠ .up ∧
    (flitIn (pairBlk false) .tandem hb (zeros 240)).1 = true ∧ (flitIn (pairBlk false) .tandem hb (zeros 240)).2.tdm.joined = false ∧
    (flitIn r0 .tandem jp (zeros 240)).1 = false := by decide +kernel

/-- Namespace 1 with one value: not listed yet, listed and the value not held by the partner, and listed with it held; each policy of takeover. -/
theorem wit_TakeoverAndHandover_more :
    let page := { r0.idx with dir := [(0, { cached := true, fp := [(39, 1)], slots := [(39, { ns := 1, version := 8 })] })] }
    let b := { pairBlk true with idx := page, tdm := { (pairBlk true).tdm with resync := [(1, true)] } }
    let held := { b with tdm := { b.tdm with heldByPeer := [8] } }
    let by_ := fun (n : Nat) => { r0 with loops := { r0.loops with policy := [(0x1F, n)] } }
    (unheldSlots b 1).length = 1 ∧ unheldSlots held 1 = [] ∧ pairJoined b = true ∧ pairJoined r0 = false ∧ r0.tdm.resync.find? (fun e => e.1 = 1) = none ∧
    (policy (by_ 0) 0x1F, policy (by_ 1) 0x1F, policy (by_ 2) 0x1F) = (0, 1, 2) ∧
    (jobsWhere { r0 with hub := { r0.hub with jobs := [(1, { kind := .failback })] } } isFailback).head? = some 1 ∧ (jobsWhere r0 isFailback).head? = none ∧
    (flitIn r0 .tandem (flitOf 5 0 (linkBody 0x11 0)) (zeros 240)).1 = false ∧ { r0 with dev := .kickstand }.dev = .kickstand := by decide +kernel

/-! ### Time and loops -/

/-- The last tick of a second, a TRIM of 1 at the head of its window, and 85 °C in sixteenths. -/
theorem wit_TimeThermalAndVoltage :
    let b := { r0 with time := { r0.time with sub := 32767, trimNow := 1, opTicks := 28799 }, pin := { r0.pin with porN := true } }
    b.pin.porN = true ∧ r0.pin.porN = false ∧ 28800 ≤ b.time.opTicks + 1 ∧ r0.time.opTicks + 1 < 28800 ∧
    r0.loops.step < target r0 0x1C ∧ (16 * (target r0 0x1B) : Int) < (0x7FFF#16).toInt ∧ 1360 ≤ (1360#16).toInt ∧
    (0#16).toInt ≤ 16 * (target r0 0x1B : Int) - 32 ∧ target r0 0x1C ≤ 7 ∧ target r0 0x1E < 1000 ∧ r0.loops.vcore ≤ target r0 0x1E := by
  decide +kernel

/-! ### Administration -/

/-- In RUN, a request of mailbox 15 with those parameters at the head of the executor; namespace 1 of tenant 0 and its key page exist. -/
def hubBlk (op : Nat) (params : Bytes) : Blk :=
  { r0 with
    dev := .run
    nss := [(1, {})]
    tenants := [(0, {}), (1, {})]
    hub := { r0.hub with exec := [(.mailbox 15, { opcode := op, params := params })] } }

theorem wit_DeviceCommandsTakeEffect : ∀ op ∈ [0x80, 0x81, 0x82, 0x83, 0x84, 0x85],
    MayBegin op (.mailbox 15) { opcode := op, params := [1#8] } (hubBlk op [1#8]) := by
  unfold MayBegin
  decide +kernel

theorem wit_DeviceCommands_jobs :
    let b := { r0 with hub := { r0.hub with jobs := [(1, { kind := .selfTest true })] } }
    (b.hub.jobs.get? 1).isSome = true ∧ cancellable b 1 = true ∧ jobsWhere r0 isSelfTest = [] ∧ jobsRunning r0 < 16 := by decide +kernel

/-- No such request; one of a device in ACTIVATING or KICKSTAND; one behind another that names the same namespace; one that waits for its
bulk bytes. -/
theorem wit_DeviceCommands_not_yet :
    let b := hubBlk 0x89 [1#8, 0]
    let r : Request := { opcode := 0x89, params := [1#8, 0] }
    let mine := fun (e : Source × Request) => decide (e.1 = .mailbox 15 ∧ e.2.opcode = 0x89 ∧ e.2.begun = false)
    let two := { b with hub := { b.hub with exec := [(.mailbox 3, r), (.mailbox 15, r)] } }
    r0.hub.exec.find? mine = none ∧ b.hub.exec.find? mine = some (.mailbox 15, r) ∧ two.hub.exec.find? mine = some (.mailbox 15, r) ∧
    mayRun b (.mailbox 15) r = true ∧ mayRun two (.mailbox 15) r = false ∧ adminClass 0x89 = some 1 ∧ { r with reading := true }.reading = true ∧
    classCause { b with dev := .kickstand } r ≠ 0 ∧ classCause { b with dev := .booting } r ≠ 0 ∧ { b with dev := .activating }.dev = .activating := by
  decide +kernel

theorem wit_NamespaceAndTenantCommands :
    ∀ op ∈ [0x88, 0x89, 0x8A, 0x8B, 0x8C, 0x8D, 0x90, 0x91, 0x92, 0x93, 0x94, 0x95],
    MayBegin op (.mailbox 15) { opcode := op, params := [1#8] } (hubBlk op [1#8]) := by
  unfold MayBegin
  decide +kernel

/-- Namespace 2 of tenant 0 with one data and one parity member, on two spokes in service. -/
theorem wit_NamespaceAndTenant_checks :
    let b := { hubBlk 0x88 [] with spokes := bandBlk.spokes }
    (nsCreateCheck b { params := [2#8, 0, 0, 0, 1, 1] }).1 = 0 ∧ (nsOf b 1).isSome = true ∧ b.tenants.has 2 = false ∧ b.tenants.has 1 = true ∧
    (b.cip.pages.get? 1).any (fun p => decide (4 ≤ p.gens.length)) = false ∧ b.nss.vals.any (fun x => decide (x.tenant = 1)) = false ∧
    leAt [1#8, 0, 0x41] 2 1 = 0x41 ∧ leAt [1#8, 0, 0x46] 2 1 = 0x46 := by decide +kernel

theorem wit_SpokePortAndPolicyCommands :
    ∀ op ∈ [0x98, 0x99, 0x9A, 0xA0, 0xA1, 0xA2, 0xA3, 0xA4, 0xA8, 0xA9, 0xAA, 0xAB],
    MayBegin op (.mailbox 15) { opcode := op, params := [1#8] } (hubBlk op [1#8]) := by
  unfold MayBegin
  decide +kernel

theorem wit_SpokePortAndPolicy_checks :
    let b := hubBlk 0x99 []
    let five := { r0 with spokes := (List.range 5).map fun n => (n, { sstate := 1 }) }
    (poolFormatCheck five { params := [0x1F#8, 0, 3] }).1 = 0 ∧
    (submacCheck b { params := [0#8, 0, 0, 0] ++ leBytes 2 1500 }).1 = 0 ∧ (pfcCheck b { params := zeros 4 ++ (List.replicate 8 [16#8, 0, 0, 0, 16, 0]).flatten }).1 = 0 ∧
    (policySetCheck b { params := [1#8, 0, 0, 0] ++ leBytes 2 0x0B ++ [0#8, 0] ++ leBytes 4 0xFFFFFFFF ++ leBytes 8 25 }).1 = 0 ∧
    (policyGetCheck b { params := leBytes 2 0x0B ++ [0#8, 0] ++ leBytes 4 0xFFFFFFFF }).1 = 0 ∧
    (bucketCheck b { params := [1#8, 1, 0, 0, 1, 0, 0, 0, 1] }).1 = 0 ∧ 0 < modeOf b 0 ∧ ({ r0.pin with pwren := 0x8000 }).pwren.getLsbD 15 = true := by
  decide +kernel

theorem wit_PairTelemetryAndFirmwareCommands :
    ∀ op ∈ [0xB0, 0xB1, 0xB2, 0xB4, 0xB5, 0xB6, 0xB8, 0xB9, 0xBA, 0xBB, 0xBC, 0xBD, 0xBE, 0xBF],
    MayBegin op (.mailbox 15) { opcode := op, params := [1#8] } (hubBlk op [1#8]) := by
  unfold MayBegin
  decide +kernel

theorem wit_PairTelemetryAndFirmware_checks :
    let b := hubBlk 0xB3 []
    let rec_ := { b with boot := { b.boot with rec0 := { good := true, pendingSlot := 1 } } }
    let p := { b with tdm := { b.tdm with paired := true, joined := true } }
    MayBegin 0xB3 (.mailbox 15) { opcode := 0xB3 } p ∧
    (countersCheck b { params := [2#8] }).1 = 0 ∧ (validRec rec_).pendingSlot ≤ 1 ∧ bulkFits (.mailbox 15) { flags := 1 } = true ∧
    leAt [0#8, 0, 0, 0] 0 4 % 4096 = 0 ∧ { b with dev := .recovery }.dev = .recovery := by
  unfold MayBegin
  decide +kernel

theorem wit_MailboxesAndJobs :
    let b := { r0 with dev := .run, pin := { r0.pin with porN := true }, pwr := { r0.pwr with pstate := .run }, hub := { r0.hub with
      waiting := [.mailbox 15]
      jobs := [(1, { kind := .nsDelete 1 }), (2, { kind := .camMode 255 true 0 3 }), (3, { jstate := 2 })] } }
    (mboxOf r0 15).busy = false ∧ (mboxOf r0 15).done = false ∧ (mboxOf r0 15).go = false ∧
    (mboxOf { r0 with hub := { r0.hub with mbox := [(15, { go := true })] } } 15).go = true ∧
    (mboxOf { r0 with hub := { r0.hub with mbox := [(15, { busy := true })] } } 15).busy = true ∧
    b.hub.waiting = [.mailbox 15] ∧ b.hub.exec.length < 4 ∧ hubServes b = true ∧ r0.hub.waiting = [] ∧
    (b.hub.jobs.get? 1).map (·.jstate) = some 1 ∧ nsInFlight b 1 = 0 ∧ b.hub.jobs.get? 4 = none ∧ (b.hub.jobs.get? 3).map (·.jstate) = some 2 ∧
    nsInFlight { r0 with idx := { r0.idx with cam := [(0, { word := camWord 0 1 0, shadow := camWord 0 1 0 })] } } 1 ≠ 0 := by decide +kernel


/-- A GO written in the cycle of the take; a hub that does not serve, that holds four commands, or that still executes the mailbox's last one;
the queue's head is another mailbox. -/
theorem wit_MailboxesAndJobs_take :
    let b := { r0 with hub := { r0.hub with waiting := [.mailbox 15], exec := List.replicate 4 (.mailbox 3, {}) } }
    let own := { r0 with hub := { r0.hub with waiting := [.mailbox 15], exec := [(.mailbox 15, { begun := true })] } }
    hubServes r0 = false ∧ 4 ≤ b.hub.exec.length ∧ (own.hub.exec.any fun e => decide (e.1 = .mailbox 15)) = true ∧
    (b.hub.exec.any fun e => decide (e.1 = .mailbox 15)) = false ∧ b.hub.waiting.head? ≠ some (.mailbox 3) ∧
    (mboxOf { r0 with hub := { r0.hub with mbox := [(15, { done := true })] } } 15).done = true ∧
    (r0.cip.pages.get? 0).any (fun p => p.gens.any fun x => x.gen == 1) = false := by decide +kernel

theorem wit_FunctionResetLeavesTheHubAtWork :
    let b := { r0 with hub := { r0.hub with mbox := [(15, { busy := true, discard := true })], exec := [(.mailbox 15, {})] } }
    b.hub.mbox.has 15 = true ∧ (∃ e ∈ b.hub.exec ++ b.hub.later, e.1 = .mailbox 15) ∧ (mboxOf b 15).discard = true := by decide +kernel

/-! ### Rings -/

/-- Ring 255 of an active tenant with good settings. -/
def ringBlk (x : Sq) : Blk :=
  { r0 with
    dev := .run
    cip := { r0.cip with pages := [(0, { state := 1 })] }
    xpt := { r0.xpt with sessions := [(5, { ring := some 255 }), (6, { owesReset := true })] }
    ring := { r0.ring with sqs := [(255, x)], cqs := [(0, { enable := true, size := 4 })], pcieUp := true } }

def goodSq : Sq := { size := 4, session := 5 }

theorem wit_RingsAreEnabledAndPolled :
    let b := ringBlk goodSq
    let x := sqOf b 255
    x.enable = false ∧ x.running = false ∧ sqGood b x = true ∧ openCause b.dev = 0 ∧ ((makeRoom b).bind takeNumber).isSome = true ∧
    sqGood (ringBlk { goodSq with size := 3 }) { goodSq with size := 3 } = false ∧ b.ring.pcieUp = true ∧ x.localq.length < 64 ∧
    x.reading = none ∧ (sessOf b 5).any (·.owesReset) = false ∧ (sessOf b 6).any (·.owesReset) = true ∧
    (cqOf b 0).enable = true ∧ (0x7FFFFFFF#32).getLsbD 31 = false ∧ (cqOf r0 0).enable = false ∧
    (ringBlk { goodSq with running := true }).ring.sqs.vals.any (fun y => y.running && decide (y.cq = 0)) = true ∧
    b.ring.sqs.vals.any (fun y => y.running && decide (y.cq = 0)) = false := by decide +kernel

/-- With every number in use no session can be made for a ring. -/
theorem wit_Rings_no_number :
    let b := { ringBlk goodSq with xpt := { (ringBlk goodSq).xpt with fresh := 2097152, freed := [] } }
    (makeRoom b).bind takeNumber = none := by decide +kernel

/-- In RECOVERY, with the last disable not drained, and with as many sessions as there are numbers; a ring that still reads, one that is full, and one
whose session owes its reset. -/
theorem wit_RingsAreEnabledAndPolled_more :
    let full := ringBlk { goodSq with localq := List.replicate 64 (0, []), enable := true }
    ({ ringBlk goodSq with dev := .recovery }).dev = .recovery ∧ ({ goodSq with running := true } : Sq).running = true ∧
    inUse (ringBlk goodSq) < (ownRange (ringBlk goodSq)).2 ∧ (ownRange (ringBlk goodSq)).2 = 2097152 ∧
    (takeNumber { ringBlk goodSq with xpt := { (ringBlk goodSq).xpt with fresh := 2097152, freed := [] } }).isNone = true ∧
    ¬ (sqOf full 255).localq.length < 64 ∧ ({ goodSq with reading := some 1 } : Sq).reading ≠ none ∧
    (sessOf (ringBlk { goodSq with session := 6 }) 6).any (·.owesReset) = true := by decide +kernel

theorem wit_RingCommandsCompleteInOrder :
    let entry := [0x7F#8, 0, 1, 0] ++ zeros 60
    let b := { ringBlk { goodSq with localq := [(3, entry)], channel := 2 } with cmd := { r0.cmd with slots :=
      [(9, { session := 5, ring := some 255, cid := 0, phase := .fetching })] } }
    let t : Xfer := { count := 64, localRef := 9, sq := 255 }
    let c := { b with ring := { b.ring with chans := [(2, { act := t, busy := true })] } }
    let free := { b with cmd := r0.cmd }
    let full : Cq := { size := 4, tail := 15, enable := true, wait := [{}] }
    (sqOf r0 255).localq = [] ∧ (sqOf b 255).localq = [(3, entry)] ∧ leAt entry 0 1 = 0x7F ∧ b.pwr.dump ≠ some true ∧ devCause b.dev = 0 ∧
    entryFormOk entry = true ∧ entryFormOk (entry.take 2 ++ [0xFF#8, 0xFF] ++ zeros 60) = false ∧
    (b.cmd.slots.vals.find? fun c => decide (c.ring = some 255 ∧ c.cid = leAt entry 12 2 ∧ c.phase ≠ .done)).isSome = true ∧
    (free.cmd.slots.vals.find? fun c => decide (c.ring = some 255 ∧ c.cid = leAt entry 12 2 ∧ c.phase ≠ .done)) = none ∧
    (cmdOf c 9).map (fun c => (c.ring, c.phase)) = some (some 255, .fetching) ∧ readOf c (ringChan c 255) 9 = some t ∧ (zeros 64).length = t.count ∧
    (mboxOf { r0 with hub := { r0.hub with mbox := [(15, { flushing := true })] } } 15).flushing = true ∧ (mboxOf r0 15).flushing = false ∧
    (Tbl.vals ([(0, { wait := [{ slot := some 9, flushing := true }] })] : Tbl Cq)).findSome? (fun (c : Cq) =>
      c.wait.find? fun x => decide (x.slot = some 9) && x.flushing) = some { slot := some 9, flushing := true } ∧
    cqRoom full = false ∧ cqRoom { full with tail := 14 } = true ∧ (cqOf r0 255).wait = [] ∧
    (chanOf r0 31).transfersOf = [] ∧ (chanOf c 2).transfersOf = [t] ∧ ({ t with count := 0 } : Xfer).flush = false := by decide +kernel

/-- A read that nothing waits for, one of another length, a device that serves no abort, and a completion that waits for its ring. -/
theorem wit_RingCommandsCompleteInOrder_more :
    let c : Cmd := { session := 5, ring := some 255, phase := .fetching }
    let b := { ringBlk goodSq with cmd := { r0.cmd with slots := [(9, c)] } }
    readOf b (ringChan b 255) 9 = none ∧ cmdOf r0 9 = none ∧ (zeros 63).length ≠ ({ count := 64 } : Xfer).count ∧ devCause .kickstand ≠ 0 ∧
    (∀ q ∈ r0.ring.cqs.vals, ∀ x ∈ q.wait, ¬ (x.slot = some 9 ∧ x.flushing = true)) ∧
    (∀ x ∈ [({} : Cpl), { slot := some 9 }, { flushing := true }], ({ wait := [x] } : Cq).wait = [x]) ∧
    ({ irqEn := true, unsignalled := 1 } : Cq).irqEn = true ∧ cqRoom { size := 4, enable := true } = true ∧
    ({ count := 0, flush := true } : Xfer).flush = true ∧ ({ eocIrq := true } : Chan).eocIrq = true := by decide +kernel

/-! ### Power, start and monitors -/

theorem wit_PowerStatesAndDumps :
    let b := { r0 with dev := .run, pin := { r0.pin with porN := true, pfailN := true }, pwr := { r0.pwr with pstate := .run } }
    let at_ := fun (p : Option (Nat × Nat × Nat)) => { b with pwr := { b.pwr with prepare := p, backoff := [4] } }
    let busy := { b with evt := { b.evt with inq := [{ sev := 1 }] } }
    b.dev = .run ∧ b.pwr.pstate = .run ∧ quiet b = true ∧ r0.pwr.prepare = none ∧ (at_ (some (4, 3, 0))).pwr.prepare = some (4, 3, 0) ∧
    (List.range (askedFor 3).length).any (fun i => isQuiesced b 3 4 ((askedFor 3).getD i 78)) = true ∧
    (List.range (askedFor 3).length).any (fun i => !isQuiesced busy 3 4 ((askedFor 3).getD i 78)) = true ∧
    0 + 1 < (askedFor 3).length ∧ r0.pwr.backoff = [] ∧ (at_ none).pwr.backoff = [4] ∧ r0.pwr.waking = false ∧
    dumpsOnFail r0 = false ∧ dumpsOnFail b = true ∧ r0.pwr.dump = none ∧ r0.pwr.dumpDone = false ∧ r0.pwr.pfailRose = false := by decide +kernel

/-- In FREEWHEEL's attempt the media engines are asked while the checkpoints are not yet on the medium; the last domain asked; the end of a dump. -/
theorem wit_PowerStatesAndDumps_more :
    let b := { r0 with dev := .run }
    (askedFor 3).length ≤ ((askedFor 3).length - 1) + 1 ∧ (askedFor 2).length ≤ ((askedFor 2).length - 1) + 1 ∧
    ((List.range (askedFor 3).length).any fun i => let d := (askedFor 3).getD i 78; decide (34 ≤ d ∧ d < 50) && !isQuiesced b 3 4 d) = true ∧
    { r0.pwr with dump := some true }.dump = some true ∧ { r0.pwr with dump := some false }.dump = some false ∧
    { r0.pwr with pfailRose := true }.pfailRose = true ∧ { r0.pwr with waking := true }.waking = true := by decide +kernel

theorem wit_BootLadderAndActivation :
    let on := { r0 with pin := { r0.pin with porN := true }, dev := .booting }
    let act := fun (n : Nat) => { on with dev := .activating, boot := { r0.boot with activation := some (n, .mailbox 15) } }
    r0.pin.porN = false ∧ on.pin.porN = true ∧ on.dev = .booting ∧
    (∀ n ∈ (List.range 13).map (· + 1), { on with boot := { r0.boot with step := n } }.boot.step = n) ∧
    (∀ n ∈ [1, 2, 3, 4, 5], (act n).boot.activation = some (n, .mailbox 15)) ∧ commandsDrained (act 2) = true ∧
    commandsDrained (sessBlk { tags := [(31, { st := .active })] }) = false ∧ r0.boot.activation = none := by decide +kernel

theorem wit_MonitorsAndMemoryErrors :
    let b := { r0 with dev := .run, pin := { r0.pin with porN := true }, pwr := { r0.pwr with clocks := BitVec.allOnes 84 } }
    let x := { b with idx := { b.idx with stages := [(2, { slot := 9 }), (3, { slot := 8, complete := true })] } }
    (b.pin.porN = true ∧ ¬ (b.dev = .booting ∧ b.boot.step = 1)) ∧ clockOn b 78 = true ∧ clockOn r0 78 = false ∧ clockOn b 83 = true ∧
    r0.pin.porN = false ∧ ¬ (b.pin.porN = false ∨ (b.pwr.dump = some true ∧ b.pwr.dumpDone = true)) ∧ 1600 < (1601#16).toInt ∧
    (r0.idx.stages.find? fun e => e.2.slot = 9 ∧ e.2.retired = false ∧ e.2.mirror = false) = none ∧
    ((x.idx.stages.find? fun e => e.2.slot = 9 ∧ e.2.retired = false ∧ e.2.mirror = false).map fun e => pastMedium e.2) = some false ∧
    ((x.idx.stages.find? fun e => e.2.slot = 8 ∧ e.2.retired = false ∧ e.2.mirror = false).map fun e => pastMedium e.2) = some true ∧
    (sessOf (sessBlk {}) 5).isSome = true ∧ sessOf r0 5 = none := by decide +kernel

/-! ### Events, registers and the sideband -/

/-- Severity 5 under the highest MIN_SEV of 6, and severity 7, which no MIN_SEV drops. -/
theorem wit_EventsAreNumberedFlushedAndCounted :
    let b := { r0 with pwr := { r0.pwr with pstate := .run }, evt := { r0.evt with nextSeq := 1, minSev := 6, inq := [{ sev := 5 }] } }
    r0.evt.inq = [] ∧ b.evt.inq = [{ sev := 5 }] ∧ b.evt.nextSeq ≠ 0 ∧ b.pwr.pstate ≠ .freewheel ∧ 5 < b.evt.minSev ∧
    ¬ 7 < b.evt.minSev ∧ nextUnitRecs r0 = [] ∧
    nextUnitRecs { r0 with evt := { r0.evt with nextSeq := 2, flushing := true, flushed := 1, flushTo := 1, buf := [(1, { seq := 1 })] } } ≠ [] ∧
    r0.evt.queueLost.toNat + r0.evt.overrun.toNat + r0.evt.droppedFull.toNat = r0.evt.lossSeen ∧
    (1#64).toNat + 0 + 0 ≠ r0.evt.lossSeen ∧ (r0.evt.lossAt.any fun t => decide (r0.now < t + second)) = false ∧ r0.pwr.dump = none := by
  decide +kernel

theorem wit_RegisterMapWrites :
    let b := { r0 with pin := { r0.pin with porN := true }, pwr := { r0.pwr with pstate := .run } }
    (b.pin.porN = true ∧ b.pwr.pstate ≠ .freewheel ∧ b.pwr.pstate ≠ .off) ∧ r0.pin.porN = false ∧ regsUp b = true ∧ regsUp r0 = false ∧
    inRequestArea 0x10040 = true ∧ inRequestArea 0x1F81F = true ∧ inRequestArea 0x10820 = false ∧ inMsixTable 0x40000 = true ∧
    inMsixTable 0x41FFB = true ∧ inMsixTable 0x41FFC = false ∧ inMsixTable 0x42000 = false ∧
    b.msi.mask.getLsbD 511 = true ∧ (vectorControl b 511 0).msi.mask.getLsbD 511 = false ∧ (1#32).getLsbD 0 = true ∧ (0#32).getLsbD 0 = false :=
  by decide +kernel

/-- A masked vector waits in the pending-bit array, reads there, and is sent once when its entry is unmasked (R404). -/
theorem test_masked_vector :
    let b := vector { r0 with pin := { r0.pin with porN := true } } 288
    b.out = [] ∧ regRead4 b 0x42024 = 1 ∧ (regWrite4 b 0x4120C 0).out = [.msix 288] ∧ regRead4 (regWrite4 b 0x4120C 0) 0x42024 = 0 := by
  decide +kernel

/-- MSI-X enabled, the function mask, and a vector that is pending. -/
theorem wit_RegisterMapWrites_msix :
    let on := { r0 with msi := { r0.msi with enable := true, mask := 0 } }
    let pend := { on with msi := { on.msi with pba := 1#512 <<< 511 } }
    { r0.msi with enable := false }.enable = false ∧ on.msi.enable = true ∧ (on.msi.mask.getLsbD 511 || on.msi.fmask) = false ∧
    ({ on.msi with fmask := true }).fmask = true ∧ pend.msi.pba.getLsbD 511 = true ∧ on.msi.pba.getLsbD 511 = false := by decide +kernel

theorem wit_TimeIsSetAndTheAlarmWritten :
    MayBegin 0xBB (.mailbox 15) { opcode := 0xBB } (hubBlk 0xBB []) ∧ leAt ([] : Bytes) 0 8 < 2 ^ 63 ∧ leAt ([] : Bytes) 8 1 ≤ 1 := by
  unfold MayBegin
  decide +kernel

theorem wit_FenceAndAlertPin :
    let b := { r0 with evt := { r0.evt with nextSeq := 1, inq := [{ sev := 6 }] } }
    b.evt.inq = [{ sev := 6 }] ∧ b.evt.nextSeq ≠ 0 ∧ b.pwr.pstate ≠ .freewheel ∧ b.evt.minSev ≤ 6 ∧ r0.pwr.padHold = false ∧
    r0.tdm.fenceReq = false ∧ { r0.pwr with padHold := true }.padHold = true := by decide +kernel

/-! ### Every command -/

/-- A flit of 239 bytes does not exist, one of 240 does. -/
theorem wit_EveryCommandCompletes :
    (zeros 239).length ≠ 240 ∧ (Instr.held 0 (zeros 240)).wellFormed = true ∧ (Instr.perstN).wellFormed = true := by decide +kernel

theorem wit_MemoryFrames :
    regsUp r0 = false ∧ r0.pin.porN = false ∧ { r0.pin with porN := true }.porN = true ∧ State.reset.toBlk = r0 ∧
    (∀ n crossing, Instr.perstN ≠ .mailboxTake (n, crossing)) := by
  refine ⟨by decide, by decide, by decide, rfl, fun n c h => by cases h⟩

/-- The canonical form holds at reset and with one byte listed; a listed byte of 0 breaks it. -/
theorem wit_EveryStepKeepsMemoryCanonical :
    MemoryCanonical State.reset ∧ Memory.wf [(0x10040, 1#8)] = true ∧ Memory.wf [(0x10040, 0#8)] = false ∧
    Memory.wf [(0x10041, 1#8), (0x10040, 1#8)] = false := by
  unfold MemoryCanonical
  decide +kernel

/-! ### The check on commands refuses what is ill formed -/

theorem test_wf_short_flit : (Instr.status 0 0 (zeros 239)).wellFormed = false ∧ (Instr.ident .tandem 0 (zeros 241)).wellFormed = false := by
  decide +kernel
theorem test_wf_tandem_flit : (Instr.resign 0 []).wellFormed = false ∧ (Instr.tandemValueFlit 0 (zeros 241)).wellFormed = false := by
  decide +kernel
theorem test_wf_empty_frame : (Instr.receiveFrame 0 0 [] false).wellFormed = false ∧ (Instr.receiveFrame 0 0 [0] false).wellFormed = true := by
  decide
theorem test_wf_slot : (Instr.get 524288).wellFormed = false ∧ (Instr.get 524287).wellFormed = true := by decide
theorem test_wf_step_slot : (Instr.indexLookup 524288).wellFormed = false ∧ (Instr.tagFailReread 524288 []).wellFormed = false := by decide
theorem test_wf_crank_slot : (Instr.flushingReadDone 524304 true).wellFormed = false ∧ (Instr.flushingReadDone 524303 true).wellFormed = true := by
  decide
theorem test_wf_source : (Instr.identify (.inBand 524288)).wellFormed = false ∧ (Instr.identify (.mailbox 15)).wellFormed = true := by decide
theorem test_wf_size : (Instr.rtcSetWrite 0x1010 0 2).wellFormed = false ∧ (Instr.alarmCtrlWrite 0x1028 0 8).wellFormed = true := by decide

/-! ### Known answers -/

/-- "123456789", the message of every catalogue of CRCs. -/
def digits : Bytes := [0x31#8, 0x32, 0x33, 0x34, 0x35, 0x36, 0x37, 0x38, 0x39]

/-- The CRC-32C of the digits as R43 gives it, and the CRC-32 that Ethernet uses (R24). -/
theorem test_crc32c : crc32c digits = 0xE3069283#32 := by decide +kernel
theorem test_crc32_fcs : crc32Fcs digits = 0xCBF43926#32 := by decide +kernel

/-- FIPS 180-4, the empty message. -/
theorem test_sha256_empty : slice (sha256 []) 0 4 = [0xE3#8, 0xB0, 0xC4, 0x42] := by decide +kernel

/-- The check values of R249 and R322. -/
theorem test_crc64 : crc64 digits = 0x995DC9BBDF1939FA#64 := by decide +kernel
theorem test_crc16 : crc16 digits = 0x29B1#16 := by decide +kernel

/-- R248, the 4+2 stripe: both parity rows, and the data with members 1 and 3 lost. -/
theorem test_rs_parity : rsRow 0 [[0x01#8], [0x02#8], [0x10#8], [0x80#8]] = [0xB5#8] ∧
    rsRow 1 [[0x01#8], [0x02#8], [0x10#8], [0x80#8]] = [0xBB#8] := by decide +kernel
theorem test_rs_decode : rsDecode 4 [some [0x01#8], none, some [0x10#8], none, some [0xB5#8], some [0xBB#8]] =
    some [[0x01#8], [0x02#8], [0x10#8], [0x80#8]] := by decide +kernel

/-- The example of the in-flight table (R123): home bucket and fingerprint of a digest; bit 77 of the word lies outside mask M1. -/
theorem test_home_and_fingerprint :
    homeOf 0x7A510C9E44D286F31B08E7C52F6A93D4#128 = 795513812 ∧ fingerprint 0x7A510C9E44D286F31B08E7C52F6A93D4#128 = 0x7A#8 ∧
    let w := camWord 0x7A510C9E44D286F31B08E7C52F6A93D4#128 12 1
    maskHit (maskOf r0 0) w (w ^^^ (1#160 <<< 77)) = false ∧ maskHit (maskOf r0 1) w (w ^^^ (1#160 <<< 77)) = true := by decide +kernel

/-- The example of R293: 1,920 intervals leave the bucket at −32, one more admits. -/
theorem test_bucket_refill :
    let b : Bucket := { tokens := -15728672, rate := 0x200000, depth := 16777216, enabled := true, at_ := 0 }
    (bucketNow (1920 * 1024) b).tokens = -32 ∧ bucketRefuses (1920 * 1024) b = true ∧ bucketRefuses (1921 * 1024) b = false ∧
    (bucketNow (1921 * 1024) b).tokens = 8160 := by decide +kernel

/-- The example of R139: serial 0x2C4F19A3 on side 1, CTR_1 0x5712344. -/
theorem test_iv : ivOf 0x2C4F19A3 1 0x5712344 = beBytes 4 0x589E3347 ++ beBytes 8 0x5712344 := by decide +kernel

/-- The example of R412: the time and the alarm of one hour later, written by register and read back. -/
theorem test_rtc_registers :
    let on := { r0 with pin := { r0.pin with porN := true }, pwr := { r0.pwr with pstate := .run } }
    let b := regWrite4 (regWrite8 (regWrite8 on 0x1010 0x000035A4E9000000#64) 0x1020 0x000035A4F0080000#64) 0x1028 0x80000000#32
    b.time.seconds = 0x6B49D200#48 ∧ b.time.sub = 0 ∧ b.time.valid = true ∧ b.time.alarm = 0x000035A4F0080000#63 ∧ b.time.alarmEn = true ∧
    b.time.alarmHit = false := by decide +kernel

/-- The command of the example after R72: a PUT of 10,000 bytes under a 15-byte key. -/
theorem test_command_head :
    let h := parseHead (beBytes 2 12 ++ beBytes 2 15 ++ [1#8, 0, 0, 0] ++ beBytes 8 10000 ++ beBytes 8 0x07319C02 ++ zeros 8)
    h = { ns := 12, keyLen := 15, cond := 1, valueLen := 10000, expect := 0x07319C02 } ∧ 32 + keyPadded h.keyLen + h.valueLen = 10048 := by
  decide +kernel

/-- The NAK of the example of R62, step 5 and step 6: ACK 5,001 and the SACK block whose last byte is 0x03 leave only frame 5,001. -/
theorem test_nak_leaves_the_lost_frame :
    let ss : Session := { peerAck := 5000, txNext := 5004, retained := [{ seq := 5000 }, { seq := 5001 }, { seq := 5002 }, { seq := 5003 }] }
    let h : CktHdr := { type := 0x8, session := 5, seq := 1001, ack := 5001, credit := 64, sackOff := 8, payloadLen := 40 }
    let p := beBytes 4 5001 ++ beBytes 2 1 ++ zeros 33 ++ [3#8]
    ((takeAck ss h p).retained.map (·.seq)) = [5001] ∧ (takeAck ss h p).peerAck = 5001 ∧ nakSeqs h p = [5001] := by decide +kernel

/-- The truing example of R232, references 0 and 1: 162 is not below 168 − 10, so reference 0 stays; 139 is, so reference 1 moves. -/
theorem test_truing_move :
    let b := { bandBlk with spokes := [(14, { sstate := 1, profile := some { offsetCount := 3, offsetUnit := 1000, offsetRange := 40 } })] }
    let x : TRun := { spoke := 14, pga := pga0, code := [-3, -5, -6], f0 := 168, fm := 171, ph := 1, dir := 1, limit := 40 }
    let y : TRun := { x with k := 1, fm := 139, dir := -1 }
    let after := fun (z : TRun) (best : Nat) => ((tryMove { b with med := { b.med with truns := [(2, z)] } } 2 z best).med.truns.get? 2).map
      fun r => (r.code, r.f0, r.k)
    after x 162 = some ([-3, -5, -6], 168, 1) ∧ after y 139 = some ([-3, -7, -6], 139, 1) := by decide +kernel

/-- A trial image fails step 7 for the first time (the example of R369): FAIL_STEP 7, FAIL_COUNT 1, ALT_MASK bit 6. -/
theorem test_fail_record :
    let r := failRec 7 { good := true, pendingSlot := 1 }
    r.failStep = 7 ∧ r.failCount = 1 ∧ r.altMask.testBit 6 = true ∧ (failRec 7 r).failCount = 2 := by decide +kernel

/-- The example of R301: 85 °C at MAX_STEP 2 raises the step to 3, and that begins the override with 0xE043. -/
theorem test_thermal_override :
    let b := { r0 with loops := { r0.loops with step := 2, policy := [(0x1C, 2)] } }
    (match execThermalStepRise 1360#16 { State.reset with toBlk := b } with
     | .next t => (t.loops.step, t.evt.inq.map (·.code))
     | _ => (0, [])) = (3, [0xE043]) := by decide +kernel

/-- The example of R419: a request of 735 mV is code 11. -/
theorem test_core_vid :
    let b := { r0 with loops := { r0.loops with vcore := 735 } }
    (match execVcoreStep 735 { State.reset with toBlk := b } with
     | .next t => t.pin.vid
     | _ => 0) = 11 := by decide +kernel

/-- The abort example: tag 7 QUEUED is answered ABORTED and OK, and is COMPLETING; its FINAL frame then makes it IDLE. -/
theorem test_abort_of_a_queued_tag :
    let ab : RxFrame := { hdr := { type := 0x9, session := 5, seq := 2004 }, payload := [7#8, 0, 0, 0] }
    let b := sessBlk { rxNext := 2004, edge := 2260, store := [ab], tags := [(7, { st := .queued, opcode := 0x03 })] }
    (match execAbort 5 { State.reset with toBlk := b } with
     | .next t => (sessOf t.toBlk 5).map fun ss => ((tagOf ss 7).st, ss.respq.length, ss.rxNext)
     | _ => none) = some (.completing, 2, 2005) := by decide +kernel

/-- The example of R137: block 517 of a plaintext is covered by the counter block whose low word is 519. -/
theorem test_ctr_block (ks : List Bytes) (iv : Bytes) : ctrBlock ks iv (0 + 517 + 1) = aesEncWith ks (slice iv 0 12 ++ beBytes 4 519) := rfl

end Sys2Proof.Tests
end

section
/-! PROOFS. The statements of the family of the scope: Iawatal commands for spokes, ports, policies and buckets; mailboxes and the
end of jobs; the event recorder; writes of the register map. -/

namespace Sys2Proof.Machine

/-! ### Iawatal commands: spokes, ports, policies, buckets, CAM banks (R314, R316) -/

/-- A port and a sub-MAC of its mode are there (R11). -/
theorem submacMissing_eq_false {s : Blk} {r : Request} (hp : par r 0 1 ≤ 15) (hq : par r 1 1 < modeOf s (par r 0 1)) :
    submacMissing s r = false := by
  simpa [submacMissing] using ⟨hp, hq⟩

/-- Settles O40: each command by `gives_admin`; the checks that the statement writes out by its operands are discharged first. -/
theorem spokePortAndPolicyCommands : Obligations.SpokePortAndPolicyCommands := by
  intro s src r b p q
  refine ⟨fun m (hp : par r 0 1 ≤ 15) => ?_, fun m hchk hroom => ?_,
    fun m (hp : par r 0 1 ≤ 15) (hpow : s.pin.pwren.getLsbD (par r 0 1) = true) => ?_,
    fun m (hp : par r 0 1 ≤ 15) (hq : par r 1 1 = 1 ∨ par r 1 1 = 2 ∨ par r 1 1 = 4 ∨ par r 1 1 = 8) => ?_,
    fun m hchk => ?_, fun m hchk => ?_, fun m => ?_,
    fun m hp hq (h2 : par r 2 2 = 0) (h10 : par r 10 2 = 0) => ?_, fun m hchk => ?_, fun m hchk => ?_, fun m hchk => ?_,
    fun m (hq : par r 1 1 ≤ 1) hroom => ?_⟩
  · -- SPOKE_QUERY
    exact gives_admin rfl m (checks_none (by simpa using hp)) rfl
  · -- POOL_FORMAT
    exact gives_admin rfl m hchk (startJob_of_room hroom)
  · -- SPOKE_REMOVE
    exact gives_admin rfl m (checks_none (by simpa [hpow] using hp)) rfl
  · -- PORT_MODE
    have mode : [1, 2, 4, 8].contains (par r 1 1) = true := by simpa using hq
    exact gives_admin rfl m (checks_none (by rw [mode]; simpa using hp)) rfl
  · -- SUBMAC_SET
    exact gives_admin rfl m hchk rfl
  · -- PFC_SET
    exact gives_admin rfl m hchk rfl
  · -- CKT_PORT
    exact gives_admin rfl m rfl rfl
  · -- TAKEOVER_MAP
    have there := submacMissing_eq_false (s := s.toBlk) (r := r) hp hq
    exact gives_admin rfl m (checks_none (by simpa [there] using ⟨h2, h10⟩)) rfl
  · -- POLICY_SET
    exact gives_admin rfl m hchk rfl
  · -- POLICY_GET
    exact gives_admin rfl m hchk rfl
  · -- BUCKET_SET
    exact gives_admin rfl m hchk rfl
  · -- CAM_MODE
    exact gives_admin rfl m (checks_none (by simpa using hq)) (startJob_of_room hroom)

/-! ### Mailboxes (R307, R308, R311) -/

theorem mbGoFn_engaged (n : Fin 16) (s : Blk) (h : (mboxOf s n.val).busy = true ∨ (mboxOf s n.val).done = true) :
    mbGoFn n s = raise s 0xB001 3 78 [BitVec.ofNat 8 n.val] := by
  have payload : pl [(1, n.val)] = [BitVec.ofNat 8 n.val] := by simp [pl, leBytes]
  rw [mbGoFn, if_pos h, payload, domHub]

theorem mbGoFn_again (n : Fin 16) (s : Blk) (hb : (mboxOf s n.val).busy = false) (hd : (mboxOf s n.val).done = false)
    (hg : (mboxOf s n.val).go = true) : mbGoFn n s = s := by
  simp [mbGoFn, hb, hd, hg]

theorem mbGoFn_idle (n : Fin 16) (s : Blk) (hb : (mboxOf s n.val).busy = false) (hd : (mboxOf s n.val).done = false)
    (hg : (mboxOf s n.val).go = false) :
    mbGoFn n s = (let s1 := idleExit (setMbox s n.val { mboxOf s n.val with go := true })
      { s1 with hub := { s1.hub with waiting := s1.hub.waiting ++ [.mailbox n] } }) := by
  simp [mbGoFn, hb, hd, hg]

/-- What the hub must find to take a mailbox's request: it heads the queue, the executor has room and holds none of this mailbox,
and the hub serves. -/
def MayTake (n : Fin 16) (s : Blk) : Prop :=
  s.hub.waiting.head? = some (.mailbox n) ∧ s.hub.exec.length < 4 ∧ hubServes s = true ∧
    (s.hub.exec.any fun e => decide (e.1 = .mailbox n)) = false

theorem mailboxTakeFn_refused (n : Fin 16) (crossing : Bool) (area : Bytes) (s : Blk) (h : ¬ MayTake n s) :
    mailboxTakeFn n crossing area s = s := by
  unfold mailboxTakeFn
  split
  case h_1 src rest hq =>
    refine if_neg fun ⟨hsrc, hroom, hserves, hnone⟩ => h ⟨by rw [hq, hsrc, List.head?_cons], hroom, hserves, ?_⟩
    rw [← hsrc]
    exact Bool.eq_false_iff.2 hnone
  case h_2 => rfl

theorem mailboxTakeFn_taken (n : Fin 16) (crossing : Bool) (area : Bytes) (s : Blk) (rest : List Source)
    (hq : s.hub.waiting = .mailbox n :: rest) (h : MayTake n s) :
    mailboxTakeFn n crossing area s =
      (let rest' := if crossing then rest ++ [.mailbox n] else rest
       let s1 := setMbox { s with hub := { s.hub with waiting := rest' } } n.val
         { mboxOf s n.val with go := crossing, busy := true, progress := 0 }
       hubPull rest'.length (hubTake s1 (.mailbox n) (parseRequest area))) := by
  obtain ⟨-, hroom, hserves, hnone⟩ := h
  simp only [mailboxTakeFn, hq]
  exact if_pos ⟨trivial, hroom, hserves, Bool.eq_false_iff.1 hnone⟩

/-! ### The end of a job (R313) -/

theorem jobEndFn_not_running (s : Blk) (id failed : Nat) (h : ∀ j, s.hub.jobs.get? id = some j → j.jstate ≠ 1) :
    jobEndFn id failed s = s := by
  unfold jobEndFn
  split
  case h_1 => rfl
  case h_2 j hj =>
    obtain ⟨hget, hrun⟩ := Option.filter_eq_some_iff.1 hj
    exact absurd (of_decide_eq_true hrun) (h j hget)

/-- What the end of a running job does by its kind. -/
theorem jobEndFn_running (s : Blk) (id failed : Nat) (j : Job) (hget : s.hub.jobs.get? id = some j) (hrun : j.jstate = 1) :
    jobEndFn id failed s = match j.kind with
      | .selfTest ext => selfTestEnd s id failed ext
      | .nsDelete n => nsDeleteEnd s id n
      | .retireGen t g => if (s.cip.pages.get? t).any (fun p => p.gens.any fun x => x.gen == g) then s else endJob s id 2 0 0
      | .poolFormat mask share => endJob (formatPool s mask share) id 2 0 0
      | .camMode _ _ left taken => if left = 0 then endJob s id 2 0 taken else s
      | .handover => finishDrain s
      | .failback => finishDrain s
      | .powerEnter _ _ _ => s
      | .fwCommit => commitEnd s id := by
  have hj : (s.hub.jobs.get? id).filter (·.jstate = 1) = some j := by simp [hget, Option.filter, hrun]
  generalize hk : j.kind = kind
  cases kind <;> simp only [jobEndFn, hj, hk, stOk]

/-- Settles O42: a mailbox by its bits and by `MayTake`; a job by `jobEndFn_running`. -/
theorem mailboxesAndJobs : Obligations.MailboxesAndJobs := by
  refine ⟨fun s n => ⟨fun h => ?_, fun hb hd hg => ?_, fun hb hd hg => ?_, gives_of rfl rfl, fun rest crossing hq hroom hserves hnone => ?_,
    fun crossing h => ?_⟩, fun s id failed => ⟨fun h => ?_, fun j hget hrun => ?_, fun j hget hrun => ?_⟩⟩
  · exact gives_of rfl (mbGoFn_engaged n _ h)
  · exact gives_of rfl (mbGoFn_again n _ hb hd hg)
  · exact gives_of rfl (mbGoFn_idle n _ hb hd hg)
  · exact gives_of rfl (mailboxTakeFn_taken n crossing _ _ rest hq ⟨by rw [hq, List.head?_cons], hroom, hserves, hnone⟩)
  · refine gives_of rfl (mailboxTakeFn_refused n crossing _ _ fun ⟨hhead, hroom, hserves, hnone⟩ => ?_)
    rcases h with h | h | h | h
    · exact h hhead
    · omega
    · simp [hserves] at h
    · simp [hnone] at h
  · exact gives_of rfl (jobEndFn_not_running _ id failed fun j hj => by simp [h] at hj)
  · exact gives_of rfl (jobEndFn_not_running _ id failed fun j' hj => by cases hget.symm.trans hj; exact hrun)
  · have ends := jobEndFn_running _ id failed j hget hrun
    refine ⟨fun ext hk => ?_, fun n hk hfl => ?_, fun n hk _ => ?_, fun t g hk hgone => ?_, fun mask share hk => ?_,
      fun m w taken hk => ?_, fun hk => ?_, fun hk => ?_⟩
    · exact gives_of rfl (ends.trans (by rw [hk]))
    · exact gives_of rfl (ends.trans (by rw [hk]; exact if_pos hfl))
    · exact gives_of rfl (ends.trans (by rw [hk]))
    · exact gives_of rfl (ends.trans (by rw [hk]; exact if_neg (ne_true_of_eq_false hgone)))
    · exact gives_of rfl (ends.trans (by rw [hk]))
    · exact gives_of rfl (ends.trans (by rw [hk]; exact if_pos rfl))
    · rcases hk with hk | hk <;> exact gives_of rfl (ends.trans (by rw [hk]))
    · exact gives_of rfl (ends.trans (by rw [hk]))

/-! ### The event recorder (R394-R400, R403) -/

/-- A stored record takes its slot and the next number; only OVERRUN and the ceiling depend on what the buffer held (R394, R396). -/
theorem storeRec_evt (s : Blk) (r : EvRec) : ∃ lost ceil, (storeRec s r).evt =
    { s.evt with buf := s.evt.buf.set (r.seq % 65536) r, nextSeq := r.seq + 1, overrun := lost, ceiling := ceil } := by
  simp only [storeRec, raiseCeiling]
  split <;> exact ⟨_, _, rfl⟩

theorem storeRec_reg (s : Blk) (r : EvRec) : (storeRec s r).reg = s.reg := by cases s; rfl

/-- What follows the storing of event `e` as record `n`: the flush and EVENT of a severe one, the alert, the 75 % flush (R398,
R410, R425). Apart from `storeRec`, so that its fields are read off a state that nothing computes. -/
def afterStore (s : Blk) (e : Ev) (n : Nat) : Blk :=
  let asked := if 6 ≤ e.sev then { s with evt := { s.evt with flushTo := n }, reg := { s.reg with smbEvent := true } } else s
  let alerted := if asked.reg.alertSev ≤ e.sev then alert asked 4 else asked
  if 49152 ≤ (unflushed alerted).length then { alerted with evt := { alerted.evt with flushing := true } } else alerted

theorem acceptEv_of_kept {s : Blk} {e : Ev} (h : ¬ (e.sev < s.evt.minSev ∧ e.sev < 7)) :
    acceptEv s e = afterStore (storeRec s (recordOf s e s.evt.nextSeq)) e s.evt.nextSeq := if_neg h

theorem afterStore_evt (s : Blk) (e : Ev) (n : Nat) :
    ∃ fl, (afterStore s e n).evt = { s.evt with flushTo := if 6 ≤ e.sev then n else s.evt.flushTo, flushing := fl } := by
  refine ⟨(afterStore s e n).evt.flushing, ?_⟩
  by_cases h6 : 6 ≤ e.sev
  · simp only [afterStore, h6, if_true]
    split <;> split <;> simp
  · simp only [afterStore, h6, if_false]
    split <;> split <;> simp

theorem afterStore_reg (s : Blk) (e : Ev) (n : Nat) : (afterStore s e n).reg = { s.reg with
    smbEvent := decide (6 ≤ e.sev) || s.reg.smbEvent,
    alertStatus := if s.reg.alertSev ≤ e.sev then s.reg.alertStatus ||| 16#8 else s.reg.alertStatus } := by
  by_cases h6 : 6 ≤ e.sev <;> by_cases ha : s.reg.alertSev ≤ e.sev <;> simp only [afterStore, h6, ha, if_true, if_false]
  all_goals split <;> simp

/-- A kept event, field by field (R394, R396, R398, R410, R425). -/
theorem acceptEv_kept (s : Blk) (e : Ev) (h : ¬ (e.sev < s.evt.minSev ∧ e.sev < 7)) :
    let t := acceptEv s e
    t.evt.inq = s.evt.inq ∧ t.evt.nextSeq = s.evt.nextSeq + 1 ∧
    t.evt.buf = s.evt.buf.set (s.evt.nextSeq % 65536) (recordOf s e s.evt.nextSeq) ∧
    t.evt.log = s.evt.log ∧ t.evt.flushed = s.evt.flushed ∧
    t.evt.flushTo = (if 6 ≤ e.sev then s.evt.nextSeq else s.evt.flushTo) ∧
    t.reg.smbEvent = (decide (6 ≤ e.sev) || s.reg.smbEvent) ∧
    t.reg.alertStatus = (if s.reg.alertSev ≤ e.sev then s.reg.alertStatus ||| 16#8 else s.reg.alertStatus) := by
  obtain ⟨lost, ceil, hstore⟩ := storeRec_evt s (recordOf s e s.evt.nextSeq)
  obtain ⟨fl, hafter⟩ := afterStore_evt (storeRec s (recordOf s e s.evt.nextSeq)) e s.evt.nextSeq
  rw [acceptEv_of_kept h]
  intro t
  rw [hafter, hstore, afterStore_reg, storeRec_reg]
  exact ⟨rfl, rfl, rfl, rfl, rfl, rfl, rfl, rfl⟩

theorem acceptEv_of_filtered (s : Blk) (e : Ev) (hmin : e.sev < s.evt.minSev) (h7 : e.sev < 7) : acceptEv s e = s :=
  if_pos ⟨hmin, h7⟩

theorem recorderRuns_iff (s : Blk) : recorderRuns s = true ↔ s.evt.nextSeq ≠ 0 ∧ s.pwr.pstate ≠ .freewheel := by
  simp [recorderRuns]

theorem eventAcceptFn_idle (s : Blk) (h : s.evt.inq = [] ∨ recorderRuns s = false) : eventAcceptFn s = s := by
  unfold eventAcceptFn
  split
  case h_1 e rest hq =>
    rcases h with h | h
    · simp [hq] at h
    · simp [h]
  case h_2 => rfl

theorem eventAcceptFn_cons (s : Blk) (e : Ev) (rest : List Ev) (hq : s.evt.inq = e :: rest) (hr : recorderRuns s = true) :
    eventAcceptFn s = acceptEv { s with evt := { s.evt with inq := rest } } e := by
  simp only [eventAcceptFn, hq, hr, if_true]

theorem flushUnitFn_idle (s : Blk) (ok : Bool) (h : nextUnitRecs s = [] ∨ s.pwr.dump ≠ none) : flushUnitFn ok s = s :=
  if_pos (by simpa [Option.isSome_iff_ne_none] using h)

theorem flushUnitFn_run (s : Blk) (ok : Bool) (hu : nextUnitRecs s ≠ []) (hd : s.pwr.dump = none) :
    flushUnitFn ok s = if ok = false then raise s 0xD004 4 80 [] else
      let x := flushRecs s (nextUnitRecs s)
      if (unflushed x).length < 16384 then { x with evt := { x.evt with flushing := false } } else x :=
  if_neg (by simp [hu, hd])

/-- Settles O49: the queue's head is taken and judged by MIN_SEV; the flush and the loss report are read off their functions. -/
theorem eventsAreNumberedFlushedAndCounted : Obligations.EventsAreNumberedFlushedAndCounted := by
  intro s
  refine ⟨fun h => ?_, fun e rest hq hr => ⟨fun hmin h7 => ?_, fun hs => ?_⟩, ⟨fun h ok => ?_, fun hu hd => ⟨?_, ?_⟩⟩, fun h => ?_, fun hsum hlate => ?_⟩
  · refine gives_of rfl (eventAcceptFn_idle _ (h.imp_right fun hn => ?_))
    rwa [← Bool.not_eq_true, recorderRuns_iff]
  · exact gives_of rfl ((eventAcceptFn_cons _ e rest hq ((recorderRuns_iff _).2 hr)).trans (acceptEv_of_filtered _ e hmin h7))
  · refine reaches_of rfl ?_
    rw [eventAcceptFn_cons _ e rest hq ((recorderRuns_iff _).2 hr)]
    exact acceptEv_kept _ e fun ⟨hmin, h7⟩ => hs.elim (Nat.not_le.2 hmin) (Nat.not_le.2 h7)
  · exact gives_of rfl (flushUnitFn_idle _ ok h)
  · exact gives_of rfl (flushUnitFn_run _ false hu hd)
  · exact gives_of rfl (flushUnitFn_run _ true hu hd)
  · exact gives_of rfl (if_pos h)
  · exact gives_of rfl (if_neg (by simp [hsum, hlate]))

/-! ### Writes of the register map (R404-R411) -/

theorem regsUp_iff (s : Blk) : regsUp s = true ↔ s.pin.porN = true ∧ s.pwr.pstate ≠ .freewheel ∧ s.pwr.pstate ≠ .off := by
  simp [regsUp, and_assoc]

theorem regsUp_eq_false {s : Blk} (h : ¬ (s.pin.porN = true ∧ s.pwr.pstate ≠ .freewheel ∧ s.pwr.pstate ≠ .off)) : regsUp s = false := by
  rwa [← Bool.not_eq_true, regsUp_iff]

/-- The vectors of a W1C write, bit by bit (R8, R410). -/
theorem alertClear_eq (v : BitVec 32) (hw : BitVec 8) (s : Blk) :
    alertClear v hw s =
      ((List.range 8).filter fun n => hw.getLsbD n && s.reg.alertMask.getLsbD n &&
        (!s.reg.alertStatus.getLsbD n || (v.truncate 8 : BitVec 8).getLsbD n)).foldl (fun b n => vector b (304 + n))
        { s with reg := { s.reg with alertStatus := (s.reg.alertStatus &&& ~~~(v.truncate 8)) ||| hw } } := by
  simp only [alertClear, forEach]
  congr 1
  refine List.filter_congr fun n hn => ?_
  simp [List.mem_range.1 hn]

theorem alertMask_eq (v : BitVec 32) (s : Blk) :
    alertMask v s =
      ((List.range 8).filter fun n => (v.truncate 8 : BitVec 8).getLsbD n && !s.reg.alertMask.getLsbD n &&
        s.reg.alertStatus.getLsbD n).foldl (fun b n => vector b (304 + n))
        { s with reg := { s.reg with alertMask := v.truncate 8 } } := by
  simp only [alertMask, forEach]
  congr 1
  refine List.filter_congr fun n hn => ?_
  simp [List.mem_range.1 hn]

theorem rtcSubRead_up {s : Blk} (h : regsUp s = true) :
    rtcSubRead s = emit { s with time := { s.time with latched := s.time.seconds } }
      (.mmio (BitVec.ofNat 64 ((if s.time.valid then 2 ^ 31 else 0) + s.time.sub.toNat))) := by
  have word : rtcSubWord s.time = (if s.time.valid then 2 ^ 31 else 0) + s.time.sub.toNat := by
    simp only [rtcSubWord, boolNat]; split <;> simp
  rw [rtcSubRead, if_pos h, word]

theorem regWriteFn_four {s : Blk} {off : Nat} {v : Bytes} (h : regsUp s = true) (hl : v.length = 4) (ha : off % 4 = 0) :
    regWriteFn off v s = regWrite4 s off (BitVec.ofNat 32 (leNat v)) := by
  rw [regWriteFn, if_neg (by simp [h]), if_pos ⟨hl, ha⟩]

theorem regWriteFn_eight {s : Blk} {off : Nat} {v : Bytes} (h : regsUp s = true) (hl : v.length = 8) (ha : off % 8 = 0) :
    regWriteFn off v s = regWrite8 s off (BitVec.ofNat 64 (leNat v)) := by
  rw [regWriteFn, if_neg (by simp [h]), if_neg (by omega), if_pos ⟨hl, ha⟩]

theorem regWriteFn_other {s : Blk} {off : Nat} {v : Bytes} (h4 : ¬ (v.length = 4 ∧ off % 4 = 0)) (h8 : ¬ (v.length = 8 ∧ off % 8 = 0)) :
    regWriteFn off v s = s := by
  rw [regWriteFn, if_neg h4, if_neg h8, ite_self]

theorem execRegisterWrite_down {s : State} (off : Nat) (v : Bytes) (h : regsUp s.toBlk = false) : execRegisterWrite off v s = .next s := by
  simp [execRegisterWrite, regWriteFn, h]

/-- A byte that the write carries into the memory behind the BAR is read back; the two kinds of area are those of `barCells`. -/
theorem memRead_barCells_inside (m : List Host.Cell) (off : Nat) (v : Bytes) (a : Nat) (h : off ≤ a ∧ a < off + v.length)
    (hin : inRequestArea a = true ∨ (inMsixTable a = true ∧ (v.length = 4 ∨ v.length = 8) ∧ off % v.length = 0)) :
    memRead (storeCells m (barCells off v)) a = v.getD (a - off) 0 := by
  refine memRead_store _ _ _ _ (fun c hc hca => ?_) ⟨(a, v.getD (a - off) 0), (barCells_mem _ _ _).2 ⟨⟨a - off, by omega, ?_⟩, hin⟩, rfl⟩
  · obtain ⟨⟨i, -, rfl⟩, -⟩ := (barCells_mem _ _ _).1 hc
    obtain rfl : off + i = a := hca
    rw [Nat.add_sub_cancel_left]
  · rw [Nat.add_sub_cancel' h.1]

theorem memRead_barCells_outside (m : List Host.Cell) (off : Nat) (v : Bytes) (a : Nat)
    (h : a < off ∨ off + v.length ≤ a ∨ (inRequestArea a = false ∧ inMsixTable a = false)) :
    memRead (storeCells m (barCells off v)) a = memRead m a := by
  refine memRead_store_none _ _ _ fun c hc hca => ?_
  obtain ⟨⟨i, hi, rfl⟩, hin⟩ := (barCells_mem _ _ _).1 hc
  obtain rfl : off + i = a := hca
  rcases h with h | h | ⟨hreq, hmsi⟩
  · omega
  · omega
  · simp [hreq, hmsi] at hin

/-- A write while the map is reached: the registers take `regWriteFn`, the memory takes `barCells`, the queue is as it was. -/
theorem registerWrite_up {s : State} (off : Nat) (v : Bytes) (h : regsUp s.toBlk = true) :
    exec (.registerWrite off v) s = .next { s with toBlk := regWriteFn off v s.toBlk, mem := storeCells s.mem (barCells off v) } := by
  rw [exec, execRegisterWrite, if_pos h]

theorem regWrite4_unmapped (s : Blk) (off : Nat) (v : BitVec 32)
    (h : off < 0x018 ∨ (0x02C ≤ off ∧ off < 0x1010) ∨ (0x102C ≤ off ∧ off < 0x10000) ∨ (0x32000 ≤ off ∧ off < 0x40000) ∨ 0x42000 ≤ off) :
    regWrite4 s off v = s := by
  simp (disch := omega) only [regWrite4, if_neg]

/-- The fourth word of MSI-X table entry `n` is its vector control (R404). -/
theorem regWrite4_msix (s : Blk) (n : Fin 512) (v : BitVec 32) : regWrite4 s (0x4000C + n.val * 16) v = vectorControl s n.val v := by
  have hn := n.isLt
  have entry : (0x4000C + n.val * 16 - 0x40000) / 16 = n.val := by omega
  simp (disch := omega) only [regWrite4, if_neg, if_pos, entry]

/-- Settles O50: each write is judged by `regsUp`, then by its size, then by its offset. -/
theorem registerMapWrites : Obligations.RegisterMapWrites := by
  refine ⟨fun s => ⟨fun hoff v hw => ?_, fun hon => ⟨fun v hw => ?_, fun v => ?_, ?_⟩⟩, fun s off value => ?_, fun b v => ?_⟩
  · have down := regsUp_eq_false hoff
    exact ⟨gives_of rfl (if_neg (by simp [down])), gives_of rfl (if_neg (by simp [down])), gives_of rfl (if_neg (by simp [down]))⟩
  · exact gives_of rfl ((if_pos ((regsUp_iff _).2 hon)).trans (alertClear_eq v hw _))
  · exact gives_of rfl ((if_pos ((regsUp_iff _).2 hon)).trans (alertMask_eq v _))
  · exact gives_of rfl (rtcSubRead_up ((regsUp_iff _).2 hon))
  · cases hup : regsUp s.toBlk
    case false => exact ⟨s, execRegisterWrite_down off value hup, rfl, fun _ => rfl, nofun⟩
    case true =>
      refine ⟨_, registerWrite_up off value hup, rfl, nofun, fun _ => ⟨regWriteFn_four hup, regWriteFn_eight hup, regWriteFn_other, ?_, ?_, ?_⟩⟩
      · exact fun a hlo hhi hreq => memRead_barCells_inside _ _ _ _ ⟨hlo, hhi⟩ (.inl hreq)
      · exact fun a hlo hhi hmsi hl ha => memRead_barCells_inside _ _ _ _ ⟨hlo, hhi⟩ (.inr ⟨hmsi, hl, ha⟩)
      · exact memRead_barCells_outside _ _ _
  · refine ⟨rfl, rfl, rfl, rfl, rfl, fun off h => regWrite4_unmapped b off v h, fun n => ⟨?_, ?_, ?_, ?_, ?_⟩⟩
    · exact fun hen => if_pos hen
    · intro hen hmask; rw [vector, if_neg (by simp [hen]), if_pos hmask]
    · intro hen hmask; rw [vector, if_neg (by simp [hen]), if_neg (ne_true_of_eq_false hmask)]
    · intro hv; rw [regWrite4_msix, vectorControl, if_pos hv]
    · intro hv
      rw [regWrite4_msix, vectorControl, if_neg (ne_true_of_eq_false hv)]
      exact ⟨fun h => if_neg (by simpa [and_assoc] using h), fun h => if_pos (by simpa [and_assoc] using h)⟩

end Sys2Proof.Machine
end

section
/-! PROOFS. The statements of the family of the architecture: where a received frame goes; the first step of the key-value
commands; bucket pages, key pages and counter reservations; cells at their engines and domains woken for them. -/

namespace Sys2Proof.Machine

/-! ### The ingress buffer of a class (R33, R35) -/

theorem sendPfc_ingress (s : Blk) (i q : Nat) : (sendPfc s i q).rim.ingress = s.rim.ingress := by
  simp only [sendPfc]; split <;> rfl

theorem pfcOf_sendPfc (s : Blk) (i q j : Nat) : pfcOf (sendPfc s i q) j = pfcOf s j := by
  simp only [sendPfc]; split <;> rfl

/-- Judging a class may begin or end its pause of the partner, and keeps the rest of it and the buffered frames. -/
theorem pfcJudge_keeps (s : Blk) (i : Nat) :
    (pfcJudge s i).rim.ingress = s.rim.ingress ∧ ∃ b, pfcOf (pfcJudge s i) i = { pfcOf s i with pausing := b } := by
  simp only [pfcJudge]
  split
  · exact ⟨sendPfc_ingress .., true, by rw [pfcOf_sendPfc, pfcOf_setPfc_self]⟩
  split
  · exact ⟨sendPfc_ingress .., false, by rw [pfcOf_sendPfc, pfcOf_setPfc_self]⟩
  split
  · exact ⟨rfl, false, pfcOf_setPfc_self ..⟩
  · exact ⟨rfl, (pfcOf s i).pausing, rfl⟩

theorem occupy_ingress (s : Blk) (i n : Nat) : (occupy s i n).rim.ingress = s.rim.ingress :=
  (pfcJudge_keeps _ _).1

theorem pfcOf_occupy_occ (s : Blk) (i n : Nat) : (pfcOf (occupy s i n) i).occ = (pfcOf s i).occ + n := by
  obtain ⟨-, b, h⟩ := pfcJudge_keeps (setPfc s i { pfcOf s i with occ := (pfcOf s i).occ + n }) i
  rw [occupy, h, pfcOf_setPfc_self]

/-! ### A received frame (R24, R28-R31) -/

/-- R31 lets one more slow-path frame of port `p` in, `times` being the admissions of the last second. -/
def SlowRoom (s : Blk) (p : Nat) (times : List (Nat × Nat)) : Prop :=
  (times.filter fun t => t.2 = p).length < 4096 ∧ times.length < 65536 ∧ s.rim.slowq.length < 1024

theorem slowAdmit_room {s : Blk} {p i : Nat} {f : Bytes} {times : List (Nat × Nat)}
    (ht : (s.rim.slowTimes.filter fun t => s.now < t.1 + second) = times) (h : SlowRoom s p times) :
    slowAdmit s p i f = { s with rim := { s.rim with slowq := s.rim.slowq ++ [(p, f)], slowTimes := times ++ [(s.now, p)] } } := by
  subst ht; exact if_pos h

theorem slowAdmit_overrun {s : Blk} {p i : Nat} {f : Bytes} {times : List (Nat × Nat)}
    (ht : (s.rim.slowTimes.filter fun t => s.now < t.1 + second) = times) (h : ¬ SlowRoom s p times) :
    slowAdmit s p i f = countRim { s with rim := { s.rim with slowTimes := times } } i 14 := by
  subst ht; exact if_neg h

/-- The buffered datagram of a CKT frame: its payload, and the way back to its client (R32). -/
def cktDatagram (s : Blk) (p sub : Nat) (f : Bytes) (e : EthFrame) (ip : IpView) : RxDgram :=
  { eg := { port := p, sub := sub, dstMac := e.sa, dstIp := ip.src, dstPort := beAt ip.body 0 2,
            vlan := if e.tagged then some e.vid else none, cls := ingressClass s (subIx p sub) e,
            adopted := !toAddress (cfgOf s (subIx p sub)) ip }
    ecn := ip.ecn, size := f.length, payload := ip.body.drop 8 }

/-! On a sub-MAC that is up: the port's clock runs, and the verdict decides. -/

section
variable {s : Blk} {p sub : Nat} {f : Bytes} {pcsErr : Bool} (hup : subUp s p sub = true)
include hup

theorem receiveFrameFn_drop {c : Nat} (hj : judgeFrame (portUngate s p) p sub f pcsErr = .drop c) :
    receiveFrameFn p sub f pcsErr s = countRim (portUngate s p) (subIx p sub) (c - 1) := by
  rw [receiveFrameFn, if_neg (by simp [hup])]
  simp only [hj]

theorem receiveFrameFn_pfc {l3 : Bytes} (hj : judgeFrame (portUngate s p) p sub f pcsErr = .pfc l3) :
    receiveFrameFn p sub f pcsErr s = pauseReceived (countReceived (portUngate s p) (subIx p sub) f.length) p sub
      (BitVec.ofNat 8 (beAt l3 2 2)) ((List.range 8).map fun c => BitVec.ofNat 16 (beAt l3 (4 + 2 * c) 2)) := by
  rw [receiveFrameFn, if_neg (by simp [hup])]
  simp only [hj]

theorem receiveFrameFn_slow_full (hj : judgeFrame (portUngate s p) p sub f pcsErr = .slow)
    (hfull : bufferFull (portUngate s p) p (clsIx p sub (ingressClass (portUngate s p) (subIx p sub) (parseEth f))) f.length = true) :
    receiveFrameFn p sub f pcsErr s = countRim (portUngate s p) (subIx p sub) 13 := by
  rw [receiveFrameFn, if_neg (by simp [hup])]
  simp only [hj, hfull, if_true]

/-- With buffer, R31 decides (`t`): only a frame that is now in the queue counts as received. -/
theorem receiveFrameFn_slow_free {t : Blk} (hj : judgeFrame (portUngate s p) p sub f pcsErr = .slow)
    (hfree : bufferFull (portUngate s p) p (clsIx p sub (ingressClass (portUngate s p) (subIx p sub) (parseEth f))) f.length = false)
    (ht : slowAdmit (portUngate s p) p (subIx p sub) f = t) :
    receiveFrameFn p sub f pcsErr s =
      if t.rim.slowq.length = (portUngate s p).rim.slowq.length then t else countReceived t (subIx p sub) f.length := by
  rw [receiveFrameFn, if_neg (by simp [hup])]
  simp only [hj, hfree, ht, Bool.false_eq_true, if_false]

theorem receiveFrameFn_ckt_full {e : EthFrame} {ip : IpView} (hj : judgeFrame (portUngate s p) p sub f pcsErr = .ckt e ip)
    (hfull : bufferFull (portUngate s p) p (clsIx p sub (ingressClass (portUngate s p) (subIx p sub) e)) f.length = true) :
    receiveFrameFn p sub f pcsErr s = countRim (portUngate s p) (subIx p sub) 13 := by
  rw [receiveFrameFn, if_neg (by simp [hup])]
  simp only [hj, hfull, if_true]

theorem receiveFrameFn_ckt {e : EthFrame} {ip : IpView} (hj : judgeFrame (portUngate s p) p sub f pcsErr = .ckt e ip)
    (hfree : bufferFull (portUngate s p) p (clsIx p sub (ingressClass (portUngate s p) (subIx p sub) e)) f.length = false) :
    receiveFrameFn p sub f pcsErr s =
      (let t := occupy (countReceived (portUngate s p) (subIx p sub) f.length)
        (clsIx p sub (ingressClass (portUngate s p) (subIx p sub) e)) f.length
       { t with rim := { t.rim with ingress := t.rim.ingress ++ [cktDatagram (portUngate s p) p sub f e ip] } }) := by
  rw [receiveFrameFn, if_neg (by simp [hup])]
  simp only [hj, hfree, Bool.false_eq_true, if_false]
  rfl

end

/-- Settles O2: the verdict by the first cause, then one case for each verdict. -/
theorem receivedFrameGoesWhereTheRulesSend : Obligations.ReceivedFrameGoesWhereTheRulesSend := by
  refine ⟨fun s p sub f pcsErr => ⟨fun h1 => if_pos h1, ?_, ?_, ?_⟩,
    fun s p sub f pcsErr => ⟨fun hdown => gives_of rfl (if_pos hdown), fun hup => ⟨?_, ?_, ?_, ?_, ?_, ?_⟩⟩⟩
  · intro h1 h2
    rw [judgeFrame, if_neg (by simp [h1]), if_pos h2]
  · intro h1 h2 h3
    rw [judgeFrame, if_neg (by simp [h1]), if_neg (by simp [h2]), if_pos h3]
  · intro h1 h2 h3 h4
    rw [judgeFrame, if_neg (by simp [h1]), if_neg (by simp [h2]), if_neg (Nat.not_lt.2 h3), if_pos h4]
  · exact fun c hj => gives_of rfl (receiveFrameFn_drop hup hj)
  · exact fun l3 hj => gives_of rfl (receiveFrameFn_pfc hup hj)
  · exact fun hj hfull => gives_of rfl (receiveFrameFn_slow_full hup hj hfull)
  · intro hj hfree ⟨hall, hport, hq⟩
    exact gives_of rfl ((receiveFrameFn_slow_free hup hj hfree (slowAdmit_room rfl ⟨hport, hall, hq⟩)).trans (if_neg (by simp)))
  · intro hj hfree hover
    exact gives_of rfl ((receiveFrameFn_slow_free hup hj hfree
      (slowAdmit_overrun rfl fun ⟨hport, hall, hq⟩ => hover ⟨hall, hport, hq⟩)).trans (if_pos rfl))
  · refine fun e ip hj => ⟨fun hfull => gives_of rfl (receiveFrameFn_ckt_full hup hj hfull), fun hfree => reaches_of rfl ?_⟩
    rw [receiveFrameFn_ckt hup hj hfree]
    exact ⟨_, congrArg (· ++ _) (occupy_ingress ..), rfl, rfl, rfl, rfl, rfl, rfl, rfl, pfcOf_occupy_occ ..⟩

/-! ### The first step of the key-value commands (R20, R21, R87) -/

theorem startedCmd_none {s : Blk} {slot op : Nat} (h : cmdOf s slot = none) : startedCmd s slot op = none := by
  simp [startedCmd, h]

section
variable {s : Blk} {slot op : Nat} {c : Cmd}

theorem beginRead_started (h : startedCmd s slot op = some c) : beginRead op slot s = handOn s slot c 0x3 := by
  simp only [beginRead, h]

theorem toReserve_started (h : startedCmd s slot op = some c) : toReserve op slot s = handOn s slot c 0x4 := by
  simp only [toReserve, h]

theorem beginRead_none (h : startedCmd s slot op = none) : beginRead op slot s = s := by
  simp only [beginRead, h]

theorem toReserve_none (h : startedCmd s slot op = none) : toReserve op slot s = s := by
  simp only [toReserve, h]

theorem flushFn_none (h : startedCmd s slot 0x05 = none) : flushFn slot s = s := by
  simp only [flushFn, h]

theorem flushFn_started {ss : Session} (h : startedCmd s slot 0x05 = some c) (hs : sessOf s c.session = some ss) :
    flushFn slot s = if (ss.tags.vals.any fun t => notDone t && decide (t.order < c.order)) = true then s
      else failCmd s slot 0 0 0 := by
  simp only [flushFn, h, hs, Option.map_some, Option.getD_some, stOk]

end

/-- A command received before `order` is still to complete (R87). -/
theorem any_notDone_before (tags : List TagCtx) (order : Nat) :
    (tags.any fun t => notDone t && decide (t.order < order)) = true ↔
      ∃ t ∈ tags, t.order < order ∧ (t.st = .queued ∨ t.st = .active ∨ t.st = .committing) := by
  simp [notDone, and_comm, or_assoc]

/-- Settles O11: the command of the slot is found by `startedCmd_of`, and each function hands it on. -/
theorem keyValueCommandsBegin : Obligations.KeyValueCommandsBegin := by
  refine fun s slot => ⟨fun c hc hph => ⟨fun hop => ?_, fun hop => ?_, fun hop => ?_, fun hop => ?_, fun hop ss hss => ?_⟩, fun hnone => ?_⟩
  · exact gives_of rfl (beginRead_started (startedCmd_of hc hph hop))
  · exact gives_of rfl (beginRead_started (startedCmd_of hc hph hop))
  · exact gives_of rfl (toReserve_started (startedCmd_of hc hph hop))
  · exact gives_of rfl (toReserve_started (startedCmd_of hc hph hop))
  · have flush := flushFn_started (startedCmd_of hc hph hop) hss
    simp only [any_notDone_before] at flush
    exact ⟨fun before => gives_of rfl (flush.trans (if_pos before)), fun clear => gives_of rfl (flush.trans (if_neg clear))⟩
  · have idle := fun op => startedCmd_none (op := op) hnone
    exact ⟨gives_of rfl (beginRead_none (idle _)), gives_of rfl (beginRead_none (idle _)), gives_of rfl (toReserve_none (idle _)),
      gives_of rfl (toReserve_none (idle _)), gives_of rfl (flushFn_none (idle _))⟩

/-! ### Key pages and reservations (R132, R135, R140) -/

theorem keyPageFetchFn_free {s : Blk} {n : Nat} (h : (useCluster s).cip.pages.get? n = none) :
    keyPageFetchFn n s = pageCached (useCluster s) n {} := by
  simp only [keyPageFetchFn, h]

theorem keyPageFetchFn_sound {s : Blk} {n : Nat} {p : KeyPage} (h : (useCluster s).cip.pages.get? n = some p)
    (hs : pageSound (useCluster s) p = true) : keyPageFetchFn n s = pageCached (useCluster s) n p := by
  simp only [keyPageFetchFn, h, hs, if_true]

theorem keyPageFetchFn_image {s : Blk} {n : Nat} {p : KeyPage} {image : Bytes} (h : (useCluster s).cip.pages.get? n = some p)
    (hs : pageSound (useCluster s) p = false) (hf : (useCluster s).cip.flashPages.get? n = some image) :
    keyPageFetchFn n s =
      (let s1 := useCluster s
       let q := imagePage s1 n image
       if pageSound s1 q = true then pageCached { s1 with cip := { s1.cip with pages := s1.cip.pages.set n q } } n q else pageLost s1 n) := by
  simp only [keyPageFetchFn, h, hs, hf, Option.map_some, Bool.false_eq_true, if_false]

theorem keyPageFetchFn_lost {s : Blk} {n : Nat} {p : KeyPage} (h : (useCluster s).cip.pages.get? n = some p)
    (hs : pageSound (useCluster s) p = false) (hf : (useCluster s).cip.flashPages.get? n = none) :
    keyPageFetchFn n s = pageLost (useCluster s) n := by
  simp only [keyPageFetchFn, h, hs, hf, Option.map_none, Bool.false_eq_true, if_false]

theorem counterReserved_done {s : Blk} {n side top : Nat}
    (h : s.cip.reserving.find? (fun e => e.1 = n ∧ e.2.1 = side) = some (n, side, top)) :
    counterReserved n side s =
      (let s1 := { s with cip := { s.cip with
         reserving := s.cip.reserving.filter fun e => ¬ (e.1 = n ∧ e.2.1 = side)
         ctrRecs := s.cip.ctrRecs.set (2 * n + side) (ctrRecord s n side top) } }
       freeWaiting (reserveBlock (flashPage s1 n) n side) n) := by
  simp only [counterReserved, h]

theorem counterReserved_idle {s : Blk} {n side : Nat} (h : ∀ e ∈ s.cip.reserving, ¬ (e.1 = n ∧ e.2.1 = side)) :
    counterReserved n side s = s := by
  have absent : s.cip.reserving.find? (fun e => e.1 = n ∧ e.2.1 = side) = none :=
    List.find?_eq_none.2 fun e he => by simpa using h e he
  simp only [counterReserved, absent]

/-! ### Bucket pages (R101) -/

theorem writebackFn_dirty {s : Blk} {b : Nat} (hc : (dirOf s b).cached = true) (hd : (dirOf s b).dirty = true)
    (hb : pageBusy s b = false) :
    writebackFn b s =
      (let d := dirOf s b
       let r := takeWseq s
       let d1 := { d with pageSeq := r.1, dirty := false, spill := trueSpill r.2 b }
       let s1 := useCluster (setDir r.2 b d1)
       let body := xtsEnc s1.cip.xts1 s1.cip.xts2 1 b (bucketPage b d1) ++ zeros 16
       assign { s1 with med := { s1.med with pages := s1.med.pages.set b d.slots } } sysNs 5 hostStream
         { lga := b, kind := 4, body := body, source := some d.pageLoc }) :=
  if_neg (by simp [hc, hd, hb])

/-- Settles O20: the write-back by its condition, a key page by where it is sound, a reservation by whether one is under way. -/
theorem bucketAndKeyPagesAreKept : Obligations.BucketAndKeyPagesAreKept := by
  refine ⟨fun s b => ⟨fun hc hd hb => gives_of rfl (writebackFn_dirty hc hd hb), fun h => gives_of rfl (if_pos h)⟩,
    fun s n => ⟨fun h => ?_, fun p h hs => ?_, fun p image h hs hf => ?_, fun p h hs hf => ?_⟩,
    fun s n side => ⟨fun top h => gives_of rfl (counterReserved_done h), fun h => gives_of rfl (counterReserved_idle h)⟩⟩
  · exact gives_of rfl (keyPageFetchFn_free h)
  · exact gives_of rfl (keyPageFetchFn_sound h hs)
  · exact gives_of rfl (keyPageFetchFn_image h hs hf)
  · exact gives_of rfl (keyPageFetchFn_lost h hs hf)

/-! ### Cells at their engines (R15-R20, R23) -/

section
variable {s s1 : Blk} {i disagree : Nat} {flip : RouteTag} {sent : Cell}

theorem cellArrivalFn_none (h : takeCell s i = none) : cellArrivalFn i flip disagree s = s := by
  simp only [cellArrivalFn, h]

theorem cellArrivalFn_bad (h : takeCell s i = some (sent, s1)) (hbad : rtGood (sent.rt ^^^ flip) = false) :
    cellArrivalFn i flip disagree s = rejectCell s1 sent := by
  simp only [cellArrivalFn, h]
  exact if_pos hbad

/-- Where a good tag takes its cell, by its NEXT_STAGE `n`. -/
theorem cellArrivalFn_good {n : Nat} (h : takeCell s i = some (sent, s1)) (hgood : rtGood (sent.rt ^^^ flip) = true) :
    (rtOf (sent.rt ^^^ flip)).next = n → cellArrivalFn i flip disagree s =
      (let cell := { sent with rt := sent.rt ^^^ flip }
       let r := rtOf cell.rt
       match n with
       | 0x0 => egressCell s1 r cell.payload
       | 0x1 => answerDue s1 r.session r.tag cell.payload
       | 0x3 => beginAt s1 r.slot fun _ => .searching [] false
       | 0x4 => beginAt s1 r.slot fun c => if isReadOp c.opcode then .lookup else .reserving
       | 0x5 => clusterCell s1 cell r disagree
       | 0x6 => assembleCmd s1 r.slot
       | 0x7 => grainRequest s1 r.slot r.grain
       | 0x8 => stageCell s1 r cell.payload
       | 0x9 => mirrorCmd s1 r.slot
       | 0xA => hubSubmit s1 r.slot
       | _ => s1) := by
  rintro rfl
  simp only [cellArrivalFn, h]
  exact if_neg (ne_false_of_eq_true hgood)

end

theorem domainReady_none {s : Blk} {d : Nat} (h : ∀ e ∈ s.cip.gated, e.1 ≠ d) : domainReady d s = s :=
  if_pos (by simpa using h)

theorem domainReady_waiting {s : Blk} {d : Nat} (h : ∃ e ∈ s.cip.gated, e.1 = d) :
    domainReady d s =
      (let s1 := startClock { s with cip := { s.cip with gated := s.cip.gated.filter fun e => e.1 ≠ d } } d
       { s1 with cip := { s1.cip with fabric := s1.cip.fabric ++ (s.cip.gated.filter fun e => e.1 = d).map Prod.snd } }) :=
  if_neg (by simpa using h)

/-- Settles O21: a cell by its tag's check, then by its NEXT_STAGE; a domain by whether cells wait for it. -/
theorem cellsReachTheEngineTheirTagNames : Obligations.CellsReachTheEngineTheirTagNames := by
  refine ⟨fun s i flip disagree => ⟨fun h => gives_of rfl (cellArrivalFn_none h), fun sent s1 h => ⟨fun hbad => ⟨fun hn => ?_, fun hn => ?_⟩,
    fun hgood => ?_⟩⟩, fun s d => ⟨fun h => gives_of rfl (domainReady_none h), fun h => gives_of rfl (domainReady_waiting h)⟩⟩
  · exact gives_of rfl ((cellArrivalFn_bad h hbad).trans (if_pos hn))
  · exact gives_of rfl ((cellArrivalFn_bad h hbad).trans (if_neg hn))
  · have arrives := fun n hn => gives_of (c := .cellArrival i flip disagree) rfl (cellArrivalFn_good (n := n) h hgood hn)
    exact ⟨arrives 0x0, arrives 0x1, arrives 0x3, arrives 0x4, arrives 0x5, arrives 0x6, arrives 0x7, arrives 0x8, arrives 0x9,
      arrives 0xA⟩

end Sys2Proof.Machine
end

section
/-! PROOFS. The statements of the family of the rim: pause received, its timers and pause storms; the judgement of a datagram. -/

namespace Sys2Proof.Machine

/-! ### A received pause (R29, R36) -/

section
variable (p sub : Nat) (enable : BitVec 8) (quanta : List (BitVec 16))

/-- What a received pause does to the pause state of class `c` (R36). -/
def pausedRun (c : Nat) (r : PfcRun) : PfcRun :=
  if enable.getLsbD c = false ∨ r.storm = true then r
  else if (quanta.getD c 0).toNat = 0 then { r with held := false, quanta := 0, heldFrames := [] }
  else { r with held := true, quanta := (quanta.getD c 0).toNat }

theorem pausedRun_ignored {c : Nat} {r : PfcRun} (h : enable.getLsbD c = false ∨ r.storm = true) : pausedRun enable quanta c r = r :=
  if_pos h

/-- A class whose bit is set and that is in no storm takes the pause. -/
theorem pausedRun_honoured {c : Nat} {r : PfcRun} (he : enable.getLsbD c = true) (hs : r.storm = false) :
    pausedRun enable quanta c r = if (quanta.getD c 0).toNat = 0 then { r with held := false, quanta := 0, heldFrames := [] }
      else { r with held := true, quanta := (quanta.getD c 0).toNat } :=
  if_neg fun h => h.elim (ne_false_of_eq_true he) (ne_true_of_eq_false hs)

/-- What a received pause does for class `c` of the sub-MAC. -/
def pauseClass (s : Blk) (c : Nat) : Blk :=
  if enable.getLsbD c = false ∨ (pfcOf s (clsIx p sub c)).storm = true then s
  else if (quanta.getD c 0).toNat = 0 then pfcRelease s (clsIx p sub c)
  else setPfc s (clsIx p sub c) { pfcOf s (clsIx p sub c) with held := true, quanta := (quanta.getD c 0).toNat }

theorem pauseReceived_eq_forEach (s : Blk) :
    pauseReceived s p sub enable quanta = forEach (List.range 8) (pauseClass p sub enable quanta) s := rfl

theorem clsIx_inj {c j : Nat} : clsIx p sub c = clsIx p sub j ↔ c = j := Nat.add_left_cancel_iff

theorem pfcOf_pauseClass_self (s : Blk) (c : Nat) :
    pfcOf (pauseClass p sub enable quanta s c) (clsIx p sub c) = pausedRun enable quanta c (pfcOf s (clsIx p sub c)) := by
  simp only [pauseClass, pausedRun]
  split
  · rfl
  split
  · rw [pfcOf_release, if_pos rfl]
  · exact pfcOf_setPfc_self ..

theorem pfcOf_pauseClass_ne (s : Blk) {c j : Nat} (h : j ≠ c) :
    pfcOf (pauseClass p sub enable quanta s c) (clsIx p sub j) = pfcOf s (clsIx p sub j) := by
  have hix : clsIx p sub j ≠ clsIx p sub c := mt (clsIx_inj p sub).1 h
  simp only [pauseClass]
  split
  · rfl
  split
  · rw [pfcOf_release, if_neg hix]
  · exact pfcOf_setPfc_ne _ _ _ _ hix

/-- Each class is served once, and by its own step alone. -/
theorem pfcOf_forEach_pauseClass (l : List Nat) (hl : l.Nodup) (s : Blk) (c : Nat) :
    pfcOf (forEach l (pauseClass p sub enable quanta) s) (clsIx p sub c) =
      if c ∈ l then pausedRun enable quanta c (pfcOf s (clsIx p sub c)) else pfcOf s (clsIx p sub c) := by
  induction l generalizing s with
  | nil => rfl
  | cons x xs ih =>
    obtain ⟨hx, hxs⟩ := List.nodup_cons.1 hl
    rw [forEach, List.foldl_cons, ← forEach, ih hxs]
    by_cases hc : c = x
    · subst hc
      rw [if_neg hx, if_pos List.mem_cons_self, pfcOf_pauseClass_self]
    · simp only [pfcOf_pauseClass_ne _ _ _ _ s hc, List.mem_cons, hc, false_or]

theorem pfcOf_pauseReceived (s : Blk) (c : Fin 8) :
    pfcOf (pauseReceived s p sub enable quanta) (clsIx p sub c.val) = pausedRun enable quanta c.val (pfcOf s (clsIx p sub c.val)) := by
  rw [pauseReceived_eq_forEach, pfcOf_forEach_pauseClass _ _ _ _ _ List.nodup_range, if_pos (List.mem_range.2 c.isLt)]

/-! What a pause leaves as it was. -/

/-- The block with the rim, the clocks and what has left the device blanked out. -/
def outsideRim (t : Blk) : Blk := { t with rim := {}, pwr := {}, out := [] }

theorem outsideRim_sendNow (s : Blk) (f : TxFrame) : outsideRim (sendNow s f) = outsideRim s := by
  simp only [sendNow]; split <;> rfl

theorem outsideRim_pfcRelease (s : Blk) (i : Nat) : outsideRim (pfcRelease s i) = outsideRim s :=
  forEach_keep outsideRim _ sendNow outsideRim_sendNow _

theorem outsideRim_pauseReceived (s : Blk) : outsideRim (pauseReceived s p sub enable quanta) = outsideRim s := by
  refine forEach_keep outsideRim _ (pauseClass p sub enable quanta) (fun t c => ?_) s
  simp only [pauseClass]
  split
  · rfl
  split
  · exact outsideRim_pfcRelease ..
  · rfl

/-- A pause of no quanta 0 releases nothing: no frame leaves and none is counted. -/
theorem pauseReceived_sends_nothing (s : Blk) (hq : ∀ c : Fin 8, quanta.getD c.val 0 ≠ 0) :
    (pauseReceived s p sub enable quanta).out = s.out ∧ (pauseReceived s p sub enable quanta).pwr = s.pwr ∧
      (pauseReceived s p sub enable quanta).rim.cnt = s.rim.cnt := by
  refine List.foldlRecOn (motive := fun t => t.out = s.out ∧ t.pwr = s.pwr ∧ t.rim.cnt = s.rim.cnt) (List.range 8)
    (pauseClass p sub enable quanta) ⟨rfl, rfl, rfl⟩ fun t ht c hc => ?_
  have hq0 : (quanta.getD c 0).toNat ≠ 0 := fun h => hq ⟨c, List.mem_range.1 hc⟩ (BitVec.eq_of_toNat_eq h)
  rw [pauseClass, if_neg hq0]
  split <;> exact ht

end

/-! ### Pause timers and storms (R35, R36, R39) -/

theorem sendPfc_clsIx (s : Blk) (p : Nat) (sub c : Fin 8) (q : Nat) :
    sendPfc s (clsIx p sub.val c.val) q =
      if subUp s p sub.val then emit (countSent s p sub.val 64) (.pfc p sub.val c.val q) else s := by
  have hp : clsIx p sub.val c.val / 64 = p := by simp only [clsIx, subIx]; omega
  have hsub : clsIx p sub.val c.val / 8 % 8 = sub.val := by simp only [clsIx, subIx]; omega
  have hc : clsIx p sub.val c.val % 8 = c.val := by simp only [clsIx, subIx]; omega
  simp only [sendPfc, hp, hsub, hc]

/-- Only a class above XON of a sub-MAC that is up repeats its pause. -/
theorem pauseRepeat_clsIx (s : Blk) (p : Nat) (sub c : Fin 8) :
    pauseRepeat (clsIx p sub.val c.val) s =
      if (pfcOf s (clsIx p sub.val c.val)).pausing = true ∧
          (pfcCfgOf s (clsIx p sub.val c.val)).xon * 1024 < (pfcOf s (clsIx p sub.val c.val)).occ ∧ subUp s p sub.val = true
      then emit (countSent s p sub.val 64) (.pfc p sub.val c.val 0xFFFF) else s := by
  simp only [pauseRepeat, sendPfc_clsIx, ite_and]

/-- Settles O1: a received pause by the step of each class, the timers and the storm by the condition of each. -/
theorem pauseOfOneClassOfOneSubMac : Obligations.PauseOfOneClassOfOneSubMac := by
  refine ⟨fun s p sub enable quanta => ⟨fun hdown => ?_, fun hup => ?_, fun hup hq => ?_⟩,
    fun s p sub c => ⟨fun above => ?_, fun above => ?_, fun hh => ?_, fun hh => ?_, fun hh hs => ?_, fun h => ?_, fun hs => ?_,
      fun hs => ?_⟩⟩
  · exact gives_of rfl (if_neg (ne_true_of_eq_false hdown))
  · refine reaches_of rfl ?_
    rw [if_pos hup]
    refine ⟨congrArg (fun t : Blk => { t with rim := s.rim, pwr := s.pwr, out := s.out })
      (outsideRim_pauseReceived p.val sub.val enable quanta _), fun c => ?_⟩
    have hrun := pfcOf_pauseReceived p.val sub.val enable quanta
      (countReceived (portUngate s.toBlk p.val) (subIx p.val sub.val) 64) c
    exact ⟨fun h => hrun.trans (pausedRun_ignored enable quanta h),
      fun he hs hq => hrun.trans ((pausedRun_honoured enable quanta he hs).trans (if_neg hq)),
      fun he hs hq => hrun.trans ((pausedRun_honoured enable quanta he hs).trans (if_pos hq))⟩
  · refine reaches_of rfl ?_
    rw [if_pos hup]
    exact pauseReceived_sends_nothing _ _ _ _ _ hq
  · exact gives_of rfl ((pauseRepeat_clsIx ..).trans (if_pos above))
  · exact gives_of rfl ((pauseRepeat_clsIx ..).trans (if_neg above))
  · exact gives_of rfl (if_pos hh)
  · exact gives_of rfl (if_neg (ne_true_of_eq_false hh))
  · exact gives_of rfl (if_pos ⟨hh, hs⟩)
  · refine gives_of rfl (if_neg fun ⟨hh, hs⟩ => ?_)
    rcases h with h | h
    · exact ne_true_of_eq_false h hh
    · exact ne_true_of_eq_false hs h
  · exact gives_of rfl (if_pos hs)
  · exact gives_of rfl (if_neg (ne_true_of_eq_false hs))

/-! ### The judgement of a datagram (R33, R44, R54, R55, R61, R147) -/

theorem cktReceiveFn_empty {s : Blk} {p : Nat} (h : s.rim.ingress.find? (fun d => d.eg.port = p) = none) : cktReceiveFn p s = s := by
  simp only [cktReceiveFn, h]

theorem cktReceiveFn_oldest {s : Blk} {p : Nat} {d : RxDgram} (h : s.rim.ingress.find? (fun d => d.eg.port = p) = some d) :
    cktReceiveFn p s = judgeCkt (idleExit (vacate { s with rim := { s.rim with ingress := s.rim.ingress.erase d } }
      (clsIx d.eg.port d.eg.sub d.eg.cls) d.size)) d := by
  simp only [cktReceiveFn, h]

theorem markCe_unmarked {s : Blk} {h : CktHdr} {ecn : Nat} (he : ecn ≠ 3) : markCe s h ecn = s := if_neg he

theorem markCe_marked {s : Blk} {h : CktHdr} {ecn : Nat} {ss : Session} (he : ecn = 3) (hs : sessOf s h.session = some ss)
    (hc : h.cookie = ss.cookie) : markCe s h ecn = setSess s h.session { ss with ece := true } := by
  simp only [markCe, if_pos he, modSess, hs, if_pos hc]

/-- A session that is no ring's is a client's (R321). -/
theorem clientSession_eq {s : Blk} {n : Nat} {ss : Session} (hs : sessOf s n = some ss) (hr : ss.ring = none) :
    (sessOf s n).filter (·.ring.isNone) = some ss := by
  simp [hs, hr, Option.filter]

theorem judgeCkt_malformed {s : Blk} {d : RxDgram} {c : Nat} (h : formOfFrame d.payload = some c) : judgeCkt s d = countXpt s (c - 1) := by
  simp only [judgeCkt, h]

section
variable {s : Blk} {d : RxDgram} (hform : formOfFrame d.payload = none)
include hform

theorem judgeCkt_open (h : (parseCkt d.payload).type = 0x1 ∨ (parseCkt d.payload).type = 0x3) :
    judgeCkt s d = { s with xpt := { s.xpt with opens := s.xpt.opens ++
      [{ hdr := parseCkt d.payload, payload := slice d.payload 32 (parseCkt d.payload).payloadLen, eg := d.eg, ce := d.ecn == 3 }] } } := by
  simp only [judgeCkt, hform]
  exact if_pos h

/-! A frame other than the two of opening is judged by its session. -/

section
variable (hopen : ¬ ((parseCkt d.payload).type = 0x1 ∨ (parseCkt d.payload).type = 0x3))
include hopen

theorem judgeCkt_gone (hsess : sessOf s (parseCkt d.payload).session = none) :
    judgeCkt s d = goneReply (countXpt s 5) d.eg (parseCkt d.payload) := by
  simp only [judgeCkt, hform, if_neg hopen, hsess, Option.filter_none]

section
variable {ss : Session} (hsess : sessOf s (parseCkt d.payload).session = some ss) (hring : ss.ring = none)
include hsess hring

theorem judgeCkt_refused {c : Nat} (hc : sessionCause ss (parseCkt d.payload) = some c) :
    judgeCkt s d =
      (let s1 := countXpt (markCe s (parseCkt d.payload) d.ecn) (c - 1)
       if 9 ≤ c then sendAck s1 (parseCkt d.payload).session else s1) := by
  simp only [judgeCkt, hform, if_neg hopen, clientSession_eq hsess hring, hc]

theorem judgeCkt_otherKeys (hc : sessionCause ss (parseCkt d.payload) = none) (hw : wireOwned ss (parseCkt d.payload).session = false)
    (ht : (parseCkt d.payload).type = 0x6 ∨ (parseCkt d.payload).type = 0x9) :
    judgeCkt s d = isolationEvent (markCe s (parseCkt d.payload) d.ecn) domXpt 0xFFFF ss.tenant := by
  simp only [judgeCkt, hform, if_neg hopen, clientSession_eq hsess hring, hc]
  exact if_pos ⟨hw, ht⟩

/-- With wire keys of its own the frame's clear payload `q`, if it has one, is its session's. -/
theorem judgeCkt_ownKeys {q : Option Bytes} (hc : sessionCause ss (parseCkt d.payload) = none)
    (hw : wireOwned ss (parseCkt d.payload).session = true)
    (hq : clearPayload ss (parseCkt d.payload) (slice d.payload 32 (parseCkt d.payload).payloadLen) = q) :
    judgeCkt s d =
      (let s1 := markCe s (parseCkt d.payload) d.ecn
       q.elim (countXpt s1 12) (acceptFrame s1 (parseCkt d.payload).session d.eg (parseCkt d.payload))) := by
  simp only [judgeCkt, hform, if_neg hopen, clientSession_eq hsess hring, hc, hq]
  rw [if_neg fun ⟨hother, _⟩ => ne_true_of_eq_false hother hw]
  cases q <;> rfl

end
end
end

/-- Settles O7: the oldest datagram is judged by its form, then by its type, then by its session. -/
theorem datagramIsJudgedInOrder : Obligations.DatagramIsJudgedInOrder := by
  refine ⟨fun s p h => gives_of rfl (cktReceiveFn_empty h), fun s p d hd => ?_⟩
  intro s1 h b
  have judged : ∀ {t : Blk}, judgeCkt s1 d = t → Gives (.cktFrameReceive p) s t := fun ht =>
    gives_of rfl ((cktReceiveFn_oldest hd).trans ht)
  refine ⟨fun c hc => judged (judgeCkt_malformed hc), fun hform => ⟨fun ho => judged (judgeCkt_open hform ho), fun h1 h3 => ?_⟩⟩
  have hopen : ¬ (h.type = 0x1 ∨ h.type = 0x3) := not_or.2 ⟨h1, h3⟩
  refine ⟨fun hs => judged (judgeCkt_gone hform hopen hs), fun ss hs hring => ?_⟩
  refine ⟨fun he => markCe_unmarked he, fun he hck => markCe_marked he hs hck, fun c hc h9 => ?_, fun c hc h9 => ?_, fun hc hw ht => ?_,
    fun hc hw => ⟨fun hq => ?_, fun q hq => ?_⟩⟩
  · exact judged ((judgeCkt_refused hform hopen hs hring hc).trans (if_neg (Nat.not_le.2 h9)))
  · exact judged ((judgeCkt_refused hform hopen hs hring hc).trans (if_pos h9))
  · exact judged (judgeCkt_otherKeys hform hopen hs hring hc hw ht)
  · exact judged (judgeCkt_ownKeys hform hopen hs hring hc hw hq)
  · exact judged (judgeCkt_ownKeys hform hopen hs hring hc hw hq)

end Sys2Proof.Machine
end

section
/-! PROOFS. The statements of the family of the transport: ACK, NAK and the end of a half-open entry; RESET and CLOSE; the sending
of response frames; the opening exchange. -/

namespace Sys2Proof.Machine

theorem modSess_open {s : Blk} {sn : Nat} {ss : Session} {g : Session → Session} (h : sessOf s sn = some ss) :
    modSess s sn g = setSess s sn (g ss) := by
  simp only [modSess, h]

/-! ### ACK and NAK (R48, R51, R52, R90) -/

section
variable {s : Blk} {sn : Nat}

theorem takeCtl_none {type : Nat} (h : s.xpt.ctl.find? (fun f => f.hdr.session = sn ∧ f.hdr.type = type) = none) :
    takeCtl s sn type = none := by
  simp only [takeCtl, h, Option.map_none, ite_self]

/-- A session that owes no RESET_DONE lets its oldest control frame of a type be processed (R90). -/
theorem takeCtl_oldest {type : Nat} {f : RxFrame} {ss : Session}
    (hf : s.xpt.ctl.find? (fun f => f.hdr.session = sn ∧ f.hdr.type = type) = some f) (hs : sessOf s sn = some ss)
    (ha : ss.afterReset = false) :
    takeCtl s sn type = some (f, { s with xpt := { s.xpt with ctl := s.xpt.ctl.erase f } }) := by
  have hready : ¬ waitsReset s sn = true := by simp [waitsReset, hs, ha]
  simp only [takeCtl, if_neg hready, hf, Option.map_some]

theorem ackFn_none (h : takeCtl s sn 0x7 = none) : ackFn sn s = s := by
  simp only [ackFn, h]

theorem ackFn_taken {f : RxFrame} {s1 : Blk} {ss : Session} (h : takeCtl s sn 0x7 = some (f, s1)) (hs : sessOf s1 sn = some ss) :
    ackFn sn s = setSess s1 sn (releaseBy ss f.hdr f.payload) := by
  simp only [ackFn, h, modSess_open hs]

theorem nakFn_none (h : takeCtl s sn 0x8 = none) : nakFn sn s = s := by
  simp only [nakFn, h]

/-- A retained frame leaves again where the release gate lets it pass (R51, R384). -/
def resend (sn : Nat) (s : Blk) (r : Retained) : Blk :=
  match sessOf s sn with
  | some ss => if gatePasses s r.frame then sendResponse s sn ss r.seq r.frame else s
  | none => s

/-- With what the NAK's own release point frees gone, its names decide what is stale and what leaves again. -/
theorem nakFn_taken {f : RxFrame} {s1 : Blk} {ss : Session} (h : takeCtl s sn 0x8 = some (f, s1)) (hs : sessOf s1 sn = some ss) :
    nakFn sn s =
      (let kept := (releaseBy ss f.hdr f.payload).retained
       let named := nakSeqs f.hdr f.payload
       let stale := named.filter fun q => ¬ kept.any fun r => r.seq = q
       forEach (kept.filter fun r => named.contains r.seq) (resend sn)
         (forEach stale (fun s _ => countXpt s 10) (setSess s1 sn (releaseBy ss f.hdr f.payload)))) := by
  simp only [nakFn, h, modSess_open hs, sessOf_setSess_self]
  rfl

end

/-- Settles O3: the oldest waiting frame of the type is taken, and releases; a half-open entry leaves if it is there. -/
theorem acksNaksAndHalfOpenExpiry : Obligations.AcksNaksAndHalfOpenExpiry := by
  refine ⟨⟨fun s sn f ss hf hs ha => ?_, fun s sn hf => ?_, fun s sn hf => ?_, fun s sn hh => ?_, fun s sn hh => ?_⟩,
    fun s sn f ss hf hs ha => ?_⟩
  · exact gives_of rfl (ackFn_taken (takeCtl_oldest hf hs ha) hs)
  · exact gives_of rfl (ackFn_none (takeCtl_none hf))
  · exact gives_of rfl (nakFn_none (takeCtl_none hf))
  · exact gives_of rfl (if_pos hh)
  · exact gives_of rfl (if_neg (ne_true_of_eq_false hh))
  · exact gives_of rfl (nakFn_taken (takeCtl_oldest hf hs ha) hs)

/-! ### RESET and CLOSE (R62, R88) -/

section
variable {s : Blk} {sn : Nat}

theorem resetFn_none (h : takeSeq s sn 0xA = none) : resetFn sn s = s := by
  simp only [resetFn, h]

theorem resetFn_next {f : RxFrame} {s1 : Blk} (h : takeSeq s sn 0xA = some (f, s1)) :
    resetFn sn s = edgeAck (resetSession s1 sn f.hdr.seq.toNat) sn := by
  simp only [resetFn, h]

theorem resetSession_open {q : Nat} {ss : Session} (h : sessOf s sn = some ss) :
    resetSession s sn q = resetCheck (forEach (List.range 32) (fun s t => resetTag s sn t)
      (setSess s sn { ss with retained := [], tagMap := 0, resetting := some q })) sn := by
  simp only [resetSession, h]

theorem closeFn_none (h : takeSeq s sn 0xB = none) : closeFn sn s = s := by
  simp only [closeFn, h]

theorem closeFn_next {f : RxFrame} {s1 : Blk} (h : takeSeq s sn 0xB = some (f, s1)) :
    closeFn sn s =
      edgeAck (modSess (forEach (List.range 32) (fun s t => closeTag s sn t) s1) sn fun ss => { ss with closing := true }) sn := by
  simp only [closeFn, h]

theorem closeAckFn_gone (h : sessOf s sn = none) : closeAckFn sn s = s := by
  simp only [closeAckFn, h]

/-- The completions of the session's commands that ended have all been handed to its response queue (R62). -/
theorem none_due_iff (tags : List TagCtx) : tags.all (fun t => !t.due) = true ↔ ∀ t ∈ tags, t.due = false := by
  simp only [List.all_eq_true, Bool.not_eq_true']

theorem closeAckFn_open {ss : Session} (h : sessOf s sn = some ss) :
    closeAckFn sn s =
      if ss.closing = true ∧ writesRun ss = false ∧ ss.respq = [] ∧ ∀ t ∈ ss.tags.vals, t.due = false
      then freeSession (sendControl s sn 0xC 0xFFFF []) sn else s := by
  simp only [closeAckFn, h, none_due_iff]

end

/-- Settles O5: RESET and CLOSE by whether the frame is next in order, CLOSE_ACK by whether the session is over. -/
theorem resetAndCloseOfASession : Obligations.ResetAndCloseOfASession := by
  refine ⟨fun s sn hn => ?_, fun s sn f s1 ss hf hs => ?_, fun s sn hn => ?_, fun s sn f s1 hf => ?_, fun s sn hg => ?_,
    fun s sn ss hs => ⟨fun ended => ?_, fun ended => ?_⟩⟩
  · exact gives_of rfl (resetFn_none hn)
  · exact gives_of rfl ((resetFn_next hf).trans (congrArg (edgeAck · sn) (resetSession_open hs)))
  · exact gives_of rfl (closeFn_none hn)
  · exact gives_of rfl (closeFn_next hf)
  · exact gives_of rfl (closeAckFn_gone hg)
  · exact gives_of rfl ((closeAckFn_open hs).trans (if_pos ended))
  · exact gives_of rfl ((closeAckFn_open hs).trans (if_neg ended))

/-! ### Response frames (R52, R54, R80, R90, R384) -/

/-- The block once the oldest waiting response frame `f` of session `sn` has left and is retained, `rest` waiting behind it. -/
def responseLeft (s : Blk) (sn : Nat) (ss : Session) (f : RespFrame) (rest : List RespFrame) : Blk :=
  raiseSeqTop (modSess (sendResponse s sn ss ss.txNext f) sn fun x =>
    { x with respq := rest, afterReset := x.afterReset && !(f.notice && f.payload.getD 0 0 == 2#8), txNext := ss.txNext + 1,
             sentCount := x.sentCount + 1, retained := x.retained ++ [{ seq := ss.txNext, frame := f }] }) sn

section
variable {s : Blk} {sn : Nat}

theorem responseSendFn_gone (h : sessOf s sn = none) : responseSendFn sn s = s := by
  simp only [responseSendFn, h]

variable {ss : Session} (hs : sessOf s sn = some ss)
include hs

theorem responseSendFn_empty (hq : ss.respq = []) : responseSendFn sn s = releaseHeld s sn := by
  simp only [responseSendFn, hs, hq]

variable {f : RespFrame} {rest : List RespFrame} (hq : ss.respq = f :: rest)
include hq

theorem responseSendFn_kept (h : ¬ (maySend s ss f.payload.length = true ∧ gatePasses s f = true)) : responseSendFn sn s = s := by
  simp only [responseSendFn, hs, hq, if_neg h]

variable (hm : maySend s ss f.payload.length = true) (hg : gatePasses s f = true)
include hm hg

theorem responseSendFn_midway (h : ¬ (f.final = true ∧ f.notice = false)) : responseSendFn sn s = responseLeft s sn ss f rest := by
  simp only [responseSendFn, hs, hq, if_pos (And.intro hm hg), if_neg h, responseLeft]

/-- The last frame of a response settles its tag (R80). -/
theorem responseSendFn_last {x : Session} (h : f.final = true ∧ f.notice = false) (hx : sessOf (responseLeft s sn ss f rest) sn = some x) :
    responseSendFn sn s =
      settleTag (putTag (responseLeft s sn ss f rest) sn f.tag { tagOf x f.tag with sentFinal := true }) sn f.tag := by
  simp only [responseLeft] at hx
  simp only [responseSendFn, hs, hq, if_pos (And.intro hm hg), if_pos h, hx, responseLeft]

end

/-- Settles O6: the oldest frame leaves if nothing holds it, and settles its tag if it is the last of a response. -/
theorem responseFrameLeavesInOrder : Obligations.ResponseFrameLeavesInOrder := by
  refine ⟨fun s sn hn => gives_of rfl (responseSendFn_gone hn), fun s sn ss hs hq => gives_of rfl (responseSendFn_empty hs hq),
    fun s sn ss f rest hs hq => ⟨fun hm hg => ⟨fun hmid => ?_, fun hf hn x hx => ?_⟩, fun hheld => ?_⟩⟩
  · have midway : ¬ (f.final = true ∧ f.notice = false) := by
      rintro ⟨hf, hn⟩
      simp [hf, hn] at hmid
    exact gives_of rfl (responseSendFn_midway hs hq hm hg midway)
  · exact gives_of rfl (responseSendFn_last hs hq hm hg ⟨hf, hn⟩ hx)
  · have held : ¬ (maySend s.toBlk ss f.payload.length = true ∧ gatePasses s.toBlk f = true) := by
      rintro ⟨hm, hg⟩
      simp [hm, hg] at hheld
    exact gives_of rfl (responseSendFn_kept hs hq held)

/-! ### The opening exchange (R56-R58, R60, R61) -/

theorem takeOpen_held {type : Nat} {g : Blk → RxFrame → Blk} {s : Blk} (h : s.dev = .activating) : takeOpen type g s = s := if_pos h

theorem takeOpen_oldest {type : Nat} {g : Blk → RxFrame → Blk} {s : Blk} {f : RxFrame} (hd : s.dev ≠ .activating)
    (hf : s.xpt.opens.find? (fun f => f.hdr.type = type) = some f) :
    takeOpen type g s = g { s with xpt := { s.xpt with opens := s.xpt.opens.erase f } } f := by
  simp only [takeOpen, if_neg hd, hf]

theorem openReqNow_refused {s : Blk} {f : RxFrame} (h : openCause s.dev ≠ 0) :
    openReqNow s f = openReject s f.eg 0 (openCause s.dev) s.dev.code := if_pos h

/-- The half-open entry of a new OPEN_REQ, with the device's nonce and the time of its OPEN_CHAL. -/
def newHalf (f : RxFrame) (nonce : Bytes) (now : Nat) : HalfOpen :=
  { tenant := beAt f.payload 0 2, options := beAt f.payload 2 2, eg := f.eg, clientInit := f.hdr.seq, credit := f.hdr.credit,
    clientNonce := slice f.payload 8 16, deviceNonce := nonce, at_ := now }

/-! A device that takes opens. -/

section
variable {s : Blk} {f : RxFrame} (hd : openCause s.dev = 0)
include hd

theorem openReqNow_repeated {sn : Nat} {n : Bytes} (h : earlierChal s f = some (sn, n)) : openReqNow s f = sendChal s f.eg sn n f.ce := by
  simp only [openReqNow, if_neg (not_not_intro hd), h]

variable (hnew : earlierChal s f = none)
include hnew

theorem openReqNow_noRoom (hr : makeRoom (trimHalf s) = none) : openReqNow s f = openReject s f.eg 0 stBusyRetry 0 := by
  simp only [openReqNow, if_neg (not_not_intro hd), hnew, hr]

variable {s1 : Blk} (hr : makeRoom (trimHalf s) = some s1)
include hr

theorem openReqNow_noNumber (hn : takeNumber s1 = none) : openReqNow s f = openReject s1 f.eg 0 stBusyRetry 0 := by
  simp only [openReqNow, if_neg (not_not_intro hd), hnew, hr, hn]

theorem openReqNow_challenged {sn : Nat} {s2 : Blk} (hn : takeNumber s1 = some (sn, s2)) :
    openReqNow s f =
      (let d := drawBytes s2 16
       sendChal { d.2 with xpt := { d.2.xpt with half := d.2.xpt.half.set sn (newHalf f d.1 s2.now) } } f.eg sn d.1 f.ce) := by
  simp only [openReqNow, if_neg (not_not_intro hd), hnew, hr, hn, newHalf, drawBytes_now]

end

/-! A proof that names no half-open entry (R56, R61). -/

section
variable {s : Blk} {f : RxFrame} (hx : s.xpt.half.get? f.hdr.session = none)
include hx

theorem openProofNow_gone (hs : sessOf s f.hdr.session = none) : openProofNow s f = goneReply (countXpt s 5) f.eg f.hdr := by
  simp only [openProofNow, hx, hs]

theorem openProofNow_repeated {ss : Session} (hs : sessOf s f.hdr.session = some ss) (he : sameSource ss.openEg f.eg = true)
    (hp : ss.proof = slice f.payload 0 32) :
    openProofNow s f = sendAccept s f.eg f.hdr.session ss (halfOf ss) (accessKey s ss.tenant) f.ce := by
  simp only [openProofNow, hx, hs, if_pos (And.intro he hp)]

end

/-! A proof that names the half-open entry `x` (R57, R58). -/

section
variable {s : Blk} {f : RxFrame} {x : HalfOpen} (hx : s.xpt.half.get? f.hdr.session = some x)
include hx

theorem openProofNow_refused (hd : openCause s.dev ≠ 0) :
    openProofNow s f = openReject (dropHalf s f.hdr.session) f.eg f.hdr.session (openCause s.dev) s.dev.code := by
  simp only [openProofNow, hx, if_pos hd]

variable (hd : openCause s.dev = 0)
include hd

/-- A tenant that is gone or disabled opens nothing. -/
theorem openProofNow_noTenant (ht : ∀ t, s.tenants.get? x.tenant = some t → t.disabled = true) :
    openProofNow s f = openReject (dropHalf s f.hdr.session) f.eg f.hdr.session stNotPermitted 0 := by
  cases h : s.tenants.get? x.tenant with
  | none => simp only [openProofNow, hx, if_neg (not_not_intro hd), h]
  | some t => simp only [openProofNow, hx, if_neg (not_not_intro hd), h, if_pos (ht t h)]

variable {t : Tenant} (ht : s.tenants.get? x.tenant = some t) (hen : t.disabled = false)
include ht hen

theorem openProofNow_wrong (hp : hmac256 (accessKey s x.tenant) (proofBytes "CKT-C" f.hdr.session x) ≠ slice f.payload 0 32) :
    openProofNow s f =
      openReject (raise (dropHalf s f.hdr.session) 0x2001 4 domXpt (pl [(2, x.tenant)] ++ f.eg.dstIp)) f.eg f.hdr.session
        stNotPermitted 0 := by
  simp only [openProofNow, hx, if_neg (not_not_intro hd), ht, hen, Bool.false_eq_true, if_false, if_pos hp]

variable (hp : hmac256 (accessKey s x.tenant) (proofBytes "CKT-C" f.hdr.session x) = slice f.payload 0 32)
include hp

/-- The proof holds: only ADMIN that the tenant is not permitted is in the way. -/
theorem openProofNow_proved :
    openProofNow s f =
      if x.options.testBit 1 = true ∧ t.adminPermit = false then
        openReject (dropHalf s f.hdr.session) f.eg f.hdr.session stNotPermitted 0
      else openSession s f.hdr.session f x (accessKey s x.tenant) := by
  simp only [openProofNow, hx, if_neg (not_not_intro hd), ht, hen, Bool.false_eq_true, if_false, if_neg (not_not_intro hp)]

end

/-- Settles O8: OPEN_REQ by what it meets on its way to a number, OPEN_PROOF by the entry it names, its tenant and its proof. -/
theorem openingASession : Obligations.OpeningASession := by
  refine ⟨fun s hd => ⟨gives_of rfl (takeOpen_held hd), gives_of rfl (takeOpen_held hd)⟩, fun s f hd hc => ?_, fun s f hrun hf => ?_,
    fun s f hrun hf => ?_⟩
  · exact ⟨fun hf => gives_of rfl ((takeOpen_oldest hd hf).trans (openReqNow_refused hc)), fun hf hh => by
      obtain ⟨x, hx⟩ := Option.isSome_iff_exists.1 hh
      exact gives_of rfl ((takeOpen_oldest hd hf).trans (openProofNow_refused hx hc))⟩
  · intro s0
    have answered : ∀ {b : Blk}, openReqNow s0 f = b → Gives .openReq s b := fun h => gives_of rfl ((takeOpen_some hrun hf).trans h)
    have hd : openCause s0.dev = 0 := congrArg openCause hrun
    exact ⟨fun sn n h => answered (openReqNow_repeated hd h), fun hnew hr => answered (openReqNow_noRoom hd hnew hr),
      fun s1 hnew hr hn => answered (openReqNow_noNumber hd hnew hr hn),
      fun s1 sn s2 hnew hr hn => answered (openReqNow_challenged hd hnew hr hn)⟩
  · intro s0 sn
    have answered : ∀ {b : Blk}, openProofNow s0 f = b → Gives .openProof s b := fun h => gives_of rfl ((takeOpen_some hrun hf).trans h)
    have hd : openCause s0.dev = 0 := congrArg openCause hrun
    refine ⟨fun x t hx ht hen => ⟨fun hp => ⟨fun hadm => ?_, fun hadm hno => ?_⟩, fun hp => ?_⟩, fun x hx ht => ?_, fun hx hs => ?_,
      fun ss hx hs he hp => ?_⟩
    · have permitted : ¬ (x.options.testBit 1 = true ∧ t.adminPermit = false) := by
        rintro ⟨ha, hno⟩
        simp [ha, hno] at hadm
      exact answered ((openProofNow_proved hx hd ht hen hp).trans (if_neg permitted))
    · exact answered ((openProofNow_proved hx hd ht hen hp).trans (if_pos ⟨hadm, hno⟩))
    · exact answered (openProofNow_wrong hx hd ht hen hp)
    · exact answered (openProofNow_noTenant hx hd ht)
    · exact answered (openProofNow_gone hx hs)
    · exact answered (openProofNow_repeated hx hs he hp)

end Sys2Proof.Machine
end

section
/-! PROOFS. The statements of the family of the commands: ABORT and DATA by the state of their tag; dispatch; multipart uploads; the
reservation of a write; the sideband. -/

namespace Sys2Proof.Machine

/-! ### ABORT (R83, R86) -/

section
variable {s : Blk} {sn t : Nat} {ss : Session}

theorem abortTag_running (hs : sessOf s sn = some ss) (h : (tagOf ss t).st = .queued ∨ (tagOf ss t).st = .active) :
    abortTag s sn t = (stOk, deliverDue (stopTag s sn t stAborted) sn t) := by
  rcases h with h | h <;> simp only [abortTag, hs, h]

theorem abortTag_committing (hs : sessOf s sn = some ss) (h : (tagOf ss t).st = .committing) : abortTag s sn t = (stTooLate, s) := by
  simp only [abortTag, hs, h]

theorem abortTag_over (hs : sessOf s sn = some ss) (h : (tagOf ss t).st = .idle ∨ (tagOf ss t).st = .completing) :
    abortTag s sn t = (stNotFound, s) := by
  rcases h with h | h <;> simp only [abortTag, hs, h]

theorem abortFn_none (h : takeSeq s sn 0x9 = none) : abortFn sn s = s := by
  simp only [abortFn, h]

theorem abortFn_next {f : RxFrame} {s1 s2 : Blk} {st : Nat} (h : takeSeq s sn 0x9 = some (f, s1))
    (ha : abortTag s1 sn ((f.payload.getD 0 0).toNat % 32) = (st, s2)) :
    abortFn sn s = edgeAck (queueNotice s2 sn 0x01 ((f.payload.getD 0 0).toNat % 32) st f.hdr.seq.toNat 0) sn := by
  simp only [abortFn, h, ha]

end

/-- Settles O4: the ABORT next in order by the state of the tag it names. -/
theorem abortByTagState : Obligations.AbortByTagState := by
  refine ⟨fun s sn hn => gives_of rfl (abortFn_none hn), fun s sn f s1 ss hf hs => ⟨fun h => ?_, fun h => ?_, fun h => ?_⟩⟩
  · exact gives_of rfl (abortFn_next hf (abortTag_running hs h))
  · exact gives_of rfl (abortFn_next hf (abortTag_committing hs h))
  · exact gives_of rfl (abortFn_next hf (abortTag_over hs h))

/-! ### DATA (R64, R80-R82) -/

theorem dataFn_none {s : Blk} {sn : Nat} (h : takeSeq s sn 0x6 = none) : dataFn sn s = s := by
  simp only [dataFn, h]

theorem dataFn_closing {s s1 : Blk} {sn : Nat} {f : RxFrame} {ss : Session} (h : takeSeq s sn 0x6 = some (f, s1))
    (hs : sessOf s1 sn = some ss) (hc : ss.closing = true) : dataFn sn s = edgeAck s1 sn := by
  simp only [dataFn, h, hs, hc, if_true]

theorem dataFn_open {s s1 : Blk} {sn : Nat} {f : RxFrame} {ss : Session} (h : takeSeq s sn 0x6 = some (f, s1))
    (hs : sessOf s1 sn = some ss) (hc : ss.closing = false) : dataFn sn s = edgeAck (dataOnTag s1 sn ss f) sn := by
  simp only [dataFn, h, hs, hc, Bool.false_eq_true, if_false]

section
variable {s : Blk} {sn : Nat} {ss : Session} {f : RxFrame} {x : TagCtx} (hx : tagOf ss f.hdr.tag = x)
include hx

theorem dataOnTag_refusing (hr : x.refusing = true) :
    dataOnTag s sn ss f = countXpt (putTag s sn f.hdr.tag { x with refusing := !f.hdr.final }) 11 := by
  subst hx; exact if_pos hr

variable (hr : x.refusing = false)
include hr

theorem dataOnTag_idle (hi : x.st = .idle) :
    dataOnTag s sn ss f = firstFrame s sn f.hdr.tag x f (commandBytes f.hdr f.payload) := by
  subst hx; exact (if_neg (ne_true_of_eq_false hr)).trans (if_pos hi)

variable (hi : x.st ≠ .idle)
include hi

theorem dataOnTag_whole (hw : x.gotFinal = true) :
    dataOnTag s sn ss f =
      queueNotice (putTag s sn f.hdr.tag { x with refusing := !f.hdr.final }) sn 0x03 f.hdr.tag stTagInUse f.hdr.seq.toNat 0 := by
  subst hx
  simp only [dataOnTag, hr, Bool.false_eq_true, if_false, if_neg hi, if_pos hw]

variable (hw : x.gotFinal = false)
include hw

theorem dataOnTag_ended (he : x.st = .completing) : dataOnTag s sn ss f = discardTail s sn f.hdr.tag x f.hdr.final := by
  subst hx
  simp only [dataOnTag, hr, hw, Bool.false_eq_true, if_false, if_neg hi, if_pos he]

variable (he : x.st ≠ .completing)
include he

theorem dataOnTag_otherOpcode (ho : x.opcode ≠ f.hdr.opcode) :
    dataOnTag s sn ss f = stopTag (putTag s sn f.hdr.tag { x with gotFinal := f.hdr.final }) sn f.hdr.tag stBadRequest := by
  subst hx
  simp only [dataOnTag, hr, hw, Bool.false_eq_true, if_false, if_neg hi, if_neg he, if_pos ho]

theorem dataOnTag_goesOn (ho : x.opcode = f.hdr.opcode) :
    dataOnTag s sn ss f =
      advanceTag (putTag s sn f.hdr.tag { x with buf := x.buf ++ commandBytes f.hdr f.payload, gotFinal := f.hdr.final }) sn f.hdr.tag := by
  subst hx
  simp only [dataOnTag, hr, hw, Bool.false_eq_true, if_false, if_neg hi, if_neg he, if_neg (not_not_intro ho)]

end

/-- Settles O9: the DATA frame next in order by the state of its tag. -/
theorem dataFrameByTagState : Obligations.DataFrameByTagState := by
  refine ⟨fun s sn hn => gives_of rfl (dataFn_none hn), fun s sn f s1 ss hf hs => ?_⟩
  intro t x b
  have taken : ∀ {y : Blk}, ss.closing = false → dataOnTag s1 sn ss f = y → Gives (.data sn) s (edgeAck y sn) := fun hc h =>
    gives_of rfl ((dataFn_open hf hs hc).trans (congrArg (edgeAck · sn) h))
  refine ⟨fun hc => gives_of rfl (dataFn_closing hf hs hc), fun hc hr => taken hc (dataOnTag_refusing rfl hr),
    fun hc hr => ⟨fun hi => ?_, fun hi hw => ?_, fun he hw => ?_, fun hi he hw ho => ?_, fun hi he hw ho => ?_⟩⟩
  · exact taken hc (dataOnTag_idle rfl hr hi)
  · exact taken hc (dataOnTag_whole rfl hr hi hw)
  · exact taken hc (dataOnTag_ended rfl hr (by rw [he]; nofun) hw he)
  · exact taken hc (dataOnTag_otherOpcode rfl hr hi hw he ho)
  · exact taken hc (dataOnTag_goesOn rfl hr hi hw he ho)

/-! ### Dispatch (R84, R87, R90, R91, R195, R286) -/

theorem gives_dispatch {s : State} {slot : Nat} {b : Blk} (h : tryDispatch s.toBlk slot = b) : Gives (.commandDispatch slot) s b :=
  gives_of (f := fun x => tryDispatch x slot) rfl h

theorem tryDispatch_none {s : Blk} {slot : Nat} (h : cmdOf s slot = none) : tryDispatch s slot = s := by
  simp only [tryDispatch, h]

/-- What holds command `c` of session `ss` back, once it is received whole. -/
def DispatchHeld (s : Blk) (ss : Session) (c : Cmd) : Prop :=
  s.dev = .activating ∨ ss.owesReset = true ∨ orderHolds ss (tagOf ss c.tag) = true ∨ brakeHolds s c = true ∨ splitHolds s c = true

section
variable {s : Blk} {slot : Nat} {c : Cmd} {ss : Session} (hc : cmdOf s slot = some c) (hs : sessOf s c.session = some ss)
  (hq : c.phase = .queued) (hw : (tagOf ss c.tag).gotFinal = true)
include hc hs hq hw

theorem tryDispatch_held (h : DispatchHeld s ss c) : tryDispatch s slot = s := by
  have whole : ¬ (c.phase ≠ .queued ∨ (tagOf ss c.tag).gotFinal = false) := by simp [hq, hw]
  simp only [tryDispatch, hc, hs, if_neg whole]
  exact if_pos h

/-- Nothing holds the command: the states of R91 are checked again. -/
theorem tryDispatch_clear (h : ¬ DispatchHeld s ss c) :
    tryDispatch s slot =
      if (dispatchCause s c).1 ≠ 0 then failCmd s slot (dispatchCause s c).1 (dispatchCause s c).2 0
      else
        let s1 := putTag (setCmd s slot { c with phase := .started }) c.session c.tag { tagOf ss c.tag with st := .active }
        if isAdminOp c.opcode = true then handOn s1 slot c 0xA else s1 := by
  have whole : ¬ (c.phase ≠ .queued ∨ (tagOf ss c.tag).gotFinal = false) := by simp [hq, hw]
  simp only [tryDispatch, hc, hs, if_neg whole]
  exact if_neg h

end

/-- Settles O10: a command received whole by what holds it, then by the states that are checked again. -/
theorem dispatchStartsOrHolds : Obligations.DispatchStartsOrHolds := by
  refine ⟨fun s slot hn => gives_dispatch (tryDispatch_none hn), fun s slot c ss hc hs hq hw =>
    ⟨fun held => ?_, fun clear hcause => ?_, fun clear hcause => ⟨fun hkv => ?_, fun hadmin => ?_⟩⟩⟩
  · exact gives_dispatch (tryDispatch_held hc hs hq hw held)
  · exact gives_dispatch ((tryDispatch_clear hc hs hq hw clear).trans (if_pos hcause))
  · exact gives_dispatch ((tryDispatch_clear hc hs hq hw clear).trans
      ((if_neg (not_not_intro hcause)).trans (if_neg (ne_true_of_eq_false hkv))))
  · exact gives_dispatch ((tryDispatch_clear hc hs hq hw clear).trans ((if_neg (not_not_intro hcause)).trans (if_pos hadmin)))

/-! ### Uploads (R75-R78) -/

/-- A limit of R78 is reached for the command's tenant. -/
def UploadsFull (s : Blk) (c : Cmd) : Prop :=
  65536 ≤ s.cmd.uploads.length ∨ 1024 ≤ (s.cmd.uploads.vals.filter fun u => u.tenant = c.tenant).length

/-- The block with the upload of MP_BEGIN `c` recorded, before the answer. -/
def uploadBegun (s : Blk) (slot : Nat) (c : Cmd) : Blk :=
  let uid := nextUpload s
  let r := takeLga s c.head.ns 4 (grainsOf c.head.valueLen)
  let s1 := setUpload r.2 uid
    { tenant := c.tenant, ns := c.head.ns, key := c.key, total := c.head.valueLen, dataLga := r.1, lastAt := s.now }
  setCmd (sendUpload { s1 with cmd := { s1.cmd with uploadSeq := uid } } uid) slot { c with head := { c.head with uploadId := uid } }

section
variable {s : Blk} {slot : Nat} {c : Cmd}

section
variable (h : startedCmd s slot 0x10 = some c)
include h

theorem mpBeginFn_full (hf : UploadsFull s c) : mpBeginFn slot s = failCmd s slot stUploadLimit 0 0 := by
  simp only [mpBeginFn, h]
  exact if_pos hf

theorem mpBeginFn_noRoom (hf : ¬ UploadsFull s c) (hr : lgaRoom s (grainsOf c.head.valueLen) = false) :
    mpBeginFn slot s = failCmd s slot stNsFull 0 0 := by
  simp only [mpBeginFn, h]
  exact (if_neg hf).trans (if_pos hr)

/-- A command of a session carries the UPLOAD_ID in its response, one of a ring in its completion entry. -/
theorem mpBeginFn_begun (hf : ¬ UploadsFull s c) (hr : lgaRoom s (grainsOf c.head.valueLen) = true) :
    mpBeginFn slot s = failCmd (if c.ring.isSome = true then uploadBegun s slot c
      else streamBody (uploadBegun s slot c) slot (beBytes 4 (nextUpload s) ++ zeros 4)) slot stOk 0 0 := by
  simp only [mpBeginFn, h]
  exact (if_neg hf).trans (if_neg (ne_false_of_eq_true hr))

end

/-! MP_COMMIT (R77). -/

/-- The parts of upload `u` hold every grain of the value that MP_COMMIT `c` names (R77). -/
def UploadWhole (c : Cmd) (u : Upload) : Prop :=
  c.head.valueLen = u.total ∧ ∀ g < grainsOf u.total, ∃ p ∈ u.parts, p.grain ≤ g ∧ g < p.grain + p.grains

theorem partsCover_iff (parts : List Part) (n : Nat) :
    (List.range n).all (fun g => parts.any fun p => p.grain ≤ g && decide (g < p.grain + p.grains)) = true ↔
      ∀ g < n, ∃ p ∈ parts, p.grain ≤ g ∧ g < p.grain + p.grains := by
  simp

theorem commitCause_unknown (h : uploadOf s c = none) : commitCause s c = stUploadUnknown := by
  simp only [commitCause, h]

theorem commitCause_whole {u : Upload} (h : uploadOf s c = some u) (hw : UploadWhole c u) : commitCause s c = 0 := by
  simp only [commitCause, h, partsCover_iff]
  exact if_neg fun bad => bad.elim (· hw.1) (· hw.2)

theorem commitCause_incomplete {u : Upload} (h : uploadOf s c = some u) (hw : ¬ UploadWhole c u) :
    commitCause s c = stUploadIncomplete := by
  simp only [commitCause, h, partsCover_iff]
  exact if_pos (not_and_or.1 hw)

theorem uploadOf_eq_some_iff {u : Upload} : uploadOf s c = some u ↔
    s.cmd.uploads.get? c.head.uploadId = some u ∧ u.tenant = c.tenant ∧ u.ns = c.head.ns ∧ u.key = c.key := by
  simp [uploadOf, Option.filter_eq_some_iff]

/-- A new time of last use leaves the upload the command's own. -/
theorem uploadOf_touched {u : Upload} (h : uploadOf s c = some u) (now : Nat) :
    uploadOf (setUpload s c.head.uploadId { u with lastAt := now }) c = some { u with lastAt := now } :=
  uploadOf_eq_some_iff.2 ⟨Tbl.get?_set_self .., (uploadOf_eq_some_iff.1 h).2⟩

theorem startedCmd_setUpload (s : Blk) (slot op uid : Nat) (u : Upload) :
    startedCmd (setUpload s uid u) slot op = startedCmd s slot op := rfl

section
variable (h : startedCmd s slot 0x12 = some c)
include h

theorem mpCommitFn_unknown (hu : uploadOf s c = none) : mpCommitFn slot s = failCmd s slot stUploadUnknown 0 0 := by
  simp only [mpCommitFn, h, hu, commitCause_unknown hu]
  exact if_pos (by decide)

variable {u : Upload} (hu : uploadOf s c = some u)
include hu

theorem mpCommitFn_whole (hw : UploadWhole c u) :
    mpCommitFn slot s = handOn (setUpload s c.head.uploadId { u with lastAt := s.now }) slot c 0x4 := by
  have cause := commitCause_whole (uploadOf_touched hu s.now) hw
  simp only [mpCommitFn, h, hu, cause]
  exact toReserve_started ((startedCmd_setUpload ..).trans h)

theorem mpCommitFn_incomplete (hw : ¬ UploadWhole c u) :
    mpCommitFn slot s = failCmd (setUpload s c.head.uploadId { u with lastAt := s.now }) slot stUploadIncomplete 0 0 := by
  have cause := commitCause_incomplete (uploadOf_touched hu s.now) hw
  simp only [mpCommitFn, h, hu, cause]
  exact if_pos (by decide)

end

/-! The end of an upload (R75, R77, R78). -/

theorem mpAbandonFn_known (h : startedCmd s slot 0x13 = some c) (hu : uploadOf s c ≠ none) :
    mpAbandonFn slot s = failCmd (freeUpload s c.head.uploadId) slot stOk 0 0 := by
  simp only [mpAbandonFn, h]
  exact if_pos (Option.isSome_iff_ne_none.2 hu)

theorem mpAbandonFn_unknown (h : startedCmd s slot 0x13 = some c) (hu : uploadOf s c = none) :
    mpAbandonFn slot s = failCmd s slot stUploadUnknown 0 0 := by
  simp only [mpAbandonFn, h, hu, Option.isSome_none, Bool.false_eq_true, if_false]

theorem uploadExpireFn_some {uid : Nat} {u : Upload} (h : s.cmd.uploads.get? uid = some u) :
    uploadExpireFn uid s = raise (freeUpload s uid) 0x3002 2 71 (leBytes 4 uid ++ leBytes 2 u.tenant) := by
  simp only [uploadExpireFn, h, domCmd, pl, List.flatMap_cons, List.flatMap_nil, List.append_nil]

theorem uploadExpireFn_none {uid : Nat} (h : s.cmd.uploads.get? uid = none) : uploadExpireFn uid s = s := by
  simp only [uploadExpireFn, h]

end

/-- Settles O12: each command finds its slot by `startedCmd_of`; MP_BEGIN by the limits and the room, the others by their upload. -/
theorem uploadsBeginCommitAbandonExpire : Obligations.UploadsBeginCommitAbandonExpire := by
  refine ⟨fun s slot c hc hph => ⟨fun hop => ?_, fun hop => ?_, fun hop => ?_⟩, fun s uid => ⟨fun u hu => ?_, fun hu => ?_⟩⟩
  · have started := startedCmd_of hc hph hop
    refine ⟨fun hf => gives_of rfl (mpBeginFn_full started hf), fun hf hr => gives_of rfl (mpBeginFn_noRoom started hf hr),
      fun hf hr => ⟨fun hring => ?_, fun q hring => ?_⟩⟩
    · exact gives_of rfl ((mpBeginFn_begun started hf hr).trans (congrArg (failCmd · slot stOk 0 0) (if_neg (by simp [hring]))))
    · exact gives_of rfl ((mpBeginFn_begun started hf hr).trans (congrArg (failCmd · slot stOk 0 0) (if_pos (by simp [hring]))))
  · have started := startedCmd_of hc hph hop
    exact ⟨fun hu => gives_of rfl (mpCommitFn_unknown started hu), fun u hu =>
      ⟨fun hw => gives_of rfl (mpCommitFn_whole started hu hw), fun hw => gives_of rfl (mpCommitFn_incomplete started hu hw)⟩⟩
  · have started := startedCmd_of hc hph hop
    exact ⟨fun hu => gives_of rfl (mpAbandonFn_known started hu), fun hu => gives_of rfl (mpAbandonFn_unknown started hu)⟩
  · exact gives_of rfl (uploadExpireFn_some hu)
  · exact gives_of rfl (uploadExpireFn_none hu)

/-! ### The decision of a write under the condition lock (R73, R94, R105, R120) -/

theorem condHolds_always {h : Head} (hc : h.cond = 0) (cur : Nat) : condHolds h cur = true := by
  simp only [condHolds, hc]

theorem condHolds_expect {h : Head} (hc : h.cond = 1) (cur : Nat) : condHolds h cur = true ↔ cur = h.expect := by
  simp only [condHolds, hc, decide_eq_true_eq]

theorem condHolds_absent {h : Head} (hc : h.cond = 2) (cur : Nat) : condHolds h cur = true ↔ cur = 0 := by
  simp only [condHolds, hc, decide_eq_true_eq]

theorem condHolds_present {h : Head} (hc : h.cond = 3) (cur : Nat) : condHolds h cur = true ↔ cur ≠ 0 := by
  simp only [condHolds, hc, decide_eq_true_eq]

section
variable {s : Blk} {slot ea : Nat} {c : Cmd} {f : Found} {x : Namespace} (hx : nsOf s c.head.ns = some x)
include hx

theorem decideWrite_mismatch (hcond : condHolds c.head f.version = false) :
    decideWrite s slot ea c f = failCmd s slot stVersionMismatch 0 f.version := by
  simp only [decideWrite, hx, if_pos hcond]

variable (hcond : condHolds c.head f.version = true)
include hcond

theorem decideWrite_noKey (hop : c.opcode = 0x04) (hv : f.version = 0) : decideWrite s slot ea c f = failCmd s slot stNotFound 0 0 := by
  simp only [decideWrite, hx, if_neg (ne_false_of_eq_true hcond), if_pos (And.intro hop hv)]

variable (hkey : ¬ (c.opcode = 0x04 ∧ f.version = 0))
include hkey

theorem decideWrite_overQuota (hq : quotaCause s x c f ≠ 0) : decideWrite s slot ea c f = failCmd s slot (quotaCause s x c f) 0 0 := by
  simp only [decideWrite, hx, if_neg (ne_false_of_eq_true hcond), if_neg hkey, if_pos hq]

variable (hq : quotaCause s x c f = 0)
include hq

theorem decideWrite_noSlot (hp : f.place.or (freeSlotNear s (homeOf (digestOf s c.head.ns c.key))) = none) :
    decideWrite s slot ea c f =
      failCmd (raise s 0x4002 4 68 (leBytes 4 (homeOf (digestOf s c.head.ns c.key)))) slot stKeyCapacity 0 0 := by
  simp only [decideWrite, hx, if_neg (ne_false_of_eq_true hcond), if_neg hkey, if_neg (not_not_intro hq), hp, domIdx, pl,
    List.flatMap_cons, List.flatMap_nil, List.append_nil]

theorem decideWrite_commits {b i : Nat} (hp : f.place.or (freeSlotNear s (homeOf (digestOf s c.head.ns c.key))) = some (b, i))
    (hpend : (dirOf s (homeOf (digestOf s c.head.ns c.key))).pending < 4095) (hnext : s.idx.next < 0xFFFFFF) :
    decideWrite s slot ea c f = commitFn s slot ea c x f b i := by
  simp only [decideWrite, hx, if_neg (ne_false_of_eq_true hcond), if_neg hkey, if_neg (not_not_intro hq), hp,
    if_neg (Nat.not_le.2 hpend), if_neg (Nat.not_le.2 hnext)]

end

/-! ### WRITE_RESERVATION (R120, R125) -/

theorem waitEntry_waiting {s : Blk} {slot : Nat} {c : Cmd} (h : s.idx.waiters.contains slot = true) : waitEntry s slot c = s :=
  if_pos h

theorem waitEntry_new {s : Blk} {slot : Nat} {c : Cmd} (h : s.idx.waiters.contains slot = false) :
    waitEntry s slot c = judgeFull (modCmd { s with idx := { s.idx with
      waiters := if c.entry.isSome then slot :: s.idx.waiters else s.idx.waiters ++ [slot] } } slot fun c => { c with entry := none }) :=
  if_neg (ne_true_of_eq_false h)

/-- The cause that ends a write before it looks for an entry: only an MP_COMMIT has one (R77). -/
def writeCause (s : Blk) (c : Cmd) : Nat := if c.opcode = 0x12 then commitCause s c else 0

theorem writeCause_commit {s : Blk} {c : Cmd} (h : c.opcode = 0x12) : writeCause s c = commitCause s c := if_pos h

theorem writeCause_eq_zero {s : Blk} {c : Cmd} (h : c.opcode = 0x03 ∨ c.opcode = 0x04 ∨ (c.opcode = 0x12 ∧ commitCause s c = 0)) :
    writeCause s c = 0 := by
  rcases h with hput | hdel | ⟨hcommit, hcause⟩
  · exact if_neg (by omega)
  · exact if_neg (by omega)
  · exact (writeCause_commit hcommit).trans hcause

theorem writeReservationFn_idle {s : Blk} {slot : Nat} {pass : Bool} (h : ∀ c, cmdOf s slot = some c → c.phase ≠ .reserving) :
    writeReservationFn slot pass s = s := by
  cases hc : cmdOf s slot with
  | none => simp only [writeReservationFn, hc]
  | some c => simp only [writeReservationFn, hc, if_pos (h c hc)]

section
variable {s : Blk} {slot : Nat} {pass : Bool} {c : Cmd} (hc : cmdOf s slot = some c) (hph : c.phase = .reserving)
include hc hph

theorem writeReservationFn_refused (h : writeCause s c ≠ 0) :
    writeReservationFn slot pass s = judgeFull (failCmd s slot (writeCause s c) 0 0) := by
  simp only [writeReservationFn, hc, if_neg (not_not_intro hph)]
  exact if_pos h

variable (h0 : writeCause s c = 0)
include h0

theorem writeReservationFn_noEntry (he : heldEntry s c = none) : writeReservationFn slot pass s = waitEntry s slot c := by
  simp only [writeReservationFn, hc, if_neg (not_not_intro hph), he]
  exact if_neg (not_not_intro h0)

variable {ea : Nat} (he : heldEntry s c = some ea)
include he

theorem writeReservationFn_pagesAway (hp : pagesAway s (digestOf s c.head.ns c.key) ≠ []) :
    writeReservationFn slot pass s =
      fetchPages (judgeFull (modCmd s slot fun c => { c with entry := some ea })) (pagesAway s (digestOf s c.head.ns c.key)) := by
  simp only [writeReservationFn, hc, if_neg (not_not_intro hph), he, if_pos hp]
  exact if_neg (not_not_intro h0)

variable (hp : pagesAway s (digestOf s c.head.ns c.key) = []) {s1 : Blk}
include hp

theorem writeReservationFn_headAway {sl : BSlot} (hcur : currentOf s c pass = (s1, .error sl)) :
    writeReservationFn slot pass s =
      (let held := judgeFull (modCmd s slot fun c => { c with entry := some ea })
       if readingHead s slot sl = true then held else readHead held slot (locHead sl.loc) sl) := by
  simp only [writeReservationFn, hc, if_neg (not_not_intro hph), he, if_neg (not_not_intro hp), hcur]
  exact if_neg (not_not_intro h0)

theorem writeReservationFn_decides {f : Found} (hcur : currentOf s c pass = (s1, .ok f)) :
    writeReservationFn slot pass s = judgeFull (decideWrite s1 slot ea c f) := by
  simp only [writeReservationFn, hc, if_neg (not_not_intro hph), he, if_neg (not_not_intro hp), hcur]
  exact if_neg (not_not_intro h0)

end

/-- Settles O14: a reserving write by its cause, by its entry, by what is still away, then by `decideWrite`. -/
theorem writeReservationDecides : Obligations.WriteReservationDecides := by
  refine ⟨fun h cur => ⟨(condHolds_always · cur), (condHolds_expect · cur), (condHolds_absent · cur), (condHolds_present · cur)⟩,
    fun s slot pass hidle => gives_of rfl (writeReservationFn_idle hidle), fun s slot pass c hc hph => ⟨fun hop hcause => ?_, fun hop => ?_⟩⟩
  · rw [← writeCause_commit hop] at hcause ⊢
    exact gives_of rfl (writeReservationFn_refused hc hph hcause)
  have h0 := writeCause_eq_zero hop
  refine ⟨fun he hnew => ?_, fun he hin => ?_, fun ea he hp => ?_, fun ea s1 sl he hp hcur => ⟨fun hread => ?_, fun hread => ?_⟩,
    fun ea s1 f x he hp hcur hx => ?_⟩
  · exact gives_of rfl ((writeReservationFn_noEntry hc hph h0 he).trans (waitEntry_new hnew))
  · exact gives_of rfl ((writeReservationFn_noEntry hc hph h0 he).trans (waitEntry_waiting hin))
  · exact gives_of rfl (writeReservationFn_pagesAway hc hph h0 he hp)
  · exact gives_of rfl ((writeReservationFn_headAway hc hph h0 he hp hcur).trans (if_pos hread))
  · exact gives_of rfl ((writeReservationFn_headAway hc hph h0 he hp hcur).trans (if_neg (ne_true_of_eq_false hread)))
  · have decided : ∀ {b : Blk}, decideWrite s1 slot ea c f = b → Gives (.writeReservation slot pass) s (judgeFull b) := fun h =>
      gives_of rfl ((writeReservationFn_decides hc hph h0 he hp hcur).trans (congrArg judgeFull h))
    refine ⟨fun hcond => decided (decideWrite_mismatch hx hcond), fun hcond => ⟨fun hdel hv => ?_, fun hkey => ?_⟩⟩
    · exact decided (decideWrite_noKey hx hcond hdel hv)
    have present : ¬ (c.opcode = 0x04 ∧ f.version = 0) := not_and_or.2 hkey
    exact ⟨fun hq => decided (decideWrite_overQuota hx hcond present hq),
      fun hq hnone => decided (decideWrite_noSlot hx hcond present hq hnone),
      fun b i hq hplace hpend hnext => decided (decideWrite_commits hx hcond present hq hplace hpend hnext)⟩

/-! ### The sideband (R424, R426) -/

theorem jtagFn_drives {s : Blk} (h : s.pin.porN = false) (drive : List (Nat × Bool)) :
    jtagFn true drive s = { s with pin := { s.pin with trstN := true, bypass := false, scan := drive } } := by
  simp only [jtagFn, h, Bool.not_false, Bool.and_self, Bool.not_true, if_true]

theorem jtagFn_bypass {s : Blk} {control : Bool} (h : control = false ∨ s.pin.porN = true) (drive : List (Nat × Bool)) :
    jtagFn control drive s = { s with pin := { s.pin with trstN := true, bypass := true, scan := [] } } := by
  have idle : (control && !s.pin.porN) = false := by
    rcases h with h | h <;> simp [h]
  simp only [jtagFn, idle, Bool.not_false, Bool.false_eq_true, if_false]

/-- Settles O52: a read emits its code with its value; an instruction by whether it takes control while POR_N is low. -/
theorem sidebandTellsAndTestAccess : Obligations.SidebandTellsAndTestAccess := by
  refine fun s => ⟨gives_of rfl rfl, gives_of rfl rfl, gives_of rfl rfl, gives_of rfl rfl, gives_of rfl rfl, gives_of rfl rfl,
    gives_of rfl rfl, fun drive hlow => ?_, fun control drive h => ?_, gives_of rfl rfl, reaches_of rfl ?_⟩
  · exact gives_of rfl (jtagFn_drives hlow drive)
  · exact gives_of rfl (jtagFn_bypass h drive)
  · exact ⟨rfl, rfl, rfl, rfl, rfl, rfl, rfl, rfl, rfl, rfl, rfl⟩

end Sys2Proof.Machine
end

section
/-! PROOFS. The statements of the family of the index: searches of the in-flight table and the shadow check; the index lookup;
retirement; free entries, sweeps and moves; bank modes and the renormaliser. -/

namespace Sys2Proof.Machine

/-! ### The layer under the table's commands -/

theorem modCmd_listed {s : Blk} {slot : Nat} {c : Cmd} (h : cmdOf s slot = some c) (f : Cmd → Cmd) : modCmd s slot f = setCmd s slot (f c) := by
  simp only [modCmd, h]

theorem toIndex_listed {s : Blk} {slot : Nat} {c : Cmd} (h : cmdOf s slot = some c) : toIndex s slot = handOn s slot c 0x4 := by
  simp only [toIndex, h]

/-- A choice between two entries by a relation is a step of Mathlib's `argmax` and `argmin`. -/
theorem eq_argAux {α : Type} {r : α → α → Prop} [DecidableRel r] {f : Option α → α → Option α} (hnone : ∀ p, f none p = some p)
    (hsome : ∀ q p, f (some q) p = if r p q then some p else some q) : f = List.argAux r :=
  funext₂ fun
    | none, p => hnone p
    | some q, p => hsome q p

/-- The cascade takes the first of the entries of highest RANK (R115). -/
theorem bestOf_eq_argmax (l : List (Nat × CamEntry)) : bestOf l = l.argmax fun p => p.2.rank :=
  congrArg (fun f => l.foldl f none) (eq_argAux (fun _ => rfl) fun _ _ => rfl)

theorem bestOf_mem {l : List (Nat × CamEntry)} {p : Nat × CamEntry} (h : bestOf l = some p) : p ∈ l :=
  List.argmax_mem (bestOf_eq_argmax l ▸ h)

/-- What a repair of the addresses `eas` makes of an entry (R122-R124). -/
def mended (eas : List Nat) (ea : Nat) (e : CamEntry) : CamEntry :=
  if eas.contains ea then { e with word := e.shadow, copy := e.shadow } else e

@[simp] theorem mended_shadow (eas : List Nat) (ea : Nat) (e : CamEntry) : (mended eas ea e).shadow = e.shadow := by
  unfold mended; split <;> rfl

theorem repairEntries_nil (s : Blk) : repairEntries s [] = s := rfl

theorem repairEntries_eq (s : Blk) (eas : List Nat) :
    repairEntries s eas = if eas = [] then s else raise { s with idx := { s.idx with cam := s.idx.cam.mapVal (mended eas) } } 0x5002 5 66
      (leBytes 1 eas.length ++ (eas.take 13).flatMap fun a => leBytes 2 a) := by
  simp only [repairEntries, List.isEmpty_iff, pl, List.flatMap_cons, List.flatMap_map]
  rfl

theorem repairEntries_idx (s : Blk) (eas : List Nat) :
    (repairEntries s eas).idx = { s.idx with cam := s.idx.cam.mapVal (mended eas) } := by
  rw [repairEntries_eq]
  split
  next h =>
    have none_mended : s.idx.cam.mapVal (mended []) = s.idx.cam := List.map_id _
    rw [h, none_mended]
  next => rw [raise_idx]

@[simp] theorem bankOf_repairEntries (s : Blk) (eas : List Nat) (b : Nat) : bankOf (repairEntries s eas) b = bankOf s b := by
  simp only [bankOf, repairEntries_idx]

theorem entryHit_repairEntries (s : Blk) (eas : List Nat) (ea : Nat) (e : CamEntry) (m key : BitVec 160) :
    entryHit (repairEntries s eas) ea e m key = entryHit s ea e m key := by
  simp only [entryHit, bankOf_repairEntries]

/-- A rewritten entry matches by its SHADOW, any other as before. -/
theorem entryHit_mended {s : Blk} {eas : List Nat} {ea : Nat} {e : CamEntry} {m key : BitVec 160} (hs : maskHit m key e.shadow = false)
    (he : entryHit s ea e m key = false) : entryHit s ea (mended eas ea e) m key = false := by
  unfold mended
  split
  · simp [entryHit, hs]
  · exact he

/-! ### Searches of the in-flight table (R122, R123) -/

theorem falseHit_excludes {s : Blk} {slot ea : Nat} {c : Cmd} {excl : List Nat} {settled : Bool} (h : excl.length < 3) :
    falseHit s slot ea c excl settled = modCmd (raise s 0x5001 5 (66 + ea / 8192 / 4) (leBytes 2 ea)) slot
      fun c => { c with phase := .searching (excl ++ [ea]) settled } := by
  simp only [falseHit, if_neg (Nat.not_le.2 h), raiseFalseHit, domSrch, pl, List.flatMap_cons, List.flatMap_nil, List.append_nil, setPhase]

section
variable {s : Blk} {slot : Nat} {c : Cmd} {excl : List Nat} {settled : Bool} (hc : cmdOf s slot = some c)
include hc

theorem searchMiss_noPending (hp : pendingOf s c = 0) : searchMiss s slot c excl settled = handOn s slot c 0x4 :=
  (if_pos hp).trans (toIndex_listed hc)

theorem searchMiss_unsettled (hp : pendingOf s c ≠ 0) :
    searchMiss s slot c excl false = setCmd s slot { c with phase := .searching excl true } :=
  (if_neg hp).trans (modCmd_listed hc _)

theorem searchMiss_settled (hp : pendingOf s c ≠ 0) :
    searchMiss s slot c excl true = setCmd { s with idx := { s.idx with shadowq := s.idx.shadowq ++ [slot] } } slot
      { c with phase := .shadow excl s.med.wseq } :=
  (if_neg hp).trans ((if_pos rfl).trans
    (modCmd_listed (s := { s with idx := { s.idx with shadowq := s.idx.shadowq ++ [slot] } }) hc fun c =>
      { c with phase := .shadow excl s.med.wseq }))

variable (hph : c.phase = .searching excl settled)
include hph

theorem searchResult_miss (hb : (camSearch s 0 (searchWord s c) excl).2 = none) :
    searchResult slot s = searchMiss s slot c excl settled := by
  simp only [searchResult, hc, hph, hb]

variable {ea : Nat} {e : CamEntry} (hb : (camSearch s 0 (searchWord s c) excl).2 = some (ea, e))
include hb

theorem searchResult_verified (hv : verifyEntry s ea e (searchWord s c) c = true) :
    searchResult slot s = serveStage (repairHit s ea e) slot ea e := by
  simp only [searchResult, hc, hph, hb, hv, if_true]

theorem searchResult_falseHit (hv : verifyEntry s ea e (searchWord s c) c = false) :
    searchResult slot s = falseHit s slot ea c excl settled := by
  simp only [searchResult, hc, hph, hb, hv, Bool.false_eq_true, if_false]

end

/-! ### The shadow check (R123) -/

theorem firstVerified_nil (n : Nat) (s : Blk) (c : Cmd) (excl : List Nat) : firstVerified (n + 1) s c excl [] = (s, none) :=
  ite_self _

theorem firstVerified_best {n : Nat} {s : Blk} {c : Cmd} {excl : List Nat} {cs : List (Nat × CamEntry)} {ea : Nat} {e : CamEntry}
    (hlen : excl.length < 4) (hb : bestOf (cs.filter fun p => !excl.contains p.1) = some (ea, e))
    (hv : (maskHit (maskOf s 0) (searchWord s c) e.shadow && stageIs s e c) = true) :
    firstVerified (n + 1) s c excl cs = (s, some (ea, e)) := by
  simp only [firstVerified, if_neg (Nat.not_le.2 hlen), hb, hv, if_true]

theorem foldl_testBank_pass (s : Blk) (l : List Nat) : l.foldl (testBank true) s = s := List.foldl_fixed' (fun _ => rfl) l

/-- The entries, not excluded, whose SHADOW is the key of command `c`. -/
def shadowMatches (s : Blk) (c : Cmd) (excl : List Nat) : List (Nat × CamEntry) :=
  s.idx.cam.filter fun p => !excl.contains p.1 && maskHit (maskOf s 0) (searchWord s c) p.2.shadow

/-- The entries of the key's home bucket with a word that differs from its SHADOW. -/
def bucketBad (s : Blk) (c : Cmd) : List (Nat × CamEntry) :=
  s.idx.cam.filter fun p => homeOf (wordDigest p.2.shadow) == homeOf (wordDigest (searchWord s c)) && entryBad s p.1 p.2

/-- The addresses that the shadow check repairs. -/
theorem shadowScan_repairs (s : Blk) (c : Cmd) :
    ((s.idx.cam.filter fun p => homeOf (wordDigest p.2.shadow) == homeOf (wordDigest (searchWord s c))).filter
      fun p => entryBad s p.1 p.2).map Prod.fst = (bucketBad s c).map Prod.fst := by
  simp only [bucketBad, List.filter_filter, Bool.and_comm]

/-- With no entry left that matches, by its SHADOW or in the search after a repair, the miss is genuine. -/
theorem shadowScan_noMatch {s s1 : Blk} {c : Cmd} {excl : List Nat} {since : Nat} {pass : Bool}
    (h1 : repairEntries s ((bucketBad s c).map Prod.fst) = s1)
    (hleft : s1.idx.cam.filter (fun p => !excl.contains p.1 && maskHit (maskOf s 0) (searchWord s c) p.2.shadow) = [])
    (hsearch : bucketBad s c ≠ [] → (camSearch s1 0 (searchWord s c) excl).2 = none) :
    shadowScan s c excl since pass = (s1, none) := by
  simp only [shadowScan, shadowScan_repairs, h1, hleft, List.filter_nil, List.nil_append, List.map_nil, List.isEmpty_map, List.isEmpty_iff]
  by_cases hb : bucketBad s c = []
  · simp only [if_pos hb, List.eraseDups_nil, List.foldl_nil, firstVerified_nil]
  · simp only [if_neg hb, hsearch hb, Option.toList_none, List.foldl_nil, firstVerified_nil]

theorem shadowScan_genuineMiss {s : Blk} {c : Cmd} {excl : List Nat} {since : Nat} {pass : Bool} (hbad : bucketBad s c = [])
    (hmine : shadowMatches s c excl = []) : shadowScan s c excl since pass = (s, none) :=
  shadowScan_noMatch (by rw [hbad]; rfl) hmine (absurd hbad)

/-- With every word as its SHADOW and a compare test that passes, the best of the matches is served if its record is the key's. -/
theorem shadowScan_best {s : Blk} {c : Cmd} {excl : List Nat} {since ea : Nat} {e : CamEntry} (hbad : bucketBad s c = [])
    (hlen : excl.length < 4)
    (hsound : ∀ p ∈ shadowMatches s c excl, (bankOf s (p.1 / 8192)).out = false ∧ p.2.word = p.2.shadow)
    (hbest : bestOf (shadowMatches s c excl) = some (ea, e)) (hstage : stageIs s e c = true) :
    shadowScan s c excl since true = (s, some (ea, e)) := by
  have outs : (shadowMatches s c excl).filter (fun p => (bankOf s (p.1 / 8192)).out) = [] :=
    List.filter_eq_nil_iff.2 fun p hp => by simp [(hsound p hp).1]
  have held : (shadowMatches s c excl).filter (fun p => !(bankOf s (p.1 / 8192)).out && decide (p.2.word = p.2.shadow)) =
      shadowMatches s c excl := List.filter_eq_self.2 fun p hp => by simp [hsound p hp]
  have kept : (shadowMatches s c excl).filter (fun p => !excl.contains p.1) = shadowMatches s c excl :=
    List.filter_eq_self.2 fun p hp => (Bool.and_eq_true_iff.1 (List.mem_filter.1 hp).2).1
  have hit : maskHit (maskOf s 0) (searchWord s c) e.shadow = true :=
    (Bool.and_eq_true_iff.1 (List.mem_filter.1 (bestOf_mem hbest)).2).2
  unfold shadowScan
  simp only [shadowScan_repairs, hbad, List.map_nil, repairEntries_nil, List.isEmpty_nil, if_true, foldl_testBank_pass]
  change firstVerified 5 s c excl ((shadowMatches s c excl).filter _ ++ (shadowMatches s c excl).filter _) = _
  rw [outs, held, List.nil_append]
  exact firstVerified_best hlen (kept.symm ▸ hbest) (by rw [hit, hstage]; rfl)

/-- A repair of entries that are not the key's changes no match. -/
theorem shadowScan_repaired {s : Blk} {c : Cmd} {excl : List Nat} {since : Nat} {pass : Bool} (hlen : excl.length < 4)
    (hother : ∀ p ∈ s.idx.cam, excl.contains p.1 = true ∨
      maskHit (maskOf s 0) (searchWord s c) p.2.shadow = false ∧ entryHit s p.1 p.2 (maskOf s 0) (searchWord s c) = false) :
    shadowScan s c excl since pass = (repairEntries s ((bucketBad s c).map Prod.fst), none) := by
  refine shadowScan_noMatch rfl ?_ fun _ => ?_
  · rw [repairEntries_idx, List.filter_eq_nil_iff]
    intro p hp
    obtain ⟨q, hq, rfl⟩ := List.mem_map.1 hp
    rcases hother q hq with hx | ⟨hs, -⟩
    · simp only [hx, Bool.not_true, Bool.false_and, Bool.false_eq_true, not_false_eq_true]
    · simp only [mended_shadow, hs, Bool.and_false, Bool.false_eq_true, not_false_eq_true]
  · have none_hit : camMatches (repairEntries s ((bucketBad s c).map Prod.fst)) 0 (searchWord s c) excl = [] := by
      rw [camMatches, repairEntries_idx, List.filter_eq_nil_iff]
      intro p hp
      obtain ⟨q, hq, rfl⟩ := List.mem_map.1 hp
      rcases hother q hq with hx | ⟨hs, he⟩
      · simp only [hx, Bool.not_true, Bool.and_false, Bool.false_and, Bool.false_eq_true, not_false_eq_true]
      · have miss := entryHit_mended (eas := (bucketBad s c).map Prod.fst) hs he
        simp only [entryHit_repairEntries, maskOf] at miss ⊢
        simp only [miss, Bool.and_false, Bool.false_eq_true, not_false_eq_true]
    simp only [camSearch, List.take_of_length_le hlen.le, none_hit]
    rfl

section
variable {s : Blk} {slot since : Nat} {pass : Bool} {c : Cmd} {excl rest : List Nat} {r : Blk × Option (Nat × CamEntry)}
  (hc : cmdOf s slot = some c) (hph : c.phase = .shadow excl since) (hq : s.idx.shadowq = slot :: rest)
  (hr : shadowScan { s with idx := { s.idx with shadowq := rest } } c excl since pass = r)
include hc hph hq hr

theorem shadowCheckFn_found {ea : Nat} {e : CamEntry} (h : r.2 = some (ea, e)) : shadowCheckFn slot pass s = serveStage r.1 slot ea e := by
  simp only [shadowCheckFn, hc, hph, hq, List.head?_cons, ne_eq, not_true_eq_false, if_false, List.drop_one, List.tail_cons, hr, h]

theorem shadowCheckFn_genuineMiss (h : r.2 = none) : shadowCheckFn slot pass s = toIndex r.1 slot := by
  simp only [shadowCheckFn, hc, hph, hq, List.head?_cons, ne_eq, not_true_eq_false, if_false, List.drop_one, List.tail_cons, hr, h]

end

/-- Settles O15: a search by its match-out and the verify; the shadow check by what its scan finds. -/
theorem inflightLookupsFindTheNewestWrite : Obligations.InflightLookupsFindTheNewestWrite := by
  refine ⟨fun s slot c excl settled hc hph => ⟨fun ea e hb => ⟨fun hv hbad => ?_, fun hv hbad => ?_, fun hv hlen => ?_⟩,
      fun hb => ⟨fun hp => ?_, fun hp hs => ?_, fun hp hs => ?_⟩⟩,
    fun s slot pass c excl since rest hc hph hq => ⟨fun ea e h => ?_, fun h => ?_, fun hbad hmine => ?_,
      fun hbad hpass hlen hsound ea e hbest hstage => ?_, fun _ hlen hother => ?_⟩⟩
  · exact gives_of rfl ((searchResult_verified hc hph hb hv).trans (congrArg (serveStage · slot ea e) (if_neg (ne_true_of_eq_false hbad))))
  · exact gives_of rfl ((searchResult_verified hc hph hb hv).trans (congrArg (serveStage · slot ea e) (if_pos hbad)))
  · exact gives_of rfl ((searchResult_falseHit hc hph hb hv).trans (falseHit_excludes hlen))
  · exact gives_of rfl ((searchResult_miss hc hph hb).trans (searchMiss_noPending hc hp))
  · subst hs
    exact gives_of rfl ((searchResult_miss hc hph hb).trans (searchMiss_unsettled hc hp))
  · subst hs
    exact gives_of rfl ((searchResult_miss hc hph hb).trans (searchMiss_settled hc hp))
  · exact gives_of (f := shadowCheckFn slot pass) rfl (shadowCheckFn_found hc hph hq rfl h)
  · exact gives_of (f := shadowCheckFn slot pass) rfl (shadowCheckFn_genuineMiss hc hph hq rfl h)
  · exact shadowScan_genuineMiss hbad hmine
  · subst hpass
    exact shadowScan_best hbad hlen hsound hbest hstage
  · exact shadowScan_repaired hlen hother

/-! ### The index lookup (R101, R108, R109) -/

/-- The pages of the buckets with a matching fingerprint. -/
def candidatePages (s : Blk) (d : BitVec 128) : List Nat := ((fpMatches s d).map Prod.fst).eraseDups

/-- Those of them that only flash holds. -/
def candidatesAway (s : Blk) (d : BitVec 128) : List Nat :=
  (candidatePages s d).filter fun b => !(dirOf s b).cached && decide ((dirOf s b).pageLoc ≠ 0)

section
variable {s : Blk} {slot : Nat} {c : Cmd} (hc : cmdOf s slot = some c) (hph : c.phase = .lookup)
include hc hph

theorem lookupFn_noFingerprint (h : fpMatches s (digestOf s c.head.ns c.key) = []) : lookupFn slot s = failCmd s slot 0x0303 0 0 := by
  simp only [lookupFn, hc, if_neg (not_not_intro hph), h, List.isEmpty_nil, if_true]
  rfl

variable (hfp : fpMatches s (digestOf s c.head.ns c.key) ≠ [])
include hfp

theorem lookupFn_allCached (h : candidatesAway s (digestOf s c.head.ns c.key) = []) :
    lookupFn slot s = nextCandidate ((candidatePages s (digestOf s c.head.ns c.key)).foldl touchPage s) slot
      (slotMatches s c.head.ns (digestOf s c.head.ns c.key)) := by
  simp only [lookupFn, hc, if_neg (not_not_intro hph), List.isEmpty_iff, if_neg hfp]
  exact if_pos h

theorem lookupFn_pagesAway (h : candidatesAway s (digestOf s c.head.ns c.key) ≠ []) :
    lookupFn slot s = ((candidatesAway s (digestOf s c.head.ns c.key)).filter fun b => !readingPage s b).foldl (fun s b =>
      startRead s (dirOf s b).pageLoc (some { kind := 4, lga := b }) (.bucketPage b)) s := by
  simp only [lookupFn, hc, if_neg (not_not_intro hph), List.isEmpty_iff, if_neg hfp]
  exact if_neg h

end

/-! ### Verification of the key record (R108, R109, R134) -/

section
variable {s : Blk} {slot b i : Nat} {c : Cmd} {rest : List (Nat × Nat)} {sl : BSlot} (hc : cmdOf s slot = some c)
  (hph : c.phase = .verifying ((b, i) :: rest)) (hsl : (dirOf s b).slots.get? i = some sl)
include hc hph hsl

theorem keyVerify_waits (h : c.headIn.get? 0 = none) : keyVerify slot s = s := by
  simp only [keyVerify, hc, hph, hsl, h]

theorem keyVerify_lost (h : c.headIn.get? 0 = some none) : keyVerify slot s = failCmd (markLost s b i) slot 0x0403 0 sl.version := by
  simp only [keyVerify, hc, hph, hsl, h, stValueLost]

variable {head : Bytes} (hin : c.headIn.get? 0 = some (some head))
include hin

theorem keyVerify_isKey {p : Bytes} (hp : clearKeyRecord s c.tenant sl head = some p) (hok : keyRecordOk c sl p = true) :
    keyVerify slot s = verified s slot c b i sl head := by
  simp only [keyVerify, hc, hph, hsl, hin, hp, hok, if_true]

theorem keyVerify_otherKey {p : Bytes} (hp : clearKeyRecord s c.tenant sl head = some p) (hok : keyRecordOk c sl p = false) :
    keyVerify slot s = nextCandidate (raise s 0x4001 4 68 (leBytes 4 b ++ leBytes 1 i)) slot rest := by
  simp only [keyVerify, hc, hph, hsl, hin, hp, hok, Bool.false_eq_true, if_false, domIdx, pl, List.flatMap_cons, List.flatMap_nil,
    List.append_nil]

variable (hnone : clearKeyRecord s c.tenant sl head = none)
include hnone

theorem keyVerify_notOwner (ho : ownerOk s c.tenant c.tenant = false) :
    keyVerify slot s = failCmd (isolationEvent s 68 c.tenant c.tenant) slot 0x0601 0 0 := by
  simp only [keyVerify, hc, hph, hsl, hin, hnone, ho, Bool.false_eq_true, if_false, domIdx, stDeviceFault]

theorem keyVerify_noGeneration (ho : ownerOk s c.tenant c.tenant = true) : keyVerify slot s = failCmd s slot 0x0601 0 0 := by
  simp only [keyVerify, hc, hph, hsl, hin, hnone, ho, if_true, stDeviceFault]

end

/-- Settles O16: a lookup by its fingerprints and its pages; a candidate by its key record. -/
theorem indexLookupOutcomes : Obligations.IndexLookupOutcomes := by
  refine ⟨fun s slot c hc hph => ⟨fun h => ?_, fun hfp h => ?_, fun hfp h => ?_⟩,
    fun s slot c b i rest sl hc hph hsl => ⟨fun head p hin hp => ⟨fun hok => ?_, fun hok => ?_⟩,
      fun head hin hnone => ⟨fun ho => ?_, fun ho => ?_⟩, fun h => ?_, fun h => ?_⟩⟩
  · exact gives_of rfl (lookupFn_noFingerprint hc hph h)
  · exact gives_of rfl (lookupFn_allCached hc hph hfp h)
  · exact gives_of rfl (lookupFn_pagesAway hc hph hfp h)
  · exact gives_of rfl (keyVerify_isKey hc hph hsl hin hp hok)
  · exact gives_of rfl (keyVerify_otherKey hc hph hsl hin hp hok)
  · exact gives_of rfl (keyVerify_notOwner hc hph hsl hin hnone ho)
  · exact gives_of rfl (keyVerify_noGeneration hc hph hsl hin hnone ho)
  · exact gives_of rfl (keyVerify_lost hc hph hsl h)
  · exact gives_of rfl (keyVerify_waits hc hph hsl h)

/-! ### Retirement (R121) -/

/-- The other live entries of the key and namespace of entry `e` at `ea`. -/
def sameKey (s : Blk) (ea : Nat) (e : CamEntry) : List (Nat × CamEntry) :=
  s.idx.cam.filter fun p => p.1 ≠ ea ∧ wordDigest p.2.shadow = wordDigest e.shadow ∧ wordNs p.2.shadow = wordNs e.shadow

/-- The write of record `x` is complete, and no older entry of its key is live. -/
def MayRetire (s : Blk) (ea : Nat) (e : CamEntry) (x : Stage) : Prop := x.complete = true ∧ ∀ p ∈ sameKey s ea e, e.rank ≤ p.2.rank

theorem not_mayRetire_iff {s : Blk} {ea : Nat} {e : CamEntry} {x : Stage} :
    ¬ MayRetire s ea e x ↔ x.complete = false ∨ ∃ p ∈ sameKey s ea e, p.2.rank < e.rank := by
  simp only [MayRetire, not_and_or, Bool.not_eq_true, not_forall, Nat.not_le, exists_prop]

theorem retireFn_free {s : Blk} {ea : Nat} (h : s.idx.cam.get? ea = none) : retireFn ea s = s := by
  simp only [retireFn, h]

/-- The block with the write of entry `ea` absorbed and the entry gone, its bank and its record still to follow. -/
def absorbedEntry (s : Blk) (ea : Nat) (e : CamEntry) (x : Stage) : Blk :=
  let s1 := absorb s x (!(sameKey s ea e).isEmpty)
  modDir { s1 with idx := { s1.idx with cam := s1.idx.cam.del ea } } x.home fun d => { d with pending := d.pending - 1 }

section
variable {s : Blk} {ea : Nat} {e : CamEntry} {x : Stage} (he : s.idx.cam.get? ea = some e) (hx : s.idx.stages.get? e.stage = some x)
include he hx

theorem retireFn_stays (h : ¬ MayRetire s ea e x) : retireFn ea s = s := by
  simp only [retireFn, he, hx, List.any_eq_true, decide_eq_true_eq]
  exact if_pos (not_mayRetire_iff.1 h)

variable (h : MayRetire s ea e x)
include h

theorem retireFn_pageAway (hp : pageReady s x.bslot.1 = false) :
    retireFn ea s = if readingPage s x.bslot.1 = true then s
      else startRead s (dirOf s x.bslot.1).pageLoc (some { kind := 4, lga := x.bslot.1 }) (.bucketPage x.bslot.1) := by
  simp only [retireFn, he, hx, List.any_eq_true, decide_eq_true_eq, hp, if_true]
  exact if_neg (mt not_mayRetire_iff.2 (not_not_intro h))

theorem retireFn_absorbs (hp : pageReady s x.bslot.1 = true) :
    retireFn ea s = freeStage (modStage (judgeFull (bankEmptied (absorbedEntry s ea e x) (ea / 8192))) e.stage
      fun y => { y with retired := true }) e.stage := by
  simp only [retireFn, he, hx, List.any_eq_true, decide_eq_true_eq, hp, Bool.true_eq_false, if_false]
  exact if_neg (mt not_mayRetire_iff.2 (not_not_intro h))

end

/-- Settles O17: an entry by `MayRetire`, then by its bucket page. -/
theorem retirementAbsorbsTheOldestWrite : Obligations.RetirementAbsorbsTheOldestWrite := by
  refine ⟨fun s ea h => gives_of rfl (retireFn_free h), fun s ea e x he hx => ⟨fun h => ?_, fun hdone hold => ?_⟩⟩
  · exact gives_of rfl (retireFn_stays he hx (not_mayRetire_iff.2 h))
  have may : MayRetire s.toBlk ea e x := ⟨hdone, hold⟩
  refine ⟨fun hp hr => ?_, fun hp hr => ?_, fun hp => ?_⟩
  · exact gives_of rfl ((retireFn_pageAway he hx may hp).trans (if_neg (ne_true_of_eq_false hr)))
  · exact gives_of rfl ((retireFn_pageAway he hx may hp).trans (if_pos hr))
  · exact gives_of rfl (retireFn_absorbs he hx may hp)

/-! ### Free entries, sweeps and moves (R117, R124, R125) -/

theorem judgeFull_filled {s : Blk} (hf : freeEntry s = none) (h : s.idx.full = false) :
    judgeFull s = raise { s with idx := { s.idx with full := true, camFull := s.idx.camFull + 1 } } 0x5004 3 66 [1#8] := by
  simp only [judgeFull, hf, h]
  rfl

theorem judgeFull_freed {s : Blk} (hf : freeEntry s ≠ none) (h : s.idx.full = true) :
    judgeFull s = raise { s with idx := { s.idx with full := false } } 0x5004 3 66 [0#8] := by
  obtain ⟨ea, hea⟩ := Option.ne_none_iff_exists'.1 hf
  simp only [judgeFull, hea, h]
  rfl

theorem judgeFull_settled {s : Blk} (h : freeEntry s = none ↔ s.idx.full = true) : judgeFull s = s := by
  cases hf : freeEntry s with
  | none => simp only [judgeFull, hf, h.1 hf]
  | some ea =>
    have not_full : s.idx.full = false := Bool.eq_false_iff.2 fun full => Option.some_ne_none ea (hf.symm.trans (h.2 full))
    simp only [judgeFull, hf, not_full]

theorem writeResume_waits {s : Blk} (h : writeEntry s = none ∨ s.idx.waiters = []) : writeResume s = judgeFull s := by
  rcases h with h | h
  · simp only [writeResume, h]
  · cases he : writeEntry s <;> simp only [writeResume, he, h]

theorem writeResume_oldest {s : Blk} {ea w : Nat} {ws : List Nat} {c : Cmd} (he : writeEntry s = some ea) (hw : s.idx.waiters = w :: ws)
    (hc : cmdOf s w = some c) :
    writeResume s = judgeFull (setCmd { s with idx := { s.idx with waiters := ws } } w { c with entry := some ea }) := by
  simp only [writeResume, he, hw]
  exact congrArg judgeFull (modCmd_listed (s := { s with idx := { s.idx with waiters := ws } }) hc _)

theorem testBank_passed {s : Blk} {b : Nat} {pass : Bool} (h : pass = true ∨ (bankOf s b).out = true) : testBank pass s b = s :=
  if_pos (by simpa using h)

theorem testBank_failed {s : Blk} {b : Nat} (h : (bankOf s b).out = false) :
    testBank false s b = judgeFull (raise (modBank s b fun x => { x with out := true }) 0x5003 6 (66 + b / 4) [BitVec.ofNat 8 b]) := by
  have in_service : ¬ (false || (bankOf s b).out) = true := by simp [h]
  exact if_neg in_service

theorem camSweepFn_eq (b : Nat) (pass : Bool) (s : Blk) : camSweepFn b pass s =
    testBank pass (repairEntries s ((s.idx.cam.filter fun p => p.1 / 8192 = b ∧ entryBad s p.1 p.2).map Prod.fst)) b := rfl

/-- The block with entry `e` moved from `ea` to `dest`, its words from SHADOW, and the commands that hold it told. -/
def movedEntry (s : Blk) (ea dest : Nat) (e : CamEntry) : Blk :=
  { s with
    idx := { s.idx with cam := (s.idx.cam.del ea).set dest { e with word := e.shadow, copy := e.shadow } }
    cmd := { s.cmd with slots := s.cmd.slots.mapVal fun _ c => if c.entry = some ea then { c with entry := some dest } else c } }

theorem bankMove_lowest {s : Blk} {b ea dest : Nat} {e : CamEntry} (ho : (bankOf s b).out = true)
    (he : s.idx.cam.find? (fun p => p.1 / 8192 = b) = some (ea, e)) (hd : freeEntry s = some dest) :
    bankMove b s = judgeFull (bankEmptied (movedEntry s ea dest e) b) := by
  simp only [bankMove, if_neg (ne_false_of_eq_true ho), he, hd]
  rfl

theorem bankMove_stays {s : Blk} {b : Nat} (h : (bankOf s b).out = false ∨ freeEntry s = none ∨ ∀ p ∈ s.idx.cam, p.1 / 8192 ≠ b) :
    bankMove b s = s := by
  rcases h with ho | hf | hn
  · exact if_pos ho
  · cases he : s.idx.cam.find? (fun p => p.1 / 8192 = b) <;> simp only [bankMove, he, hf, ite_self]
  · have none_live : s.idx.cam.find? (fun p => p.1 / 8192 = b) = none := by simpa [List.find?_eq_none] using hn
    simp only [bankMove, none_live, ite_self]

/-- Settles O18: the edges by `judgeFull`; a sweep by the repair and the test of its bank; a move by `bankMove_lowest`. -/
theorem freeEntriesSweepsAndMoves : Obligations.FreeEntriesSweepsAndMoves := by
  refine ⟨fun b => ⟨judgeFull_filled, judgeFull_freed, judgeFull_settled⟩, fun s h => gives_of rfl (writeResume_waits h),
    fun s ea w ws c he hw hc => gives_of rfl (writeResume_oldest he hw hc), fun s b pass => ?_,
    fun s b ea dest e ho he hd => gives_of rfl (bankMove_lowest ho he hd), fun s b h => gives_of rfl (bankMove_stays h)⟩
  intro bad mend mendedBlk
  have repaired : repairEntries s.toBlk bad = mendedBlk := repairEntries_eq s.toBlk bad
  have same_bank : bankOf mendedBlk b.val = bankOf s.toBlk b.val := repaired ▸ bankOf_repairEntries s.toBlk bad b.val
  have sweep : ∀ p, camSweepFn b.val p s.toBlk = testBank p mendedBlk b.val := fun p =>
    (camSweepFn_eq ..).trans (congrArg (testBank p · b.val) repaired)
  refine ⟨fun h => gives_of rfl ((sweep pass).trans (testBank_passed (same_bank ▸ h))), fun hfail hin => ?_⟩
  subst hfail
  exact gives_of rfl ((sweep false).trans (testBank_failed (same_bank ▸ hin)))

/-! ### Bank modes (R119) -/

/-- The block once the reconfiguration of bank `b` to mode `w` has ended and the jobs that named it have gone on. -/
def reconfiguredBank (s : Blk) (b : Nat) (w : Bool) : Blk :=
  camJobs (judgeFull (raise (modBank s b fun y => { y with wide := w, reconf := none, after := none }) 0x5005 2 (66 + b / 4)
    [BitVec.ofNat 8 b, BitVec.ofNat 8 (boolNat w)])) fun _ k => match k with
      | .camMode mask wide left taken => if left.testBit b ∧ wide = w then some (mask, left - 2 ^ b, taken, wide) else none
      | _ => none

theorem bankReconfigured_idle {s : Blk} {b : Nat} (h : (bankOf s b).reconf = none) : bankReconfigured b s = s := by
  simp only [bankReconfigured, h]

theorem bankReconfigured_ended {s : Blk} {b : Nat} {w : Bool} (h : (bankOf s b).reconf = some w) (ha : (bankOf s b).after = none) :
    bankReconfigured b s = reconfiguredBank s b w := by
  simp only [bankReconfigured, h, ha]
  rfl

theorem bankReconfigured_ordered {s : Blk} {b : Nat} {w v : Bool} (h : (bankOf s b).reconf = some w)
    (ha : (bankOf s b).after = some v) : bankReconfigured b s = orderMode (reconfiguredBank s b w) b v := by
  simp only [bankReconfigured, h, ha]
  rfl

/-! ### The renormaliser (R116) -/

/-- The entries that the walk has still to visit when it gives the new RANK `i` next. -/
def walkLeft (s : Blk) (i : Nat) : List (Nat × CamEntry) := s.idx.cam.filter fun p => i ≤ p.2.rank

/-- A step of the walk at `i`, with the entry it visits. -/
def walkStep (s : Blk) (i : Nat) : Option (Nat × CamEntry) → Blk
  | none => { s with idx := { s.idx with next := i, renorm := none, renormHeld := false } }
  | some (ea, e) =>
    let cam := s.idx.cam.set ea { e with rank := i }
    if (walkLeft s i).length = 1 then { s with idx := { s.idx with cam := cam, next := i + 1, renorm := none, renormHeld := false } }
    else { s with idx := { s.idx with cam := cam, renorm := some (i + 1) } }

theorem renormStep_begins {s : Blk} (h : s.idx.renorm = none) (hn : 0xC00000 ≤ s.idx.next) :
    renormStep s = { s with idx := { s.idx with renorm := some 0 } } := by
  simp only [renormStep, h, if_pos hn]

theorem renormStep_early {s : Blk} (h : s.idx.renorm = none) (hn : s.idx.next < 0xC00000) : renormStep s = s := by
  simp only [renormStep, h, if_neg (Nat.not_le.2 hn)]

/-- The walk visits the first of the entries of lowest RANK. -/
theorem renormStep_walks {s : Blk} {i : Nat} (h : s.idx.renorm = some i) :
    renormStep s = walkStep s i ((walkLeft s i).argmin fun p => p.2.rank) := by
  simp only [renormStep, h]
  exact congrArg (walkStep s i) (congrArg (fun f => (walkLeft s i).foldl f none) (eq_argAux (fun _ => rfl) fun _ _ => rfl))

theorem argmin_rank_of_least {l : List (Nat × CamEntry)} {q : Nat × CamEntry} (hq : q ∈ l)
    (h : ∀ p ∈ l, p = q ∨ q.2.rank < p.2.rank) : (l.argmin fun p => p.2.rank) = some q :=
  List.argmin_eq_some_iff.2 ⟨hq, fun p hp => (h p hp).elim (fun e => e ▸ le_rfl) le_of_lt, fun p hp hle =>
    (h p hp).elim (fun e => e ▸ le_rfl) fun hlt => absurd hle (not_le.2 hlt)⟩

/-- Settles O19: a bank by its reconfiguration and what was ordered meanwhile; the walk by the least entry left. -/
theorem bankModesAndRenormalisation : Obligations.BankModesAndRenormalisation := by
  refine ⟨fun s b w h => ⟨fun ha => ?_, fun v ha => ?_⟩, fun s b h => gives_of rfl (bankReconfigured_idle h),
    fun s h => ⟨fun hn => ?_, fun hn => ?_⟩, fun s i h => ⟨fun hdone => ?_, fun ea e hmem hleast => ?_⟩⟩
  · exact gives_of rfl (bankReconfigured_ended h ha)
  · exact gives_of rfl (bankReconfigured_ordered h ha)
  · exact gives_of rfl (renormStep_begins h hn)
  · exact gives_of rfl (renormStep_early h hn)
  · have none_left : walkLeft s.toBlk i = [] := hdone
    exact gives_of rfl ((renormStep_walks h).trans (by rw [none_left]; rfl))
  · have visits : renormStep s.toBlk = walkStep s.toBlk i (some (ea, e)) :=
      (renormStep_walks h).trans (congrArg (walkStep s.toBlk i) (argmin_rank_of_least hmem hleast))
    exact ⟨fun hlast => gives_of rfl (visits.trans (if_pos hlast)), fun hmore => gives_of rfl (visits.trans (if_neg hmore))⟩

end Sys2Proof.Machine
end

section
/-! PROOFS. The statements of the family of the cipher: the re-read after a failed check; the re-key sweep. -/

namespace Sys2Proof.Machine

/-! ### The re-read (R134, R146, R251) -/

/-- The grains of extent `x` for its check: those in staging, else `bodies` as rebuilt from redundancy (R146). -/
def rereadGrains (s : Blk) (x : Extent) (bodies : List Bytes) : List Bytes :=
  (List.range x.grains).map fun j => (stagedPart s (x.lga + j)).getD (bodies.getD j [])

/-- The rebuilt extent `x` of the command `c` verifies: its tag, unless it is torn, and the check field of every grain. -/
def rereadGood (s : Blk) (c : Cmd) (x : Extent) (gs : List Bytes) : Bool :=
  (x.torn || tagGood s c x x.keyCt gs) &&
    (List.range x.grains).all fun j =>
      ((clearGrain s c { grain := x.first + j, body := gs.getD j [] }).map (checkGood c.head.ns x (x.first + j))).getD false

/-- A command that has used its re-read up, with extent `i` rebuilt as `x`. -/
def rereadCmd (c : Cmd) (i : Nat) (x : Extent) : Cmd := { c with reread := true, extents := c.extents.set i x }

/-- The media copy of extent `x` rewritten, with 0x6005. -/
def rereadRepaired (s : Blk) (c : Cmd) (x : Extent) (heads gs : List Bytes) : Blk :=
  raise (rewriteExtent s c x heads gs) 0x6005 4 0xFFFF (leBytes 2 c.head.ns ++ leBytes 8 c.version)

/-- The value marked lost, with 0x6006. -/
def rereadLost (s : Blk) (c : Cmd) : Blk :=
  raise (markValueLost s c) 0x6006 6 0xFFFF (leBytes 2 c.head.ns ++ leBytes 8 c.version)

theorem rereadFn_absent {s : Blk} {slot : Nat} (bodies : List Bytes) (h : cmdOf s slot = none) : rereadFn slot bodies s = s := by
  simp only [rereadFn, h]

section
variable {s : Blk} {slot : Nat} {c : Cmd} (bodies : List Bytes) (hc : cmdOf s slot = some c)
include hc

theorem rereadFn_notOwed (h : owesReread c = false) : rereadFn slot bodies s = s := by
  simp only [rereadFn, hc, if_pos h]

theorem rereadFn_alienPage (h : owesReread c = true) (ho : ownerOk s c.tenant c.tenant = false) :
    rereadFn slot bodies s =
      afterReread (failCmd (isolationEvent (setCmd s slot { c with reread := true }) 0xFFFF c.tenant c.tenant) slot stDeviceFault 0 0) slot := by
  simp only [rereadFn, hc, if_neg (ne_false_of_eq_true h), if_pos ho, domNone]

/-- A response that has ended, of a value that is not in staging: the verdict on the rebuilt extent decides. -/
theorem rereadFn_ended {i n : Nat} {e x : Extent} {gs : List Bytes} (h : owesReread c = true) (ho : ownerOk s c.tenant c.tenant = true)
    (he : failedExtent c = some (i, e)) (hp : c.phase = .done) (hs : c.stage = none) (hn : headCount s c e bodies = n)
    (hx : rebuiltExtent s c e (bodies.take n) = x) (hg : rereadGrains s x (bodies.drop n) = gs) :
    rereadFn slot bodies s =
      if rereadGood s (rereadCmd c i x) x gs then
        afterReread (rereadRepaired (setCmd s slot (rereadCmd c i x)) (rereadCmd c i x) x (bodies.take n) gs) slot
      else afterReread (rereadLost (setCmd s slot (rereadCmd c i x)) (rereadCmd c i x)) slot := by
  subst hn hx hg
  have ended : decide (c.phase = .streaming) = false := by simp [hp]
  have unstaged : c.stage.bind s.idx.stages.get? = none := by rw [hs]; rfl
  simp only [rereadFn, hc, if_neg (ne_false_of_eq_true h), if_neg (ne_false_of_eq_true ho), he, ended, unstaged, Bool.false_and,
    Bool.false_eq_true, if_false, Option.isNone_none, if_true]
  rfl

end

/-- Settles O22: by what the command owes, then by the owner of the key page, then by the verdict on the rebuilt extent. -/
theorem rereadRepairsOrMarksLost : Obligations.RereadRepairsOrMarksLost := by
  intro s slot bodies
  refine ⟨fun hn => gives_of rfl (rereadFn_absent bodies hn), fun c hc => ⟨fun h => gives_of rfl (rereadFn_notOwed bodies hc h),
    fun h ho => gives_of rfl (rereadFn_alienPage bodies hc h ho), fun i e h ho he hp hs => ?_⟩⟩
  have decided := rereadFn_ended bodies hc h ho he hp hs rfl rfl rfl
  exact ⟨fun hok => gives_of rfl (decided.trans (if_pos hok)), fun hok => gives_of rfl (decided.trans (if_neg (ne_true_of_eq_false hok)))⟩

/-! ### The re-key sweep (R136, R201) -/

/-- The generation of `tenant` that a running retirement job retires. -/
def retiring (s : Blk) (tenant : Nat) : Option Nat :=
  s.hub.jobs.vals.findSome? fun j => if j.jstate = 1 then
    (match j.kind with | .retireGen t g => if t = tenant then some g else none | _ => none) else none

/-- The key page of `tenant` holds the generation. -/
def holdsGen (s : Blk) (tenant gen : Nat) : Bool :=
  (s.cip.pages.get? tenant).any fun (p : KeyPage) => p.gens.any fun x => x.gen == gen

/-- 0x800D, at the start (1) and at the end (0) of the sweep. -/
def sweepEvent (s : Blk) (tenant gen : Nat) (edge : Byte) : Blk :=
  raise s 0x800D 2 0xFFFF (leBytes 2 tenant ++ leBytes 4 gen ++ [edge])

/-- The block with the sweep at `cursor`: its tenant, the generation and the position; none when no sweep is under way. -/
def setSweep (s : Blk) (cursor : Option (Nat × Nat × Nat)) : Blk := { s with med := { s.med with rekey := cursor } }

/-- With no sweep under way, a retirement job begins one while the key page still holds the generation. -/
def sweepBegin (tenant : Nat) (s : Blk) : Blk :=
  match s.med.rekey, retiring s tenant with
  | none, some g => if holdsGen s tenant g then sweepEvent (setSweep s (some (tenant, g, 0))) tenant g 1 else s
  | _, _ => s

/-- The next value of the tenant from position `cur` on. -/
def sweepNext (s : Blk) (tenant cur : Nat) : Option (Nat × BSlot) :=
  (slotsFrom s cur).find? fun e => ((nsOf s e.2.ns).map (·.tenant)) == some tenant && !e.2.lost

/-- The sweep goes on from where it stands: with its next value, or from the beginning, or to its end. -/
def sweepOn (tenant : Nat) (bodies : List Bytes) (s : Blk) : Option (Nat × Nat × Nat) → Blk
  | none => s
  | some (t, gen, cur) =>
    if t ≠ tenant then s
    else
      match sweepNext s tenant cur with
      | some (pos, sl) =>
        match rekeySlot s tenant gen pos sl bodies with
        | some s => setSweep s (some (t, gen, pos + 1))
        | none => s
      | none =>
        if genNamed s tenant gen then setSweep s (some (t, gen, 0))
        else sweepEvent (dropGen (setSweep s none) tenant gen) tenant gen 0

@[simp] theorem idleExit_bgStopped (s : Blk) : (idleExit s).pwr.bgStopped = s.pwr.bgStopped := by
  simp only [idleExit]; split <;> rfl

theorem sweepEvent_rekey (s : Blk) (tenant gen : Nat) (edge : Byte) : (sweepEvent s tenant gen edge).med.rekey = s.med.rekey := by
  rw [sweepEvent, raise_med]

theorem rekeyFn_stopped {s : Blk} (tenant : Nat) (bodies : List Bytes) (h : s.pwr.bgStopped = true) : rekeyFn tenant bodies s = s :=
  if_pos h

/-- The rewrites on the medium are committed (`t`), a sweep may begin, and then it goes on. -/
theorem rekeyFn_running {s t : Blk} (tenant : Nat) (bodies : List Bytes) (h : s.pwr.bgStopped = false)
    (ht : s.idx.stages.keys.foldl rekeyApply s = t) :
    rekeyFn tenant bodies s = sweepOn tenant bodies (sweepBegin tenant t) (sweepBegin tenant t).med.rekey := by
  subst ht
  exact if_neg (ne_true_of_eq_false h)

section
variable {s : Blk} {tenant : Nat}

theorem sweepBegin_underway {cursor : Nat × Nat × Nat} (h : s.med.rekey = some cursor) : sweepBegin tenant s = s := by
  simp only [sweepBegin, h]

theorem sweepBegin_noJob (h : s.med.rekey = none) (hj : retiring s tenant = none) : sweepBegin tenant s = s := by
  simp only [sweepBegin, h, hj]

theorem sweepBegin_genGone {g : Nat} (h : s.med.rekey = none) (hj : retiring s tenant = some g) (hg : holdsGen s tenant g = false) :
    sweepBegin tenant s = s := by
  simp only [sweepBegin, h, hj, if_neg (ne_true_of_eq_false hg)]

theorem sweepBegin_begins {g : Nat} (h : s.med.rekey = none) (hj : retiring s tenant = some g) (hg : holdsGen s tenant g = true) :
    sweepBegin tenant s = sweepEvent (setSweep s (some (tenant, g, 0))) tenant g 1 := by
  simp only [sweepBegin, h, hj, if_pos hg]

variable {bodies : List Bytes} {gen cur pos : Nat} {sl : BSlot}

theorem sweepOn_other {t : Nat} (h : t ≠ tenant) : sweepOn tenant bodies s (some (t, gen, cur)) = s :=
  if_pos h

theorem sweepOn_rewritten {t : Blk} (hn : sweepNext s tenant cur = some (pos, sl)) (hr : rekeySlot s tenant gen pos sl bodies = some t) :
    sweepOn tenant bodies s (some (tenant, gen, cur)) = setSweep t (some (tenant, gen, pos + 1)) := by
  simp only [sweepOn, if_neg (not_not_intro rfl), hn, hr]

theorem sweepOn_waits (hn : sweepNext s tenant cur = some (pos, sl)) (hr : rekeySlot s tenant gen pos sl bodies = none) :
    sweepOn tenant bodies s (some (tenant, gen, cur)) = s := by
  simp only [sweepOn, if_neg (not_not_intro rfl), hn, hr]

theorem sweepOn_again (hn : sweepNext s tenant cur = none) (hg : genNamed s tenant gen = true) :
    sweepOn tenant bodies s (some (tenant, gen, cur)) = setSweep s (some (tenant, gen, 0)) := by
  simp only [sweepOn, if_neg (not_not_intro rfl), hn, if_pos hg]

theorem sweepOn_ends (hn : sweepNext s tenant cur = none) (hg : genNamed s tenant gen = false) :
    sweepOn tenant bodies s (some (tenant, gen, cur)) = sweepEvent (dropGen (setSweep s none) tenant gen) tenant gen 0 := by
  simp only [sweepOn, if_neg (not_not_intro rfl), hn, if_neg (ne_true_of_eq_false hg)]

end

/-- Settles O32: whether a sweep begins (`sweepBegin`), then where the sweep that is under way goes (`sweepOn`). -/
theorem rekeySweepGoesOn : Obligations.RekeySweepGoesOn := by
  intro s tenant bodies s0 s1 job holds
  have gives : ∀ {b : Blk}, rekeyFn tenant bodies s0 = b → Gives (.rekeySweep tenant bodies) s b :=
    gives_of (f := fun b => rekeyFn tenant bodies (idleExit b)) rfl
  refine ⟨fun hstop => gives (rekeyFn_stopped _ _ ((idleExit_bgStopped _).trans hstop)), fun hrun => ?_⟩
  have runs : ∀ {x b : Blk} {cursor}, sweepBegin tenant s1 = x → x.med.rekey = cursor → sweepOn tenant bodies x cursor = b →
      Gives (.rekeySweep tenant bodies) s b := by
    rintro _ _ _ rfl rfl rfl
    exact gives (rekeyFn_running _ _ ((idleExit_bgStopped _).trans hrun) rfl)
  refine ⟨fun h hj => runs (sweepBegin_noJob h hj) h rfl, fun g h hj hg => runs (sweepBegin_genGone h hj hg) h rfl,
    fun t g cur h ht => runs (sweepBegin_underway h) h (sweepOn_other ht), fun gen cur s2 hs2 => ?_⟩
  obtain ⟨begun, cursor⟩ : sweepBegin tenant s1 = s2 ∧ s2.med.rekey = some (tenant, gen, cur) := by
    rcases hs2 with ⟨h, rfl⟩ | ⟨h, hj, hg, rfl, rfl⟩
    · exact ⟨sweepBegin_underway h, h⟩
    · exact ⟨sweepBegin_begins h hj hg, sweepEvent_rekey ..⟩
  exact ⟨fun pos sl s3 hn hr => runs begun cursor (sweepOn_rewritten hn hr), fun pos sl hn hr => runs begun cursor (sweepOn_waits hn hr),
    fun hn hg => runs begun cursor (sweepOn_again hn hg), fun hn hg => runs begun cursor (sweepOn_ends hn hg)⟩

end Sys2Proof.Machine
end

section
/-! PROOFS. The statements of the family of the spoke link: the taking of a flit; retry, retraining and failed training; IDENT and
CREDIT_INIT; the slots and their pins; the operations of a bridge; and that every command completes. -/

namespace Sys2Proof.Machine

/-! ### Taking a flit (R155, R159, R161, R170) -/

/-- The buffer of an accepted flit is of the first channel: read data of a spoke, and every object of the partner but a VALUE (R161). -/
def firstChannel : Link → Nat → Bool
  | .spoke _, ftype => decide (ftype = 3)
  | .tandem, ftype => decide (ftype ≠ 7)

/-- A flit in order is accepted: the next FSEQ is expected, no retry is awaited, and its credit is owed. -/
def accepted (l : Link) (ftype : Nat) (k : LinkSt) : LinkSt :=
  { k with
    rxSeq := k.rxSeq + 1, awaiting := false, reqCount := 0
    owedA := if firstChannel l ftype then k.owedA + 1 else k.owedA
    owedB := if firstChannel l ftype then k.owedB else k.owedB + 1 }

/-- What a flit out of order brings about, `ahead` after the FSEQ expected, beyond what every flit does: nothing while a retry is
awaited; else a request, or on a spoke's link, outside the window, the end of the link (R159, R170). -/
def afterGap (s : Blk) (awaiting : Bool) (ahead : Nat) : Link → Blk
  | .spoke n => if awaiting = false ∧ 128 ≤ ahead then violation s n.val else if awaiting then s else requestRetry s (.spoke n)
  | .tandem => if awaiting then s else requestRetry s .tandem

theorem afterGap_awaiting (s : Blk) (ahead : Nat) (l : Link) : afterGap s true ahead l = s := by
  cases l <;> simp [afterGap]

theorem afterGap_near {s : Blk} {ahead : Nat} {l : Link} (hw : l = .tandem ∨ ahead < 128) : afterGap s false ahead l = requestRetry s l := by
  cases l with
  | spoke n => exact if_neg fun broken => Nat.not_le.2 (hw.resolve_left Link.noConfusion) broken.2
  | tandem => rfl

theorem afterGap_outOfWindow {s : Blk} {ahead : Nat} {n : Fin 16} (hw : 128 ≤ ahead) :
    afterGap s false ahead (.spoke n) = violation s n.val := if_pos ⟨rfl, hw⟩

section
variable {s : Blk} {l : Link} {h : FlitHeader} {payload : Bytes}

theorem flitIn_down (hp : (linkOf s l).phase = .down) : flitIn s l h payload = (false, s) := if_pos hp

theorem flitIn_bad (hp : (linkOf s l).phase ≠ .down) (hc : flitCrc h payload ≠ (flitView h).fcrc) :
    flitIn s l h payload = (false, badFlit l s) :=
  (if_neg hp).trans (if_pos hc)

/-! A good flit, on a link that is not down. -/

section
variable (hp : (linkOf s l).phase ≠ .down) (hc : flitCrc h payload = (flitView h).fcrc)
include hp hc

theorem flitIn_unnumbered (hn : consumes l (flitView h).ftype = false) :
    flitIn s l h payload = (true, pump (takeCommon s l (flitView h)) l) := by
  simp only [flitIn, if_neg hp, if_neg (not_not_intro hc), if_pos hn]

variable (hn : consumes l (flitView h).ftype = true)
include hn

theorem flitIn_early (hu : (linkOf s l).phase ≠ .up) : flitIn s l h payload = (false, takeCommon s l (flitView h)) := by
  simp only [flitIn, if_neg hp, if_neg (not_not_intro hc), if_neg (ne_false_of_eq_true hn), if_pos hu]

variable (hu : (linkOf s l).phase = .up)
include hu

theorem flitIn_inOrder (hq : (flitView h).fseq = (linkOf s l).rxSeq) :
    flitIn s l h payload =
      (true, pump (setLink (takeCommon s l (flitView h)) l (accepted l (flitView h).ftype (linkOf (takeCommon s l (flitView h)) l))) l) := by
  simp only [flitIn, if_neg hp, if_neg (not_not_intro hc), if_neg (ne_false_of_eq_true hn), if_neg (not_not_intro hu), if_pos hq, accepted]
  cases l <;> rfl

theorem flitIn_outOfOrder (hq : (flitView h).fseq ≠ (linkOf s l).rxSeq) :
    flitIn s l h payload = (false, afterGap (pump (takeCommon s l (flitView h)) l) (linkOf s l).awaiting
      ((flitView h).fseq - (linkOf s l).rxSeq).toNat l) := by
  simp only [flitIn, if_neg hp, if_neg (not_not_intro hc), if_neg (ne_false_of_eq_true hn), if_neg (not_not_intro hu), if_neg hq]
  cases l with
  | spoke n => exact (apply_ite (Prod.mk false) _ _ _).symm
  | tandem => rfl

end
end

/-- Settles O23: by the link's phase, then by the FCRC, then by the flit's type and its FSEQ. -/
theorem flitsAreTakenInOrder : Obligations.FlitsAreTakenInOrder := by
  intro s l h payload v k s1 k1
  refine ⟨flitIn_down, flitIn_bad, fun hp hc => ⟨flitIn_unnumbered hp hc, flitIn_early hp hc, ?inOrderSpoke, ?inOrderTandem, ?outOfOrder⟩⟩
  case inOrderSpoke =>
    intro hn hu hq hl
    cases l with
    | spoke n => simpa only [accepted, firstChannel, decide_eq_true_eq] using flitIn_inOrder hp hc hn hu hq
    | tandem => exact absurd rfl hl
  case inOrderTandem =>
    rintro hn hu hq rfl
    simpa only [accepted, firstChannel, decide_eq_true_eq] using flitIn_inOrder hp hc hn hu hq
  case outOfOrder =>
    intro hn hu hq
    have gap := flitIn_outOfOrder hp hc hn hu hq
    refine ⟨fun ha => ?_, fun ha hw => ?_, ?_⟩
    · rw [gap, ha, afterGap_awaiting]
    · rw [gap, ha, afterGap_near hw]
    · rintro n rfl ha hw
      rw [gap, ha, afterGap_outOfWindow hw]

/-! ### Retry and training (R153, R154, R158-R160, R172, R434) -/

theorem onFlit_notTaken {s s1 : Blk} {l : Link} {h : FlitHeader} {p : Bytes} {ft lc : Nat} {f : Blk → FlitView → Blk}
    (h1 : flitIn s l h p = (false, s1)) : onFlit l h p ft lc f s = s1 := by
  simp only [onFlit, h1]; exact if_neg fun taken => Bool.noConfusion taken.1

/-- A row that does nothing beyond what every flit does. -/
theorem onFlit_keep (s : Blk) (l : Link) (h : FlitHeader) (p : Bytes) (ft lc : Nat) :
    onFlit l h p ft lc (fun t _ => t) s = (flitIn s l h p).2 := ite_self _

theorem idleFlitFn_down {s : Blk} {l : Link} {h : FlitHeader} {n : Nat} (hp : (linkOf s l).phase = .down) :
    idleFlitFn l h n s = (flitIn s l h (zeros 240)).2 := by
  rw [idleFlitFn, onFlit_keep, if_pos hp]

theorem idleFlitFn_counted {s : Blk} {l : Link} {h : FlitHeader} {n : Nat} (hp : (linkOf s l).phase ≠ .down) :
    idleFlitFn l h n s = (flitIn (countLink s l 0 n) l h (zeros 240)).2 := by
  rw [idleFlitFn, onFlit_keep, if_neg hp]

/-! A bad flit (R159). -/

section
variable {s : Blk} {l : Link}

theorem badFlit_down (hp : (linkOf s l).phase = .down) : badFlit l s = s := if_pos hp

/-- The bad flit is in the run of bad flits and in its counter. -/
def badCounted (s : Blk) (l : Link) : Blk := countLink (setLink s l { linkOf s l with badRun := (linkOf s l).badRun + 1 }) l 2 1

theorem badFlit_eighth (hp : (linkOf s l).phase = .up) (h8 : 8 ≤ (linkOf s l).badRun + 1) : badFlit l s = retrainLink (badCounted s l) l := by
  simp [badFlit, badCounted, hp, h8]

theorem badFlit_asks (hp : (linkOf s l).phase = .up) (h8 : (linkOf s l).badRun + 1 < 8) (ha : (linkOf s l).awaiting = false) :
    badFlit l s = requestRetry (badCounted s l) l := by
  simp [badFlit, badCounted, hp, ha, Nat.not_le.2 h8]

theorem badFlit_awaiting (hp : (linkOf s l).phase = .up) (h8 : (linkOf s l).badRun + 1 < 8) (ha : (linkOf s l).awaiting = true) :
    badFlit l s = badCounted s l := by
  simp [badFlit, badCounted, hp, ha, Nat.not_le.2 h8]

theorem badFlit_training (hp : (linkOf s l).phase = .training) : badFlit l s = badCounted s l := by
  simp [badFlit, badCounted, hp]

theorem fcrcFailure_down (n : Nat) (hp : (linkOf s l).phase = .down) : fcrcFailure l n s = s := by
  rw [fcrcFailure, if_pos hp, badFlit_down hp]

theorem fcrcFailure_counted (n : Nat) (hp : (linkOf s l).phase ≠ .down) : fcrcFailure l n s = badFlit l (countLink s l 1 n) := by
  rw [fcrcFailure, if_neg hp]

/-! A retrain and its causes (R154, R158, R159). -/

/-- The retrain is counted, event 0x9001 raised, and training begins. -/
def retrained (s : Blk) (l : Link) : Blk :=
  trainLink (raise (countLink s l 5 1) 0x9001 3 (linkDom l) [BitVec.ofNat 8 (linkNo l)]) l 1

theorem retrainLink_up (hp : (linkOf s l).phase = .up) : retrainLink s l = retrained (sendLink s l 4 0 []) l := if_pos hp

/-- A retrain that the far side has asked for is not said to it. -/
theorem retrainLink_asked (hp : (linkOf s l).phase = .up) : retrainLink s l false = retrained s l := if_pos hp

theorem retrainLink_idle {own : Bool} (hp : (linkOf s l).phase ≠ .up) : retrainLink s l own = s := if_neg hp

theorem retryRepeat_awaiting (hp : (linkOf s l).phase = .up) (ha : (linkOf s l).awaiting = true) : retryRepeat l s = requestRetry s l :=
  if_pos ⟨hp, ha⟩

theorem retryRepeat_idle (h : (linkOf s l).phase ≠ .up ∨ (linkOf s l).awaiting = false) : retryRepeat l s = s :=
  if_neg fun ⟨hp, ha⟩ => h.elim (· hp) (ne_false_of_eq_true ha)

theorem retrainFn_flit (h : FlitHeader) :
    retrainFn l (.flit h) s = onFlit l h (zeros 240) 5 4 (fun s _ => retrainLink s l false) s := rfl

theorem retrainFn_pair_wrong {lanes : List (List Nat)} (hw : markerWrong lanes = true) : retrainFn l (.pair lanes) s = retrainLink s l :=
  if_pos hw

theorem retrainFn_pair_idle {lanes : List (List Nat)} (h : markerWrong lanes = false ∨ (linkOf s l).phase ≠ .up) :
    retrainFn l (.pair lanes) s = s := by
  by_cases hw : markerWrong lanes = true
  · rw [retrainFn_pair_wrong hw, retrainLink_idle (h.resolve_left (ne_false_of_eq_true hw))]
  · exact if_neg hw

/-! The end of a training attempt (R154, R169, R434). -/

theorem attemptEnd_idle (hp : (linkOf s l).phase ≠ .training) : attemptEnd l s = s := if_pos hp

theorem attemptEnd_next (hp : (linkOf s l).phase = .training) (ha : (linkOf s l).attempt < 3) :
    attemptEnd l s = trainLink s l ((linkOf s l).attempt + 1) := by
  simp only [attemptEnd, if_neg (not_not_intro hp), if_pos ha]

theorem attemptEnd_tandem (hp : (linkOf s .tandem).phase = .training) (ha : 3 ≤ (linkOf s .tandem).attempt) :
    attemptEnd .tandem s = tandemDown (raise s 0x9002 5 82 [16#8]) 0 := by
  simp only [attemptEnd, if_neg (not_not_intro hp), if_neg (Nat.not_lt.2 ha)]
  rfl

theorem attemptEnd_hadBeenUp {n : Fin 16} (hp : (linkOf s (.spoke n)).phase = .training) (ha : 3 ≤ (linkOf s (.spoke n)).attempt)
    (hw : (linkOf s (.spoke n)).wasUp = true) :
    attemptEnd (.spoke n) s = removeSpoke (raise s 0x9002 5 (18 + n.val) [BitVec.ofNat 8 n.val]) n.val false := by
  simp only [attemptEnd, if_neg (not_not_intro hp), if_neg (Nat.not_lt.2 ha), if_pos hw]
  rfl

theorem attemptEnd_neverUp {n : Fin 16} (hp : (linkOf s (.spoke n)).phase = .training) (ha : 3 ≤ (linkOf s (.spoke n)).attempt)
    (hw : (linkOf s (.spoke n)).wasUp = false) :
    attemptEnd (.spoke n) s =
      powerOff (modSpoke (raise s 0x9002 5 (18 + n.val) [BitVec.ofNat 8 n.val]) n.val fun x => { x with sstate := 5 }) n.val := by
  simp only [attemptEnd, if_neg (not_not_intro hp), if_neg (Nat.not_lt.2 ha), if_neg (ne_true_of_eq_false hw)]
  rfl

end

/-- Settles O24: each row by the phase of the link, then by what its own count or operand says. -/
theorem linkRetryAndTraining : Obligations.LinkRetryAndTraining := by
  refine ⟨fun s l h n => ⟨fun hp => gives_of rfl (idleFlitFn_down hp), fun hp => gives_of rfl (idleFlitFn_counted hp)⟩,
    ?bad, ?rows, ?retryReq⟩
  case bad =>
    intro s l n s1 k s2
    refine ⟨fun hp => gives_of rfl (fcrcFailure_down n hp), fun hp => ?_⟩
    have gives : ∀ {b : Blk}, badFlit l s1 = b → Gives (.flitFcrcFailure (l, n)) s b :=
      fun hb => gives_of rfl ((fcrcFailure_counted n hp).trans hb)
    exact ⟨fun hu h8 => gives (badFlit_eighth hu h8), fun hu h8 ha => gives (badFlit_asks hu h8 ha),
      fun hu h8 ha => gives (badFlit_awaiting hu h8 ha), fun ht => gives (badFlit_training ht)⟩
  case rows =>
    intro s l k fin again told
    refine ⟨fun hp ha => gives_of rfl (retryRepeat_awaiting hp ha), fun h => gives_of rfl (retryRepeat_idle h),
      fun lanes => ⟨fun hw hp => gives_of rfl ((retrainFn_pair_wrong hw).trans (retrainLink_up hp)),
        fun h => gives_of rfl (retrainFn_pair_idle h)⟩,
      fun h s1 hin hty hlc => ?farSide, fun h s1 hin => ⟨gives_of rfl ((retrainFn_flit h).trans (onFlit_notTaken hin)), gives_of rfl (onFlit_notTaken hin)⟩,
      fun hp => gives_of rfl (retrainLink_up hp), fun hp => gives_of rfl (retrainLink_idle hp),
      fun hp => ⟨fun ha => gives_of rfl (withRest_eq (attemptEnd_next hp ha)), ?tandem, ?spoke⟩,
      fun hp => gives_of rfl (withRest_eq (attemptEnd_idle hp))⟩
    case farSide =>
      have taken : retrainFn l (.flit h) s.toBlk = retrainLink s1 l false := (retrainFn_flit h).trans (onFlit_eq hin hty (.inr hlc))
      exact ⟨fun hp => gives_of rfl (taken.trans (retrainLink_asked hp)), fun hp => gives_of rfl (taken.trans (retrainLink_idle hp))⟩
    case tandem =>
      rintro rfl ha
      exact gives_of rfl (withRest_eq (attemptEnd_tandem hp ha))
    case spoke =>
      rintro n rfl ha
      exact ⟨fun hw => gives_of rfl (withRest_eq (attemptEnd_hadBeenUp hp ha hw)),
        fun hw => gives_of rfl (withRest_eq (attemptEnd_neverUp hp ha hw))⟩
  case retryReq =>
    intro s l h s1 hin hty hlc k q n kept s2
    have taken : retryReqFn l h s.toBlk = if k.phase ≠ .up then s2 else if 16 ≤ n then retrainLink s2 l else replayFrom s2 l q :=
      onFlit_eq hin hty (.inr hlc)
    refine ⟨fun hp => gives_of rfl (taken.trans (if_pos hp)), fun hp hn => gives_of rfl ?_, fun hp hn => gives_of rfl ?_⟩
    · rw [taken, if_neg (not_not_intro hp), if_neg (Nat.not_le.2 hn)]
    · rw [taken, if_neg (not_not_intro hp), if_pos hn]

/-! ### Training completes (R160, R168, R275) -/

section
variable {s s1 : Blk} {l : Link} {h : FlitHeader} {payload : Bytes}

theorem wakeTandem_trains (hp : (linkOf s .tandem).phase = .down) (hh : s.tdm.heldDown = 0) (hd : s.dev = .run)
    (hc : flitCrc h payload = (flitView h).fcrc) : wakeTandem .tandem h payload s = trainLink s .tandem 1 :=
  if_pos ⟨rfl, hp, hh, .inl hd, hc⟩

/-- The partner's identity is kept: its serial-derived value, its side and its nonce (R275). -/
def partnerKnown (s : Blk) (payload : Bytes) : Blk :=
  setLink { s with tdm := { s.tdm with peerSerial := payload.take 4, peerSide := beAt payload 4 1, peerNonce := slice payload 5 16 } } .tandem
    { linkOf s .tandem with identIn := true }

/-! A LINK flit with LCODE IDENT has been taken, `s1` being the state that leaves. -/

section
variable (hty : (flitView h).ftype = 5) (hlc : bitsOf (flitView h).body.toNat 56 8 = 3)
include hty hlc

theorem identFn_repeated (hin : flitIn (wakeTandem l h payload s) l h payload = (true, s1))
    (hr : (linkOf s1 l).phase ≠ .training ∨ (linkOf s1 l).identIn = true) : identFn l h payload s = s1 :=
  (onFlit_eq hin hty (.inr hlc)).trans (if_pos hr)

theorem identFn_spoke {n : Fin 16} (hin : flitIn (wakeTandem (.spoke n) h payload s) (.spoke n) h payload = (true, s1))
    (hp : (linkOf s1 (.spoke n)).phase = .training) (hi : (linkOf s1 (.spoke n)).identIn = false) :
    identFn (.spoke n) h payload s =
      sendLink (modSpoke (setLink s1 (.spoke n) { linkOf s1 (.spoke n) with identIn := true }) n.val fun x => { x with ident := payload.take 10 })
        (.spoke n) 2 0 (zeros 8 ++ beBytes 4 1024 ++ beBytes 4 256) :=
  (onFlit_eq hin hty (.inr hlc)).trans (if_neg (by simp [hp, hi]))

theorem identFn_tandem (hin : flitIn (wakeTandem .tandem h payload s) .tandem h payload = (true, s1))
    (hp : (linkOf s1 .tandem).phase = .training) (hi : (linkOf s1 .tandem).identIn = false) :
    identFn .tandem h payload s =
      if beAt payload 4 1 = s1.tdm.side then raise (tandemDown (partnerKnown s1 payload) 1) 0xC00D 5 82 []
      else sendLink (partnerKnown s1 payload) .tandem 2 0 (beBytes 4 256 ++ beBytes 4 1024) :=
  (onFlit_eq hin hty (.inr hlc)).trans (if_neg (by simp [hp, hi]))

end

/-- The link is up: the partner's credits less those of the flits still to be replayed, and every count at 0 (R160, R161). -/
def creditsTaken (s : Blk) (l : Link) (payload : Bytes) : Blk :=
  let k := linkOf s l
  let used := fun (c : Nat) => (k.replay.filter fun e => creditOf e.2.ftype = c).length
  setLink s l { k with
    phase := .up, creditIn := true, attempt := 0, crA := beAt payload 0 4 - used 1, crB := beAt payload 4 4 - used 2
    takenA := 0, takenB := 0, freedA := 0, freedB := 0, owedA := 0, owedB := 0, rrCount := 0 }

/-- What the replay buffer `r` holds is sent again (R159). -/
def replayKept (s : Blk) (l : Link) (r : List (BitVec 8 × Flit)) : Blk :=
  match r.head? with
  | some e => replayFrom s l e.1
  | none => s

/-- A spoke link is up: a sled that is not known is asked for its identity (R168). -/
def spokeLinkUp (s : Blk) (n : Fin 16) (was : Bool) : Blk :=
  let t := setLink s (.spoke n) { linkOf s (.spoke n) with wasUp := true }
  pump (if was ∨ (spokeOf t n.val).profile.isSome then t else identify t n.val) (.spoke n)

/-- Training of the link has completed. -/
def linkUp (s : Blk) : Link → Bool → Blk
  | .spoke n, was => spokeLinkUp s n was
  | .tandem, _ => tandemUp s

theorem spokeLinkUp_known {n : Fin 16} {was : Bool} {t : Blk} (ht : setLink s (.spoke n) { linkOf s (.spoke n) with wasUp := true } = t)
    (hk : was = true ∨ (spokeOf t n.val).profile ≠ none) : spokeLinkUp s n was = pump t (.spoke n) := by
  subst ht
  exact congrArg (pump · (.spoke n)) (if_pos (hk.imp_right Option.isSome_iff_ne_none.2))

theorem spokeLinkUp_new {n : Fin 16} {was : Bool} {t : Blk} (ht : setLink s (.spoke n) { linkOf s (.spoke n) with wasUp := true } = t)
    (hw : was = false) (hk : (spokeOf t n.val).profile = none) : spokeLinkUp s n was = pump (identify t n.val) (.spoke n) := by
  subst ht
  exact congrArg (pump · (.spoke n)) (if_neg (by simp [hw, hk]))

theorem replayKept_cases {t : Blk} (r : List (BitVec 8 × Flit)) (hnil : r = [] → t = s)
    (hcons : ∀ e, r.head? = some e → t = replayFrom s l e.1) : replayKept s l r = t := by
  cases r with
  | nil => exact (hnil rfl).symm
  | cons e r => exact (hcons e rfl).symm

/-! A LINK flit with LCODE CREDIT_INIT has been taken, `s1` being the state that leaves. -/

section
variable (hin : flitIn s l h payload = (true, s1)) (hty : (flitView h).ftype = 5) (hlc : bitsOf (flitView h).body.toNat 56 8 = 2)
include hin hty hlc

theorem creditInitFn_early (he : (linkOf s1 l).phase ≠ .training ∨ (linkOf s1 l).identIn = false) : creditInitFn l h payload s = s1 :=
  (onFlit_eq hin hty (.inr hlc)).trans (if_pos he)

theorem creditInitFn_up (hp : (linkOf s1 l).phase = .training) (hi : (linkOf s1 l).identIn = true) {t : Blk}
    (ht : replayKept (creditsTaken s1 l payload) l (linkOf s1 l).replay = t) :
    creditInitFn l h payload s = linkUp t l (linkOf s1 l).wasUp := by
  subst ht
  refine (onFlit_eq hin hty (.inr hlc)).trans ((if_neg ?_).trans ?_)
  · simp [hp, hi]
  · cases l <;> rfl

end
end

/-- Settles O25: an IDENT and a CREDIT_INIT by whether the link waits for it, then by what the far side is. -/
theorem identAndCreditsBringALinkUp : Obligations.IdentAndCreditsBringALinkUp := by
  refine ⟨fun s l h payload s1 hl hin hty hlc => ?ident, fun s l h payload => ⟨wakeTandem_up, wakeTandem_trains⟩,
    fun s l h payload s1 hl hin hty hlc => ?creditInit⟩
  case ident =>
    intro k
    refine ⟨fun hr => gives_flit rfl hl (identFn_repeated hty hlc hin hr), fun hp hi => ⟨?_, ?_⟩⟩
    · rintro n rfl
      exact gives_flit rfl hl (identFn_spoke hty hlc hin hp hi)
    · rintro rfl
      have decided := identFn_tandem hty hlc hin hp hi
      exact ⟨fun same => gives_flit rfl hl (decided.trans (if_pos same)), fun other => gives_flit rfl hl (decided.trans (if_neg other))⟩
  case creditInit =>
    intro k
    refine ⟨fun he => gives_flit rfl hl (creditInitFn_early hin hty hlc he), fun hp hi => ?_⟩
    intro used s2 s3 hnil hcons
    have up := creditInitFn_up hin hty hlc hp hi (replayKept_cases k.replay hnil hcons)
    refine ⟨?_, ?_⟩
    · rintro rfl
      exact gives_flit rfl hl up
    · rintro n rfl s4
      exact ⟨fun known => gives_flit rfl hl (up.trans (spokeLinkUp_known rfl known)),
        fun hw hk => gives_flit rfl hl (up.trans (spokeLinkUp_new rfl hw hk))⟩

/-! ### Slots and their pins (R167-R169) -/

section
variable {s : Blk} {n : Nat}

theorem insertDebounce_seats (hi : (spokeOf s n).insDebounce = true) (hp : s.pin.prsntN.getLsbD n = false)
    (hw : s.pin.pwren.getLsbD n = false) : insertDebounce n s = seatSled s n := if_pos ⟨hi, hp, hw⟩

theorem reseatFn_seats (hr : (spokeOf s n).reseat = true) (hp : s.pin.prsntN.getLsbD n = false)
    (hw : s.pin.pwren.getLsbD n = false) : reseatFn n s = seatSled s n := if_pos ⟨hr, hp, hw⟩

theorem insertDebounce_idle (h : (spokeOf s n).insDebounce = false ∨ s.pin.prsntN.getLsbD n = true ∨ s.pin.pwren.getLsbD n = true) :
    insertDebounce n s = s := if_neg (by rcases h with h | h | h <;> simp [h])

theorem reseatFn_idle (h : (spokeOf s n).reseat = false ∨ s.pin.prsntN.getLsbD n = true ∨ s.pin.pwren.getLsbD n = true) :
    reseatFn n s = s := if_neg (by rcases h with h | h | h <;> simp [h])

theorem surpriseFn_removes (hr : (spokeOf s n).remDebounce = true) (hp : s.pin.prsntN.getLsbD n = true) :
    surpriseFn n s = removeSpoke s n false := if_pos ⟨hr, hp⟩

theorem surpriseFn_idle (h : (spokeOf s n).remDebounce = false ∨ s.pin.prsntN.getLsbD n = false) : surpriseFn n s = s :=
  if_neg (by rcases h with h | h <;> simp [h])

/-- Nothing is seen in the slot any more: its presence pin is high. -/
def sledAway (s : Blk) (n : Nat) : Blk := { s with pin := { s.pin with prsntN := s.pin.prsntN ||| (1#16 <<< n) } }

theorem prsntRise_eq : prsntRise n s = setSpoke (sledAway s n) n { spokeOf s n with
    insDebounce := false, reseat := false, remDebounce := s.pin.pwren.getLsbD n
    sstate := if s.pin.pwren.getLsbD n = true ∨ ((spokeOf s n).sstate ≠ 4 ∧ (spokeOf s n).sstate ≠ 5) then (spokeOf s n).sstate
      else if (spokeOf s n).failed.isSome then 2 else 0 } := by
  simp only [prsntRise, modSpoke, Bool.decide_eq_true]
  rfl

theorem prsntRise_powered (hw : s.pin.pwren.getLsbD n = true) :
    prsntRise n s = setSpoke (sledAway s n) n { spokeOf s n with insDebounce := false, reseat := false, remDebounce := true } := by
  rw [prsntRise_eq, if_pos (.inl hw), hw]

theorem prsntRise_keepsState (hw : s.pin.pwren.getLsbD n = false) (h4 : (spokeOf s n).sstate ≠ 4) (h5 : (spokeOf s n).sstate ≠ 5) :
    prsntRise n s = setSpoke (sledAway s n) n { spokeOf s n with insDebounce := false, reseat := false, remDebounce := false } := by
  rw [prsntRise_eq, if_pos (.inr ⟨h4, h5⟩), hw]

/-- UNSUPPORTED and FAULT end with the sled they were about. -/
theorem prsntRise_leavesState (hw : s.pin.pwren.getLsbD n = false) (h : (spokeOf s n).sstate = 4 ∨ (spokeOf s n).sstate = 5) :
    prsntRise n s = setSpoke (sledAway s n) n { spokeOf s n with
      insDebounce := false, reseat := false, remDebounce := false, sstate := if (spokeOf s n).failed.isSome then 2 else 0 } := by
  rw [prsntRise_eq, if_neg (by rcases h with h | h <;> simp [hw, h]), hw]

end

/-- Settles O26: a pin by whether the slot is powered, a debounce by whether it still runs and the pin is as it was. -/
theorem sledPinsAndDebounce : Obligations.SledPinsAndDebounce := by
  intro s n x fin gone
  exact ⟨rfl, fun hw => gives_of rfl (prsntRise_powered hw),
    fun hw => ⟨fun h4 h5 => gives_of rfl (prsntRise_keepsState hw h4 h5), fun h => gives_of rfl (prsntRise_leavesState hw h)⟩,
    fun hp hw => ⟨fun hi => gives_of rfl (insertDebounce_seats hi hp hw), fun hr => gives_of rfl (reseatFn_seats hr hp hw)⟩,
    fun h => gives_of rfl (insertDebounce_idle h), fun h => gives_of rfl (reseatFn_idle h),
    fun hr hp => gives_of rfl (withRest_eq (surpriseFn_removes hr hp)), fun h => gives_of rfl (withRest_eq (surpriseFn_idle h))⟩

/-! ### Operations of a bridge (R156-R158, R162, R166, R169, R170) -/

section
variable {s : Blk} {n : Nat}

theorem opTimeout_outstanding {opid : BitVec 12} (h : (spokeOf s n).ops.has opid.toNat = true) : opTimeout n opid s = violation s n := if_pos h

theorem opTimeout_ended {opid : BitVec 12} (h : (spokeOf s n).ops.has opid.toNat = false) : opTimeout n opid s = s :=
  if_neg (ne_true_of_eq_false h)

theorem alertFall_up (hp : (linkOf s (spokeLink n)).phase = .up) :
    alertFall n s =
      issueOp { s with pin := { s.pin with alertN := s.pin.alertN &&& ~~~(1#16 <<< n) } } n 0x20 0 0 0 false [1#8] [] .health :=
  if_pos hp

theorem alertFall_notUp (hp : (linkOf s (spokeLink n)).phase ≠ .up) :
    alertFall n s = { s with pin := { s.pin with alertN := s.pin.alertN &&& ~~~(1#16 <<< n) } } := if_neg hp

end

/-- The operation that an OPID names, if it has been sent. -/
def outstandingOp (s : Blk) (n opid : Nat) : Option Op := ((spokeOf s n).ops.get? opid).filter (!·.unsent)

/-- The operation with the bytes of one more DATA_IN flit. -/
def dataAdded (x : Op) (b : Bytes) : Op := { x with got := x.got ++ b, gotFlits := x.gotFlits + 1 }

/-- How much an operation brings: a parameter page or a codeword (R163). -/
def dataLength (x : Op) : Nat := if x.op = 0x0B then 256 else 4640

/-- Read data for an operation: it is taken if it is the next of a READ, a READ with an offset or a READ_PARAM and lies within the
length; all else is a violation (R157, R170). -/
def dataFor (s : Blk) (n : Nat) (o : OpView) (payload : Bytes) : Option Op → Blk
  | none => violation s n
  | some x =>
    if (x.op = 0x01 ∨ x.op = 0x02 ∨ x.op = 0x0B) ∧ o.index = x.gotFlits ∧ (dataAdded x (payload.take o.len)).got.length ≤ dataLength x then
      setSpoke s n { spokeOf s n with ops := (spokeOf s n).ops.set o.opid (dataAdded x (payload.take o.len)) }
    else violation s n

/-- A removal that waits for the operations of the spoke ends with the last of them (R169). -/
def endRemoval (s : Blk) (n : Nat) : Blk :=
  if (spokeOf s n).removing.isSome ∧ (spokeOf s n).ops.vals.all (·.unsent) then removeSpoke s n true else s

/-- A STATUS for an operation: it ends, its OPID goes on, and its result acts; one for no operation is a violation (R158, R170). -/
def statusFor (s : Blk) (n : Nat) (o : OpView) (payload : Bytes) : Option Op → Blk
  | none => violation s n
  | some x => endRemoval (opEnded
      (resumeOps (setSpoke s n { spokeOf s n with ops := (spokeOf s n).ops.del o.opid }) n) n x o.result payload) n

theorem endRemoval_goesOn {s : Blk} {n : Nat} (h : (spokeOf s n).removing = none ∨ (spokeOf s n).ops.vals.all (·.unsent) = false) :
    endRemoval s n = s :=
  if_neg fun ⟨hr, hu⟩ => h.elim (Option.isSome_iff_ne_none.1 hr) (ne_false_of_eq_true hu)

theorem endRemoval_ends {s : Blk} {n : Nat} (hr : (spokeOf s n).removing ≠ none) (hu : (spokeOf s n).ops.vals.all (·.unsent) = true) :
    endRemoval s n = removeSpoke s n true := if_pos ⟨Option.isSome_iff_ne_none.2 hr, hu⟩

/-! `s1` is the state that the taking of the flit leaves. -/

section
variable {s s1 : Blk} {n : Nat} {h : FlitHeader} {payload : Bytes} {x : Option Op}
  (hin : flitIn s (spokeLink n) h payload = (true, s1))
include hin

theorem dataInFn_taken (hty : (flitView h).ftype = 3) (hx : outstandingOp s1 n (opView (flitView h).body).opid = x) :
    dataInFn n h payload s = dataFor s1 n (opView (flitView h).body) payload x := by
  refine (onFlit_eq hin hty (.inl (by decide))).trans ?_
  rw [outstandingOp] at hx
  simp only [hx]
  cases x with
  | none => rfl
  | some x =>
    rw [dataFor, ← ite_not]
    exact if_congr (by simp only [not_and_or, Nat.not_le]; rfl) rfl rfl

theorem statusFn_alarm (hty : (flitView h).ftype = 4) (hop : (opView (flitView h).body).op = 0xFF)
    (hid : (opView (flitView h).body).opid = 0xFFF) : statusFn n h payload s = healthRecord s1 n (payload.take 16) :=
  (onFlit_eq hin hty (.inl (by decide))).trans (if_pos ⟨hop, hid⟩)

theorem statusFn_operation (hty : (flitView h).ftype = 4)
    (ha : ¬ ((opView (flitView h).body).op = 0xFF ∧ (opView (flitView h).body).opid = 0xFFF))
    (hx : outstandingOp s1 n (opView (flitView h).body).opid = x) :
    statusFn n h payload s = statusFor s1 n (opView (flitView h).body) payload x := by
  refine (onFlit_eq hin hty (.inl (by decide))).trans ((if_neg ha).trans ?_)
  rw [outstandingOp] at hx
  simp only [hx]
  cases x <;> rfl

end

/-- Settles O27: a flit by its type and by the operation that its OPID names, then by what that operation still expects. -/
theorem bridgeOperationsEnd : Obligations.BridgeOperationsEnd := by
  refine ⟨fun s n => ⟨fun hp => gives_of rfl (alertFall_up hp), fun hp => gives_of rfl (alertFall_notUp hp)⟩,
    fun s n opid => ⟨fun h => gives_of rfl (withRest_eq (opTimeout_outstanding h)), fun h => gives_of rfl (withRest_eq (opTimeout_ended h))⟩,
    fun s n h payload s1 hl hin => ⟨fun hty => ?dataIn, fun hty => ⟨fun hop hid => ?alarm, fun ha => ?status⟩⟩⟩
  case dataIn =>
    refine ⟨fun x hx => ⟨fun hop hi hlen => ?_, fun wrong => ?_⟩, fun hx => gives_flit rfl hl (dataInFn_taken hin hty hx)⟩
    · exact gives_flit rfl hl ((dataInFn_taken hin hty hx).trans (if_pos ⟨hop, hi, hlen⟩))
    · refine gives_flit rfl hl ((dataInFn_taken hin hty hx).trans (if_neg ?_))
      rintro ⟨hop, hi, hlen⟩
      obtain ⟨h1, h2, h3⟩ | wrong | wrong := wrong
      · exact hop.elim h1 (·.elim h2 h3)
      · exact wrong hi
      · exact Nat.not_lt.2 hlen wrong
  case alarm => exact gives_flit rfl hl (withRest_eq (statusFn_alarm hin hty hop hid))
  case status =>
    refine ⟨fun x hx => ?_, fun hx => gives_flit rfl hl (withRest_eq (statusFn_operation hin hty ha hx))⟩
    have ends := statusFn_operation hin hty ha hx
    exact ⟨fun more => gives_flit rfl hl (withRest_eq (ends.trans (endRemoval_goesOn more))),
      fun hr hu => gives_flit rfl hl (withRest_eq (ends.trans (endRemoval_ends hr hu)))⟩

/-! ### Every command completes (R155) -/

/-- The command `c` carries a flit with header `h` and payload `p`. -/
def CarriesFlit (c : Instr) (h : FlitHeader) (p : Bytes) : Prop :=
  c = .tandemStateFlit h p ∨ c = .tandemValueFlit h p ∨ c = .held h p ∨ c = .joinProof h p ∨ c = .heartbeat h p ∨ c = .resign h p ∨
    (∃ l, c = .ident l h p ∨ c = .creditInit l h p) ∨ (∃ n, c = .dataIn n h p ∨ c = .status n h p)

theorem carriesFlit_length {c : Instr} {h : FlitHeader} {p : Bytes} (hc : CarriesFlit c h p) (hw : c.wellFormed = true) : p.length = 240 := by
  rcases hc with rfl | rfl | rfl | rfl | rfl | rfl | ⟨l, rfl | rfl⟩ | ⟨n, rfl | rfl⟩ <;> exact beq_iff_eq.1 hw

/-- A flit of another length than R155 gives it is the one fault. -/
theorem exec_shortFlit {c : Instr} {h : FlitHeader} {p : Bytes} (hc : CarriesFlit c h p) (hl : p.length ≠ 240) (s : State) :
    exec c s = .fault .noSuchFlit := by
  rcases hc with rfl | rfl | rfl | rfl | rfl | rfl | ⟨l, rfl | rfl⟩ | ⟨n, rfl | rfl⟩ <;> exact if_neg hl

/-- Any other command answers a next state. -/
theorem exec_completes {c : Instr} (hc : ∀ h p, CarriesFlit c h p → p.length = 240) (s : State) : ∃ t, exec c s = .next t := by
  obtain ⟨f, hf⟩ | ⟨h, p, hcarries, f, hf⟩ | ⟨off, v, rfl⟩ | rfl | rfl | rfl | ⟨x, rfl⟩ := exec_cases c
  · exact ⟨_, hf s⟩
  · exact ⟨_, (hf s).trans (if_pos (hc h p hcarries))⟩
  all_goals exact ⟨_, rfl⟩

/-- Settles O55: a flit of the wrong length is the fault, and every other command completes. -/
theorem everyCommandCompletes : Obligations.EveryCommandCompletes := by
  intro c s
  by_cases short : ∃ h p, p.length ≠ 240 ∧ CarriesFlit c h p
  · obtain ⟨h, p, hl, hc⟩ := id short
    have fault := exec_shortFlit hc hl s
    exact ⟨by simp [fault], ⟨fun _ => short, fun _ => ⟨_, fault⟩⟩, fun f hf => Host.Outcome.fault.inj (hf.symm.trans fault),
      fun hw => absurd (carriesFlit_length hc hw) hl⟩
  · obtain ⟨t, next⟩ := exec_completes (fun h p hc => by_contra fun hl => short ⟨h, p, hl, hc⟩) s
    have noFault : ∀ f, exec c s ≠ .fault f := by simp [next]
    exact ⟨by simp [next], ⟨fun ⟨f, hf⟩ => absurd hf (noFault f), fun h => absurd h short⟩,
      fun f hf => absurd hf (noFault f), fun _ => ⟨t, next⟩⟩

end Sys2Proof.Machine
end


section
/-! PROOFS. The statements of the family of the media: stripes, journals and checkpoints; folding, garbage collection and erasing;
patrol and the derailleur. -/

namespace Sys2Proof.Machine

/-! ### A stripe closes (R253) -/

/-- A stripe with pads up to its data grains, that takes no more. -/
def padded (x : Stripe) : Stripe :=
  { x with grains := x.grains ++ List.replicate (16 * x.k - x.grains.length) {}, sealed := true }

/-- A band without a unit left closes. -/
def closeFullBand (s : Blk) (b : Nat) : Blk :=
  if (s.med.bands.get? b).any fun x => decide (bandUnits s x ≤ x.nextUnit) then closeBand s b else s

theorem closeFullBand_eq (s : Blk) (b : Nat) : closeFullBand s b =
    match s.med.bands.get? b with
    | some x => if bandUnits s x ≤ x.nextUnit then closeBand s b else s
    | none => s := by
  rw [closeFullBand]
  cases s.med.bands.get? b <;> simp

theorem gives_stripeClose {s : State} {st : Nat} {b : Blk} (h : closeStripe s.toBlk st = b) : Gives (.stripeClose st) s b :=
  gives_of (f := fun b => closeStripe b st) rfl h

section
variable {s : Blk} {st : Nat}

theorem closeStripe_gone (h : stripeOf s st = none) : closeStripe s st = s := by simp only [closeStripe, h]

theorem closeStripe_sealed {x : Stripe} (h : stripeOf s st = some x) (hx : x.sealed = true) : closeStripe s st = s := by
  simp only [closeStripe, h, if_pos hx]

theorem closeStripe_open {x : Stripe} (h : stripeOf s st = some x) (hx : x.sealed = false) :
    closeStripe s st = checkClosed
      (closeFullBand (forEach (List.range (x.k + x.m)) (fun s n => programMember s st n) (setStripe s st (padded x))) x.band) st := by
  simp only [closeStripe, h, if_neg (ne_true_of_eq_false hx), closeFullBand_eq]
  rfl

end

/-! ### Grains that wait for a parity buffer (R254) -/

/-- The grain at the head of the assembly queue, with `rest` behind it, goes to the stripe `st`, and the others after it. -/
def assembleOn (rest : List (Nat × Nat × Nat × SGrain)) (g : SGrain) (s : Blk) (st : Nat) : Blk :=
  pumpAsm (rest.length + 1) (putGrain { s with med := { s.med with asmq := rest } } st g)

section
variable {s : Blk}

theorem resumeAsm_empty (h : s.med.asmq = []) (hp : s.med.pbufExhausted = false) : resumeAsm s = s := by
  simp only [resumeAsm, pumpAsm, h, hp, Bool.false_eq_true, if_false]

theorem resumeAsm_emptied (h : s.med.asmq = []) (hp : s.med.pbufExhausted = true) :
    resumeAsm s = { s with med := { s.med with pbufExhausted := false } } := by
  simp only [resumeAsm, pumpAsm, h, hp, if_true]

variable {ns gear str : Nat} {g : SGrain} {rest : List (Nat × Nat × Nat × SGrain)} (h : s.med.asmq = (ns, gear, str, g) :: rest)
include h

theorem resumeAsm_stripe {st : Nat} (hs : stripeFor s ns gear str = some st) : resumeAsm s = assembleOn rest g s st := by
  simp only [resumeAsm, h, List.length_cons, pumpAsm, hs, assembleOn]

theorem resumeAsm_stays (hs : stripeFor s ns gear str = none) (ho : openStripe s ns gear str = none) : resumeAsm s = s := by
  simp only [resumeAsm, h, pumpAsm, hs, ho]

theorem resumeAsm_opens {st : Nat} {t : Blk} (hs : stripeFor s ns gear str = none) (ho : openStripe s ns gear str = some (st, t)) :
    resumeAsm s = assembleOn rest g t st := by
  simp only [resumeAsm, h, List.length_cons, pumpAsm, hs, ho, assembleOn]

end

/-! ### The map journal and the checkpoints (R202, R203, R205, R356) -/

/-- The next blocks of every stream that takes blocks are named. -/
def nameStreams (s : Blk) : Blk := s.med.named.keys.eraseDups.foldl (fun t q => nameStream t q []) s

/-- The ring moves whole to the flash journal, with the write pointer of every open block. -/
def ringOnFlash (s : Blk) : Blk :=
  { s with med := { s.med with
    ring := [], fjournal := s.med.fjournal ++ s.med.ring, wptrs := openPointers s ++ s.med.named.vals.flatten.map (·, 0) } }

/-- The pages that the ring fills are programmed. -/
def writeRing (s : Blk) : Blk :=
  writeJournal (useCluster { s with med := { s.med with jflush := s.med.jflush + 1 } }) (journalSpokes s)
    (journalBodies s s.med.ring.length)

/-- The directory, with the anchor blocks that are due. -/
def checkpointDirectory (s : Blk) : Blk :=
  let t := forEach s.med.anchorDue (fun s a => writeAnchor s (a / 512) (a % 512)) s
  writeCheckpoint { t with med := { t.med with
      ckDir := s.idx.dir.mapVal fun _ d => { d with pending := 0, slots := [], cached := false, dirty := false }
      ckItem := 1, ckKeep := t.med.fjournal.length, ckFlush := t.med.jflush } }
    (t.idx.dir.flatMap fun e => dirBytes e.2)

/-- The map root and the truing entries. -/
def checkpointRoot (s : Blk) : Blk :=
  let t : Tbl Bytes := s.med.tentries.map fun e => (e.1, truingBytes e.2)
  writeCheckpoint { s with med := { s.med with ckRoot := s.med.mroot, ckTruing := t, ckBands := s.med.bands, ckItem := 2 } }
    ((s.med.mroot.flatMap fun e => leBytes 8 e.2) ++ t.vals.flatten)

/-- The dirty map pages; what the rotation has passed leaves the flash journal. -/
def checkpointPages (s : Blk) : Blk :=
  let t := forEach s.med.mdirty writeMapPage s
  let old := (t.med.fjournal.take t.med.ckKeep).filter (stillNeeded t)
  { t with med := { t.med with
      ckItem := 0, fjournal := old ++ t.med.fjournal.drop t.med.ckKeep, jfree := if old.isEmpty then t.med.ckFlush else t.med.jfree } }

section
variable {s : Blk}

theorem journalFlush_dumping (h : s.pwr.dump ≠ none) : journalFlush s = s := if_pos (Option.isSome_iff_ne_none.2 h)

theorem checkpointStep_dumping (h : s.pwr.dump ≠ none) : checkpointStep s = s := if_pos (Option.isSome_iff_ne_none.2 h)

variable (h : s.pwr.dump = none)
include h

theorem journalFlush_running : journalFlush s = ringOnFlash (writeRing (nameStreams s)) := by
  simp only [journalFlush, journalWrite, h, Option.isSome_none, Bool.false_eq_true, if_false, Option.map_none, Option.toList_none,
    List.append_nil]
  rfl

theorem checkpointStep_running : checkpointStep s =
    match s.med.ckItem with
    | 0 => checkpointDirectory s
    | 1 => checkpointRoot s
    | _ => checkpointPages s := by
  simp only [checkpointStep, h, Option.isSome_none, Bool.false_eq_true, if_false]
  rfl

end

/-- Settles O29: a stripe by whether it is open, the assembly queue by its head, the checkpoint by the item that is due. -/
theorem stripesAndJournals : Obligations.StripesAndJournals := by
  refine ⟨fun s st => ⟨?gone, fun x hx => ⟨?sealed, ?unsealed⟩⟩, fun s => ⟨?empty, ?emptied,
    fun ns gear str g rest hq => ⟨?stripe, ?waits⟩, ?stripeJournal, ?flush, ?checkpoint, ?dumping⟩⟩
  case gone => exact fun h => gives_stripeClose (closeStripe_gone h)
  case sealed => exact fun h => gives_stripeClose (closeStripe_sealed hx h)
  case unsealed => exact fun h => gives_stripeClose (closeStripe_open hx h)
  case empty => exact fun h hp => gives_of rfl (resumeAsm_empty h hp)
  case emptied => exact fun h hp => gives_of rfl (resumeAsm_emptied h hp)
  case stripe => exact fun st hs => gives_of rfl (resumeAsm_stripe hq hs)
  case waits => exact fun hs => ⟨fun ho => gives_of rfl (resumeAsm_stays hq hs ho), fun st s1 ho => gives_of rfl (resumeAsm_opens hq hs ho)⟩
  case stripeJournal => exact gives_of rfl rfl
  case flush => exact fun h => gives_of rfl (journalFlush_running h)
  case checkpoint =>
    intro h
    have item := checkpointStep_running h
    refine ⟨fun hi => ?_, fun hi => ?_, fun hi => ?_⟩
    · rw [hi] at item; exact gives_of rfl item
    · rw [hi] at item; exact gives_of rfl item
    · rw [← Nat.sub_add_cancel hi] at item; exact gives_of rfl item
  case dumping => exact fun h => ⟨gives_of rfl (journalFlush_dumping h), gives_of rfl (checkpointStep_dumping h)⟩

/-! ### Folding (R191, R193) -/

theorem gives_fold {s : State} {n : Fin 16} {b : Blk} (h : foldFn n.val (idleExit s.toBlk) = b) : Gives (.fold n) s b :=
  gives_of (f := fun b => foldFn n.val (idleExit b)) rfl h

section
variable {n : Nat} {s : Blk}

/-- GC comes first: the spoke lies below GC_URGENT, and GC has a victim. -/
def GcFirst (s : Blk) (n : Nat) : Prop := freeFraction (spokeOf s n) < target s 0x0A ∧ victim s n ≠ none

/-- The oldest closed block of the SLC buffer of a spoke that holds a live grain not yet on the move. -/
def oldestBuffered (s : Blk) (n : Nat) : Option Nat :=
  leastBlk s (fun k => (blkAt s k).closeOrder) ((s.med.blks.filter fun e =>
    e.2.st = 2 ∧ blkSpoke e.1 = n ∧ isBuffer s e.1 ∧ (liveIn s e.1).any (fun g => !moveBusy s g)).map Prod.fst)

theorem foldFn_waits (h : s.pwr.bgStopped = true ∨ slcAbove s (policy s 0x0B) = false ∨ GcFirst s n) : foldFn n s = s :=
  if_pos (h.imp_right (Or.imp_right (And.imp_right Option.isSome_iff_ne_none.2)))

theorem foldFn_empty (h : oldestBuffered s n = none) : foldFn n s = s := by
  rw [oldestBuffered] at h
  simp only [foldFn, h, ite_self]

theorem foldFn_moves {k : Nat} (hr : s.pwr.bgStopped = false) (ha : slcAbove s (policy s 0x0B) = true) (hf : ¬ GcFirst s n)
    (h : oldestBuffered s n = some k) : foldFn n s = moveLive s (liveIn s k) (blkAt s k).gear foldStream := by
  rw [oldestBuffered] at h
  simp only [foldFn, h]
  exact if_neg (not_or.2 ⟨ne_true_of_eq_false hr, not_or.2 ⟨ne_false_of_eq_true ha,
    fun first => hf (first.imp_right Option.isSome_iff_ne_none.1)⟩⟩)

end

/-! ### Garbage collection (R193, R194, R257) -/

theorem gives_gcPass {s : State} {n : Fin 16} {b : Blk} (h : gcPassFn n.val (idleExit s.toBlk) = b) : Gives (.gcPass n) s b :=
  gives_of (f := fun b => gcPassFn n.val (idleExit b)) rfl h

theorem findSome?_unless {α β : Type} (l : List α) (p : α → Bool) (f : α → β) :
    (l.findSome? fun a => if p a then none else some (f a)) = (l.find? fun a => !p a).map f := by
  induction l with
  | nil => rfl
  | cons a l ih => cases h : p a <;> simp [h, ih]

section
variable {n : Nat} {s : Blk}

/-- The live grains of a stripe band on a spoke. -/
def liveOnSpoke (s : Blk) (n : Nat) (e : Nat × Band) : List LiveG := (bandLive s e.1).filter fun g => (pgaView g.pga).spoke = n

/-- The first band queued for relocation with a live grain on the spoke. -/
def firstQueued (s : Blk) (n : Nat) : Option (Nat × Band) :=
  (s.med.bands.filter fun e => e.2.relocate).find? fun e => !(liveOnSpoke s n e).isEmpty

theorem gcPassFn_stopped (h : s.pwr.bgStopped = true) : gcPassFn n s = s := if_pos h

/-- What a pass moves, once the relocations that have ended are struck off: the band queued first goes before the victim. -/
def gcMoves (n : Nat) (s : Blk) : Blk :=
  match firstQueued s n with
  | some e => moveLive s (liveOnSpoke s n e) (colder e.2.gear) gcStream
  | none =>
    if policy s 0x09 ≤ freeFraction (spokeOf s n) then s
    else match victim s n with
      | some k => moveLive s (liveIn s k) (colder (blkAt s k).gear) gcStream
      | none => s

theorem gcPassFn_running (h : s.pwr.bgStopped = false) : gcPassFn n s = gcMoves n (doneRelocating s) := by
  simp only [gcPassFn, if_neg (ne_true_of_eq_false h), findSome?_unless, gcMoves, firstQueued, liveOnSpoke]
  cases List.find? _ _ <;> rfl

theorem gcMoves_queued {e : Nat × Band} (h : firstQueued s n = some e) :
    gcMoves n s = moveLive s (liveOnSpoke s n e) (colder e.2.gear) gcStream := by
  simp only [gcMoves, h]

theorem gcMoves_rests (h : firstQueued s n = none) (hv : policy s 0x09 ≤ freeFraction (spokeOf s n) ∨ victim s n = none) :
    gcMoves n s = s := by
  rw [gcMoves, h]
  rcases hv with enough | noVictim
  · exact if_pos enough
  · simp only [noVictim, ite_self]

theorem gcMoves_victim {k : Nat} (h : firstQueued s n = none) (hf : freeFraction (spokeOf s n) < policy s 0x09)
    (hv : victim s n = some k) : gcMoves n s = moveLive s (liveIn s k) (colder (blkAt s k).gear) gcStream := by
  simp only [gcMoves, h, if_neg (Nat.not_le.2 hf), hv]

end

/-! ### Erasing (R196) -/

theorem gives_sourceErase {s : State} {k : Nat} {b : Blk} (h : eraseFn k (idleExit s.toBlk) = b) : Gives (.sourceErase k) s b :=
  gives_of (f := fun b => eraseFn k (idleExit b)) rfl h

/-- A closed block with nothing live, no read under way and its die in service. -/
def Erasable (s : Blk) (k : Nat) : Prop :=
  (blkAt s k).st = 2 ∧ blkDead s k = true ∧ readsBlock s k = false ∧ inService s (blkSpoke k) = true ∧
    dieUsable (spokeOf s (blkSpoke k)) (blkDie k) = true

/-- The row of a block in every plane. -/
def planeRows (s : Blk) (k : Nat) : List Nat :=
  (List.range (max 1 (profOf s (blkSpoke k)).planes)).map fun i => rowOf (profOf s (blkSpoke k)) i 0 (k % 65536)

/-- ERASE of a block, in all its planes at once. -/
def issueErase (s : Blk) (k : Nat) : Blk :=
  issueOp (modBlk s k fun b => { b with st := 4 }) (blkSpoke k) opErase (blkDie k / 16) (blkDie k % 16) ((planeRows s k).headD 0)
    (blkAt s k).slc ([BitVec.ofNat 8 (planeRows s k).length, 0, 0, 0] ++ (planeRows s k).tail.flatMap (beBytes 4)) [] (.erase k)

theorem not_erasable_iff (s : Blk) (k : Nat) : ¬ Erasable s k ↔
    (blkAt s k).st ≠ 2 ∨ blkDead s k = false ∨ readsBlock s k ∨ inService s (blkSpoke k) = false ∨
      dieUsable (spokeOf s (blkSpoke k)) (blkDie k) = false := by
  simp only [Erasable, not_and_or, Bool.not_eq_true, Bool.not_eq_false, ne_eq]

theorem eraseFn_stays {s : Blk} {k : Nat} (h : ¬ Erasable s k) : eraseFn k s = s := if_pos ((not_erasable_iff s k).1 h)

theorem eraseFn_erases {s : Blk} {k : Nat} (h : Erasable s k) : eraseFn k s = issueErase s k :=
  if_neg fun idle => (not_erasable_iff s k).2 idle h

/-- Settles O30: a fold by what holds it back, a pass by what it finds to move, an erase by whether the block is erasable. -/
theorem foldGcAndErase : Obligations.FoldGcAndErase := by
  refine ⟨fun s n => ⟨?foldWaits, fun hr ha hf k hk => ?folds⟩, fun s n => ⟨fun hr => ?gcStopped, fun hr => ?gcRuns⟩,
    fun s k => ⟨fun h => ?kept, fun h => ?erased⟩⟩
  case foldWaits =>
    rintro (h | h | h | h)
    · exact gives_fold (foldFn_waits (.inl ((idleExit_bgStopped _).trans h)))
    · exact gives_fold (foldFn_waits (.inr (.inl h)))
    · exact gives_fold (foldFn_waits (.inr (.inr h)))
    · exact gives_fold (foldFn_empty h)
  case folds => exact gives_fold (foldFn_moves ((idleExit_bgStopped _).trans hr) ha hf hk)
  case gcStopped => exact gives_gcPass (gcPassFn_stopped ((idleExit_bgStopped _).trans hr))
  case gcRuns =>
    have runs := gcPassFn_running (n := n.val) ((idleExit_bgStopped s.toBlk).trans hr)
    exact ⟨fun e hq => gives_gcPass (runs.trans (gcMoves_queued hq)), fun hq hv => gives_gcPass (runs.trans (gcMoves_rests hq hv)),
      fun k hq hf hv => gives_gcPass (runs.trans (gcMoves_victim hq hf hv))⟩
  case kept => exact gives_sourceErase (eraseFn_stays h)
  case erased => exact gives_sourceErase (eraseFn_erases h)

/-! ### Patrol (R198-R200, R345) -/

theorem gives_patrol {s : State} {n : Fin 16} {k cw : Nat} {b : Blk} (h : patrolFn n.val k cw (idleExit s.toBlk) = b) :
    Gives (.patrol n k cw) s b :=
  gives_of (f := fun b => patrolFn n.val k cw (idleExit b)) rfl h

/-- The place of the codeword `cw` of the block `k` on the spoke `n`. -/
def patrolPga (s : Blk) (n k cw : Nat) : Nat := blockPga s n (blkDie k) (k % 65536) (cw / 4) (cw % 4)

/-- Patrol reads the codeword for a hard decode; one that another read escalates already needs more than that. -/
def patrolRead (s : Blk) (n k cw : Nat) : Blk :=
  if (escalating s (patrolPga s n k cw)).isSome then patrolCheck s k cw none []
  else askSpan s (patrolPga s n k cw) (.patrol k cw)
    (((liveIn s k).find? fun g => g.pga = patrolPga s n k cw).map fun g => expectOf s g.kind g.lga)

/-- The codeword is the last one written in its block. -/
def lastWritten (s : Blk) (k cw : Nat) : Bool := decide (4 * (blkAt s k).wp ≤ cw + 1)

/-- The queue, or the pass, of a spoke after the codeword `cw` of the block `k`, which is its last written one if `done`. -/
def patrolled (k cw : Nat) (done : Bool) (x : SpokeSt) : SpokeSt :=
  match x.patrolq with
  | _ :: q => { x with patrolq := if done then q else x.patrolq, patrolPos := if done then 0 else cw + 1 }
  | [] => { x with patrolDone := if done then k + 1 else k, patrolPos := if done then 0 else cw + 1 }

section
variable {s : Blk} {n k cw : Nat}

theorem patrolNext_queued {q : List Nat} (h : (spokeOf s n).patrolq = k :: q) :
    patrolNext s n = some (k, (spokeOf s n).patrolPos) := by
  simp only [patrolNext, h]

/-- The block of the pass that comes next: the first not below the place it has reached, or the first of all. -/
def passBlock (s : Blk) (n : Nat) : Option Nat :=
  ((patrolBlocks s n).find? fun k => (spokeOf s n).patrolDone ≤ k).or (patrolBlocks s n).head?

theorem patrolNext_nothing (h : (spokeOf s n).patrolq = []) (hk : patrolBlocks s n = []) : patrolNext s n = none := by
  simp only [patrolNext, h, hk]
  rfl

theorem patrolNext_pass (h : (spokeOf s n).patrolq = []) (hk : passBlock s n = some k) :
    patrolNext s n = some (k, if k = (spokeOf s n).patrolDone then (spokeOf s n).patrolPos else 0) := by
  rw [passBlock] at hk
  simp only [patrolNext, h, hk, Option.map_some]

theorem patrolled_queued {x : SpokeSt} {q : List Nat} {done : Bool} (h : x.patrolq = k :: q) : patrolled k cw done x =
    { x with patrolq := if done then q else k :: q, patrolPos := if done then 0 else cw + 1 } := by
  simp only [patrolled, h]

theorem patrolled_pass {x : SpokeSt} {done : Bool} (h : x.patrolq = []) : patrolled k cw done x =
    { x with patrolDone := if done then k + 1 else k, patrolPos := if done then 0 else cw + 1 } := by
  simp only [patrolled, h]

theorem patrolFn_other {t : Blk} (ht : restExit s = t) (h : patrolNext t n ≠ some (k, cw)) : patrolFn n k cw s = t := by
  subst ht
  have unnamed : (patrolNext (restExit s) n).filter (· == (k, cw)) = none :=
    Option.filter_eq_none_iff.2 fun p hp => by
      rw [beq_iff_eq]; rintro rfl; exact h hp
  simp only [patrolFn, unnamed]

theorem patrolFn_next {t : Blk} (ht : restExit s = t) (h : patrolNext t n = some (k, cw)) :
    patrolFn n k cw s = patrolRead (setSpoke t n (patrolled k cw (lastWritten t k cw) (spokeOf t n))) n k cw := by
  subst ht
  have named : (patrolNext (restExit s) n).filter (· == (k, cw)) = some (k, cw) := by rw [h]; simp
  simp only [patrolFn, named]
  rfl

end

/-! ### The derailleur's periodic work (R188, R300) -/

/-- SAMPLES and WRITES halved. -/
def halved (t : Der) : Der := { t with samples := t.samples / 2, writes := t.writes / 2 }

section
variable {s : Blk}

theorem halveDer_early (h : s.med.commits / 2 ^ 24 ≤ s.med.halvings) : halveDer s = s := if_pos h

theorem halveDer_due (h : s.med.halvings < s.med.commits / 2 ^ 24) : halveDer s =
    { s with med := { s.med with
      halvings := s.med.halvings + 1, der := s.med.der.mapVal fun _ => halved, gear0Bytes := 0, allBytes := 0 } } :=
  if_neg (Nat.not_le.2 h)

/-- One more judgement of the gear 0 share. -/
def shareJudged (s : Blk) : Blk := { s with med := { s.med with shareChecks := s.med.shareChecks + 1 } }

/-- B0 lowered by 0.5, never under 12.0, with the override under way. -/
def b0Lowered (s : Blk) : Blk :=
  { s with loops := { s.loops with b0now := some (max 3072 (s.loops.b0now.getD (target s 0x05) - 128)), derOver := true } }

/-- The override is over, and what was written for the targets of gear during it takes effect. -/
def overrideEnded (s : Blk) : Blk :=
  { s with loops := { s.loops with
    held := s.loops.held.filter fun e => !(e.1 ≤ 0x07 || 65536 ≤ e.1), b0now := none, derOver := false } }

/-- 0x8017 with alert bit 7, at the start (1) and at the end (0) of the override. -/
def overrideEvent (s : Blk) (edge : Byte) : Blk := alert (raise s 0x8017 3 domNone [edge]) 7

theorem derOverride_early (h : s.med.commits / 2 ^ 20 ≤ s.med.shareChecks) : derOverride s = s := if_pos h

/-- The override starts or goes on: the share of gear 0 is above 50 %, or, while it is under way, above 40 %. -/
def OverrideRuns (s : Blk) : Prop :=
  s.med.allBytes < 2 * s.med.gear0Bytes ∨ (s.loops.derOver = true ∧ 2 * s.med.allBytes < 5 * s.med.gear0Bytes)

theorem not_overrideRuns_low (hg : 5 * s.med.gear0Bytes ≤ 2 * s.med.allBytes) : ¬ OverrideRuns s := by
  rw [OverrideRuns]; omega

theorem not_overrideRuns_idle (hg : 2 * s.med.gear0Bytes ≤ s.med.allBytes) (hd : s.loops.derOver = false) : ¬ OverrideRuns s := by
  rintro (above | ⟨underway, -⟩)
  · exact Nat.not_le.2 above hg
  · exact absurd underway (ne_true_of_eq_false hd)

variable (h : s.med.shareChecks < s.med.commits / 2 ^ 20)
include h

theorem derOverride_runs (hr : OverrideRuns s) : derOverride s =
    if s.loops.derOver then b0Lowered (shareJudged s) else overrideEvent (b0Lowered (shareJudged s)) 1 :=
  (if_neg (Nat.not_le.2 h)).trans (if_pos hr)

theorem derOverride_rests (hr : ¬ OverrideRuns s) : derOverride s =
    if s.loops.derOver then overrideEvent (overrideEnded (shareJudged s)) 0 else shareJudged s :=
  (if_neg (Nat.not_le.2 h)).trans (if_neg hr)

end

/-- Settles O31: patrol by what it reads next, the derailleur's work by whether it is due and by the share of gear 0. -/
theorem patrolAndDerailleur : Obligations.PatrolAndDerailleur := by
  refine ⟨fun s n => ⟨fun k q hq => ?queued, fun k cw h => ?other, fun hq hk k cw => ?nothing, fun k hq hk => ?pass⟩,
    fun s => ⟨?halvingEarly, ?halvingDue, ?judgedEarly, fun h => ⟨?starts, ?goesOn, ?ends, ?idle⟩⟩⟩
  case queued =>
    have step := patrolFn_next rfl (patrolNext_queued hq)
    rw [patrolled_queued hq] at step
    exact gives_patrol step
  case other => exact gives_patrol (patrolFn_other rfl h)
  case nothing => exact gives_patrol (patrolFn_other rfl (by rw [patrolNext_nothing hq hk]; rintro ⟨⟩))
  case pass =>
    have step := patrolFn_next rfl (patrolNext_pass hq hk)
    rw [patrolled_pass hq] at step
    exact gives_patrol step
  case halvingEarly => exact fun h => gives_of rfl (halveDer_early h)
  case halvingDue => exact fun h => gives_of rfl (halveDer_due h)
  case judgedEarly => exact fun h => gives_of rfl (derOverride_early h)
  case starts => exact fun hg hd => gives_of rfl ((derOverride_runs h (.inl hg)).trans (if_neg (ne_true_of_eq_false hd)))
  case goesOn => exact fun hg hd => gives_of rfl ((derOverride_runs h (.inr ⟨hd, hg⟩)).trans (if_pos hd))
  case ends => exact fun hg hd => gives_of rfl ((derOverride_rests h (not_overrideRuns_low hg)).trans (if_pos hd))
  case idle =>
    exact fun hg hd => gives_of rfl ((derOverride_rests h (not_overrideRuns_idle hg hd)).trans (if_neg (ne_true_of_eq_false hd)))

end Sys2Proof.Machine
end


section
/-! PROOFS. The statements of the family of media numerics: decoding, rebuilding and truing. -/

namespace Sys2Proof.Machine

/-! ### Hard and soft decodes (R218-R221) -/

/-- The decode of stage `k` of read `rd` is the one that ends: the reads of the stage have returned, and the codeword is not in
`q`, the queue for a decoder. -/
def DecodeEnds (x : ReadCtx) (k rd : Nat) (q : List Nat) : Prop := x.stage = k ∧ x.outstanding = 0 ∧ q.contains rd = false

theorem not_decodeEnds_iff (x : ReadCtx) (k rd : Nat) (q : List Nat) :
    ¬ DecodeEnds x k rd q ↔ x.stage ≠ k ∨ x.outstanding ≠ 0 ∨ q.contains rd = true := by
  simp only [DecodeEnds, not_and_or, Bool.not_eq_false, ne_eq]

/-- The spoke of the codeword that a read is of. -/
def readSpoke (s : Blk) (x : ReadCtx) : Nat := (placeOf s x.pga).spoke

/-- One more decode of the spoke, with the count and the event of a word that converged and was rejected. -/
def judged (s : Blk) (x : ReadCtx) (cw : Bytes) : Blk :=
  rejectCount (countSpoke s (readSpoke s x) 0 1) (readSpoke s x) (judgeCw s x cw)

/-- The entry of a codeword is trued where the hard decode corrected more bits than TRUE_TRIGGER. -/
def truedAbove (s : Blk) (pga bad : Nat) (cw : Bytes) : Blk := if policy s 0x10 < bad then startTruing s pga bad cw else s

/-- A block that a host read found in need is patrolled first. -/
def neededFirst (s : Blk) (x : ReadCtx) (bad : Nat) : Blk :=
  if policy s 0x11 < bad ∧ isHostRead x.why then patrolFirst s x.pga else s

section
variable {s : Blk} {rd : Nat} {cw : Bytes}

theorem hardDone_gone (hx : s.med.reads.get? rd = none) : hardDone rd cw s = s := by simp only [hardDone, hx]

theorem softDone_gone (hx : s.med.reads.get? rd = none) : softDone rd cw s = s := by simp only [softDone, hx]

theorem hardOutcome_rejected {x : ReadCtx} {v : Nat} (hv : v ≠ 2) : hardOutcome s rd x cw v =
    enterStage (countSpoke s (readSpoke s x) 2 1) rd x 2 fun s x => startSoft s rd x := if_neg hv

theorem hardOutcome_accepted {x : ReadCtx} : hardOutcome s rd x cw 2 = deliver
    (neededFirst (truedAbove (countHard (countSpoke s (readSpoke s x) 1 (bitDiff x.hard cw)) (readSpoke s x) x.cell 37120
      (bitDiff x.hard cw)) x.pga (bitDiff x.hard cw) cw) x (bitDiff x.hard cw)) rd x (decodeCw x.pga cw).1 (decodeCw x.pga cw).2 :=
  rfl

variable {x : ReadCtx} (hx : s.med.reads.get? rd = some x)
include hx

theorem hardDone_waits (h : ¬ DecodeEnds x 1 rd (spokeOf s (readSpoke s x)).hardq) : hardDone rd cw s = s := by
  simp only [hardDone, hx]
  exact if_pos ((not_decodeEnds_iff ..).1 h)

theorem softDone_waits (h : ¬ DecodeEnds x 2 rd (spokeOf s (readSpoke s x)).softq) : softDone rd cw s = s := by
  simp only [softDone, hx]
  exact if_pos ((not_decodeEnds_iff ..).1 h)

theorem hardDone_patrol {k c : Nat} (h : DecodeEnds x 1 rd (spokeOf s (readSpoke s x)).hardq) (hw : x.why = .patrol k c) :
    hardDone rd cw s = patrolCheck (closeRead (hardFree (judged s x cw) (readSpoke s x)) rd x) k c
      (if judgeCw s x cw = 2 then some (bitDiff x.hard cw) else none) cw := by
  simp only [hardDone, hx, hw]
  exact if_neg fun waits => (not_decodeEnds_iff ..).2 waits h

theorem hardDone_read (h : DecodeEnds x 1 rd (spokeOf s (readSpoke s x)).hardq) (hw : ∀ k c, x.why ≠ .patrol k c) :
    hardDone rd cw s = hardOutcome (hardFree (judged s x cw) (readSpoke s x)) rd x cw (judgeCw s x cw) := by
  simp only [hardDone, hx]
  exact if_neg fun waits => (not_decodeEnds_iff ..).2 waits h

theorem softDone_accepted (h : DecodeEnds x 2 rd (spokeOf s (readSpoke s x)).softq) (hv : judgeCw s x cw = 2) :
    softDone rd cw s = deliver
      (startTruing (countSoft (countSpoke (softFree (judged s x cw) (readSpoke s x)) (readSpoke s x) 3 1) (readSpoke s x) x.cell
        (x.hard :: x.soft) cw) x.pga (bitDiff x.hard cw) cw) rd x (decodeCw x.pga cw).1 (decodeCw x.pga cw).2 := by
  simp only [softDone, hx]
  exact (if_neg fun waits => (not_decodeEnds_iff ..).2 waits h).trans (if_pos hv)

theorem softDone_rejected (h : DecodeEnds x 2 rd (spokeOf s (readSpoke s x)).softq) (hv : judgeCw s x cw ≠ 2) :
    softDone rd cw s = enterStage (raise (countSpoke (softFree (judged s x cw) (readSpoke s x)) (readSpoke s x) 4 1) 0x8010 4
      (domSpke (readSpoke s x)) (pl [(6, x.pga)])) rd x 3 fun s x => startXor s rd x := by
  simp only [softDone, hx]
  exact (if_neg fun waits => (not_decodeEnds_iff ..).2 waits h).trans (if_neg hv)

end

/-! ### Rebuilds (R246, R248, R270) -/

/-- The spans of the other blocks of the group that were read well. -/
def goodSpans (x : ReadCtx) : List Bytes := x.spans.vals.filterMap id

/-- Sixteen spans of the group were asked for and all are good. -/
def groupWhole (x : ReadCtx) : Bool := decide (x.spans.length = 16) && decide ((goodSpans x).length = 16)

theorem groupWhole_iff (x : ReadCtx) : groupWhole x = true ↔ x.spans.length = 16 ∧ (goodSpans x).length = 16 := by
  rw [groupWhole, Bool.and_eq_true, decide_eq_true_iff, decide_eq_true_iff]

/-- The XOR of the spans of the group. -/
def xorSpan (x : ReadCtx) : Bytes := (goodSpans x).foldl xorBytes (zeros 4146)

/-- What the decoder of a stripe is given for the codeword of its member `n`: the spans of the other members that were read. -/
def decoderInput (x : ReadCtx) (y : Band) (n : Nat) : List (Option Bytes) :=
  (List.range (y.k + y.m)).map fun i => if i = n then none else (x.spans.getD i none).filter fun b => b.length = 4146

/-- The members whose spans are missing. -/
def missingMembers (x : ReadCtx) (y : Band) (n : Nat) : List Nat :=
  (List.range (y.k + y.m)).filter fun i => ((decoderInput x y n).getD i none).isNone

/-- A codeword rebuilt as the span `sp` is delivered, with the tag that the span carries. -/
def deliverSpan (s : Blk) (rd : Nat) (x : ReadCtx) (sp : Bytes) : Blk :=
  deliver s rd x (sp.take 4112) (rebuiltTag s x.pga (sp.drop 4112))

theorem not_rebuildWaits {x : ReadCtx} {k : Nat} (hk : x.stage = k) (h0 : x.awaited = 0) : ¬ (x.stage ≠ k ∨ x.awaited ≠ 0) :=
  not_or.2 ⟨not_not.2 hk, not_not.2 h0⟩

section
variable {n rd : Nat} {f : Blk → Blk} {s : Blk} {x : ReadCtx}

theorem rebuiltOn_other (h : ∀ x, s.med.reads.get? rd = some x → readSpoke s x ≠ n) : rebuiltOn n rd f s = s := by
  refine if_neg fun own => ?_
  obtain ⟨x, hx, hn⟩ := (Option.any_eq_true ..).1 own
  exact h x hx (of_decide_eq_true hn)

theorem rebuiltOn_own (hx : s.med.reads.get? rd = some x) (hn : readSpoke s x = n) : rebuiltOn n rd f s = f s :=
  if_pos (by rw [hx]; exact decide_eq_true hn)

theorem gives_rebuilt {c : Instr} {s : State} {n : Fin 16} {b : Blk} (h : exec c s = lift (rebuiltOn n.val rd f) s)
    (hx : s.med.reads.get? rd = some x) (hn : readSpoke s.toBlk x = n.val) (hb : f s.toBlk = b) : Gives c s b :=
  gives_of h ((rebuiltOn_own hx hn).trans hb)

theorem giveSpan_good {sp : Bytes} (h : bodyGood s x.why (sp.take 4112) = true) : giveSpan s rd x sp = some (deliverSpan s rd x sp) :=
  if_pos h

theorem giveSpan_bad {sp : Bytes} (h : bodyGood s x.why (sp.take 4112) = false) : giveSpan s rd x sp = none :=
  if_neg (ne_true_of_eq_false h)

variable (hx : s.med.reads.get? rd = some x)
include hx

theorem xorRebuild_waits (h : x.stage ≠ 3 ∨ x.awaited ≠ 0) : xorRebuild rd s = s := by
  simp only [xorRebuild, hx, if_pos h]

theorem xorRebuild_ends (h3 : x.stage = 3) (h0 : x.awaited = 0) : xorRebuild rd s =
    (if groupWhole x then giveSpan (patrolFirst s x.pga) rd x (xorSpan x) else none).getD
      (enterStage s rd x 4 fun s x => startRs s rd x) := by
  simp only [xorRebuild, hx, if_neg (not_rebuildWaits h3 h0)]
  rw [groupWhole, goodSpans, xorSpan, goodSpans]
  split
  next h => rw [h, Option.getD_some]
  next h => rw [h, Option.getD_none]

theorem xorRebuild_delivers (h3 : x.stage = 3) (h0 : x.awaited = 0) (hw : groupWhole x = true)
    (hg : bodyGood (patrolFirst s x.pga) x.why ((xorSpan x).take 4112) = true) :
    xorRebuild rd s = deliverSpan (patrolFirst s x.pga) rd x (xorSpan x) := by
  rw [xorRebuild_ends hx h3 h0, if_pos hw, giveSpan_good hg, Option.getD_some]

theorem xorRebuild_fails (h3 : x.stage = 3) (h0 : x.awaited = 0)
    (h : groupWhole x = true → bodyGood (patrolFirst s x.pga) x.why ((xorSpan x).take 4112) = false) :
    xorRebuild rd s = enterStage s rd x 4 fun s x => startRs s rd x := by
  rw [xorRebuild_ends hx h3 h0]
  split
  next hw => rw [giveSpan_bad (h hw), Option.getD_none]
  next => rfl

theorem rsRebuild_waits (h : x.stage ≠ 4 ∨ x.awaited ≠ 0) : rsRebuild rd s = s := by
  simp only [rsRebuild, hx, if_pos h]

variable (h4 : x.stage = 4) (h0 : x.awaited = 0)
include h4 h0

theorem rsRebuild_unstriped (h : stripeAt s x.pga = none) : rsRebuild rd s = loseRead s rd x := by
  simp only [rsRebuild, hx, if_neg (not_rebuildWaits h4 h0), h]

variable {b u m p : Nat} {y : Band} (hs : stripeAt s x.pga = some (b, u, m, p)) (hb : s.med.bands.get? b = some y)
include hs hb

theorem rsRebuild_tooFew (hd : rsDecode y.k (decoderInput x y m) = none) :
    rsRebuild rd s = loseRead (loseStripe s b u (missingMembers x y m)) rd x := by
  rw [decoderInput] at hd
  simp only [rsRebuild, hx, if_neg (not_rebuildWaits h4 h0), hs, hb, hd]
  rfl

variable {data : List Bytes} (hd : rsDecode y.k (decoderInput x y m) = some data)
include hd

theorem rsRebuild_decoded : rsRebuild rd s =
    (if m < y.k then giveSpan s rd x (data.getD m []) else none).getD (loseRead s rd x) := by
  rw [decoderInput] at hd
  simp only [rsRebuild, hx, if_neg (not_rebuildWaits h4 h0), hs, hb, hd]

theorem rsRebuild_delivers (hm : m < y.k) (hg : bodyGood s x.why ((data.getD m []).take 4112) = true) :
    rsRebuild rd s = deliverSpan s rd x (data.getD m []) := by
  rw [rsRebuild_decoded hx h4 h0 hs hb hd, if_pos hm, giveSpan_good hg, Option.getD_some]

theorem rsRebuild_unusable (h : y.k ≤ m ∨ bodyGood s x.why ((data.getD m []).take 4112) = false) :
    rsRebuild rd s = loseRead s rd x := by
  rw [rsRebuild_decoded hx h4 h0 hs hb hd]
  split
  next hm => rw [giveSpan_bad (h.resolve_left (Nat.not_le.2 hm)), Option.getD_none]
  next => rfl

end

/-! ### Truing (R230, R231) -/

/-- What one read of a truing decides, by the bits that fail in it. -/
def truedBy (s : Blk) (t : Nat) (x : TRun) (fails : Nat) : Blk :=
  match x.ph with
  | 0 =>
    if (x.code.getD x.k 0 + (policy s 0x12 : Int)).natAbs ≤ x.limit then
      truingRead (setRun s t { x with fm := fails, ph := 1 }) t x (policy s 0x12)
    else tryMove s t { x with dir := -1 } fails
  | 1 => tryMove s t { x with dir := if x.fm ≤ fails then -1 else 1 } (min x.fm fails)
  | _ => tryMove s t x fails

section
variable {n t : Nat} {s : Blk}

theorem truedOn_idle (h : ∀ x, s.med.truns.get? t = some x → x.spoke ≠ n ∨ x.got = none) : truedOn n t (truingStep t) s = s := by
  rw [truedOn]
  split
  next own =>
    obtain ⟨x, hx, hn⟩ := (Option.any_eq_true ..).1 own
    have unread : x.got = none := (h x hx).resolve_left (not_not.2 (of_decide_eq_true hn))
    simp only [truingStep, hx, unread]
  next => rfl

theorem truedOn_read {x : TRun} {b : Bytes} (hx : s.med.truns.get? t = some x) (hn : x.spoke = n) (hb : x.got = some b) :
    truedOn n t (truingStep t) s = truedBy s t { x with got := none } (bitDiff b x.known) := by
  refine (if_pos (by rw [hx]; exact decide_eq_true hn)).trans ?_
  simp only [truingStep, hx, hb]
  rfl

variable {x : TRun} {fails : Nat}

theorem truedBy_first (hp : x.ph = 0) (h : (x.code.getD x.k 0 + (policy s 0x12 : Int)).natAbs ≤ x.limit) :
    truedBy s t x fails = truingRead (setRun s t { x with fm := fails, ph := 1 }) t x (policy s 0x12) := by
  simp only [truedBy, hp, if_pos h]

theorem truedBy_first_past (hp : x.ph = 0) (h : x.limit < (x.code.getD x.k 0 + (policy s 0x12 : Int)).natAbs) :
    truedBy s t x fails = tryMove s t { x with dir := -1 } fails := by
  simp only [truedBy, hp, if_neg (Nat.not_le.2 h)]

theorem truedBy_second (hp : x.ph = 1) :
    truedBy s t x fails = tryMove s t { x with dir := if x.fm ≤ fails then -1 else 1 } (min x.fm fails) := by
  simp only [truedBy, hp]

theorem truedBy_moving (h0 : x.ph ≠ 0) (h1 : x.ph ≠ 1) : truedBy s t x fails = tryMove s t x fails := by
  rw [truedBy]
  split
  next hp => exact absurd hp h0
  next hp => exact absurd hp h1
  next => rfl

end

/-- Settles O28: a decode by its verdict and by what the read was made for, a rebuild by what its spans give, a truing by its
phase. -/
theorem readsAreDecodedRebuiltAndTrued : Obligations.ReadsAreDecodedRebuiltAndTrued := by
  refine ⟨⟨fun s rd cw n hx => ?gone,
    fun s rd cw x hx => ⟨?hardWaits, fun h1 h0 hq => ⟨?patrol, fun hw => ⟨?hardRejected, ?hardAccepted⟩⟩,
      ?softWaits, fun h2 h0 hq => ⟨?softRejected, ?softAccepted⟩⟩,
    fun s rd x n hx => ⟨fun hn => ?other, fun hn => ⟨?xorWaits, fun h3 h0 => ⟨?short, ?unreadable, ?whole⟩,
      ?rsWaits, fun h4 h0 => ⟨?unstriped, fun b u m p y hs hb => ⟨?tooFew, fun data hd => ⟨?rebuilt, ?unusable⟩⟩⟩⟩⟩⟩,
    fun s t n => ⟨fun h => ?idle, fun x b hx hn hb => ?trued⟩⟩
  case gone =>
    have unnamed {f : Blk → Blk} : rebuiltOn n.val rd f s.toBlk = s.toBlk :=
      rebuiltOn_other fun x h => absurd (hx.symm.trans h) nofun
    exact ⟨gives_of rfl (hardDone_gone hx), gives_of rfl (softDone_gone hx), gives_of rfl unnamed, gives_of rfl unnamed⟩
  case hardWaits => exact fun h => gives_of rfl (hardDone_waits hx ((not_decodeEnds_iff ..).2 h))
  case patrol => exact fun k c hw => gives_of rfl (hardDone_patrol hx ⟨h1, h0, hq⟩ hw)
  case hardRejected => exact fun hv => gives_of rfl ((hardDone_read hx ⟨h1, h0, hq⟩ hw).trans (hardOutcome_rejected hv))
  case hardAccepted =>
    intro hv
    have outcome := hardDone_read (cw := cw) hx ⟨h1, h0, hq⟩ hw
    rw [hv] at outcome
    exact gives_of rfl (outcome.trans hardOutcome_accepted)
  case softWaits => exact fun h => gives_of rfl (softDone_waits hx ((not_decodeEnds_iff ..).2 h))
  case softRejected => exact fun hv => gives_of rfl (softDone_rejected hx ⟨h2, h0, hq⟩ hv)
  case softAccepted => exact fun hv => gives_of rfl (softDone_accepted hx ⟨h2, h0, hq⟩ hv)
  case other =>
    have elsewhere {f : Blk → Blk} : rebuiltOn n.val rd f s.toBlk = s.toBlk :=
      rebuiltOn_other fun y hy => by cases hx.symm.trans hy; exact hn
    exact ⟨gives_of rfl elsewhere, gives_of rfl elsewhere⟩
  case xorWaits => exact fun h => gives_rebuilt rfl hx hn (xorRebuild_waits hx h)
  case short =>
    exact fun h => gives_rebuilt rfl hx hn (xorRebuild_fails hx h3 h0 fun hw => absurd ((groupWhole_iff x).1 hw) (not_and_or.2 h))
  case unreadable => exact fun _ _ h => gives_rebuilt rfl hx hn (xorRebuild_fails hx h3 h0 fun _ => h)
  case whole => exact fun hl hg h => gives_rebuilt rfl hx hn (xorRebuild_delivers hx h3 h0 ((groupWhole_iff x).2 ⟨hl, hg⟩) h)
  case rsWaits => exact fun h => gives_rebuilt rfl hx hn (rsRebuild_waits hx h)
  case unstriped => exact fun h => gives_rebuilt rfl hx hn (rsRebuild_unstriped hx h4 h0 h)
  case tooFew => exact fun hd => gives_rebuilt rfl hx hn (rsRebuild_tooFew hx h4 h0 hs hb hd)
  case rebuilt => exact fun hm hg => gives_rebuilt rfl hx hn (rsRebuild_delivers hx h4 h0 hs hb hd hm hg)
  case unusable => exact fun h => gives_rebuilt rfl hx hn (rsRebuild_unusable hx h4 h0 hs hb hd h)
  case idle => exact gives_of rfl (truedOn_idle h)
  case trued =>
    have step := truedOn_read hx hn hb
    exact ⟨fun hp h => gives_of rfl (step.trans (truedBy_first hp h)), fun hp h => gives_of rfl (step.trans (truedBy_first_past hp h)),
      fun hp => gives_of rfl (step.trans (truedBy_second hp)), fun h0 h1 => gives_of rfl (step.trans (truedBy_moving h0 h1))⟩

end Sys2Proof.Machine
end

section
/-! PROOFS. The statements of the family of redundancy: rebuilds for a replacement; lost values; the metadata scan. -/

namespace Sys2Proof.Machine

/-! ### A unit is settled (R264, R266, R267) -/

theorem settleStripe_of_agrees {k m : Nat} {ms : List (Option Bytes)} {d : List Bytes} (hd : fullStripe k m ms = some d)
    (ha : agrees ms d = true) : settleStripe k m ms = some (d, none) := by
  simp only [settleStripe, hd, if_pos ha]

section
variable (spans : Tbl (Option Bytes)) (b : Band) (u : Nat) (ts : List (Nat × Nat))

/-- The members' spans at position `p` of a unit, as read. -/
def unitSpans (p : Nat) : List (Option Bytes) := stripeSpans spans (b.k + b.m) p (stripeOut b u)

/-- Each position of a unit, settled from the spans that have been read. -/
def unitSettled : List (Option (List Bytes × Option Nat)) :=
  (List.range 16).map fun p => settleStripe b.k b.m (unitSpans spans b u p)

/-- At some position a span read disagrees with the decoded stripe. -/
def unitDisagrees : Bool :=
  (List.range 16).any fun p => (fullStripe b.k b.m (unitSpans spans b u p)).any fun d => !agrees (unitSpans spans b u p) d

/-- The members with a position that was not read. -/
def unreadMembers : List Nat :=
  (List.range (b.k + b.m)).filter fun i => (List.range 16).any fun p => (unitSpans spans b u p)[i]? = some none

/-- Those of them that should be there: not known as lost, and not the member of a replacement. -/
def newlyUnread : List Nat :=
  (unreadMembers spans b u).filter fun i => ¬ b.lost.contains i ∧ ¬ ts.any fun t => memberIn b t.1 = i

/-- What the reads of a unit have shown is recorded: 0x7006, the members noted as lost and refreshed, and a stripe that is lost. -/
def noteUnit (s : Blk) (bi : Nat) : Blk :=
  let bad := (unitSettled spans b u).filterMap fun e => e.bind Prod.snd
  let s := if unitDisagrees spans b u then raise s 0x7006 5 domNone (pl [(4, bi), (2, u)]) else s
  let s := forEach (newlyUnread spans b u ts ++ bad) (fun s i => noteLost s bi u i) s
  let s := forEach (newlyUnread spans b u ts) (fun s i => refreshMember s b u i) s
  if (unitSettled spans b u).any Option.isNone then loseStripe s bi u (unreadMembers spans b u) else s

/-- The spans that the replacement in slot `n` is given: padding, where a stripe of the unit is lost. -/
def replacementSpans (n : Nat) : List Bytes :=
  if (unitSettled spans b u).any Option.isNone then padSpans b.gear
  else (unitSettled spans b u).map fun e => match e with
    | some (d, _) => d.getD (memberIn b n) []
    | none => []

end

/-- A rebuild that takes part in `ts` goes on to the unit after `u`, with nothing asked for yet. -/
def onward (u : Nat) (ts : List (Nat × Nat)) (k : Nat) (r : Rebuild) : Rebuild :=
  if ts.any (fun t => t.1 = k) then { r with unit := u + 1, spans := [], awaited := 0, asked := false } else r

/-- Every replacement is given its spans, and goes on to the next unit or, after the last, to the next band. -/
def placeUnit (bi u : Nat) (b : Band) (ts : List (Nat × Nat)) (given : Nat → List Bytes) (s : Blk) : Blk :=
  let s := forEach ts (fun s t => programRebuilt s bi u b t (given t.1)) s
  let s := { s with med := { s.med with rebuilds := s.med.rebuilds.mapVal (onward u ts) } }
  if b.nextUnit ≤ u + 1 then forEach ts (fun s t => bandRebuilt s bi t) s else s

theorem rebuildUnit_eq (s : Blk) (bi u : Nat) (b : Band) (ts : List (Nat × Nat)) (spans : Tbl (Option Bytes)) :
    rebuildUnit s bi u b ts spans = placeUnit bi u b ts (replacementSpans spans b u) (noteUnit spans b u ts s bi) := rfl

section
variable {spans : Tbl (Option Bytes)} {b : Band} {u : Nat} {d : Nat → List Bytes}
  (h : ∀ p < 16, fullStripe b.k b.m (unitSpans spans b u p) = some (d p) ∧ agrees (unitSpans spans b u p) (d p) = true)
include h

theorem unitSettled_of_agrees : unitSettled spans b u = (List.range 16).map fun p => some (d p, none) :=
  List.map_congr_left fun p hp => have ⟨hd, ha⟩ := h p (List.mem_range.1 hp); settleStripe_of_agrees hd ha

theorem unitSettled_whole : (unitSettled spans b u).any Option.isNone = false := by
  rw [unitSettled_of_agrees h, List.any_map]
  rfl

theorem unitDisagrees_eq_false : unitDisagrees spans b u = false := by
  refine List.any_eq_false.2 fun p hp => ?_
  obtain ⟨hd, ha⟩ := h p (List.mem_range.1 hp)
  rw [hd, Option.any_some, ha]
  exact Bool.false_ne_true

theorem replacementSpans_of_agrees (n : Nat) :
    replacementSpans spans b u n = (List.range 16).map fun p => (d p).getD (memberIn b n) [] := by
  rw [replacementSpans, if_neg (ne_true_of_eq_false (unitSettled_whole h)), unitSettled_of_agrees h, List.map_map]
  rfl

/-- With no disagreement, no member newly unread and no stripe lost, the reads leave nothing to record. -/
theorem noteUnit_of_agrees {ts : List (Nat × Nat)} (hr : newlyUnread spans b u ts = []) (s : Blk) (bi : Nat) :
    noteUnit spans b u ts s bi = s := by
  have none_bad : (unitSettled spans b u).filterMap (fun e => e.bind Prod.snd) = [] := by
    rw [unitSettled_of_agrees h, List.filterMap_map]
    rfl
  simp only [noteUnit, none_bad, hr, unitDisagrees_eq_false h, unitSettled_whole h, Bool.false_eq_true, if_false, List.append_nil,
    forEach, List.foldl_nil]

theorem rebuildUnit_of_agrees {ts : List (Nat × Nat)} (hr : newlyUnread spans b u ts = []) (s : Blk) (bi : Nat) :
    rebuildUnit s bi u b ts spans =
      placeUnit bi u b ts (fun n => (List.range 16).map fun p => (d p).getD (memberIn b n) []) s := by
  rw [rebuildUnit_eq, noteUnit_of_agrees h hr, funext (replacementSpans_of_agrees h)]

end

theorem newlyUnread_eq_nil {spans : Tbl (Option Bytes)} {b : Band} {u : Nat} {ts : List (Nat × Nat)}
    (h : ∀ j < b.k + b.m, b.lost.contains j = false → (ts.any fun t => memberIn b t.1 = j) = false →
      ∀ p < 16, (unitSpans spans b u p)[j]? ≠ some none) : newlyUnread spans b u ts = [] := by
  refine List.filter_eq_nil_iff.2 fun j hj expected => ?_
  obtain ⟨hlost, htarget⟩ := of_decide_eq_true expected
  obtain ⟨hlt, hunread⟩ := List.mem_filter.1 hj
  obtain ⟨p, hp, hnone⟩ := List.any_eq_true.1 hunread
  exact h j (List.mem_range.1 hlt) (eq_false_of_ne_true hlost) (eq_false_of_ne_true htarget) p (List.mem_range.1 hp)
    (of_decide_eq_true hnone)

/-! ### The next unit of a rebuild (R264, R265, R268) -/

/-- The rebuild for slot `n` has passed by the bands with nothing live, and has ended if that was the last (R264, R266). -/
def passEmpty (s : Blk) (n : Nat) : Blk :=
  rebuildEnd (skipEmpty (((s.med.rebuilds.get? n).map (·.todo.length)).getD 0) s n) n

/-- The rebuild for slot `n` and the band that it has reached. -/
def bandReached (s : Blk) (n : Nat) : Option (Rebuild × Nat × Band) :=
  (s.med.rebuilds.get? n).bind fun r => (r.todo.head?).bind fun b => (s.med.bands.get? b).map fun x => (r, b, x)

/-- The band that the rebuild `r` has reached is open on every replacement that shares it. -/
def bandBegun (s : Blk) (n : Nat) (r : Rebuild) (bi : Nat) (b : Band) : Blk :=
  if r.sband.isNone then openRebuilt s n bi b else s

/-- The unit that the rebuild for slot `n` has reached. -/
def unitReached (s : Blk) (n : Nat) : Nat := ((s.med.rebuilds.get? n).map (·.unit)).getD 0

/-- The turn of unit `u`, that the replacements `ts` share: the first of them keeps its reads, which are issued once and waited for,
and then the unit is settled. -/
def unitTurn (s : Blk) (bi u : Nat) (b : Band) (ts : List (Nat × Nat)) : Blk :=
  match ts.head? with
  | none => s
  | some (lead, _) =>
    if (s.med.rebuilds.getD lead {}).asked = false then askUnit s lead bi u b ts
    else if (s.med.rebuilds.getD lead {}).awaited ≠ 0 then s
    else judgeNs (rebuildRate (rebuildUnit s bi u b ts (s.med.rebuilds.getD lead {}).spans))

/-- The turn of the band that the rebuild for slot `n` has reached, where the command names the band `k`. -/
def bandTurn (n k : Nat) (s : Blk) : Option (Rebuild × Nat × Band) → Blk
  | none => judgeNs (rebuildRate s)
  | some (r, bi, b) =>
    if bi ≠ k then s
    else
      let s := bandBegun s n r bi b
      unitTurn s bi (unitReached s n) b (rebuildTargets s bi (unitReached s n))

theorem rebuildFn_eq (n k : Nat) (s : Blk) : rebuildFn n k s = bandTurn n k (passEmpty s n) (bandReached (passEmpty s n) n) := rfl

theorem gives_rebuildBand {s : State} {n : Fin 16} {k : Nat} {next : Option (Rebuild × Nat × Band)} {t : Blk}
    (hn : bandReached (passEmpty (idleExit s.toBlk) n.val) n.val = next)
    (h : bandTurn n.val k (passEmpty (idleExit s.toBlk) n.val) next = t) :
    Gives (.rebuildBand n k) s (if endsRest (idleExit s.toBlk) t then restExit t else t) := by
  subst hn
  exact gives_of (f := fun b => withRest (rebuildFn n.val k) (idleExit b)) rfl (withRest_eq ((rebuildFn_eq ..).trans h))

section
variable {n k bi : Nat} {s : Blk} {r : Rebuild} {b : Band}

theorem bandTurn_other (h : k ≠ bi) : bandTurn n k s (some (r, bi, b)) = s := if_pos h.symm

theorem bandTurn_named {t : Blk} (ht : bandBegun s n r bi b = t) :
    bandTurn n bi s (some (r, bi, b)) = unitTurn t bi (unitReached t n) b (rebuildTargets t bi (unitReached t n)) := by
  subst ht
  exact if_neg (not_not_intro rfl)

variable {u : Nat} {ts : List (Nat × Nat)}

theorem unitTurn_noTarget (h : ts = []) : unitTurn s bi u b ts = s := by rw [h]; rfl

variable {e : Nat × Nat} {es : List (Nat × Nat)} {x : Rebuild} (h : ts = e :: es) (hx : s.med.rebuilds.getD e.1 {} = x)
include h hx

theorem unitTurn_asks (ha : x.asked = false) : unitTurn s bi u b ts = askUnit s e.1 bi u b ts := by
  subst h hx
  exact if_pos ha

theorem unitTurn_waits (ha : x.asked = true) (hw : x.awaited ≠ 0) : unitTurn s bi u b ts = s := by
  subst h hx
  exact (if_neg (ne_false_of_eq_true ha)).trans (if_pos hw)

theorem unitTurn_settles (ha : x.asked = true) (h0 : x.awaited = 0) :
    unitTurn s bi u b ts = judgeNs (rebuildRate (rebuildUnit s bi u b ts x.spans)) := by
  subst h hx
  exact (if_neg (ne_false_of_eq_true ha)).trans (if_neg (not_not_intro h0))

end

/-- Settles O33: a command by the band and the unit that the rebuild has reached (`bandTurn`, `unitTurn`), a unit whose spans agree by
what it records and what it places (`rebuildUnit_eq`); the sweep and the scan are what their definitions say. -/
theorem rebuildsAndLostData : Obligations.RebuildsAndLostData := by
  refine ⟨fun s n => ⟨fun hn k => gives_rebuildBand hn rfl, fun r bi b hn =>
      ⟨fun k hk => gives_rebuildBand hn (bandTurn_other hk), ?named⟩⟩,
    fun s bi u b ts spans d hd hr => rebuildUnit_of_agrees hd (newlyUnread_eq_nil hr) s bi,
    fun s => gives_of rfl rfl, fun s => gives_of rfl rfl⟩
  case named =>
    intro s2 u ts
    have gives {t : Blk} (h : unitTurn s2 bi u b ts = t) := gives_rebuildBand hn ((bandTurn_named rfl).trans h)
    exact ⟨fun h => gives (unitTurn_noTarget h), fun e es h => ⟨fun ha => gives (unitTurn_asks h rfl ha),
      fun ha hw => gives (unitTurn_waits h rfl ha hw), fun ha h0 => gives (unitTurn_settles h rfl ha h0)⟩⟩

end Sys2Proof.Machine
end

section
/-! PROOFS. The statements of the family of the hub, the registers and the sideband: a step and the memory behind the BAR; reads
after reset; the fence and ALERT_N; the time and the alarm; the reset of the PCIe function. -/

namespace Sys2Proof.Machine

/-! ### A step, and what the memory behind the BAR becomes -/

/-- Settles O54: a step is defined by the front of the queue. -/
theorem stepRunsTheFrontCommand : Obligations.StepRunsTheFrontCommand :=
  ⟨fun _ _ _ => rfl, fun s h => by rw [step, h]⟩

theorem lift_next {f : Blk → Blk} {s t : State} (h : lift f s = .next t) : t = { s with toBlk := f s.toBlk } :=
  (Host.Outcome.next.inj h).symm

theorem liftFlit_next {p : Bytes} {f : Blk → Blk} {s t : State} (h : liftFlit p f s = .next t) : t = { s with toBlk := f s.toBlk } := by
  obtain ⟨-, next⟩ | ⟨-, fault⟩ := liftFlit_cases p f s
  · exact lift_next (next.symm.trans h)
  · cases fault.symm.trans h

/-- The memory behind the BAR without the MSI-X table (R404, R407). -/
def withoutMsix (m : List Host.Cell) : List Host.Cell := m.filter fun c => !(decide (0x40000 ≤ c.1) && decide (c.1 < 0x42000))

theorem memRead_withoutMsix_outside {m : List Host.Cell} {a : Nat} (h : a < 0x40000 ∨ 0x42000 ≤ a) :
    memRead (withoutMsix m) a = memRead m a := by
  refine memRead_keep m _ a fun c hc => ?_
  subst hc
  simp only [Bool.not_eq_true', Bool.and_eq_false_iff, decide_eq_false_iff_not]
  omega

theorem execRegisterWrite_next {off : Nat} {v : Bytes} {s t : State} (h : exec (.registerWrite off v) s = .next t) :
    t.pending = s.pending ∧ t.mem = if regsUp s.toBlk then storeCells s.mem (barCells off v) else s.mem := by
  cases h; exact ⟨rfl, rfl⟩

theorem execPorNFall_next {s t : State} (h : exec .porNFall s = .next t) :
    t.pending = s.pending ∧ t.mem = if s.pin.porN then [] else s.mem := by
  cases h; exact ⟨rfl, rfl⟩

theorem functionReset_next {c : Instr} {s t : State} (hc : c = .perstN ∨ c = .functionLevelReset) (h : exec c s = .next t) :
    t = functionReset s := by
  obtain rfl | rfl := hc <;> exact (Host.Outcome.next.inj h).symm

/-- What a command leaves of the queue and of the memory behind the BAR (R306, R404, R407). -/
theorem exec_frame {c : Instr} {s t : State} (h : exec c s = .next t) :
    t.pending = s.pending ∧
    (t.mem = s.mem ∨ (∃ off v, c = .registerWrite off v ∧ t.mem = storeCells s.mem (barCells off v)) ∨ (c = .porNFall ∧ t.mem = []) ∨
      ((c = .perstN ∨ c = .functionLevelReset) ∧ t.mem = withoutMsix s.mem)) := by
  obtain ⟨f, hf⟩ | ⟨_, _, -, f, hf⟩ | ⟨off, v, rfl⟩ | rfl | hc | hc | ⟨x, rfl⟩ := exec_cases c
  · obtain rfl := lift_next ((hf s).symm.trans h); exact ⟨rfl, .inl rfl⟩
  · obtain rfl := liftFlit_next ((hf s).symm.trans h); exact ⟨rfl, .inl rfl⟩
  · obtain ⟨queue, mem⟩ := execRegisterWrite_next h
    split at mem
    · exact ⟨queue, .inr (.inl ⟨off, v, rfl, mem⟩)⟩
    · exact ⟨queue, .inl mem⟩
  · obtain ⟨queue, mem⟩ := execPorNFall_next h
    split at mem
    · exact ⟨queue, .inr (.inr (.inl ⟨rfl, mem⟩))⟩
    · exact ⟨queue, .inl mem⟩
  · obtain rfl := functionReset_next (.inl hc) h; exact ⟨rfl, .inr (.inr (.inr ⟨.inl hc, rfl⟩))⟩
  · obtain rfl := functionReset_next (.inr hc) h; exact ⟨rfl, .inr (.inr (.inr ⟨.inr hc, rfl⟩))⟩
  · obtain rfl := lift_next h; exact ⟨rfl, .inl rfl⟩

theorem exec_memoryCanonical {c : Instr} {s t : State} (h : MemoryCanonical s) (he : exec c s = .next t) : MemoryCanonical t := by
  unfold MemoryCanonical at h ⊢
  obtain ⟨-, mem | ⟨off, v, -, mem⟩ | ⟨-, mem⟩ | ⟨-, mem⟩⟩ := exec_frame he <;> rw [mem]
  · exact h
  · exact wf_store _ _ h
  · rfl
  · exact wf_filter _ _ h

/-- Settles O59: an idle step leaves the memory, and a command's memory is the old one, a store into it, none, or a part of it. -/
theorem everyStepKeepsMemoryCanonical : Obligations.EveryStepKeepsMemoryCanonical := by
  intro s t h next
  unfold step at next
  split at next
  case h_1 c rest hq => exact exec_memoryCanonical (s := { s with pending := rest }) h next
  case h_2 hq => obtain rfl := Host.Outcome.next.inj next; exact h

/-- Settles O56: each part is read off `exec_frame`, or off the command's own lemma. -/
theorem memoryChangesOnlyByTheHostAndResets : Obligations.MemoryChangesOnlyByTheHostAndResets := by
  intro c s t h
  obtain ⟨queue, mem⟩ := exec_frame h
  refine ⟨queue, ?_, ?_, ?_, ?_, fun hc a ha => ?_⟩
  · rcases mem with mem | ⟨off, v, hc, -⟩ | ⟨hc, -⟩ | ⟨hc, -⟩
    · exact .inr (.inr (.inr (.inr mem)))
    · exact .inl ⟨off, v, hc⟩
    · exact .inr (.inl hc)
    · exact .inr (.inr (hc.imp_right .inl))
  · rintro rfl high; rw [(execPorNFall_next h).2, if_pos high]
  · rintro rfl low; rw [(execPorNFall_next h).2, if_neg (ne_true_of_eq_false low)]
  · rintro ⟨off, v, rfl⟩ down; rw [(execRegisterWrite_next h).2, if_neg (ne_true_of_eq_false down)]
  · obtain rfl := functionReset_next hc h
    exact memRead_withoutMsix_outside ha

/-! ### What reads the memory behind the BAR (R306, R308) -/

/-- Every command but a mailbox take has its effect on the block from the block alone, or is the one fault. -/
theorem exec_toBlk {c : Instr} (hc : ∀ n crossing, c ≠ .mailboxTake (n, crossing)) :
    ∃ g : Blk → Option Blk, ∀ s, match g s.toBlk with
      | some b => ∃ t, exec c s = .next t ∧ t.toBlk = b
      | none => exec c s = .fault .noSuchFlit := by
  obtain ⟨f, hf⟩ | ⟨_, p, -, f, hf⟩ | ⟨off, v, rfl⟩ | rfl | rfl | rfl | ⟨x, rfl⟩ := exec_cases c
  · exact ⟨fun b => some (f b), fun s => ⟨_, hf s, rfl⟩⟩
  · by_cases hl : p.length = 240
    · exact ⟨fun b => some (f b), fun s => ⟨_, (hf s).trans (if_pos hl), rfl⟩⟩
    · exact ⟨fun _ => none, fun s => (hf s).trans (if_neg hl)⟩
  · exact ⟨fun b => some (regWriteFn off v b), fun s => ⟨_, rfl, rfl⟩⟩
  · exact ⟨fun b => some (porFall b), fun s => ⟨_, rfl, rfl⟩⟩
  · exact ⟨fun b => some (functionReset { toBlk := b }).toBlk, fun s => ⟨_, rfl, rfl⟩⟩
  · exact ⟨fun b => some (functionReset { toBlk := b }).toBlk, fun s => ⟨_, rfl, rfl⟩⟩
  · exact absurd rfl (hc x.1 x.2)

/-- Settles O57: the same block answers the same, and the queue is as it was. -/
theorem onlyAMailboxTakeReadsTheRequestMemory : Obligations.OnlyAMailboxTakeReadsTheRequestMemory := by
  intro c s s' same hc
  obtain ⟨g, hg⟩ := exec_toBlk hc
  have here := hg s
  have there := hg s'
  rw [← same] at there
  cases hb : g s.toBlk with
  | some b =>
    simp only [hb] at here there
    obtain ⟨t, next, blk⟩ := here
    obtain ⟨t', next', blk'⟩ := there
    refine ⟨fun u hu => ?_, fun f hf => ?_⟩
    · obtain rfl := Host.Outcome.next.inj (next.symm.trans hu)
      exact ⟨t', next', blk'.trans blk.symm, (exec_frame next').1⟩
    · cases next.symm.trans hf
  | none =>
    simp only [hb] at here there
    refine ⟨fun u hu => ?_, fun f hf => there.trans (here.symm.trans hf)⟩
    cases here.symm.trans hu

/-! ### Reads after reset (R335, R336, R405) -/

theorem regRead4_mailbox (s : Blk) (n : Fin 16) : regRead4 s (0x10000 + n.val * 0x1000) = mbCtrlRead s n.val := by
  have place : (0x10000 + n.val * 0x1000 - 0x10000) / 0x1000 = n.val := by omega
  simp (disch := omega) only [regRead4, if_neg, if_pos, place]

theorem regRead4_sq (s : Blk) (q : Fin 256) (off : Nat) (h : off < 0x40) : regRead4 s (0x20000 + q.val * 0x40 + off) = sqRead s q.val off := by
  have set : (0x20000 + q.val * 0x40 + off - 0x20000) / 0x40 = q.val := by omega
  have word : (0x20000 + q.val * 0x40 + off) % 0x40 = off := by omega
  simp (disch := omega) only [regRead4, if_neg, if_pos, set, word]

theorem regRead4_cq (s : Blk) (q : Fin 256) (off : Nat) (h : off < 0x40) : regRead4 s (0x24000 + q.val * 0x40 + off) = cqRead s q.val off := by
  have set : (0x24000 + q.val * 0x40 + off - 0x24000) / 0x40 = q.val := by omega
  have word : (0x24000 + q.val * 0x40 + off) % 0x40 = off := by omega
  simp (disch := omega) only [regRead4, if_neg, if_pos, set, word]

theorem mboxOf_reset (n : Nat) : mboxOf State.reset.toBlk n = {} := rfl

theorem sqOf_reset (q : Nat) : sqOf State.reset.toBlk q = {} := rfl

theorem cqOf_reset (q : Nat) : cqOf State.reset.toBlk q = {} := rfl

/-- Settles O58: the single registers by evaluation, each array by where its entry stands. -/
theorem resetReadsAsTheTablesSay : Obligations.ResetReadsAsTheTablesSay := by
  refine ⟨rfl, rfl, rfl, rfl, rfl, rfl, rfl, rfl, rfl, rfl, rfl, rfl, rfl, rfl, rfl, rfl, rfl, rfl, rfl, rfl, rfl, rfl, rfl, rfl, rfl,
    fun n => ?_, fun q => ⟨?_, ?_, ?_, ?_⟩, fun q => ⟨?_, ?_, ?_⟩⟩
  · rw [regRead4_mailbox]; simp [mbCtrlRead, mboxOf_reset, bitIf]
  · rw [regRead4_sq _ q 0x08 (by decide), sqRead, sqOf_reset]; simp [bitIf]
  · rw [regRead4_sq _ q 0x10 (by decide)]; simp [sqRead, sqOf_reset]
  · rw [regRead4_sq _ q 0x18 (by decide)]; simp [sqRead, sqOf_reset, bitIf, inflightReg, slotOfEntry]
  · rw [regRead4_sq _ q 0x20 (by decide)]; simp only [sqRead, sqOf_reset]
  · rw [regRead4_cq _ q 0x08 (by decide)]; simp [cqRead, cqOf_reset, bitIf]
  · rw [regRead4_cq _ q 0x0C (by decide)]; simp only [cqRead, cqOf_reset]
  · rw [regRead4_cq _ q 0x10 (by decide)]; simp only [cqRead, cqOf_reset]

/-! ### EVENT, ALERT_N and the fence (R425) -/

theorem takeover_fenceReq (s : Blk) (scope : Nat) : (takeover s scope).tdm.fenceReq = false := rfl

theorem fenceExpire_fenceReq (s : Blk) : (fenceExpire s).tdm.fenceReq = false := by
  cases h : s.tdm.fenceReq <;> simp [fenceExpire, h]

theorem fenceDoneFn_ignored {s : Blk} {v : Byte} {pec : Bool} (h : ¬ (v = 0xA5#8 ∧ pec = true ∧ s.tdm.fenceReq = true)) :
    fenceDoneFn v pec s = s := if_neg h

/-- Settles O53: an event of severity 6 or 7 is kept by `acceptEv_kept`; the pin and the fence by their definitions. -/
theorem fenceAndAlertPin : Obligations.FenceAndAlertPin := by
  intro s b
  refine ⟨fun e rest hq hseq hp hsev => ?_, reaches_of rfl rfl, fun hpad => ?_, fun hpad => if_pos hpad, takeover_fenceReq b,
    reaches_of rfl (fenceExpire_fenceReq _), fun v pec h => gives_of rfl (fenceDoneFn_ignored ?_)⟩
  · refine reaches_of rfl ?_
    rw [eventAcceptFn_cons _ e rest hq ((recorderRuns_iff _).2 ⟨hseq, hp⟩)]
    have kept : ¬ (e.sev < b.evt.minSev ∧ e.sev < 7) := by omega
    have severe : 6 ≤ e.sev := by omega
    obtain ⟨-, -, -, -, -, -, event, -⟩ := acceptEv_kept { b with evt := { b.evt with inq := rest } } e kept
    simp [event, severe]
  · simp [alertLow, hpad, or_assoc]
  · rintro ⟨hv, -, hf⟩
    rcases h with h | h
    · simp [b, hf] at h
    · exact h hv

/-! ### The time and the alarm are written (R296, R297, R412) -/

theorem rtcSet_down {s : Blk} (h : regsUp s = false) (off : Nat) (v : BitVec 64) (size : Nat) : rtcSet off v size s = s := if_pos h

theorem alarmWrite_down {s : Blk} (h : regsUp s = false) (off : Nat) (v : BitVec 64) (size : Nat) : alarmWrite off v size s = s := if_pos h

section
variable {s : Blk} (hup : regsUp s = true)
include hup

theorem rtcSet_up (off : Nat) (v : BitVec 64) (size : Nat) :
    rtcSet off v size s =
      if off = 0x1010 ∧ size = 8 then setTime s v.toNat
      else if off = 0x1010 ∧ size = 4 then { s with time := { s.time with setLow := v.truncate 32 } }
      else if off = 0x1014 ∧ size = 4 then setTime s (v.toNat % 2 ^ 32 * 2 ^ 32 + s.time.setLow.toNat) else s :=
  if_neg (by simp [hup])

theorem alarmWrite_up (off : Nat) (v : BitVec 64) (size : Nat) :
    alarmWrite off v size s =
      if off = 0x1020 ∧ size = 8 then setAlarm s v.toNat s.time.alarmEn
      else if off = 0x1020 ∧ size = 4 then setAlarm s (s.time.alarm.toNat / 2 ^ 32 * 2 ^ 32 + v.toNat % 2 ^ 32) s.time.alarmEn
      else if off = 0x1024 ∧ size = 4 then setAlarm s (v.toNat % 2 ^ 32 * 2 ^ 32 + s.time.alarm.toNat % 2 ^ 32) s.time.alarmEn
      else if off = 0x1028 ∧ (size = 4 ∨ size = 8) then alarmCtrl s (v.toNat % 2 ^ 32) else s :=
  if_neg (by simp [hup])

end

/-- A bit of the low word of a write is that bit of the write. -/
theorem testBit_low (v : BitVec 64) {i : Nat} (h : i < 32) : (v.toNat % 2 ^ 32).testBit i = v.getLsbD i := by
  rw [Nat.testBit_mod_two_pow, BitVec.testBit_toNat, decide_eq_true h, Bool.true_and]

theorem alarmCtrl_low (s : Blk) (v : BitVec 64) :
    alarmCtrl s (v.toNat % 2 ^ 32) =
      if v.getLsbD 30 then setAlarm { s with time := { s.time with alarmHit := false } } s.time.alarm.toNat (v.getLsbD 31)
      else setAlarm s s.time.alarm.toNat (v.getLsbD 31) := by
  simp only [alarmCtrl, testBit_low v (show 30 < 32 by decide), testBit_low v (show 31 < 32 by decide)]
  split <;> rfl

theorem alarmSet_given {s : State} {src : Source} {r : Request} (m : MayBegin 0xBB src r s.toBlk) (ha : par r 0 8 < 2 ^ 63) (he : par r 8 1 ≤ 1) :
    Gives (.alarmSet src) s (hubOk (setAlarm (hubBegin s.toBlk src r) (par r 0 8) (decide (par r 8 1 = 1))) src r []) :=
  gives_admin rfl m (checks_none (by simpa using ⟨ha, he⟩)) rfl

/-- What a time set leaves, before the alarm is judged. -/
def timeWritten (s : Blk) (v : Nat) : Blk :=
  { s with time := { s.time with seconds := BitVec.ofNat 48 (v / 32768), sub := BitVec.ofNat 15 v, valid := true } }

theorem setTime_eq (s : Blk) (v : Nat) : setTime s v =
    judgeAlarm (if v / 32768 % 2 ^ 48 + 1 < s.time.seconds.toNat then raise (timeWritten s v) 0xE041 3 0 [] else timeWritten s v) := by
  by_cases back : v / 32768 % 2 ^ 48 + 1 < s.time.seconds.toNat
  · rw [if_pos back, setTime, decide_eq_true back]; rfl
  · rw [if_neg back, setTime, decide_eq_false back]; rfl

/-- Settles O51: a write by whether the map is reached, by its offset and by its size; the alarm is judged by its definition. -/
theorem timeIsSetAndTheAlarmWritten : Obligations.TimeIsSetAndTheAlarmWritten := by
  refine ⟨fun s => ⟨fun hoff off w size => ?_, fun hon => ⟨fun v => ?_, fun off size v h8 h4 => ?_, fun off size v h20 h24 h28 => ?_⟩⟩,
    fun s src r m ha he => alarmSet_given m ha he, fun s v => ⟨?_, fun en => rfl⟩⟩
  · have down := regsUp_eq_false hoff
    exact ⟨gives_of rfl (rtcSet_down down off w size), gives_of rfl (alarmWrite_down down off w size)⟩
  · have set := rtcSet_up ((regsUp_iff _).2 hon)
    have alarm := alarmWrite_up ((regsUp_iff _).2 hon)
    refine ⟨gives_of rfl ?_, gives_of rfl ?_, gives_of rfl ?_, gives_of rfl ?_, gives_of rfl ?_, gives_of rfl ?_, gives_of rfl ?_⟩
    · rw [set, if_pos ⟨rfl, rfl⟩]
    · rw [set, if_neg (by decide), if_pos ⟨rfl, rfl⟩]
    · rw [set, if_neg (by decide), if_neg (by decide), if_pos ⟨rfl, rfl⟩]
    · rw [alarm, if_pos ⟨rfl, rfl⟩]
    · rw [alarm, if_neg (by decide), if_pos ⟨rfl, rfl⟩]
    · rw [alarm, if_neg (by decide), if_neg (by decide), if_pos ⟨rfl, rfl⟩]
    · rw [alarm, if_neg (by decide), if_neg (by decide), if_neg (by decide), if_pos ⟨rfl, .inl rfl⟩, alarmCtrl_low]
  · refine gives_of rfl ?_
    rw [rtcSet_up ((regsUp_iff _).2 hon), if_neg (by omega), if_neg (by omega), if_neg h4]
  · refine gives_of rfl ?_
    rw [alarmWrite_up ((regsUp_iff _).2 hon), if_neg (by omega), if_neg (by omega), if_neg h24, if_neg (by omega)]
  · exact setTime_eq _ v

/-! ### What a flit's sending leaves (R155) -/

/-- The block apart from the links and from what has left the device. -/
def outsideLinks (t : Blk) : Blk := { t with links := [], out := [] }

theorem outsideLinks_setLink (s : Blk) (l : Link) (k : LinkSt) : outsideLinks (setLink s l k) = outsideLinks s := rfl

theorem outsideLinks_emit (s : Blk) (o : Output) : outsideLinks (emit s o) = outsideLinks s := rfl

theorem outsideLinks_sendLine (s : Blk) (l : Link) (h : FlitHeader) (p : Bytes) : outsideLinks (sendLine s l h p) = outsideLinks s := by
  simp only [sendLine]; split <;> rfl

theorem outsideLinks_sendSeq (s : Blk) (l : Link) (f : Flit) : outsideLinks (sendSeq s l f) = outsideLinks s := by
  rw [sendSeq, outsideLinks_sendLine, outsideLinks_setLink]

theorem outsideLinks_pumpN (l : Link) : ∀ (n : Nat) (s : Blk), outsideLinks (pumpN n s l) = outsideLinks s
  | 0, _ => rfl
  | n + 1, s => by
    simp only [pumpN]
    split
    · split
      · rw [outsideLinks_pumpN l n, outsideLinks_sendSeq, outsideLinks_setLink]
      · rfl
    · rfl

theorem outsideLinks_queueFlits (s : Blk) (l : Link) (fs : List Flit) : outsideLinks (queueFlits s l fs) = outsideLinks s := by
  simp only [queueFlits]
  split
  · rfl
  · rw [pump, outsideLinks_pumpN, outsideLinks_setLink]

theorem outsideLinks_tandemSend (s : Blk) (ft oc obj body part : Nat) (p : Bytes) :
    outsideLinks (tandemSend s ft oc obj body part p) = outsideLinks s := by
  rw [tandemSend]
  split
  · exact outsideLinks_queueFlits _ _ _
  · rfl

theorem outsideLinks_sendDelta (s : Blk) (sn kind : Nat) (b : Bytes) : outsideLinks (sendDelta s sn kind b) = outsideLinks s := by
  rw [sendDelta]
  split
  · rfl
  · exact outsideLinks_tandemSend _ _ _ _ _ _ _

/-! ### The reset of the PCIe function (R309, R337, R404, R407) -/

theorem memRead_withoutMsix_inside {m : List Host.Cell} {a : Nat} (h : 0x40000 ≤ a ∧ a < 0x42000) : memRead (withoutMsix m) a = 0 := by
  induction m with
  | nil => rfl
  | cons c m ih =>
    by_cases hc : c.1 = a
    · rw [withoutMsix, List.filter_cons_of_neg (by simpa [hc] using h)]; exact ih
    · rw [withoutMsix, List.filter_cons]
      split
      · simp only [memRead, if_neg hc]; exact ih
      · exact ih

theorem memRead_withoutMsix (m : List Host.Cell) (a : Nat) :
    memRead (withoutMsix m) a = if 0x40000 ≤ a ∧ a < 0x42000 then 0 else memRead m a := by
  split
  next h => exact memRead_withoutMsix_inside h
  next h => exact memRead_withoutMsix_outside (by omega)

/-- What the executor holds of a mailbox. -/
def takenOf (s : Blk) (n : Fin 16) : List (Source × Request) := s.hub.exec.filter fun e => decide (e.1 = .mailbox n)

/-- What the end of a ring's commands leaves: rings, plain registers, mailboxes, jobs, and what the executor holds of a mailbox. -/
def keptByRings (s : Blk) : RingSt × RegSt × Tbl Mailbox × List (Source × Request) × Tbl Job × (Fin 16 → List (Source × Request)) :=
  (s.ring, s.reg, s.hub.mbox, s.hub.later, s.hub.jobs, takenOf s)

theorem takenOf_leaveHub (s : Blk) (slot : Nat) : takenOf (leaveHub s slot) = takenOf s := by
  funext n
  simp only [takenOf, leaveHub, List.filter_filter]
  refine List.filter_congr fun e _ => ?_
  by_cases he : e.1 = .mailbox n <;> simp [he]

theorem keptByRings_leaveHub (s : Blk) (slot : Nat) : keptByRings (leaveHub s slot) = keptByRings s := by
  rw [keptByRings, takenOf_leaveHub]; rfl

theorem keptByRings_freeSlot (s : Blk) (slot : Nat) : keptByRings (freeSlot s slot) = keptByRings s := by
  have left := keptByRings_leaveHub (dropCells s slot) slot
  simp only [freeSlot]
  split <;> exact left

theorem keptByRings_of_outsideLinks {s t : Blk} (h : outsideLinks t = outsideLinks s) : keptByRings t = keptByRings s := by
  calc keptByRings t = keptByRings (outsideLinks t) := rfl
    _ = keptByRings (outsideLinks s) := by rw [h]
    _ = keptByRings s := rfl

theorem keptByRings_freeSession (s : Blk) (sn : Nat) : keptByRings (freeSession s sn) = keptByRings s := by
  rw [freeSession]
  split
  case h_1 => rfl
  case h_2 ss _ =>
    refine (keptByRings_of_outsideLinks (outsideLinks_sendDelta _ sn 5 [])).trans ?_
    exact forEach_keep keptByRings _ freeSlot keptByRings_freeSlot s

theorem keptByRings_dropRing (s : Blk) (q : Nat) : keptByRings (dropRing s q) = keptByRings s :=
  (keptByRings_freeSession _ _).trans (forEach_keep keptByRings _ freeSlot keptByRings_freeSlot s)

/-- The state before the ring registers are reset: the mailboxes are, and every running ring has ended. -/
def ringsEnded (s : Blk) : Blk :=
  forEach (((resetMailboxes s).ring.sqs.filter fun e => e.2.running).map Prod.fst) dropRing (resetMailboxes s)

theorem keptByRings_ringsEnded (s : Blk) : keptByRings (ringsEnded s) = keptByRings (resetMailboxes s) :=
  forEach_keep keptByRings _ dropRing keptByRings_dropRing _

/-- The hub has a request of mailbox `n`, in the executor or to be answered later. -/
def hubHolds (s : Blk) (n : Nat) : Bool :=
  (s.hub.exec ++ s.hub.later).any fun e => match e.1 with
    | .mailbox m => m.val == n
    | .inBand _ => false

theorem hubHolds_mailbox {s : Blk} {n : Fin 16} (h : ∃ e ∈ s.hub.exec ++ s.hub.later, e.1 = .mailbox n) : hubHolds s n.val = true := by
  obtain ⟨e, he, hn⟩ := h
  exact List.any_eq_true.2 ⟨e, he, by simp [hn]⟩

theorem mboxOf_resetMailboxes_has {s : Blk} {n : Nat} (h : s.hub.mbox.has n = true) :
    mboxOf (resetMailboxes s) n = { resp := (mboxOf s n).resp, discard := hubHolds s n } := by
  obtain ⟨m, hm⟩ := Option.isSome_iff_exists.1 h
  simp only [mboxOf, resetMailboxes, Tbl.getD, Tbl.get?_mapVal, hm]
  rfl

theorem mboxOf_resetMailboxes_not {s : Blk} {n : Nat} (h : s.hub.mbox.has n = false) :
    mboxOf (resetMailboxes s) n = {} ∧ mboxOf s n = {} := by
  have none := Option.isSome_eq_false_iff.1 h
  simp only [mboxOf, resetMailboxes, Tbl.getD, Tbl.get?_mapVal, Option.isNone_iff_eq_none.1 none]
  exact ⟨rfl, rfl⟩

/-- The registers of a mailbox after the reset (R309). -/
theorem mboxOf_resetMailboxes (s : Blk) (n : Nat) :
    ∃ taken, mboxOf (resetMailboxes s) n = { resp := (mboxOf s n).resp, discard := taken } := by
  cases h : s.hub.mbox.has n
  · obtain ⟨after, before⟩ := mboxOf_resetMailboxes_not h
    exact ⟨false, by rw [after, before]⟩
  · exact ⟨_, mboxOf_resetMailboxes_has h⟩

/-- The registers of a submission ring after the reset, but for its counters (R335). -/
theorem sqOf_resetRingRegs {s e : Blk} (h : e.ring = s.ring) (q : Nat) :
    (e.ring.sqs.mapVal fun _ x => ({ tornCnt := x.tornCnt, malformedCnt := x.malformedCnt, pollLateCnt := x.pollLateCnt } : Sq)).getD q {} =
      { tornCnt := (sqOf s q).tornCnt, malformedCnt := (sqOf s q).malformedCnt, pollLateCnt := (sqOf s q).pollLateCnt } := by
  rw [Tbl.getD, Tbl.get?_mapVal, h, sqOf, Tbl.getD]
  cases s.ring.sqs.get? q <;> rfl

/-- A response to a mailbox that was reset is discarded (R309). -/
theorem answerMbox_discard {b : Blk} {n : Nat} (h : (mboxOf b n).discard = true) (r : Request) (head bulk : Bytes) :
    mboxOf (answerMbox b n r head bulk) n =
      { mboxOf b n with busy := false, discard := false, flushing := false, progress := 0 } := by
  have self : ∀ m, mboxOf (setMbox b n m) n = m := fun m => Tbl.getD_set_self _ _ _ _
  have again : ∀ m m', mboxOf (setMbox (setMbox b n m') n m) n = m := fun m m' => Tbl.getD_set_self _ _ _ _
  simp only [answerMbox, h, if_true, or_true, mboxDone, self, again]

/-- Settles O43: what the ends of the rings keep (`keptByRings`), then what each part of the reset writes. -/
theorem functionResetLeavesTheHubAtWork : Obligations.FunctionResetLeavesTheHubAtWork := by
  refine ⟨fun s c hc => ⟨functionReset s, ?_, ?_⟩, fun b n r head bulk hd => ?_⟩
  · obtain rfl | rfl := hc <;> rfl
  · obtain ⟨ring, reg, mbox, later, jobs, taken⟩ : _ ∧ _ ∧ _ ∧ _ ∧ _ ∧ _ := by
      simpa only [keptByRings, Prod.mk.injEq] using keptByRings_ringsEnded s.toBlk
    have mboxes : ∀ n, mboxOf (functionReset s).toBlk n = mboxOf (resetMailboxes s.toBlk) n := fun n =>
      congrArg (fun t : Tbl Mailbox => t.getD n {}) mbox
    refine ⟨fun n => ?_, fun n => congrFun taken n, later, jobs, fun n hn he => ?_, rfl, sqOf_resetRingRegs ring, ?_, memRead_withoutMsix s.mem⟩
    · obtain ⟨_, h⟩ := mboxOf_resetMailboxes s.toBlk n
      rw [mboxes, h]
      exact ⟨rfl, rfl, rfl, rfl, rfl, rfl⟩
    · rw [mboxes, mboxOf_resetMailboxes_has hn]
      exact hubHolds_mailbox he
    · exact congrArg (fun r : RegSt => ({ smbEvent := r.smbEvent } : RegSt)) reg
  · intro t
    rw [answerMbox_discard hd]
    exact ⟨rfl, rfl, rfl⟩

end Sys2Proof.Machine
end

section
/-! PROOFS. The statements of the family of the tandem pair: mirrored objects; heartbeats, silence and the join; takeover,
resynchronisation and drains. -/

namespace Sys2Proof.Machine

/-! ### Mirrored objects (R276-R281) -/

/-- What the object of a STATE flit does, by its class (R276, R277). -/
def stateObject (o : Nat × Nat × Nat × Nat) (payload : Bytes) (s : Blk) : Blk :=
  match o.1 with
  | 0x01 => ((blocksOf 32 (payload.take 224)).take 7).foldl (fun s b => checkPieces (deltaIn s b) b) s
  | 0x02 => pageFlit s o.2.1 o.2.2.2 payload
  | 0x03 => recordIn s payload
  | 0x04 => { s with med := { s.med with sjPartner := s.med.sjPartner.set o.2.1 (payload.take 136) } }
  | 0x05 => reserveIn s o.2.1 payload
  | 0x06 => uploadIn s o.2.1 payload
  | 0x07 => completeAll (noticeIn s o.2.1 payload)
  | _ => s

theorem stateObject_unknown {o : Nat × Nat × Nat × Nat} {payload : Bytes} {s : Blk} (h : o.1 = 0 ∨ 0x07 < o.1) :
    stateObject o payload s = s := by
  obtain h | h := h
  · rw [stateObject, h]
    rfl
  · obtain ⟨k, hk⟩ := Nat.exists_eq_add_of_le' h
    rw [stateObject, hk]
    rfl

/-- A part of a codeword body in the mirror that it names. -/
def bodyPart (o : Nat × Nat × Nat × Nat) (payload : Bytes) (s : Blk) : Blk :=
  { s with tdm := { s.tdm with mirrors := s.tdm.mirrors.upd o.2.1 {} fun m =>
    { m with data := m.data.upd o.2.2.1 [] fun x => slice x 0 (240 * o.2.2.2) ++ if o.2.2.2 = 17 then payload.take 32 else payload } } }

section
variable {s s1 : Blk} {h : FlitHeader} {payload : Bytes}

theorem onObject_notTaken {ft : Nat} {f : Blk → Nat × Nat × Nat × Nat → Blk} (hin : flitIn s .tandem h payload = (false, s1)) :
    onObject ft h payload f s = s1 := onFlit_notTaken hin

variable (hin : flitIn s .tandem h payload = (true, s1))
include hin

theorem onObject_joined {ft : Nat} {f : Blk → Nat × Nat × Nat × Nat → Blk} (hty : (flitView h).ftype = ft) (h5 : ft ≠ 5)
    (hj : s1.tdm.joined = true) : onObject ft h payload f s = f s1 (tdmView (flitView h).body) :=
  (onFlit_eq hin hty (.inl h5)).trans (if_pos hj)

theorem onObject_before {ft : Nat} {f : Blk → Nat × Nat × Nat × Nat → Blk} (hty : (flitView h).ftype = ft) (h5 : ft ≠ 5)
    (hj : s1.tdm.joined = false) : onObject ft h payload f s = s1 :=
  (onFlit_eq hin hty (.inl h5)).trans (if_neg (ne_true_of_eq_false hj))

theorem stateFn_joined (hty : (flitView h).ftype = 0x6) (hj : s1.tdm.joined = true) :
    stateFn h payload s = stateObject (tdmView (flitView h).body) payload s1 :=
  onObject_joined hin hty (by decide) hj

theorem valueFn_ignored (hty : (flitView h).ftype = 0x7) (hj : s1.tdm.joined = true)
    (ho : (tdmView (flitView h).body).1 ≠ 0x10 ∨ 17 < (tdmView (flitView h).body).2.2.2) : valueFn h payload s = s1 :=
  (onObject_joined hin hty (by decide) hj).trans (if_pos ho)

theorem valueFn_part (hty : (flitView h).ftype = 0x7) (hj : s1.tdm.joined = true)
    (hc : (tdmView (flitView h).body).1 = 0x10) (hp : (tdmView (flitView h).body).2.2.2 ≤ 17) :
    let o := tdmView (flitView h).body
    let s2 := bodyPart o payload s1
    valueFn h payload s = completeAll (if o.2.2.2 ≠ 17 then s2 else if s2.tdm.uploads.has o.2.1 then stagePart s2 o.2.1 else tryMirror s2 o.2.1) :=
  (onObject_joined hin hty (by decide) hj).trans (if_neg (by simp [hc, hp]))

end

/-- Settles O34: whether the flit is taken and the link joined, then the object's class, then the part of the body. -/
theorem mirroredObjectsAreTaken : Obligations.MirroredObjectsAreTaken := by
  refine ⟨fun s h payload s1 hl hin =>
    ⟨gives_flit rfl hl (onObject_notTaken hin), gives_flit rfl hl (onObject_notTaken hin), gives_flit rfl hl (onObject_notTaken hin)⟩, ?_⟩
  intro s h payload s1 hl hin v o
  refine ⟨fun hty hj => ?state, fun hty hj ho => ?_, fun hty hj hc hp => ?value, fun hty hj => ?_,
    fun hj => ⟨fun hty => ?_, fun hty => ?_, fun hty => ?_⟩⟩
  case state =>
    have object : ∀ {b}, stateObject o payload s1 = b → Gives (.tandemStateFlit h payload) s b := fun hb =>
      gives_flit rfl hl ((stateFn_joined hin hty hj).trans hb)
    refine ⟨fun ho => object ?_, fun ho => object ?_, fun ho => object ?_, fun ho => object ?_, fun ho => object ?_, fun ho => object ?_,
      fun ho => object ?_, fun ho => object (stateObject_unknown ho)⟩
    all_goals simp only [stateObject, ho]
  case value =>
    have part := valueFn_part hin hty hj hc hp
    refine ⟨fun h17 => ?_, fun h17 hu => ?_, fun h17 hu => ?_⟩
    · exact gives_flit rfl hl (part.trans (congrArg completeAll (if_pos (Nat.ne_of_lt h17))))
    · exact gives_flit rfl hl (part.trans (congrArg completeAll ((if_neg (not_not.2 h17)).trans (if_pos hu))))
    · exact gives_flit rfl hl (part.trans (congrArg completeAll ((if_neg (not_not.2 h17)).trans (if_neg (ne_true_of_eq_false hu)))))
  · exact gives_flit rfl hl (valueFn_ignored hin hty hj ho)
  · exact gives_flit rfl hl (onObject_joined hin hty (by decide) hj)
  · exact gives_flit rfl hl (onObject_before hin hty (by decide) hj)
  · exact gives_flit rfl hl (onObject_before hin hty (by decide) hj)
  · exact gives_flit rfl hl (onObject_before hin hty (by decide) hj)

/-! ### Heartbeats, silence and the join (R278, R282, R286) -/

section
variable {s s1 : Blk} {h : FlitHeader} {payload : Bytes} (hin : flitIn s .tandem h payload = (true, s1)) (hty : (flitView h).ftype = 5)
include hin hty

theorem heartbeatFn_joined (hc : bitsOf (flitView h).body.toNat 56 8 = 0x10) (hj : s1.tdm.joined = true) :
    heartbeatFn h payload s = judgeSilence { s1 with tdm := { s1.tdm with linkSilent := false, lastHb := s1.now, peerState := beAt payload 0 1 } } :=
  (onFlit_eq hin hty (.inr hc)).trans (if_pos hj)

theorem heartbeatFn_before (hc : bitsOf (flitView h).body.toNat 56 8 = 0x10) (hj : s1.tdm.joined = false) : heartbeatFn h payload s = s1 :=
  (onFlit_eq hin hty (.inr hc)).trans (if_neg (ne_true_of_eq_false hj))

theorem joinProofFn_settled (hc : bitsOf (flitView h).body.toNat 56 8 = 0x12) (hj : s1.tdm.joined = true ∨ (linkOf s1 .tandem).phase ≠ .up) :
    joinProofFn h payload s = s1 :=
  (onFlit_eq hin hty (.inr hc)).trans (if_pos hj)

theorem joinProofFn_waiting (hc : bitsOf (flitView h).body.toNat 56 8 = 0x12) (hj : s1.tdm.joined = false) (hu : (linkOf s1 .tandem).phase = .up) :
    joinProofFn h payload s =
      if s1.tdm.secret ≠ [] ∧ payload.take 32 = joinProof s1 s1.tdm.peerSerial s1.tdm.peerSide s1.tdm.peerNonce s1.tdm.nonce then
        pump (joinDone s1) .tandem else joinFailed s1 :=
  (onFlit_eq hin hty (.inr hc)).trans (if_neg (by simp [hj, hu]))

end

theorem aliveToggle_eq (s : Blk) : aliveToggle s = { s with pin := { s.pin with peerAliveOut := showsAlive s && !s.pin.peerAliveOut } } := by
  rw [aliveToggle]
  cases showsAlive s <;> rfl

theorem heartbeatSend_silent {s : Blk} (h : showsAlive s = false ∨ (linkOf s .tandem).phase ≠ .up) : heartbeatSend s = s :=
  if_neg fun ⟨alive, up⟩ => h.elim (ne_false_of_eq_true alive) (· up)

/-- Settles O35: a flit by whether it is taken and the link joined, every other row by its own condition. -/
theorem pairPathsAndJoining : Obligations.PairPathsAndJoining := by
  refine ⟨fun s h payload s1 hl hin => ⟨gives_flit rfl hl (onFlit_notTaken hin), gives_flit rfl hl (onFlit_notTaken hin)⟩, ?flits, fun s => ?rows⟩
  case flits =>
    intro s h payload s1 hl hin hty code
    refine ⟨fun hc => ⟨fun hj => ?_, fun hj => ?_⟩, fun hc hj => ?_, fun hc hj hu => ⟨fun good => ?_, fun bad => ?_⟩⟩
    · exact gives_flit rfl hl (heartbeatFn_joined hin hty hc hj)
    · exact gives_flit rfl hl (heartbeatFn_before hin hty hc hj)
    · exact gives_flit rfl hl (joinProofFn_settled hin hty hc hj)
    · exact gives_flit rfl hl ((joinProofFn_waiting hin hty hc hj hu).trans (if_pos good))
    · exact gives_flit rfl hl ((joinProofFn_waiting hin hty hc hj hu).trans (if_neg bad))
  case rows =>
    refine ⟨fun alive up => ?_, fun still => ?_, ?_, ⟨fun hp => ⟨?_, ?_, ?_⟩, fun hp => ⟨?_, ?_, ?_⟩⟩, ⟨fun waits => ?_, fun waits => ?_⟩,
      ⟨fun rests => ?_, fun rests => ?_⟩⟩
    · exact gives_of rfl (if_pos ⟨alive, up⟩)
    · exact gives_of rfl (heartbeatSend_silent still)
    · exact gives_of rfl (aliveToggle_eq _)
    · exact gives_of rfl (if_pos hp)
    · exact gives_of rfl (if_pos hp)
    · exact gives_of rfl (if_pos hp)
    · exact gives_of rfl (if_neg (ne_true_of_eq_false hp))
    · exact gives_of rfl (if_neg (ne_true_of_eq_false hp))
    · exact gives_of rfl (if_neg (ne_true_of_eq_false hp))
    · exact gives_of rfl (if_pos waits)
    · exact gives_of rfl (if_neg waits)
    · exact gives_of rfl (if_pos rests)
    · exact gives_of rfl (if_neg rests)

/-! ### Takeover, resynchronisation and drains (R275, R283-R289) -/

/-- The side that has shown itself alive through a double silence, and asks for no fence yet (R283). -/
def TakeoverDue (s : Blk) : Prop :=
  s.tdm.paired = true ∧ s.tdm.double = true ∧ showsAlive s = true ∧ s.tdm.solo = false ∧ s.tdm.fenceReq = false

theorem takeoverTimer_due {s : Blk} (h : TakeoverDue s) :
    takeoverTimer s = match policy s 0x1F with
      | 0 => raise { s with tdm := { s.tdm with fenceReq := true } } 0xC003 5 domTdm []
      | 1 => takeoverAlone s
      | _ => raise s 0xC004 6 domTdm [] := by
  obtain ⟨hp, hd, ha, hs, hf⟩ := h
  exact if_neg (by simp [hp, hd, ha, hs, hf])

theorem takeoverTimer_early {s : Blk} (h : ¬ TakeoverDue s) : takeoverTimer s = s := by
  refine if_pos ?_
  by_contra hn
  simp only [not_or, not_not, Bool.not_eq_true] at hn
  obtain ⟨⟨hp, hd, ha⟩, hs, hf⟩ := hn
  exact h ⟨hp, hd, ha, hs, hf⟩

theorem drainTimeout_none {s : Blk} (h : s.tdm.drain = none) : drainTimeout s = s := by rw [drainTimeout, h]

theorem drainTimeout_runs {s : Blk} {job : Nat} {fb : Bool} (h : s.tdm.drain = some (job, fb)) :
    drainTimeout s = endJob (raise (setDev { s with tdm := { s.tdm with drain := none } } .run) 0xC00A 3 82 [0#8, if fb then 1#8 else 0#8])
      job 2 0x0301 0x04 := by
  rw [drainTimeout, h]
  cases fb <;> rfl

section
variable {s : Blk} {n : Nat} {bodies : List Bytes}

theorem resyncFn_none (h : s.tdm.resync.find? (fun e => e.1 = n) = none) : resyncFn n bodies s = s := by rw [resyncFn, h]

variable {listed : Bool} (h : s.tdm.resync.find? (fun e => e.1 = n) = some (n, listed))
include h

theorem resyncFn_apart (hj : pairJoined s = false) : resyncFn n bodies s = s := by
  rw [resyncFn, h]; exact if_pos hj

variable (hj : pairJoined s = true)
include hj

theorem resyncFn_lists (hl : listed = false) :
    resyncFn n bodies s =
      (let s1 := { s with tdm := { s.tdm with resync := s.tdm.resync.map fun e => if e.1 = n then (n, true) else e } }
       let s2 := sendNs (raise s1 0xC009 3 82 (leBytes 2 n ++ [1#8])) n 1
       ((slotsFrom s2 0).filter fun e => e.2.ns = n).foldl (fun s e => sendListed s e.2) s2) := by
  rw [resyncFn, h]
  refine (if_neg (ne_false_of_eq_true hj)).trans ((if_pos hl).trans ?_)
  rfl

theorem resyncFn_value (hl : listed = true) {e : Nat × BSlot} {es : List (Nat × BSlot)} (hu : unheldSlots s n = e :: es) :
    resyncFn n bodies s = if bodies.isEmpty then s else sendExtent s e.2 bodies := by
  rw [resyncFn, h]
  refine (if_neg (ne_false_of_eq_true hj)).trans ((if_neg (ne_false_of_eq_true hl)).trans ?_)
  rw [hu]

/-- Nothing is missing: the namespace leaves the list, and its end is told (R288). -/
def resyncEnded (s : Blk) (n : Nat) : Blk :=
  let s1 := { s with tdm := { s.tdm with resync := s.tdm.resync.filter fun e => e.1 ≠ n } }
  raise (sendNs (modNs s1 n fun x => { x with stale := false }) n 2) 0xC009 3 82 (leBytes 2 n ++ [0#8])

theorem resyncFn_ends (hl : listed = true) (hu : unheldSlots s n = []) :
    resyncFn n bodies s =
      (let s2 := resyncEnded s n
       let job := (jobsWhere s2 isFailback).head?
       if s2.tdm.resync.isEmpty ∧ s2.dev = .run ∧ (job.isSome ∨ policy s2 0x21 = 1 ∧ servesOther s2) then startDrain s2 (job.getD 0) true
       else s2) := by
  rw [resyncFn, h]
  refine (if_neg (ne_false_of_eq_true hj)).trans ((if_neg (ne_false_of_eq_true hl)).trans ?_)
  rw [hu]
  rfl

end

/-- A failback that was ordered or is automatic starts once nothing is missing (R289). -/
theorem failbackStarts_iff (t : Blk) :
    t.tdm.resync.isEmpty = true ∧ t.dev = .run ∧ ((jobsWhere t isFailback).head?.isSome = true ∨ policy t 0x21 = 1 ∧ servesOther t = true) ↔
    t.tdm.resync = [] ∧ t.dev = .run ∧ ((jobsWhere t isFailback).head? ≠ none ∨ policy t 0x21 = 1 ∧ servesOther t = true) := by
  rw [List.isEmpty_iff, Option.isSome_iff_ne_none]

/-- Settles O36: the takeover by `TakeoverDue` and its mode, a resynchronisation by what is listed and what is missing. -/
theorem takeoverAndHandover : Obligations.TakeoverAndHandover := by
  refine ⟨fun s => ⟨fun due => ⟨fun hm => ?_, fun hm => ?_, fun hm => ?_⟩, fun early => ?_, fun v pec hf => ?_, fun v pec hf => ?_,
    fun hf => ?_, fun hf => ?_, fun ha => ?_, fun ha => ?_, fun hk => ?_, fun hk => ?_, fun hd => ?_, fun job fb hd => ?_⟩,
    fun s h payload s1 hl hin hty hc => ?_, fun s h payload s1 hl hin => ?_, fun s n bodies hn => ?_,
    fun s n bodies listed hn => ⟨fun hj => ?_, fun hj hl => ?_, fun hj hl hb hu => ?_, fun hj hl hu => ⟨fun starts => ?_, fun waits => ?_⟩,
      fun hj hl hb e es hu => ?_⟩⟩
  · exact gives_of rfl ((takeoverTimer_due due).trans (by rw [hm]; rfl))
  · exact gives_of rfl ((takeoverTimer_due due).trans (by rw [hm]; rfl))
  · obtain ⟨k, hk⟩ := Nat.exists_eq_add_of_le' hm
    exact gives_of rfl ((takeoverTimer_due due).trans (by rw [hk]; rfl))
  · exact gives_of rfl (takeoverTimer_early early)
  · exact gives_of rfl (if_pos hf)
  · exact gives_of rfl (if_neg hf)
  · exact gives_of rfl (if_pos hf)
  · exact gives_of rfl (if_neg (ne_true_of_eq_false hf))
  · exact gives_of rfl (if_pos ha)
  · exact gives_of rfl (if_neg ha)
  · exact gives_of rfl (if_pos hk)
  · exact gives_of rfl (if_neg hk)
  · exact gives_of rfl (drainTimeout_none hd)
  · exact gives_of rfl (drainTimeout_runs hd)
  · exact gives_flit rfl hl (onFlit_eq hin hty (.inr hc))
  · exact gives_flit rfl hl (onFlit_notTaken hin)
  · exact gives_of rfl (resyncFn_none hn)
  · exact gives_of rfl (resyncFn_apart hn hj)
  · exact gives_of rfl (resyncFn_lists hn hj hl)
  · obtain ⟨e, es, hes⟩ := List.exists_cons_of_ne_nil hu
    exact gives_of rfl ((resyncFn_value hn hj hl hes).trans (if_pos (by rw [hb]; rfl)))
  · exact gives_of rfl ((resyncFn_ends hn hj hl hu).trans (if_pos ((failbackStarts_iff _).2 starts)))
  · exact gives_of rfl ((resyncFn_ends hn hj hl hu).trans (if_neg (mt (failbackStarts_iff _).1 waits)))
  · exact gives_of rfl ((resyncFn_value hn hj hl hu).trans (if_neg (by simpa using hb)))

end Sys2Proof.Machine
end

section
/-! PROOFS. The statements of the family of time and safety: the RTC, thermal stepping and the core voltage; the monitors and the
memory errors. -/

namespace Sys2Proof.Machine

/-! ### The RTC and OP_TIME (R294-R298) -/

theorem tickStep_eq (t : TimeSt) : tickStep t =
    if decide (t.window % 1024 = 0 ∧ t.window / 1024 < t.trimNow.toInt.natAbs) = true then (if 0 < t.trimNow.toInt then 2 else 0) else 1 := by
  simp only [tickStep, decide_eq_true_eq]

/-- SUB and its window after a tick that adds `d`, with the carry into SECONDS and SCRUB_AGE (R294, R413). -/
def subTicked (s : Blk) (d : Nat) : Blk :=
  let n := s.time.sub.toNat + d
  let s1 := { s with time := { s.time with sub := BitVec.ofNat 15 n, window := (s.time.window + 1) % 2 ^ 20 } }
  if 32768 ≤ n then secondPassed s1 else s1

theorem rtcTickFn_eq (s : Blk) : rtcTickFn s = judgeAlarm (opTick (subTicked s (tickStep s.time)) (tickStep s.time)) := rfl

theorem subTicked_opTicks (s : Blk) (d : Nat) : (subTicked s d).time.opTicks = s.time.opTicks := by simp only [subTicked]; split <;> rfl

theorem subTicked_opTime (s : Blk) (d : Nat) : (subTicked s d).time.opTime = s.time.opTime := by simp only [subTicked]; split <;> rfl

theorem subTicked_pin (s : Blk) (d : Nat) : (subTicked s d).pin = s.pin := by simp only [subTicked]; split <;> rfl

theorem opTick_low {s : Blk} (h : s.pin.porN = false) (d : Nat) : opTick s d = s := if_pos h

theorem opTick_fraction {s : Blk} {d : Nat} (h : s.pin.porN = true) (hn : s.time.opTicks + d < 28800) :
    opTick s d = { s with time := { s.time with opTicks := s.time.opTicks + d } } :=
  (if_neg (ne_false_of_eq_true h)).trans (if_neg (Nat.not_le.2 hn))

theorem opTick_carry {s : Blk} {d : Nat} (h : s.pin.porN = true) (hn : 28800 ≤ s.time.opTicks + d) :
    opTick s d = { s with time := { s.time with opTicks := s.time.opTicks + d - 28800, opTime := min (s.time.opTime + 1) (2 ^ 44 - 1) } } :=
  (if_neg (ne_false_of_eq_true h)).trans (if_pos hn)

/-! ### Thermal stepping and the core voltage (R300, R301, R419) -/

/-- The temperature is known. -/
def tjKnown (s : Blk) (tj : BitVec 16) : Blk := { s with loops := { s.loops with tj := tj } }

section
variable {tj : BitVec 16} {s : Blk}

/-- Above THERMAL_TARGET and below MAX_STEP. -/
theorem thermalRise_step (hn : s.loops.step < target (tjKnown s tj) 0x1C) (ht : 16 * (target (tjKnown s tj) 0x1B : Int) < tj.toInt) :
    thermalRise tj s = setStep (tjKnown s tj) (s.loops.step + 1) := if_pos ⟨hn, ht⟩

/-- At MAX_STEP or beyond it, and at 85 °C or more. -/
theorem thermalRise_over (hn : target (tjKnown s tj) 0x1C ≤ s.loops.step) (h7 : s.loops.step < 7) (ht : 1360 ≤ tj.toInt) :
    thermalRise tj s = thermalOver (setStep (tjKnown s tj) (s.loops.step + 1)) true :=
  (if_neg fun h => Nat.not_lt.2 hn h.1).trans (if_pos ⟨h7, hn, ht⟩)

theorem thermalRise_keeps (hb : s.loops.step < target (tjKnown s tj) 0x1C → tj.toInt ≤ 16 * (target (tjKnown s tj) 0x1B : Int))
    (ha : target (tjKnown s tj) 0x1C ≤ s.loops.step → 7 ≤ s.loops.step ∨ tj.toInt < 1360) : thermalRise tj s = tjKnown s tj := by
  refine (if_neg fun h => ?_).trans (if_neg fun h => ?_)
  · exact Int.not_lt.2 (hb h.1) h.2
  · obtain ⟨h7, hn, ht⟩ := h
    exact (ha hn).elim (Nat.not_le.2 h7) (Int.not_lt.2 ht)

theorem thermalFall_keeps (h : s.loops.step = 0 ∨ 16 * (target (tjKnown s tj) 0x1B : Int) - 32 < tj.toInt) : thermalFall tj s = tjKnown s tj := by
  refine if_neg fun ⟨h0, ht⟩ => h.elim (Nat.ne_of_gt h0) (Int.not_lt.2 ht)

theorem thermalFall_step (h0 : 0 < s.loops.step) (ht : tj.toInt ≤ 16 * (target (tjKnown s tj) 0x1B : Int) - 32) :
    thermalFall tj s =
      (let s1 := setStep (tjKnown s tj) (s.loops.step - 1)
       if s1.loops.step ≤ target s1 0x1C then thermalOver s1 false else s1) := if_pos ⟨h0, ht⟩

end

/-- The request after one step of at most 5 mV toward its goal (R300, R419). -/
def vcoreNext (s : Blk) (demand : Nat) : Nat :=
  let g := voltageGoal s demand
  let v := s.loops.vcore
  if v + 5 ≤ g then v + 5 else if g + 5 ≤ v then v - 5 else v

/-- The request moves, and CORE_VID follows it. -/
def vcoreMoved (s : Blk) (demand : Nat) : Blk :=
  { s with loops := { s.loops with vcore := vcoreNext s demand }, pin := { s.pin with vid := (vcoreNext s demand - 680) / 5 } }

theorem vcoreFn_eq (s : Blk) (demand : Nat) : vcoreFn demand s =
    if target s 0x1E < demand ∧ target s 0x1E < vcoreNext s demand then voltageOver (vcoreMoved s demand) true
    else if demand ≤ target s 0x1E ∧ vcoreNext s demand ≤ upTo5 (target s 0x1E) then voltageOver (vcoreMoved s demand) false
    else vcoreMoved s demand := rfl

/-- Settles O37: a tick by what it adds and what it carries; the step by where it and the temperature stand; the voltage by its limits. -/
theorem timeThermalAndVoltage : Obligations.TimeThermalAndVoltage := by
  refine ⟨?time, ?thermal, ?voltage⟩
  case time =>
    intro s m hit d n s1 s2 op op2
    have step : tickStep s.time = d := tickStep_eq _
    have sub : subTicked s.toBlk d = s2 := rfl
    have tick : ∀ {b}, opTick s2 d = b → Gives .rtcTick s (judgeAlarm b) := fun hb =>
      gives_of rfl (by rw [rtcTickFn_eq, step, sub, hb])
    have ticks : s2.time.opTicks = s.time.opTicks := subTicked_opTicks _ d
    have opTime : s2.time.opTime = s.time.opTime := subTicked_opTime _ d
    have pin : s2.pin = s.pin := subTicked_pin _ d
    refine ⟨fun h => tick (opTick_low (by rw [pin, h]) d), fun h hn => tick ?_, fun h hn => tick ?_, gives_of rfl rfl, gives_of rfl rfl⟩
    · rw [opTick_fraction (by rw [pin, h]) (by rw [ticks]; exact hn), ticks]
    · rw [opTick_carry (by rw [pin, h]) (by rw [ticks]; exact hn), ticks, opTime]
  case thermal =>
    intro s tj s0 top limit n
    refine ⟨fun hn ht => ?_, fun hn h7 ht => ?_, fun hn ht => ?_, fun hn ht => ?_, fun h => ?_, fun h0 ht => ?_⟩
    · exact gives_of rfl (thermalRise_step hn ht)
    · exact gives_of rfl (thermalRise_over hn h7 ht)
    · exact gives_of rfl (thermalRise_keeps (fun _ => ht) fun h => absurd hn (Nat.not_lt.2 h))
    · exact gives_of rfl (thermalRise_keeps (fun h => absurd h (Nat.not_lt.2 hn)) fun _ => ht)
    · exact gives_of rfl (thermalFall_keeps h)
    · exact gives_of rfl (thermalFall_step h0 ht)
  case voltage =>
    intro s demand lo hi up goal v w s1
    have judged := vcoreFn_eq s.toBlk demand
    refine ⟨fun hd hw => ?_, fun hd hw => ?_, fun hd hw => ?_, fun hd hw => ?_⟩
    · exact gives_of rfl (judged.trans (if_pos ⟨hd, hw⟩))
    · exact gives_of rfl (judged.trans ((if_neg fun h => Nat.not_lt.2 hw h.2).trans (if_neg fun h => Nat.not_lt.2 h.1 hd)))
    · exact gives_of rfl (judged.trans ((if_neg fun h => Nat.not_lt.2 hd h.1).trans (if_pos ⟨hd, hw⟩)))
    · exact gives_of rfl (judged.trans ((if_neg fun h => Nat.not_lt.2 hd h.1).trans (if_neg fun h => Nat.not_lt.2 h.2 hw)))

/-! ### The monitors (R380, R381, R383, R385, R418) -/

theorem monitorsOn_iff (s : Blk) : monitorsOn s = true ↔ s.pin.porN = true ∧ ¬ (s.dev = .booting ∧ s.boot.step = 1) := by
  simp [monitorsOn, imp_iff_not_or]

theorem monitorsOn_eq_false {s : Blk} (h : ¬ (s.pin.porN = true ∧ ¬ (s.dev = .booting ∧ s.boot.step = 1))) : monitorsOn s = false := by
  rwa [← Bool.not_eq_true, monitorsOn_iff]

section
variable {s : Blk} {d : Nat}

theorem clockFaultFn_gated (hd : d ≠ 0) (h : monitorsOn s = false ∨ clockOn s d = false) : clockFaultFn d s = s :=
  (if_neg hd).trans (if_pos h)

theorem clockFaultFn_running (hd : d ≠ 0) (hm : monitorsOn s = true) (hc : clockOn s d = true) :
    clockFaultFn d s =
      if d = 83 then raise (stopClock { s with safe := { s.safe with dbg := false } } 83) 0xE088 4 83 [1]
      else if d = 79 then kickCause s 0xE087 79 [] 9 0 false
      else kickCause s 0xE082 d (pl [(1, d)]) 4 d (decide (d = 1)) :=
  (if_neg hd).trans (if_neg (by simp [hm, hc]))

end

/-- The one byte of a payload that names a number. -/
theorem pl_byte (n : Nat) : pl [(1, n)] = [BitVec.ofNat 8 n] := by simp [pl, leBytes]

/-- What a rail's fault does to the time: VDD_AON takes RTC_VALID with it (R296). -/
def railLost (s : Blk) (rail : Nat) : Blk := if rail = 2 then rtcLost s else s

/-- A rail's fault has no cause: with POR_N low, or after a completed power-fail dump (R418). -/
def NoSupplyCause (s : Blk) : Prop := s.pin.porN = false ∨ (s.pwr.dump = some true ∧ s.pwr.dumpDone = true)

section
variable {s : Blk} {rail : Nat}

theorem noSupplyCause_railLost : NoSupplyCause (railLost s rail) ↔ NoSupplyCause s := by
  unfold railLost; split <;> rfl

theorem monitorsOn_railLost : monitorsOn (railLost s rail) = monitorsOn s := by
  unfold railLost; split <;> rfl

theorem supplyFaultFn_core (h : NoSupplyCause s) (hr : rail = 0) : supplyFaultFn rail s = { s with pwr := { s.pwr with coldStart := true } } := by
  subst hr; exact (if_pos h).trans (if_pos rfl)

theorem supplyFaultFn_other (h : NoSupplyCause s) (hr : rail ≠ 0) : supplyFaultFn rail s = railLost s rail :=
  (if_pos (noSupplyCause_railLost.2 h)).trans (if_neg hr)

theorem supplyFaultFn_cause (h : ¬ NoSupplyCause s) :
    supplyFaultFn rail s = if monitorsOn s then kickCause (railLost s rail) 0xE083 1 (pl [(1, rail)]) 5 rail false else railLost s rail := by
  rw [← monitorsOn_railLost (rail := rail)]
  exact if_neg (mt noSupplyCause_railLost.1 h)

end

/-! ### Memory errors (R382) -/

/-- The record of the write that slot `k` stages. -/
def stagedWrite (s : Blk) (k : Nat) : Option (Nat × Stage) :=
  s.idx.stages.find? fun e => e.2.slot = k ∧ e.2.retired = false ∧ e.2.mirror = false

theorem stagingLost_eq (s : Blk) (k : Nat) : stagingLost s k = match stagedWrite s k with
    | none => s
    | some e => if pastMedium e.2 then modStage s e.1 fun y => { y with grains := [], medium := true } else faultSlot s k := rfl

/-- The event of an uncorrectable error has been raised. -/
def errorTold (s : Blk) (w : MemStruct) : Blk := raise s 0xA002 5 0xFFFF (namePayload w)

theorem stagedWrite_errorTold (s : Blk) (w : MemStruct) (k : Nat) : stagedWrite (errorTold s w) k = stagedWrite s k := by
  simp only [stagedWrite, errorTold, raise_idx]

theorem sessOf_errorTold (s : Blk) (w : MemStruct) (n : Nat) : sessOf (errorTold s w) n = sessOf s n := by
  simp only [sessOf, errorTold, raise_xpt]

section
variable {s : Blk} {w : MemStruct} {k : Nat}

theorem uncorrectableFn_staging (h : w = .staging k) : uncorrectableFn w s = stagingLost (errorTold s w) k := by subst h; rfl

theorem uncorrectableFn_unstaged (h : w = .staging k) (hs : stagedWrite s k = none) : uncorrectableFn w s = errorTold s w := by
  rw [uncorrectableFn_staging h, stagingLost_eq, stagedWrite_errorTold, hs]

theorem uncorrectableFn_withdrawn {e : Nat × Stage} (h : w = .staging k) (hs : stagedWrite s k = some e) (hp : pastMedium e.2 = false) :
    uncorrectableFn w s = faultSlot (errorTold s w) k := by
  rw [uncorrectableFn_staging h, stagingLost_eq, stagedWrite_errorTold, hs]
  exact if_neg (ne_true_of_eq_false hp)

theorem uncorrectableFn_stored {e : Nat × Stage} (h : w = .staging k) (hs : stagedWrite s k = some e) (hp : pastMedium e.2 = true) :
    uncorrectableFn w s = modStage (errorTold s w) e.1 fun y => { y with grains := [], medium := true } := by
  rw [uncorrectableFn_staging h, stagingLost_eq, stagedWrite_errorTold, hs]
  exact if_pos hp

end

theorem uncorrectableFn_session {s : Blk} {w : MemStruct} {n : Nat} (h : w = .session n) :
    uncorrectableFn w s = if (sessOf s n).isSome then evict (errorTold s w) n else errorTold s w := by
  rw [← sessOf_errorTold s w]; subst h; rfl

/-- Settles O48: each monitor by whether the monitors run and its own condition; a memory error by the structure hit. -/
theorem monitorsAndMemoryErrors : Obligations.MonitorsAndMemoryErrors := by
  refine ⟨fun s => ?monitors, fun s w => ?memory⟩
  case monitors =>
    intro b on kick lost dumped
    have run : on → monitorsOn b = true := (monitorsOn_iff b).2
    have off : ¬ on → monitorsOn b = false := monitorsOn_eq_false
    refine ⟨fun hon hc => ?_, fun h => ?_, gives_of rfl rfl, fun d hd => ⟨fun h => ?_, fun hon hc => ?clock⟩, fun r => ?supply, fun tj => ⟨fun hon ht => ?_, fun h => ?_⟩,
      fun hoff flagged => ?_, fun hon => ⟨?_, ?_⟩, fun hp => ?_, fun hp => ?_⟩
    case clock =>
      have nonzero : d.val ≠ 0 := fun h => hd (Fin.ext h)
      have fault := clockFaultFn_running nonzero (run hon) hc
      refine ⟨fun h => ?_, fun h => ?_, fun h83 h79 => ?_⟩
      · exact gives_of rfl (fault.trans (if_pos (by rw [h]; rfl)))
      · exact gives_of rfl (fault.trans ((if_neg (by rw [h]; decide)).trans (if_pos (by rw [h]; rfl))))
      · have first : decide (d.val = 1) = decide (d = 1) := decide_eq_decide.2 (Fin.val_inj (b := 1))
        refine gives_of rfl (fault.trans ((if_neg fun h => h83 (Fin.ext h)).trans ((if_neg fun h => h79 (Fin.ext h)).trans ?_)))
        rw [pl_byte, first]; rfl
    case supply =>
      have core : r.val = 0 ↔ r = 0 := Fin.val_inj (b := 0)
      have rail : railLost b r.val = if r = 2 then lost b else b := if_congr (Fin.val_inj (b := 2)) rfl rfl
      refine ⟨fun hd hr => ?_, fun hd hr => ?_, fun hd hon => ?_, fun hd hoff => ?_⟩
      · exact gives_of rfl (supplyFaultFn_core hd (core.2 hr))
      · exact gives_of rfl ((supplyFaultFn_other hd (mt core.1 hr)).trans rail)
      · exact gives_of rfl ((supplyFaultFn_cause hd).trans ((if_pos (run hon)).trans (by rw [rail, pl_byte]; rfl)))
      · exact gives_of rfl ((supplyFaultFn_cause hd).trans ((if_neg (ne_true_of_eq_false (off hoff))).trans rail))
    · exact gives_of rfl (if_pos ⟨run hon, hc⟩)
    · refine gives_of rfl (if_neg fun ⟨hm, hc⟩ => h.elim (fun hoff => hoff ((monitorsOn_iff b).1 hm)) (ne_false_of_eq_true hc))
    · exact gives_of rfl (clockFaultFn_gated (fun e => hd (Fin.ext e)) (h.imp_left off))
    · exact gives_of rfl ((if_pos ⟨run hon, ht⟩).trans (by simp only [pl, List.flatMap_cons, List.flatMap_nil, List.append_nil]; rfl))
    · refine gives_of rfl (if_neg fun ⟨hm, ht⟩ => h.elim (fun hoff => hoff ((monitorsOn_iff b).1 hm)) (Int.not_le.2 ht))
    · exact gives_of rfl (if_pos (off hoff))
    · exact gives_of rfl ((if_neg (ne_false_of_eq_true (run hon))).trans (if_pos rfl))
    · exact gives_of rfl ((if_neg (ne_false_of_eq_true (run hon))).trans (if_neg (by decide)))
    · exact gives_of rfl (if_pos hp)
    · exact gives_of rfl (if_neg (ne_true_of_eq_false hp))
  case memory =>
    intro b x
    refine ⟨gives_of rfl rfl, fun hw => ?_, fun k hw => ⟨fun hn => ?_, fun e he hp => ?_, fun e he hp => ?_⟩, fun n hw hs => ?_,
      fun n hw hs => ?_, fun hw => ?_, fun hw => ?_⟩
    · obtain rfl | rfl | ⟨n, rfl | rfl⟩ := hw <;> exact gives_of rfl rfl
    · exact gives_of rfl (uncorrectableFn_unstaged hw hn)
    · exact gives_of rfl (uncorrectableFn_withdrawn hw he hp)
    · exact gives_of rfl (uncorrectableFn_stored hw he hp)
    · exact gives_of rfl ((uncorrectableFn_session hw).trans (if_pos hs))
    · exact gives_of rfl ((uncorrectableFn_session hw).trans (if_neg (by simp [show sessOf s.toBlk n = none from hs])))
    · subst hw; exact gives_of rfl rfl
    · subst hw; exact gives_of rfl rfl

end Sys2Proof.Machine
end

section
/-! PROOFS. The statements of the family of the hub's commands: what holds a command back; device commands; pair, telemetry, event,
power and firmware commands. -/

namespace Sys2Proof.Machine

/-! ### What holds an Iawatal command back, and what refuses it (R305, R311, R312) -/

section
variable {s : Blk} {op : Nat} {src : Source} {chk : Blk → Request → Nat × Nat} {f : Blk → Request → Blk} {r : Request}

theorem adminRun_absent (h : s.hub.exec.find? (fun e => e.1 = src ∧ e.2.opcode = op ∧ e.2.begun = false) = none) :
    adminRun op src chk f s = s := by rw [adminRun, h]

variable (h : s.hub.exec.find? (fun e => e.1 = src ∧ e.2.opcode = op ∧ e.2.begun = false) = some (src, r))
include h

theorem adminRun_waits (hw : adminClass op = some 1 ∧ s.dev = .activating ∨ mayRun s src r = false ∨ r.reading = true) :
    adminRun op src chk f s = s := by
  rw [adminRun, h]
  by_cases held : adminClass op = some 1 ∧ s.dev = .activating
  · exact if_pos held
  · exact (if_neg held).trans (if_pos (hw.resolve_left held))

theorem adminRun_checked (hheld : ¬ (adminClass op = some 1 ∧ s.dev = .activating)) (hrun : mayRun s src r = true) (hread : r.reading = false) :
    adminRun op src chk f s =
      if classCause s r ≠ 0 then hubAnswer s src r (classCause s r) (classDetail s (classCause s r)) [] []
      else if (chk s r).1 ≠ 0 then hubAnswer s src r (chk s r).1 (chk s r).2 [] [] else f (hubBegin s src r) r := by
  rw [adminRun, h]
  exact (if_neg hheld).trans (if_neg (by simp [hrun, hread]))

end

/-- A command whose own checks fail is answered with what they say. -/
theorem gives_adminRefused {c : Instr} {s : State} {op : Nat} {src : Source} {chk : Blk → Request → Nat × Nat} {f : Blk → Request → Blk}
    {r : Request} {status : Nat} (h : exec c s = lift (adminRun op src chk f) s) (m : MayBegin op src r s.toBlk)
    (hc : chk s.toBlk r = (status, 0)) (hs : status ≠ 0) : Gives c s (hubAnswer s.toBlk src r status 0 [] []) := by
  obtain ⟨found, held, run, read, cause⟩ := m
  refine gives_of h ?_
  rw [adminRun_checked found held run read, if_neg (by simp [cause]), hc, if_pos hs]

theorem checks_one {failed : Bool} {status : Nat} (h : failed = true) : checks [(failed, status, 0)] = (status, 0) := by
  subst h; rfl

/-- The commands of R314 with their opcodes. -/
def adminRows (src : Source) : List (Instr × Nat) := [
  (.identify src, 0x80), (.jobStatus src, 0x81), (.jobCancel src, 0x82), (.deviceReset src, 0x83), (.selfTest src, 0x84),
  (.health src, 0x85), (.nsCreate src, 0x88), (.nsDelete src, 0x89), (.nsSetState src, 0x8A), (.nsSetQuota src, 0x8B),
  (.nsQuery src, 0x8C), (.nsList src, 0x8D), (.tenantCreate src, 0x90), (.tenantSet src, 0x91), (.tenantRotate src, 0x92),
  (.tenantRetireGen src, 0x93), (.tenantDelete src, 0x94), (.tenantQuery src, 0x95), (.spokeQuery src, 0x98),
  (.poolFormat src, 0x99), (.spokeRemove src, 0x9A), (.portMode src, 0xA0), (.submacSet src, 0xA1), (.pfcSet src, 0xA2),
  (.cktPort src, 0xA3), (.takeoverMap src, 0xA4), (.policySet src, 0xA8), (.policyGet src, 0xA9), (.bucketSet src, 0xAA),
  (.camMode src, 0xAB), (.tandemQuery src, 0xB0), (.handover src, 0xB1), (.failback src, 0xB2), (.pairSecret src, 0xB3),
  (.counters src, 0xB4), (.loopStatus src, 0xB5), (.llrTable src, 0xB6), (.eventRead src, 0xB8), (.eventPolicy src, 0xB9),
  (.powerEnter src, 0xBA), (.alarmSet src, 0xBB), (.fwDownload src, 0xBC), (.fwCommit src, 0xBD), (.fwActivate src, 0xBE),
  (.fwQuery src, 0xBF)]

/-- Every command of R314 is the run of its opcode by the executor. -/
theorem adminRows_run (src : Source) : ∀ p ∈ adminRows src, ∃ chk f, ∀ s, exec p.1 s = lift (adminRun p.2 src chk f) s := by
  unfold adminRows
  repeat refine List.forall_mem_cons.2 ⟨⟨_, _, fun _ => rfl⟩, ?_⟩
  exact List.forall_mem_nil _

/-! ### Device commands (R314, R317, R318) -/

theorem jobStatusFn_listed {s : Blk} {r : Request} {j : Job} (h : s.hub.jobs.get? (par r 0 4) = some j) : (jobMissing s r).1 = 0 :=
  checks_none (by simp [h])

/-- Settles O38: what holds every command back, by `adminRows_run`; then each device command, its checks discharged first. -/
theorem deviceCommandsTakeEffect : Obligations.DeviceCommandsTakeEffect := by
  refine ⟨fun s src r p hp => ?rows, fun s src r => ?_⟩
  case rows =>
    obtain ⟨chk, f, run⟩ := adminRows_run src p hp
    refine ⟨fun h => gives_of (run s) (adminRun_absent h), fun h => ⟨fun hw => gives_of (run s) (adminRun_waits h hw), fun hheld hrun hread hc => ?_⟩⟩
    exact gives_of (run s) ((adminRun_checked h hheld hrun hread).trans (if_pos hc))
  intro b
  refine ⟨fun m => gives_admin rfl m rfl rfl, fun m j hj => ?_, fun m hj => ?_, fun m (hc : cancellable s.toBlk (par r 0 4) = false) => ?_,
    fun m (hc : cancellable s.toBlk (par r 0 4) = true) => ?_, fun m => gives_admin rfl m rfl rfl, fun m hk hj hroom => ?_, fun m => gives_admin rfl m rfl rfl⟩
  · exact gives_admin rfl m (jobStatusFn_listed hj) rfl
  · exact gives_adminRefused rfl m (checks_one (Option.isNone_iff_eq_none.2 hj)) (by decide)
  · exact gives_adminRefused rfl m (checks_one (by rw [hc]; rfl)) (by decide)
  · exact gives_admin rfl m (checks_none (by simpa using hc)) rfl
  · have form : ¬ (par r 0 1 ≠ 1 ∧ par r 0 1 ≠ 2) := fun h => hk.elim h.1 h.2
    exact gives_admin rfl m (checks_none (by simpa [hj] using form)) (startJob_of_room hroom)

/-! ### Pair, telemetry, event, power and firmware commands (R314-R316, R346, R370-R377, R401, R402) -/

theorem eventPolicy_form {r : Request} (h0 : par r 0 1 ≤ 1) (h1 : 1 ≤ par r 1 1) (h7 : par r 1 1 ≤ 7) (h2 : par r 2 1 ≤ 6) (h3 : par r 3 1 ≤ 1) :
    (checks [(decide (1 < par r 0 1 ∨ par r 1 1 < 1 ∨ 7 < par r 1 1 ∨ 6 < par r 2 1 ∨ 1 < par r 3 1), stBadRequest, 0)]).1 = 0 := by
  have form : ¬ (1 < par r 0 1 ∨ par r 1 1 < 1 ∨ 7 < par r 1 1 ∨ 6 < par r 2 1 ∨ 1 < par r 3 1) := by omega
  rw [decide_eq_false form]
  rfl

/-- Settles O41: each command by `gives_admin`; the checks that the statement writes out by its operands are discharged first. -/
theorem pairTelemetryAndFirmwareCommands : Obligations.PairTelemetryAndFirmwareCommands := by
  intro s src r b p q id
  refine ⟨fun m => gives_admin rfl m rfl rfl, fun hpair => ?pair, fun m hchk => gives_admin rfl m hchk rfl, fun m => gives_admin rfl m rfl rfl,
    fun m (hp : par r 0 1 ≤ 15) => ?llr, fun m => gives_admin rfl m rfl rfl, fun m hp hq1 hq7 hmin => ?policy,
    fun m (h1 : 1 ≤ par r 0 1) (h3 : par r 0 1 ≤ 3) (h0 : par r 2 2 = 0) hroom => ?_, fun m ha he => alarmSet_given m ha he,
    fun m (ha : par r 0 4 % 4096 = 0) (hl : par r 0 4 + r.bufLen ≤ 32505856) hfit => ?_, fun m hroom => ?_, fun m hdev => ?_,
    fun m => gives_admin rfl m rfl rfl⟩
  case pair =>
    have paired : (pairedCheck s.toBlk r).1 = 0 := checks_none (by simpa using hpair)
    refine ⟨fun m hroom => ?_, fun m hroom => ?_, fun m => ?_⟩
    · exact gives_admin rfl m paired (startJob_of_room hroom)
    · exact gives_admin rfl m paired (startJob_of_room hroom)
    · exact gives_admin rfl m paired rfl
  case llr =>
    refine ⟨fun (hq : par r 1 1 = 0) => ?_, fun (hq : par r 1 1 = 1) => ?_⟩
    · exact gives_admin rfl m (checks_none (by simpa [hq] using hp)) (congrArg (fun x => hubOk x src r (llrTableResult x (par r 0 1))) (if_neg (by simp [hq])))
    · exact gives_admin rfl m (checks_none (by simpa [hq] using hp)) (congrArg (fun x => hubOk x src r (llrTableResult x (par r 0 1))) (if_pos hq))
  case policy =>
    refine ⟨fun (he : par r 3 1 = 0) => ?_, fun (he : par r 3 1 = 1) => ?_⟩
    · exact gives_admin rfl m (eventPolicy_form hp hq1 hq7 hmin (he.trans_le (by decide))) (congrArg (fun x => hubOk x src r []) (if_neg (by simp [he])))
    · exact gives_admin rfl m (eventPolicy_form hp hq1 hq7 hmin (Nat.le_of_eq he)) (congrArg (fun x => hubOk x src r []) (if_pos he))
  · exact gives_admin rfl m (checks_none (by simp [h0]; omega)) (startJob_of_room hroom)
  · exact gives_admin rfl m (checks_none (by simp [ha, hfit]; omega)) rfl
  · exact gives_admin rfl m rfl (startJob_of_room hroom)
  · have form : (decide (s.dev ≠ .recovery) && decide ((validRec s.toBlk).pendingSlot > 1)) = false := by
      rcases hdev with h | h <;> simp [h]
    exact gives_admin rfl m (checks_none (List.forall_mem_singleton.2 form)) rfl

end Sys2Proof.Machine
end

section
/-! PROOFS. The statements of the family of the rings: enabling, polling and CQ_CTRL; admission, aborts, reads, completions and
transfers. -/

namespace Sys2Proof.Machine

/-! ### Rings begin and end (R322, R337) -/

section
variable {s : Blk} {q : Nat}

/-- A refused enable sets CFG_ERR with 0xB012. -/
def enableRefused (s : Blk) (q : Nat) : Blk := raise (setSq s q { sqOf s q with cfgErr := true }) 0xB012 3 78 [BitVec.ofNat 8 q]

theorem sqRefuse_eq : sqRefuse s q = enableRefused s q := by simp only [sqRefuse, enableRefused, pl, List.flatMap_cons, List.flatMap_nil]; rfl

/-- What an enable needs but for a session (R337; log entry 31). -/
def MayEnable (s : Blk) (q : Nat) : Prop :=
  (sqOf s q).running = false ∧ sqGood s (sqOf s q) = true ∧ s.dev ≠ .booting ∧ s.dev ≠ .recovery

theorem sqEnableFn_enabled (h : (sqOf s q).enable = true) : sqEnableFn q s = s := if_pos h

variable (h : (sqOf s q).enable = false)
include h

theorem sqEnableFn_refused (hm : ¬ MayEnable s q) : sqEnableFn q s = enableRefused s q := by
  refine (if_neg (ne_true_of_eq_false h)).trans ((if_pos ?_).trans sqRefuse_eq)
  by_contra hn
  simp only [not_or, Bool.not_eq_true, Bool.not_eq_false] at hn
  exact hm hn

theorem sqEnableFn_may (hm : MayEnable s q) :
    sqEnableFn q s = match (if inUse s < (ownRange s).2 then takeNumber s else none) with
      | none => sqRefuse s q
      | some (sn, t) =>
        setSq { t with xpt := { t.xpt with sessions := t.xpt.sessions.set sn (ringSession t q (sqOf s q).tenant) } } q { sqOf s q with
          enable := true, running := true, session := sn, s := 0, torn := 0, ended := false, reading := none, localq := [] } := by
  obtain ⟨hr, hg, hb, hv⟩ := hm
  exact (if_neg (ne_true_of_eq_false h)).trans (if_neg (by simp [hr, hg, hb, hv]))

theorem sqEnableFn_full (hm : MayEnable s q) (hf : (ownRange s).2 ≤ inUse s ∨ takeNumber s = none) : sqEnableFn q s = enableRefused s q := by
  have none : (if inUse s < (ownRange s).2 then takeNumber s else none) = none := by
    split
    · exact hf.resolve_left (by omega)
    · rfl
  rw [sqEnableFn_may h hm, none, sqRefuse_eq]

theorem sqEnableFn_bound (hm : MayEnable s q) (hr : inUse s < (ownRange s).2) {sn : Nat} {t : Blk} (ht : takeNumber s = some (sn, t)) :
    sqEnableFn q s =
      setSq { t with xpt := { t.xpt with sessions := t.xpt.sessions.set sn { tenant := (sqOf s q).tenant, ring := some q, lastAt := t.now } } } q { sqOf s q with
        enable := true, running := true, session := sn, s := 0, torn := 0, ended := false, reading := none, localq := [] } := by
  rw [sqEnableFn_may h hm, if_pos hr, ht]
  rfl

end

/-! ### Polling and reading (R324, R333) -/

section
variable {s : Blk} {q : Nat}

/-- A poll may read: the ring is enabled, the host is there, and the local queue has room. -/
def MayPoll (s : Blk) (q : Nat) : Prop := (sqOf s q).enable = true ∧ s.ring.pcieUp = true ∧ (sqOf s q).localq.length < 64

/-- The host's entries that a poll reads (R333). -/
def polled (s : Blk) (q : Nat) : Blk :=
  let x := sqOf s q
  let sl := x.s % 2 ^ x.size
  let n := if x.ended then 1 else min x.burst (min (64 - x.localq.length) (2 ^ x.size - sl))
  hostReads (setSq s q { x with reading := some n }) (x.base.toNat + 64 * sl) (64 * n)

theorem pollSq_idle {tick : Bool} (h : ¬ MayPoll s q) : pollSq s q tick = s := by
  refine if_pos ?_
  by_contra hn
  simp only [not_or, Bool.not_eq_false] at hn
  obtain ⟨he, hp, hr⟩ := hn
  exact h ⟨he, hp, by omega⟩

variable (h : MayPoll s q)
include h

theorem pollSq_may (tick : Bool) : pollSq s q tick =
    if (sqOf s q).reading.isSome then (if tick then setSq s q { sqOf s q with pollLateCnt := (sqOf s q).pollLateCnt + 1 } else s)
    else polled s q := by
  obtain ⟨he, hp, hr⟩ := h
  exact if_neg (by simp only [he, hp]; simp; omega)

theorem pollSq_outstanding (tick : Bool) (hr : (sqOf s q).reading ≠ none) :
    pollSq s q tick = if tick then setSq s q { sqOf s q with pollLateCnt := (sqOf s q).pollLateCnt + 1 } else s :=
  (pollSq_may h tick).trans (if_pos (Option.isSome_iff_ne_none.2 hr))

theorem pollSq_reads (tick : Bool) (hr : (sqOf s q).reading = none) : pollSq s q tick = polled s q :=
  (pollSq_may h tick).trans (if_neg (by simp [hr]))

end

section
variable {s : Blk} {q : Nat} {es : List Bytes}

theorem sqEntryReadFn_none (h : (sqOf s q).reading = none) : sqEntryReadFn q es s = s := by rw [sqEntryReadFn, h]

variable {n : Nat} (h : (sqOf s q).reading = some n)
include h

theorem sqEntryReadFn_plain (ho : (sessOf s (sqOf s q).session).any (·.owesReset) = false) :
    sqEntryReadFn q es s = classEntries q (es.take n) (setSq s q { sqOf s q with reading := none }) := by
  simp only [sqEntryReadFn, h, ho, Bool.false_eq_true, if_false]

theorem sqEntryReadFn_owing (ho : (sessOf s (sqOf s q).session).any (·.owesReset) = true) :
    sqEntryReadFn q es s =
      (let s1 := modSess (ringReset s q) (sqOf s q).session fun ss => { ss with owesReset := false }
       classEntries q (es.take n) (setSq s1 q { sqOf s1 q with reading := none })) := by
  simp only [sqEntryReadFn, h, ho, if_true]

end

/-! ### Writes of a completion ring (R322, R336, R337) -/

section
variable {s : Blk} {q : Nat} {v : BitVec 32}

/-- A write that would clear ENABLE under a running SQ. -/
def CqKept (s : Blk) (q : Nat) (v : BitVec 32) : Prop :=
  (cqOf s q).enable = true ∧ v.getLsbD 31 = false ∧ s.ring.sqs.vals.any (fun y => y.running && decide (y.cq = q)) = true

/-- The fields that CQ_CTRL writes at any time. -/
def cqCtrl (x : Cq) (v : BitVec 32) : Cq :=
  { x with enable := v.getLsbD 31, irqEn := v.getLsbD 30, irqCount := v.toNat / 2 ^ 16 % 256, irqDelay := v.toNat % 1024 }

theorem cqEnableWriteFn_kept (h : CqKept s q v) : cqEnableWriteFn q v s = s := if_pos h

theorem cqEnableWriteFn_written (h : ¬ CqKept s q v) :
    cqEnableWriteFn q v s =
      (let y := { cqCtrl (cqOf s q) v with size := if (cqOf s q).enable then (cqOf s q).size else v.toNat / 2 ^ 24 % 16 }
       setCq s q (if v.getLsbD 31 = true ∧ (cqOf s q).enable = false then { y with tail := 0, posted := 0, unsignalled := 0 } else y)) := by
  refine (if_neg h).trans ?_
  simp only [bitsOf, Nat.pow_zero, Nat.div_one]
  rfl

theorem cqEnableWriteFn_enabled (h : ¬ CqKept s q v) (he : (cqOf s q).enable = true) : cqEnableWriteFn q v s = setCq s q (cqCtrl (cqOf s q) v) := by
  simp [cqEnableWriteFn_written h, he, cqCtrl]

variable (he : (cqOf s q).enable = false)
include he

theorem cqEnableWriteFn_disabled (hv : v.getLsbD 31 = false) :
    cqEnableWriteFn q v s = setCq s q { cqCtrl (cqOf s q) v with size := v.toNat / 2 ^ 24 % 16 } := by
  simp only [cqEnableWriteFn_written fun hk => ne_true_of_eq_false he hk.1, he, hv, Bool.false_eq_true, false_and, if_false]

theorem cqEnableWriteFn_enables (hv : v.getLsbD 31 = true) :
    cqEnableWriteFn q v s = setCq s q { cqCtrl (cqOf s q) v with size := v.toNat / 2 ^ 24 % 16, tail := 0, posted := 0, unsignalled := 0 } := by
  simp only [cqEnableWriteFn_written fun hk => ne_true_of_eq_false he hk.1, he, hv, Bool.false_eq_true, and_self, if_true, if_false]

end

theorem gives_sqKick {s : State} {q : Fin 256} {b : Blk} (h : pollSq s.toBlk q.val false = b) : Gives (.sqKick q) s b :=
  gives_of (f := fun b => pollSq b q.val false) rfl h

/-- Settles O44: an enable by what refuses it, a poll by what it finds, a read by what the session owes, CQ_CTRL by what the ring is. -/
theorem ringsAreEnabledAndPolled : Obligations.RingsAreEnabledAndPolled := by
  refine ⟨fun s q => ?sq, fun s g => gives_of rfl rfl, fun s q v => ?cq⟩
  case sq =>
    intro x good refused
    refine ⟨fun he => ?_, fun he hg => ?_, fun he hg hf => ?_, fun sn s1 he hg hr ht => ?_, fun he => ?_, fun he => ?_, ?poll, fun entries => ?read⟩
    case poll =>
      refine ⟨fun hm => ?_, fun hm hr => ?_, fun hm hr => ?_⟩
      · exact ⟨gives_sqKick (pollSq_idle hm), pollSq_idle hm⟩
      · exact ⟨gives_sqKick (pollSq_outstanding hm false hr), pollSq_outstanding hm true hr⟩
      · exact ⟨gives_sqKick (pollSq_reads hm false hr), pollSq_reads hm true hr⟩
    case read =>
      refine ⟨fun hr => ?_, fun n hr ho => ?_, fun n hr ho => ?_⟩
      · exact gives_of rfl (sqEntryReadFn_none hr)
      · exact gives_of rfl (sqEntryReadFn_plain hr ho)
      · exact gives_of rfl (sqEntryReadFn_owing hr ho)
    · exact gives_of rfl (sqEnableFn_enabled he)
    · exact gives_of rfl (sqEnableFn_refused he hg)
    · exact gives_of rfl (sqEnableFn_full he hg hf)
    · exact gives_of rfl (sqEnableFn_bound he hg hr ht)
    · exact gives_of rfl (if_neg (ne_true_of_eq_false he))
    · exact gives_of rfl (if_pos he)
  case cq =>
    intro x keeps y
    refine ⟨fun hk => ?_, fun hk he => ?_, fun he hv => ?_, fun he hv => ?_, gives_of rfl rfl⟩
    · exact gives_of rfl (cqEnableWriteFn_kept hk)
    · exact gives_of rfl (cqEnableWriteFn_enabled hk he)
    · exact gives_of rfl (cqEnableWriteFn_disabled he hv)
    · exact gives_of rfl (cqEnableWriteFn_enables he hv)

/-! ### RING_ABORT (R328) -/

/-- The completion of a RING_ABORT. -/
def abortCpl (q : Nat) (e : Nat × Bytes) (st detail : Nat) : Cpl :=
  { cid := leAt e.2 2 2, sq := q, opcode := 0x7F, entryIx := e.1, trailer := (st, 0, 0, detail, 0) }

/-- The command of its ring that a RING_ABORT names. -/
def abortTarget (s : Blk) (q : Nat) (e : Nat × Bytes) : Option Cmd :=
  s.cmd.slots.vals.find? fun c => decide (c.ring = some q ∧ c.cid = leAt e.2 12 2 ∧ c.phase ≠ .done)

section
variable {s : Blk} {q : Nat}

theorem ringAbortFn_empty (h : (sqOf s q).localq = []) : ringAbortFn q s = s := by simp only [ringAbortFn, h]

variable {e : Nat × Bytes} {rest : List (Nat × Bytes)} (h : (sqOf s q).localq = e :: rest)
include h

theorem ringAbortFn_stays (hs : s.pwr.dump = some true ∨ leAt e.2 0 1 ≠ 0x7F) : ringAbortFn q s = s := by
  simp only [ringAbortFn, h]; exact if_pos hs.symm

variable (hd : s.pwr.dump ≠ some true) (ho : leAt e.2 0 1 = 0x7F)
include hd ho

theorem ringAbortFn_taken : ringAbortFn q s =
    (let s1 := setSq s q { sqOf s q with localq := rest }
     if devCause s.dev ≠ 0 then queueCpl s1 q (abortCpl q e (devCause s.dev) (if devCause s.dev = 0x0301 then s.dev.code else 0))
     else if entryFormOk e.2 = false then queueCpl s1 q (abortCpl q e 0x0201 0)
     else match abortTarget s q e with
       | some c => queueCpl (abortTag s1 c.session c.tag).2 q (abortCpl q e (abortTag s1 c.session c.tag).1 0)
       | none => queueCpl s1 q (abortCpl q e 0x0303 0)) := by
  simp only [ringAbortFn, h]
  refine (if_neg (by simp [hd, ho])).trans ?_
  simp only [bareCpl, ho]
  rfl

end

/-! ### The crank's reads (R326, R327, R331) -/

section
variable {s : Blk} {slot : Nat} (hs : slot < 524288)
include hs

theorem dmaReadFn_unawaited {r : HostRead}
    (h : cmdOf s slot = none ∨ ∀ c q, cmdOf s slot = some c → c.ring = some q → readOf s (ringChan s q) slot = none) : dmaReadFn slot r s = s := by
  rw [dmaReadFn, if_neg (Nat.not_le.2 hs)]
  cases hc : cmdOf s slot with
  | none => rfl
  | some c =>
    cases hq : c.ring with
    | none => simp only [hq]
    | some q =>
      have none : readOf s (ringChan s q) slot = none := (h.resolve_left (by simp [hc])) c q hc hq
      simp only [hq, none]

variable {c : Cmd} {q : Nat} {t : Xfer} (hc : cmdOf s slot = some c) (hq : c.ring = some q) (ht : readOf s (ringChan s q) slot = some t)
include hc hq ht

theorem dmaReadFn_data (b : Bytes) : dmaReadFn slot (.data b) s =
    if b.length ≠ t.count ∨ c.phase ≠ .fetching then s else fetched (readEnded s (ringChan s q) slot 0) slot q c b := by
  simp only [dmaReadFn, if_neg (Nat.not_le.2 hs), hc, hq, ht]

/-- A read that failed ends the command with MALFORMED_ENTRY and its DETAIL (R327, R342). -/
theorem dmaReadFn_failed {r : HostRead} (hr : ∀ b, r ≠ .data b) : dmaReadFn slot r s =
    failCmd (raise (readEnded s (ringChan s q) slot (readCode r)) 0xB013 4 78 [BitVec.ofNat 8 q, BitVec.ofNat 8 (readCode r)]) slot 0x0206 (readCode r) 0 := by
  cases r with
  | data b => exact absurd rfl (hr b)
  | unsupportedRequest => simp only [dmaReadFn, if_neg (Nat.not_le.2 hs), hc, hq, ht]; rfl
  | completerAbort => simp only [dmaReadFn, if_neg (Nat.not_le.2 hs), hc, hq, ht]; rfl
  | timeout => simp only [dmaReadFn, if_neg (Nat.not_le.2 hs), hc, hq, ht]; rfl
  | poisoned => simp only [dmaReadFn, if_neg (Nat.not_le.2 hs), hc, hq, ht]; rfl

end

section
variable {s : Blk} {n slot : Nat} {ok : Bool}

theorem dmaReadFn_mailbox {r : HostRead} : dmaReadFn (524288 + n) r s = bulkRead s n r := by
  rw [dmaReadFn, if_pos (Nat.le_add_right _ _), Nat.add_sub_cancel_left]

theorem flushingReadFn_mailbox : flushingReadFn (524288 + n) ok s =
    if (mboxOf s n).flushing then mboxDone (crankFlushed (if ok then s else hostFault s 0xFF 0) 31 (524288 + n)) n else s := by
  rw [flushingReadFn, if_pos (Nat.le_add_right _ _), Nat.add_sub_cancel_left]

/-- A completion of a slot that waits for its flushing read. -/
def awaitsFlush (slot : Nat) (x : Cpl) : Bool := decide (x.slot = some slot) && x.flushing

variable (hs : slot < 524288)
include hs

theorem flushingReadFn_unawaited (h : ∀ c ∈ s.ring.cqs.vals, ∀ x ∈ c.wait, ¬ (x.slot = some slot ∧ x.flushing = true)) :
    flushingReadFn slot ok s = s := by
  have none : s.ring.cqs.vals.findSome? (fun c => c.wait.find? (awaitsFlush slot)) = none :=
    List.findSome?_eq_none_iff.2 fun c hc => List.find?_eq_none.2 fun x hx => by simpa [awaitsFlush] using h c hc x hx
  rw [flushingReadFn, if_neg (Nat.not_le.2 hs)]
  unfold awaitsFlush at none
  simp only [none]

theorem flushingReadFn_awaited {x : Cpl} (h : s.ring.cqs.vals.findSome? (fun c => c.wait.find? (awaitsFlush slot)) = some x) :
    flushingReadFn slot ok s =
      (let s1 := crankFlushed (if ok then s else raise s 0xB013 4 78 [BitVec.ofNat 8 x.sq, 0#8]) (ringChan s x.sq) slot
       { s1 with ring := { s1.ring with cqs := s1.ring.cqs.mapVal fun _ c =>
         { c with wait := c.wait.map fun y => if awaitsFlush slot y then { y with flushing := false } else y } } }) := by
  rw [flushingReadFn, if_neg (Nat.not_le.2 hs)]
  unfold awaitsFlush at h
  cases ok <;> simp only [h] <;> rfl

end

/-! ### Completions and transfers (R330-R332, R339, R340) -/

/-- The completion is in the host's ring, and the vector is sent if it is due (R330-R332). -/
def completionPosted (s : Blk) (q : Nat) (c : Cpl) (rest : List Cpl) : Blk :=
  let x := cqOf s q
  let sq := sqOf s c.sq
  let e := closeEntry (completionEntry c (sq.s % 2 ^ sq.size)) x.posted
  let y := { x with wait := rest, tail := (x.tail + 1) % 2 ^ x.size, posted := x.posted + 1, unsignalled := x.unsignalled + 1 }
  let s1 := setCq (emit s (.hostWrite (x.base.toNat + 64 * x.tail) e false)) q y
  if x.irqEn = true ∧ max 1 x.irqCount ≤ x.unsignalled + 1 then cqSignal s1 q else s1

section
variable {s : Blk} {q : Nat}

theorem completionPostFn_empty (h : (cqOf s q).wait = []) : completionPostFn q s = s := by simp only [completionPostFn, h]

variable {c : Cpl} {rest : List Cpl} (h : (cqOf s q).wait = c :: rest)
include h

theorem completionPostFn_waits (hw : (cqOf s q).enable = false ∨ s.ring.pcieUp = false ∨ c.flushing = true ∨ cqRoom (cqOf s q) = false) :
    completionPostFn q s = s := by
  simp only [completionPostFn, h]; exact if_pos hw

theorem completionPostFn_posts (he : (cqOf s q).enable = true) (hp : s.ring.pcieUp = true) (hf : c.flushing = false)
    (hr : cqRoom (cqOf s q) = true) :
    completionPostFn q s = sqDrained (match c.slot with
      | some k => releaseRing (completionPosted s q c rest) k
      | none => completionPosted s q c rest) c.sq := by
  simp only [completionPostFn, h]
  exact if_neg (by simp [he, hp, hf, hr])

end

section
variable {s : Blk} {c : Nat}

theorem endOfCountFn_idle (h : (chanOf s c).transfersOf = []) : endOfCountFn c s = s := by simp only [endOfCountFn, h]

variable {t : Xfer} {l : List Xfer} (h : (chanOf s c).transfersOf = t :: l)
include h

theorem endOfCountFn_runs (he : ¬ (t.count = 0 ∧ (t.flush = false ∨ t.flushed = true))) : endOfCountFn c s = s := by
  simp only [endOfCountFn, h]; exact if_neg he

theorem endOfCountFn_ends (he : t.count = 0 ∧ (t.flush = false ∨ t.flushed = true)) :
    endOfCountFn c s =
      (let s1 := setChan s c { (chanOf s c).refill l with transfers := (chanOf s c).transfers + 1 }
       if (chanOf s c).eocIrq then vector s1 c else s1) := by
  simp only [endOfCountFn, h]; exact if_pos he

end

/-- Settles O45: each row by what waits for it: the head of a local queue, a read, a completion, the active transfer. -/
theorem ringCommandsCompleteInOrder : Obligations.RingCommandsCompleteInOrder := by
  refine ⟨fun s => ⟨fun h => gives_of rfl (if_pos h), fun ha hd => gives_of rfl (if_neg (by simp [ha, hd]))⟩, fun s q => ?abort,
    fun s slot c q t hs hc hq ht => ?read, fun s slot r hs h => gives_of rfl (dmaReadFn_unawaited hs h),
    fun s n ok r => ⟨gives_of rfl dmaReadFn_mailbox, fun hf => ?_, fun hf => ?_⟩,
    fun s slot ok hs h => gives_of rfl (flushingReadFn_unawaited hs h), ?flushed, fun s q => ?post, fun s c => ?chan⟩
  case abort =>
    intro x
    refine ⟨fun h => gives_of rfl (ringAbortFn_empty h), fun e rest h hs => gives_of rfl (ringAbortFn_stays h hs), fun e rest h hd ho => ?_⟩
    have taken := ringAbortFn_taken h hd ho
    refine ⟨fun hc => ?_, fun hc hf => ?_, fun hc hf hm => ?_, fun c hc hf hm => ?_⟩
    · exact gives_of rfl (taken.trans (if_pos hc))
    · exact gives_of rfl (taken.trans ((if_neg (not_not.2 hc)).trans (if_pos hf)))
    · refine gives_of rfl (taken.trans ((if_neg (not_not.2 hc)).trans ((if_neg (ne_false_of_eq_true hf)).trans ?_)))
      rw [show abortTarget s.toBlk q.val e = none from hm]; rfl
    · refine gives_of rfl (taken.trans ((if_neg (not_not.2 hc)).trans ((if_neg (ne_false_of_eq_true hf)).trans ?_)))
      rw [show abortTarget s.toBlk q.val e = some c from hm]; rfl
  case read =>
    intro ended failed
    refine ⟨fun b hl hp => ?_, fun b hb => ?_, ?_, ?_, ?_, ?_⟩
    · exact gives_of rfl ((dmaReadFn_data hs hc hq ht b).trans (if_neg (by simp [hl, hp])))
    · exact gives_of rfl ((dmaReadFn_data hs hc hq ht b).trans (if_pos hb))
    all_goals exact gives_of rfl (dmaReadFn_failed hs hc hq ht nofun)
  case flushed =>
    intro s slot ok x mine hs h
    exact gives_of rfl (flushingReadFn_awaited hs h)
  case post =>
    intro x
    refine ⟨fun h => gives_of rfl (completionPostFn_empty h), fun c rest h hw => gives_of rfl (completionPostFn_waits h hw),
      fun c rest h he hp hf hr => ?_, fun hi hu => ?_, fun h => ?_⟩
    · have posts := completionPostFn_posts h he hp hf hr
      refine ⟨fun hs => ?_, fun k hs => ?_⟩
      · exact gives_of rfl (posts.trans (by rw [hs]; rfl))
      · exact gives_of rfl (posts.trans (by rw [hs]; rfl))
    · exact gives_of rfl (if_pos ⟨hi, hu⟩)
    · exact gives_of rfl (if_neg fun ⟨hi, hu⟩ => h.elim (ne_false_of_eq_true hi) (Nat.ne_of_gt hu))
  case chan =>
    intro x
    refine ⟨gives_of rfl rfl, fun h => gives_of rfl (endOfCountFn_idle h), fun t l h => ⟨fun he => ?_, fun he hi => ?_, fun he hi => ?_⟩⟩
    · exact gives_of rfl (endOfCountFn_runs h he)
    · exact gives_of rfl ((endOfCountFn_ends h he).trans (if_pos hi))
    · exact gives_of rfl ((endOfCountFn_ends h he).trans (if_neg (ne_true_of_eq_false hi)))
  · exact gives_of rfl (flushingReadFn_mailbox.trans ((if_pos hf).trans (by cases ok <;> rfl)))
  · exact gives_of rfl (flushingReadFn_mailbox.trans (if_neg (ne_true_of_eq_false hf)))

end Sys2Proof.Machine
end

section
/-! PROOFS. The statements of the family of power and starts: power states, sleep attempts, wakes and power-fail dumps; POR_N, the boot
ladder and activation. -/

namespace Sys2Proof.Machine

/-! ### Sleep attempts (R344-R350) -/

section
variable {s : Blk} {job t i : Nat} (h : s.pwr.prepare = some (job, t, i))
include h

/-- The domain that an attempt asks, where it is not quiesced: only media engines asked for FREEWHEEL have work to bring to flash. -/
theorem quiescedFn_busy (hq : isQuiesced s t job ((askedFor t).getD i 78) = false) :
    quiescedFn s = if t = 3 ∧ 34 ≤ (askedFor t).getD i 78 ∧ (askedFor t).getD i 78 < 50 then settleMedia s else s := by
  rw [quiescedFn, h]
  exact if_pos hq

/-- A quiesced domain stops on the way to FREEWHEEL, and the next is asked or the attempt ends. -/
theorem quiescedFn_quiet (hq : isQuiesced s t job ((askedFor t).getD i 78) = true) :
    quiescedFn s =
      let s1 := if t = 2 then s else sleepDomain s ((askedFor t).getD i 78)
      if i + 1 < (askedFor t).length then
        { s1 with pwr := { s1.pwr with prepare := some (job, t, i + 1), bgStopped := s1.pwr.bgStopped || decide (34 ≤ (askedFor t).getD (i + 1) 0) } }
      else if t = 2 then restEnter s1 job else sleepCommit s1 job := by
  rw [quiescedFn, h]
  exact if_neg (ne_false_of_eq_true hq)

theorem sleepTimeoutFn_eq (m : Bool) :
    sleepTimeoutFn m s = refuseSleep s job ((askedFor t).getD i 78) (refusalReason s t job ((askedFor t).getD i 78) m) := by
  rw [sleepTimeoutFn, h]
  rfl

end

section
variable {s : Blk} (h : s.pwr.prepare = none)
include h

theorem quiescedFn_idle : quiescedFn s = s := by rw [quiescedFn, h]

theorem sleepTimeoutFn_idle (m : Bool) : sleepTimeoutFn m s = s := by rw [sleepTimeoutFn, h]

end

/-! ### Wakes (R352-R355) -/

/-- What a wake restores of the power state, before the tandem link trains and the device is in RUN. -/
theorem wakeFn_run {s : Blk} (bad : List Nat) (absent : BitVec 16) (h : s.pwr.waking = true) :
    (wakeFn bad absent s).dev = .run ∧ (wakeFn bad absent s).pwr.pstate = .run ∧ (wakeFn bad absent s).pwr.waking = false ∧
      (wakeFn bad absent s).pwr.padHold = false ∧ (wakeFn bad absent s).pwr.wakeSpokes = [] ∧ (wakeFn bad absent s).pwr.seals = [] := by
  rw [wakeFn, if_neg (ne_false_of_eq_true h)]
  refine ⟨by simp only [alert_dev, raise_dev, setDev_dev], ?_⟩
  simp only [alert_pwr, raise_pwr, setDev_pwr]
  split
  · simp only [trainLink_pwr]
    exact ⟨rfl, rfl, rfl, rfl, rfl⟩
  · exact ⟨rfl, rfl, rfl, rfl, rfl⟩

/-! ### Power failure (R356-R359) -/

section
variable {s : Blk}

theorem pfailFall_undumped (h : dumpsOnFail s = false) : pfailFall s = { s with pin := { s.pin with pfailN := false } } :=
  if_neg (ne_true_of_eq_false h)

theorem pfailFall_dumps (h : dumpsOnFail s = true) :
    pfailFall s = startDump (stopForPower (raise { s with pin := { s.pin with pfailN := false } } 0xE005 5 1 [])) true := if_pos h

theorem dumpComplete_none (h : s.pwr.dump = none) : dumpComplete s = s := by rw [dumpComplete, h]

theorem dumpComplete_done (h : s.pwr.dumpDone = true) : dumpComplete s = s := by
  unfold dumpComplete
  split
  · rfl
  · exact if_pos h

/-- The image that the end of a dump leaves: good unless the pannier has failed. -/
def imaged (s : Blk) : Blk := { s with pwr := { s.pwr with dumpDone := true, image := some (!s.safe.ksAll.getLsbD 7) } }

theorem dumpComplete_imaged {power : Bool} (h : s.pwr.dump = some power) (hd : s.pwr.dumpDone = false) :
    dumpComplete s =
      if power = false then imaged s
      else if s.pwr.pfailRose ∧ s.dev ≠ .kickstand then { restart (imaged s) with safe := { dbg := s.safe.dbg } }
      else holdPads (imaged s) := by
  rw [dumpComplete, h]
  exact if_neg (ne_true_of_eq_false hd)

theorem dumpComplete_other (h : s.pwr.dump = some false) (hd : s.pwr.dumpDone = false) : dumpComplete s = imaged s :=
  (dumpComplete_imaged h hd).trans (if_pos rfl)

theorem dumpComplete_held (h : s.pwr.dump = some true) (hd : s.pwr.dumpDone = false) (hr : s.pwr.pfailRose = false ∨ s.dev = .kickstand) :
    dumpComplete s = holdPads (imaged s) :=
  (dumpComplete_imaged h hd).trans ((if_neg (by decide)).trans
    (if_neg fun ⟨rose, awake⟩ => hr.elim (ne_false_of_eq_true rose) awake))

theorem dumpComplete_restart (h : s.pwr.dump = some true) (hd : s.pwr.dumpDone = false) (hr : s.pwr.pfailRose = true)
    (hk : s.dev ≠ .kickstand) : dumpComplete s = { restart (imaged s) with safe := { dbg := s.safe.dbg } } :=
  (dumpComplete_imaged h hd).trans ((if_neg (by decide)).trans (if_pos ⟨hr, hk⟩))

end

/-- Settles O46: the attempt is taken apart by what it holds and by whether the domain it asks is quiesced; a wake's last steps
change nothing of the power state, and a dump's end is decided by what the dump is for. -/
theorem powerStatesAndDumps : Obligations.PowerStatesAndDumps := by
  unfold Obligations.PowerStatesAndDumps
  refine ⟨fun s => ⟨?_, ?_, ?_, ?_, ?_, ?_, ?_, ?_⟩, fun s => ⟨?_, ?_, ?_, ?_, ?_, ?_⟩⟩
  · exact fun h => gives_of rfl (if_pos h)
  · exact fun h => gives_of rfl (if_neg h)
  · exact fun h => ⟨gives_of rfl (quiescedFn_idle h), fun m => gives_of rfl (sleepTimeoutFn_idle h m)⟩
  · intro job t i h d
    refine ⟨fun hq hn => ?_, fun hq ht h1 h2 => ?_, ?_, ?_⟩
    · exact gives_of rfl ((quiescedFn_busy h hq).trans (if_neg hn))
    · exact gives_of rfl ((quiescedFn_busy h hq).trans (if_pos ⟨ht, h1, h2⟩))
    · intro hq s1
      have ends : (askedFor t).length ≤ i + 1 → quiescedFn s.toBlk = if t = 2 then restEnter s1 job else sleepCommit s1 job :=
        fun hl => (quiescedFn_quiet h hq).trans (if_neg (Nat.not_lt.mpr hl))
      refine ⟨fun hl => gives_of rfl ((quiescedFn_quiet h hq).trans (if_pos hl)), fun hl ht => ?_, fun hl ht => ?_⟩
      · have unstopped : s1 = s.toBlk := if_pos ht
        exact gives_of rfl ((ends hl).trans ((if_pos ht).trans (by rw [unstopped])))
      · exact gives_of rfl ((ends hl).trans (if_neg ht))
    · intro m reason
      exact gives_of rfl (sleepTimeoutFn_eq h m)
  · exact fun h => gives_of rfl (by rw [backoffFn, h])
  · exact fun job rest h => gives_of rfl (by rw [backoffFn, h])
  · exact fun bad absent h => gives_of rfl (if_pos h)
  · exact fun bad absent h => reaches_of rfl (wakeFn_run bad absent h)
  · exact fun h => gives_of rfl (pfailFall_undumped h)
  · exact fun h => gives_of rfl (pfailFall_dumps h)
  · exact fun h => gives_of rfl (if_pos h)
  · exact fun h => gives_of rfl (if_neg h)
  · exact fun h => gives_of rfl (h.elim dumpComplete_none dumpComplete_done)
  · intro hd done
    refine ⟨fun h => ?_, fun h hr => ?_, ?_⟩
    · exact gives_of rfl (dumpComplete_other h hd)
    · exact gives_of rfl (dumpComplete_held h hd hr)
    · intro h hr hk r
      exact gives_of rfl (dumpComplete_restart h hd hr hk)

/-! ### POR_N (R388, R407, R421, R422) -/

/-- A fall of POR_N while it is low already changes nothing; the memory stands too. -/
theorem execPorNFall_low {s : State} (h : s.pin.porN = false) : exec .porNFall s = .next s := by
  have block : porFall s.toBlk = s.toBlk := if_neg (ne_true_of_eq_false h)
  have memory : (if s.pin.porN then [] else s.mem) = s.mem := if_neg (ne_true_of_eq_false h)
  exact congrArg Host.Outcome.next (by rw [block, memory])

theorem execPorNFall_high {s : State} (h : s.pin.porN = true) :
    exec .porNFall s = .next { s with
      toBlk := { coldBlk s.toBlk with pin := { (coldBlk s.toBlk).pin with porN := false } }, mem := [] } := by
  have block : porFall s.toBlk = { coldBlk s.toBlk with pin := { (coldBlk s.toBlk).pin with porN := false } } := if_pos h
  have memory : (if s.pin.porN then [] else s.mem) = [] := if_pos h
  exact congrArg Host.Outcome.next (by rw [block, memory])

section
variable (s : Blk)

@[simp] theorem staleMirrors_pin : (staleMirrors s).pin = s.pin := by unfold staleMirrors; split <;> rfl
@[simp] theorem staleMirrors_tdm : (staleMirrors s).tdm = s.tdm := by unfold staleMirrors; split <;> rfl
@[simp] theorem staleMirrors_safe : (staleMirrors s).safe = s.safe := by unfold staleMirrors; split <;> rfl
@[simp] theorem pairWseq_pin : (pairWseq s).pin = s.pin := by unfold pairWseq; split <;> rfl
@[simp] theorem pairWseq_tdm : (pairWseq s).tdm = s.tdm := by unfold pairWseq; split <;> rfl
@[simp] theorem pairWseq_safe : (pairWseq s).safe = s.safe := by unfold pairWseq; split <;> rfl

/-- The straps as a rise of POR_N samples them. -/
def strapped (paired side : Bool) (smb : BitVec 2) (dbg : Bool) : Blk :=
  { s with
    pin := { s.pin with porN := true, smbAddr := smb, scan := [], bypass := true }
    tdm := { s.tdm with paired := paired, side := if paired then boolNat side else 0 }
    safe := { s.safe with dbg := dbg } }

theorem sampledSide (paired side : Bool) : (if paired then boolNat side else 0) = if paired && side then 1 else 0 := by
  cases paired <;> cases side <;> rfl

variable {s}

theorem porRise_begins {paired side : Bool} {smb : BitVec 2} {dbg : Bool} (h : s.pin.porN = false) :
    porRise paired side smb dbg s = beginLadder (pairWseq (staleMirrors (strapped s paired side smb dbg))) :=
  if_neg (ne_true_of_eq_false h)

end

/-! ### The boot ladder (R367) -/

section
variable {s : Blk}

theorem bootStep_off (mask : BitVec 128) (h : s.pin.porN = false ∨ s.dev ≠ .booting) : bootStep mask s = s := if_pos h

theorem bootTimeout_off (h : s.pin.porN = false ∨ s.dev ≠ .booting) : bootTimeout s = s := if_pos h

variable (hp : s.pin.porN = true) (hd : s.dev = .booting)
include hp hd

theorem ladderRuns : ¬ (s.pin.porN = false ∨ s.dev ≠ .booting) := fun h => h.elim (ne_false_of_eq_true hp) (absurd hd)

theorem bootStep_last (mask : BitVec 128) (h : 13 ≤ s.boot.step) : bootStep mask s = reachRun s := by
  obtain ⟨k, hk⟩ := Nat.exists_eq_add_of_le' h
  rw [bootStep, if_neg (ladderRuns hp hd), hk]
  rfl

theorem bootTimeout_fails (h1 : s.boot.step ≠ 1) (h10 : s.boot.step ≠ 10) : bootTimeout s = bootFail s := by
  rw [bootTimeout, if_neg (ladderRuns hp hd)]
  split
  · exact absurd ‹_› h1
  · exact absurd ‹_› h10
  · rfl

end

/-! ### Activation (R375) -/

section
variable {s : Blk} {n : Nat} {src : Source} (h : s.boot.activation = some (n, src))
include h

theorem activationStep_fails : activationStep false s = if n = 3 ∨ n = 4 then warmStart s src else abandonActivation s src := by
  rw [activationStep, h]
  exact if_pos rfl

theorem activationStep_last (hn : 5 ≤ n) :
    activationStep true s = dispatchHeld (answerLater (setDev
      (confirmImage (bgResume { s with boot := { s.boot with activation := none, staged := false } })) .run) src 0 0 []) := by
  obtain ⟨k, rfl⟩ := Nat.exists_eq_add_of_le' hn
  rw [activationStep, h]
  rfl

theorem activationStep_drains (hn : n = 2) :
    activationStep true s =
      if commandsDrained s ∧ s.med.moving.isEmpty then { s with boot := { s.boot with activation := some (n + 1, src) } } else s := by
  subst hn
  rw [activationStep, h]
  rfl

theorem drainExpired_eq : drainExpired s = if n ≤ 2 then abandonActivation s src else s := by rw [drainExpired, h]

end

section
variable {s : Blk} (h : s.boot.activation = none)
include h

theorem activationStep_none (ok : Bool) : activationStep ok s = s := by rw [activationStep, h]

theorem drainExpired_none : drainExpired s = s := by rw [drainExpired, h]

end

/-- Settles O47: a start keeps the straps it samples; a step of the ladder or of the activation is taken by its number, and the last
arm of each holds for every number past the ones named. -/
theorem bootLadderAndActivation : Obligations.BootLadderAndActivation := by
  unfold Obligations.BootLadderAndActivation
  refine ⟨fun s => ⟨?_, ?_, ?_, ?_⟩, fun s mask hp hd => ?_, fun s mask h => ?_, ?_, fun s ok h => ?_⟩
  · exact execPorNFall_low
  · exact execPorNFall_high
  · exact fun paired side smb dbg h => gives_of rfl (if_pos h)
  · intro paired side smb dbg h
    refine reaches_of rfl ?_
    simp only [porRise_begins h, beginLadder, pairWseq_pin, pairWseq_tdm, pairWseq_safe, staleMirrors_pin, staleMirrors_tdm,
      staleMirrors_safe, strapped, sampledSide, true_and]
    rfl
  · intro b go c
    have running := ladderRuns hp hd
    refine ⟨fun h => ?_, fun h => ?_, fun h => ?_, fun h => ?_, fun h => ?_, fun h => ?_, fun h => ?_, fun h => ?_, fun h => ?_,
      fun h => ?_, fun h => ?_, fun h => ?_, fun h => gives_of rfl (bootStep_last hp hd mask h), fun h => ?_, fun h => ?_,
      fun h1 h10 => gives_of rfl (bootTimeout_fails hp hd h1 h10)⟩
    -- steps 1 to 12, then the two steps whose failure has an effect of its own: each is an arm of the ladder's match
    iterate 12 · exact gives_of rfl (by rw [bootStep, if_neg running, h]; rfl)
    iterate 2 · exact gives_of rfl (by rw [bootTimeout, if_neg running, h]; rfl)
  · exact ⟨gives_of rfl (bootStep_off mask h), gives_of rfl (bootTimeout_off h)⟩
  · intro s n src h b next p ok
    refine ⟨?_, ?_, ?_, ?_, ?_, ?_, ?_, ?_, ?_, ?_⟩
    · rintro rfl
      exact gives_of rfl (by rw [activationStep, h]; rfl)
    · exact fun hn hc hm => gives_of rfl ((activationStep_drains h hn).trans (if_pos ⟨hc, hm⟩))
    · exact fun hn hc => gives_of rfl ((activationStep_drains h hn).trans (if_neg fun ⟨drained, still⟩ =>
        hc.elim (ne_false_of_eq_true drained) (ne_false_of_eq_true still)))
    · rintro rfl
      exact gives_of rfl (by rw [activationStep, h]; rfl)
    · rintro rfl
      exact gives_of rfl (by rw [activationStep, h]; rfl)
    · exact fun hn => gives_of rfl (activationStep_last h hn)
    · exact fun hn => gives_of rfl ((activationStep_fails h).trans (if_pos hn))
    · exact fun h3 h4 => gives_of rfl ((activationStep_fails h).trans (if_neg (not_or.mpr ⟨h3, h4⟩)))
    · exact fun hn => gives_of rfl ((drainExpired_eq h).trans (if_pos hn))
    · exact fun hn => gives_of rfl ((drainExpired_eq h).trans (if_neg (Nat.not_le.mpr hn)))
  · exact ⟨gives_of rfl (activationStep_none h ok), gives_of rfl (drainExpired_none h)⟩

end Sys2Proof.Machine
end
